-- ==== Sys2Proof/Word.lean ====
section
/-!
DEFINITION. The words of FFXE: 32-bit words (R12), bytes (R11), 128-bit blocks of the external cipher (R7).
-/

namespace Sys2Proof

/-- A 32-bit word of the host port, a numeral, or a scalar (R12, R32). -/
abbrev Word := BitVec 32

/-- A byte of a byte string (R11, R34). -/
abbrev Byte := BitVec 8

/-- One operand of the external 128-bit block cipher (R7, R9). -/
abbrev Block := BitVec 128

/-- A 20-bit byte address of the host register space (R80, R81). -/
abbrev Addr := BitVec 20

end Sys2Proof
end

