-- ==== Sys2Proof/Syntax.lean ====
section
/-!
DEFINITION. The commands of FFXE, one constructor per row of R115, and the fields of the one command format C (R110).
-/

namespace Sys2Proof

/-- A register number 0..3 (R8, R111). The FILE it indexes is fixed by the command and the field (R115). -/
inductive Reg where
  | r0
  | r1
  | r2
  | r3
deriving DecidableEq, Repr

/-- The 44 commands (R115). Register fields in the order `rd`, `ra`, `rb`; an unused field has no argument. -/
inductive Instr where
  | nop
  | clr
  | wipe
  | num (rd ra : Reg)
  | numr (rd ra : Reg)
  | str (rd ra : Reg)
  | bytestr (rd ra : Reg)
  | bytestri (rd : Reg)
  | bitstr (rd : Reg)
  | catb (rd ra rb : Reg)
  | catn (rd ra rb : Reg)
  | xorb (rd ra rb : Reg)
  | rev (rd ra : Reg)
  | revb (rd ra : Reg)
  | mod (rd ra rb : Reg)
  | powr (rd : Reg)
  | bnadd (rd ra rb : Reg)
  | bnsub (rd ra rb : Reg)
  | ciph (rd ra rb : Reg)
  | prf (rd ra rb : Reg)
  | prf2 (rd ra rb : Reg)
  | off1 (rd ra rb : Reg)
  | off2 (rd ra rb : Reg)
  | addblk (rd ra rb : Reg)
  | subblk (rd ra rb : Reg)
  | addrev (rd ra rb : Reg)
  | subrev (rd ra rb : Reg)
  | addchr (rd ra rb : Reg)
  | subchr (rd ra rb : Reg)
  | split
  | rnds
  | frnd (rd ra : Reg)
  | f1rnd (rd ra : Reg)
  | f2rnd (rd ra : Reg)
  | f3rnd (rd ra : Reg)
  | ldff1
  | ldff2
  | ldff3
  | enc (rd ra : Reg)
  | dec (rd ra : Reg)
  | ff1enc (rd ra : Reg)
  | ff1dec (rd ra : Reg)
  | ff2enc (rd ra : Reg)
  | ff2dec (rd ra : Reg)
deriving DecidableEq, Repr

/-- The fields of a command word, format C (R110). -/
structure Fields where
  opcode : BitVec 8
  rd     : BitVec 2
  ra     : BitVec 2
  rb     : BitVec 2
  zero   : BitVec 18
deriving DecidableEq, Repr

/-- Which register fields a command uses: the four masks of R114. -/
inductive Shape where
  | none
  | rd
  | rdra
  | rdrarb
deriving DecidableEq, Repr

end Sys2Proof
end

