-- ==== Sys2Proof/WellFormed.lean ====
section
/-!
DEFINITION. Well-formed command words: the three checks of R113 as one Bool on the fields of format C.

A term of `Instr` carries register names, not numbers, so it cannot be ill-formed; what can be ill-formed is a
command word. `Sys2Proof.Laws.EncodingWellFormed` shows that every `Instr` encodes to a well-formed one.
-/

namespace Sys2Proof

/-- The columns `rd`, `ra`, `rb` of R115 for an opcode; `none` for an opcode that R116 makes illegal. -/
def shapeOf (opcode : BitVec 8) : Option Shape :=
  match opcode.toNat with
  | 0x00 | 0x01 | 0x02 => some .none
  | 0x10 | 0x11 | 0x12 | 0x13 => some .rdra
  | 0x14 | 0x15 => some .rd
  | 0x16 | 0x17 | 0x18 => some .rdrarb
  | 0x19 | 0x1A => some .rdra
  | 0x1B => some .rdrarb
  | 0x1C => some .rd
  | 0x1D | 0x1E => some .rdrarb
  | 0x30 | 0x31 | 0x32 | 0x33 | 0x34 => some .rdrarb
  | 0x40 | 0x41 | 0x42 | 0x43 | 0x44 | 0x45 => some .rdrarb
  | 0x48 | 0x49 => some .none
  | 0x50 | 0x51 | 0x52 | 0x53 => some .rdra
  | 0x60 | 0x61 | 0x62 => some .none
  | 0x70 | 0x71 | 0x72 | 0x73 | 0x74 | 0x75 => some .rdra
  | _ => none

/-- The check of R113 (1): the `zero` field is 0. -/
def Fields.zeroOk (f : Fields) : Bool := f.zero == 0

/-- The check of R113 (2): the opcode is one of R115. -/
def Fields.opcodeOk (f : Fields) : Bool := (shapeOf f.opcode).isSome

/-- The check of R113 (3): a register field the opcode does not use is 0 (R111). -/
def Fields.unusedOk (f : Fields) : Bool :=
  match shapeOf f.opcode with
  | some .none => f.rd == 0 && f.ra == 0 && f.rb == 0
  | some .rd => f.ra == 0 && f.rb == 0
  | some .rdra => f.rb == 0
  | some .rdrarb => true
  | none => true

/-- A command word's fields select exactly one command (R113, R114). -/
def Fields.wellFormed (f : Fields) : Bool := f.zeroOk && f.opcodeOk && f.unusedOk

end Sys2Proof
end

