-- ==== Sys2Proof/Decode.lean ====
section
/-!
DEFINITION. The decoder of command words (R113 to R117), total, rejecting by name; and the encoder, written from
the same table (R115).
-/

namespace Sys2Proof

/-- The two ways a word selects no command (R113, R116). -/
inductive DecodeError where
  /-- A nonzero `zero` field or unused register field: `RESERVED_BITS`. -/
  | reservedBits
  /-- An opcode byte that is not in R115: `ILLEGAL_OPCODE(w[7:0])`. -/
  | illegalOpcode (opcode : BitVec 8)
deriving DecidableEq, Repr

/-- The fields of a 32-bit command word (R110). -/
def fieldsOfWord (w : Word) : Fields where
  opcode := w.extractLsb' 0 8
  rd     := w.extractLsb' 8 2
  ra     := w.extractLsb' 10 2
  rb     := w.extractLsb' 12 2
  zero   := w.extractLsb' 14 18

/-- The register a 2-bit field names (R110, R111). -/
def regOfBits (b : BitVec 2) : Reg :=
  match b.toNat with
  | 0 => .r0
  | 1 => .r1
  | 2 => .r2
  | _ => .r3

/-- The opcode map R115: the command an opcode selects, given its three register fields. -/
def commandOf (opcode : BitVec 8) (rd ra rb : Reg) : Option Instr :=
  match opcode.toNat with
  | 0x00 => some .nop
  | 0x01 => some .clr
  | 0x02 => some .wipe
  | 0x10 => some (.num rd ra)
  | 0x11 => some (.numr rd ra)
  | 0x12 => some (.str rd ra)
  | 0x13 => some (.bytestr rd ra)
  | 0x14 => some (.bytestri rd)
  | 0x15 => some (.bitstr rd)
  | 0x16 => some (.catb rd ra rb)
  | 0x17 => some (.catn rd ra rb)
  | 0x18 => some (.xorb rd ra rb)
  | 0x19 => some (.rev rd ra)
  | 0x1A => some (.revb rd ra)
  | 0x1B => some (.mod rd ra rb)
  | 0x1C => some (.powr rd)
  | 0x1D => some (.bnadd rd ra rb)
  | 0x1E => some (.bnsub rd ra rb)
  | 0x30 => some (.ciph rd ra rb)
  | 0x31 => some (.prf rd ra rb)
  | 0x32 => some (.prf2 rd ra rb)
  | 0x33 => some (.off1 rd ra rb)
  | 0x34 => some (.off2 rd ra rb)
  | 0x40 => some (.addblk rd ra rb)
  | 0x41 => some (.subblk rd ra rb)
  | 0x42 => some (.addrev rd ra rb)
  | 0x43 => some (.subrev rd ra rb)
  | 0x44 => some (.addchr rd ra rb)
  | 0x45 => some (.subchr rd ra rb)
  | 0x48 => some .split
  | 0x49 => some .rnds
  | 0x50 => some (.frnd rd ra)
  | 0x51 => some (.f1rnd rd ra)
  | 0x52 => some (.f2rnd rd ra)
  | 0x53 => some (.f3rnd rd ra)
  | 0x60 => some .ldff1
  | 0x61 => some .ldff2
  | 0x62 => some .ldff3
  | 0x70 => some (.enc rd ra)
  | 0x71 => some (.dec rd ra)
  | 0x72 => some (.ff1enc rd ra)
  | 0x73 => some (.ff1dec rd ra)
  | 0x74 => some (.ff2enc rd ra)
  | 0x75 => some (.ff2dec rd ra)
  | _ => none

/-- Decoding (R113), its checks in the order R113 gives. -/
def decode (w : Word) : Except DecodeError Instr :=
  let f := fieldsOfWord w
  if f.zeroOk = false then .error .reservedBits
  else match commandOf f.opcode (regOfBits f.rd) (regOfBits f.ra) (regOfBits f.rb) with
    | none => .error (.illegalOpcode f.opcode)
    | some i => if f.unusedOk then .ok i else .error .reservedBits

/-- The 2-bit field of a register (R110). -/
def bitsOfReg : Reg → BitVec 2
  | .r0 => 0
  | .r1 => 1
  | .r2 => 2
  | .r3 => 3

/-- A command that uses no register field (R114). -/
def fieldsNone (opcode : BitVec 8) : Fields := ⟨opcode, 0, 0, 0, 0⟩

/-- A command that uses `rd` only (R114). -/
def fieldsRd (opcode : BitVec 8) (rd : Reg) : Fields := ⟨opcode, bitsOfReg rd, 0, 0, 0⟩

/-- A command that uses `rd` and `ra` (R114). -/
def fieldsRdRa (opcode : BitVec 8) (rd ra : Reg) : Fields := ⟨opcode, bitsOfReg rd, bitsOfReg ra, 0, 0⟩

/-- A command that uses `rd`, `ra` and `rb` (R114). -/
def fieldsRdRaRb (opcode : BitVec 8) (rd ra rb : Reg) : Fields :=
  ⟨opcode, bitsOfReg rd, bitsOfReg ra, bitsOfReg rb, 0⟩

/-- The fields of a command (R115). -/
def fieldsOf : Instr → Fields
  | .nop => fieldsNone 0x00
  | .clr => fieldsNone 0x01
  | .wipe => fieldsNone 0x02
  | .num rd ra => fieldsRdRa 0x10 rd ra
  | .numr rd ra => fieldsRdRa 0x11 rd ra
  | .str rd ra => fieldsRdRa 0x12 rd ra
  | .bytestr rd ra => fieldsRdRa 0x13 rd ra
  | .bytestri rd => fieldsRd 0x14 rd
  | .bitstr rd => fieldsRd 0x15 rd
  | .catb rd ra rb => fieldsRdRaRb 0x16 rd ra rb
  | .catn rd ra rb => fieldsRdRaRb 0x17 rd ra rb
  | .xorb rd ra rb => fieldsRdRaRb 0x18 rd ra rb
  | .rev rd ra => fieldsRdRa 0x19 rd ra
  | .revb rd ra => fieldsRdRa 0x1A rd ra
  | .mod rd ra rb => fieldsRdRaRb 0x1B rd ra rb
  | .powr rd => fieldsRd 0x1C rd
  | .bnadd rd ra rb => fieldsRdRaRb 0x1D rd ra rb
  | .bnsub rd ra rb => fieldsRdRaRb 0x1E rd ra rb
  | .ciph rd ra rb => fieldsRdRaRb 0x30 rd ra rb
  | .prf rd ra rb => fieldsRdRaRb 0x31 rd ra rb
  | .prf2 rd ra rb => fieldsRdRaRb 0x32 rd ra rb
  | .off1 rd ra rb => fieldsRdRaRb 0x33 rd ra rb
  | .off2 rd ra rb => fieldsRdRaRb 0x34 rd ra rb
  | .addblk rd ra rb => fieldsRdRaRb 0x40 rd ra rb
  | .subblk rd ra rb => fieldsRdRaRb 0x41 rd ra rb
  | .addrev rd ra rb => fieldsRdRaRb 0x42 rd ra rb
  | .subrev rd ra rb => fieldsRdRaRb 0x43 rd ra rb
  | .addchr rd ra rb => fieldsRdRaRb 0x44 rd ra rb
  | .subchr rd ra rb => fieldsRdRaRb 0x45 rd ra rb
  | .split => fieldsNone 0x48
  | .rnds => fieldsNone 0x49
  | .frnd rd ra => fieldsRdRa 0x50 rd ra
  | .f1rnd rd ra => fieldsRdRa 0x51 rd ra
  | .f2rnd rd ra => fieldsRdRa 0x52 rd ra
  | .f3rnd rd ra => fieldsRdRa 0x53 rd ra
  | .ldff1 => fieldsNone 0x60
  | .ldff2 => fieldsNone 0x61
  | .ldff3 => fieldsNone 0x62
  | .enc rd ra => fieldsRdRa 0x70 rd ra
  | .dec rd ra => fieldsRdRa 0x71 rd ra
  | .ff1enc rd ra => fieldsRdRa 0x72 rd ra
  | .ff1dec rd ra => fieldsRdRa 0x73 rd ra
  | .ff2enc rd ra => fieldsRdRa 0x74 rd ra
  | .ff2dec rd ra => fieldsRdRa 0x75 rd ra

/-- The word with the given fields (R110): `zero`, `rb`, `ra`, `rd`, `opcode` from the top bit down. -/
def wordOfFields (f : Fields) : Word := f.zero ++ f.rb ++ f.ra ++ f.rd ++ f.opcode

/-- The encoder: the one command word of a command (R110, R114). -/
def encode (i : Instr) : Word := wordOfFields (fieldsOf i)

/-- The instruction the decoder reads from the low `nbits` bits of `w`; every higher bit of the word is 0. -/
def decodeTableWord (nbits w : Nat) : Option Instr := (decode (BitVec.ofNat 32 (w % 2 ^ nbits))).toOption

end Sys2Proof
end

