-- ==== Sys2Proof/Config.lean ====
section
/-!
DEFINITION. What the spec lets an implementation fix (R9) and what it leaves open (93, part 1).

`Config` holds the four parameters of R9 as plain data: E, BNBITS, DIAG, AESFAIL; a machine's configuration never changes.
`Provider` is the pair of parameters the pure functions take for the AES provider: E and AESFAIL (R96, R98).
The opaque constants are FREE VALUES: nothing can be proved about what they are.
-/

namespace Sys2Proof

/-- The two modes of an AES-port request (R95). -/
inductive AesMode where
  | ecb
  | cbc0
deriving DecidableEq, Repr

/-- A request on the AES port: mode, key, data (R95). -/
structure AesRequest where
  mode : AesMode
  key  : List Byte
  data : List Byte
deriving DecidableEq, Repr

/-- The parameter `E` of R9: key (16, 24 or 32 bytes) and 16-byte block to 16-byte block. -/
abbrev BlockCipher := List Byte → Block → Block

/-- The AES provider as the pure functions see it: the cipher `E` (R96) and the predicate `AESFAIL` (R98). -/
structure Provider where
  E     : BlockCipher
  fails : AesRequest → Bool

/-- One value of a block cipher: the block it makes of `block` under `key`. -/
structure CipherEntry where
  key    : List Byte
  block  : Block
  result : Block
deriving DecidableEq, Repr

/-- A block cipher by name: the default of R9, or number `k` of those about which nothing is known. -/
inductive NamedCipher where
  | aes
  | other (k : Nat)
deriving DecidableEq, Repr

/-- The parameter `E` of R9 as plain data: a named cipher, but for the listed values. Every function `E` is agreed with on
any finite set of blocks by some choice (log 8). -/
structure CipherChoice where
  rest  : NamedCipher
  known : List CipherEntry
deriving DecidableEq, Repr

/-- The implementation parameters of R9. -/
structure Config where
  /-- `E`: the external block cipher (R9, R96). -/
  cipher  : CipherChoice
  /-- `BNBITS` above its least legal value 65538 (R9), so that every configuration is a legal one. -/
  bnExtra : Nat
  /-- `DIAG`: whether the progress register is implemented (R9, R340). -/
  diag    : Bool
  /-- `AESFAIL`: the requests the provider answers with `FAIL` (R9, R98). DESIGN CHOICE (log 9): a finite list. -/
  aesFail : List AesRequest
deriving DecidableEq, Repr

/-- `BNBITS`, the magnitude capacity of a big-integer register in bits (R9, R36): at least 65538. -/
def Config.bnbits (c : Config) : Nat := 65538 + c.bnExtra

/-- The defaults of R9: `E` is AES, `BNBITS = 65600`, `DIAG = true`, `AESFAIL` never. -/
def Config.standard : Config :=
  { cipher := { rest := .aes, known := [] }, bnExtra := 62, diag := true, aesFail := [] }

/-- FREE PARAMETER (R9; log 8): the block ciphers about which nothing is known. -/
opaque Config.otherCipher (k : Nat) : BlockCipher

/-- FREE VALUE (R37, R85; log 3): numeral element `j` of register `r`, unspecified, as draw `d` sees it. -/
opaque Config.freeNumeral (d r j : Nat) : Word

/-- FREE VALUE (R37, R86; log 3): byte element `j` of register `r`, unspecified, as draw `d` sees it. -/
opaque Config.freeByte (d r j : Nat) : Byte

/-- FREE VALUE (R80; log 6): the data that comes with an `ERR` response. -/
opaque Config.errorData (d : Nat) : Word

/-- FREE VALUE (R340; log 7): what `PROG` may come to show while BUSY; `none` shows no advance. -/
opaque Config.freeProgress (d : Nat) : Option Nat

/-- FREE VALUE (R56; log 14): `BNINFO[16:0]` of a bit length that 17 bits cannot hold. -/
opaque Config.wideBitLength (k : Nat) : BitVec 17

end Sys2Proof
end

