-- ==== Sys2Proof/Machine/Cause.lean ====
section
/-!
DEFINITION. Error causes, their classes and codes (R310, R311), and the notation `raise` and `require` of the rules
(R15, R16).
-/

namespace Sys2Proof.Machine

/-- The error causes of R311. -/
inductive Cause where
  | nullKey
  | nullTweak
  | nullInput
  | keySize
  | tweakLen
  | inputLen
  | radixRange
  | entropy
  | operandLen
  | argRange
  | valueRange
  | paramInvalid
  | bnOverflow
  | numeralRange
  | tweakDigit
  | modZero
  | roundsFloor
  | illegalOpcode
  | reservedBits
  | aesFail
deriving DecidableEq, Repr

/-- `STATUS.ECAUSE` of a cause (R311). -/
def Cause.code : Cause → BitVec 8
  | .nullKey => 0x01
  | .nullTweak => 0x02
  | .nullInput => 0x03
  | .keySize => 0x10
  | .tweakLen => 0x11
  | .inputLen => 0x12
  | .radixRange => 0x13
  | .entropy => 0x14
  | .operandLen => 0x15
  | .argRange => 0x16
  | .valueRange => 0x17
  | .paramInvalid => 0x18
  | .bnOverflow => 0x19
  | .numeralRange => 0x20
  | .tweakDigit => 0x21
  | .modZero => 0x22
  | .roundsFloor => 0x30
  | .illegalOpcode => 0x40
  | .reservedBits => 0x41
  | .aesFail => 0x50

/-- `STATUS.ECLASS` of a cause (R310, R311). -/
def Cause.errorClass : Cause → BitVec 4
  | .nullKey | .nullTweak | .nullInput => 1
  | .keySize | .tweakLen | .inputLen | .radixRange | .entropy | .operandLen | .argRange | .valueRange
  | .paramInvalid | .bnOverflow => 2
  | .numeralRange | .tweakDigit | .modZero => 3
  | .roundsFloor => 4
  | .illegalOpcode | .reservedBits => 5
  | .aesFail => 6

/-- What `raise Cause(info)` carries (R15); `info` is 0 when omitted. -/
structure Raise where
  cause : Cause
  info  : Nat := 0
deriving DecidableEq, Repr

/-- `require c else raise cause(info)` (R16). -/
def require (c : Prop) [Decidable c] (cause : Cause) (info : Nat := 0) : Except Raise Unit :=
  if c then .ok () else .error ⟨cause, info⟩

end Sys2Proof.Machine
end

