-- ==== Sys2Proof/Machine/State.lean ====
section
/-!
DEFINITION. The state of FFXE (R30 to R59) as plain data, the state after reset (R65), and the reasons a step can stop.
-/

namespace Sys2Proof.Machine

/-- Element storage of one data register (R31, R33, R37): the elements written by the host or by a command since the
register's storage was last reset, wiped or written as a whole, as (index, value) pairs with indices strictly rising.
An element not listed is 0 if `wiped` (R298), and unspecified otherwise (R37). -/
structure Store (α : Type) where
  wiped : Bool
  cells : List (Nat × α)
deriving DecidableEq, Repr

/-- A numeral-string or byte-string register: presence bit (R35), length (R56), element storage. -/
structure StrReg (α : Type) where
  present : Bool
  len     : Nat
  store   : Store α
deriving DecidableEq, Repr

/-- A big-integer register: presence bit (R35) and signed value (R36). -/
structure BnReg where
  present : Bool
  value   : Int
deriving DecidableEq, Repr

/-- A register file of four registers (R8). -/
structure Quad (α : Type) where
  r0 : α
  r1 : α
  r2 : α
  r3 : α
deriving DecidableEq, Repr

/-- `STATUS.STATE` (R43). While BUSY the engine holds the pending command word (R30, R62) and, the model's own, the
number of steps left before the engine performs it (R60, log 2). -/
inductive Phase where
  | idle
  | busy (word : Word) (delay : Nat)
  | done
  | error
deriving DecidableEq, Repr

/-- The nine parameter registers, D0's `FFXParameters` (R47 to R55). -/
structure Params where
  radix      : Word
  tweakRadix : Word
  minlen     : Word
  maxlenP    : Word
  mintlen    : Word
  maxtlen    : Word
  rounds     : Word
  mode       : Word
  splitK     : Word
deriving DecidableEq, Repr

/-- What the outside world does next: a host transaction (R80) or a change of the reset input (R350). -/
inductive BusOp where
  | read (addr : Addr)
  | write (addr : Addr) (data : Word)
  | resetAssert
  | resetRelease
deriving DecidableEq, Repr

/-- The response of a host transaction (R80). -/
inductive Resp where
  | ok
  | err
deriving DecidableEq, Repr

/-- What the host is given back: the response and, for a read, the data (R80). -/
structure Answer where
  resp : Resp
  data : Option Word
deriving DecidableEq, Repr

/-- The state of FFXE and of its environment. -/
structure State where
  /-- Numeral-string registers `ns[0..3]` (R31, R32). -/
  ns : Quad (StrReg Word)
  /-- Byte-string registers `bs[0..3]` (R33, R34). -/
  bs : Quad (StrReg Byte)
  /-- Big-integer registers `bn[0..3]` (R36). -/
  bn : Quad BnReg
  /-- `CTRL` (R41): bit 0 `IEN_DONE`, bit 1 `IEN_ERR`, bit 2 `DIAG_EN`. -/
  ctrl : Word
  /-- `STATUS.STATE` and the pending command word (R43, R62). -/
  phase : Phase
  /-- `STATUS.DROP` (R43). -/
  drop : Bool
  /-- `STATUS.ECLASS` (R43, R310). -/
  eclass : BitVec 4
  /-- `STATUS.ECAUSE` (R43, R311). -/
  ecause : BitVec 8
  /-- `STATUS.LASTOP` (R43). -/
  lastop : BitVec 8
  /-- `ERRINFO` (R44). -/
  errinfo : Word
  /-- `ERRLOG` (R44). -/
  errlog : Word
  /-- `PROG.RDONE` (R46, R340). -/
  rdone : BitVec 8
  /-- `PROG.RTOTAL` (R46, R340). -/
  rtotal : BitVec 8
  /-- `RES0` (R46). -/
  res0 : Word
  /-- `ARG0` (R46). -/
  arg0 : Word
  /-- `ARG1` (R46). -/
  arg1 : Word
  /-- `RADIX` to `SPLIT_K` (R47 to R55). -/
  params : Params
  /-- The reset input is held active (R350). -/
  resetHeld : Bool
  /-- The implementation parameters (R9): the machine's, never changed by a step. -/
  cfg : Config
  /-- The model's own (log 1): what the outside world will do, in order. -/
  host : List BusOp
  /-- The model's own (log 1): what the host has been answered, newest first. -/
  answers : List Answer
  /-- The model's own (log 2): how many steps each command accepted from now on stays BUSY. -/
  delays : List Nat
  /-- The model's own (log 19): how many steps have drawn free values. -/
  draws : Nat
deriving DecidableEq, Repr

/-- Reasons for which a step stops with a fault: none. FFXE turns every command error into an error entry (R325),
which is a next state, and no rule leaves it stuck (93, part 1). Safe: nothing is raised. -/
inductive Fault where
deriving DecidableEq, Repr

/-- Reasons for which a step refuses. -/
inductive Refusal where
  /-- Raised only by an arm of `exec` whose instruction has no meaning yet; no arm is left so. Safe. -/
  | notModelled (mnemonic : String)
deriving DecidableEq, Repr

/-- Element storage whose contents the spec leaves unspecified (R65). -/
def Store.unspecified {α : Type} : Store α := { wiped := false, cells := [] }

/-- Element storage after `WIPE`: every element 0 (R298). -/
def Store.zeros {α : Type} : Store α := { wiped := true, cells := [] }

/-- An absent string register with the given storage: length 0 (R35). -/
def StrReg.absent {α : Type} (store : Store α) : StrReg α := { present := false, len := 0, store := store }

/-- An absent big-integer register. DESIGN CHOICE (log 11): its value, unspecified after reset, is 0. -/
def BnReg.absent : BnReg := { present := false, value := 0 }

/-- Four registers of the same content. -/
def Quad.all {α : Type} (a : α) : Quad α := { r0 := a, r1 := a, r2 := a, r3 := a }

/-- All nine parameter registers 0: no parameter set loaded (R65). -/
def Params.zero : Params :=
  { radix := 0, tweakRadix := 0, minlen := 0, maxlenP := 0, mintlen := 0, maxtlen := 0, rounds := 0, mode := 0,
    splitK := 0 }

/-- The state after reset (R65, R350), with the parameters at the defaults of R9 and nothing to come from outside. -/
def State.reset : State where
  ns        := Quad.all (StrReg.absent Store.unspecified)
  bs        := Quad.all (StrReg.absent Store.unspecified)
  bn        := Quad.all BnReg.absent
  ctrl      := 0
  phase     := .idle
  drop      := false
  eclass    := 0
  ecause    := 0
  lastop    := 0
  errinfo   := 0
  errlog    := 0
  rdone     := 0
  rtotal    := 0
  res0      := 0
  arg0      := 0
  arg1      := 0
  params    := Params.zero
  resetHeld := false
  cfg       := Config.standard
  host      := []
  answers   := []
  delays    := []
  draws     := 0

end Sys2Proof.Machine
end

