-- ==== Sys2Proof/Machine/Ops.lean ====
section
/-!
DEFINITION. The named operations on the state: register files, element storage (R31 to R37), acceptance of a command
word (R62), normal completion (R63), error entry (R325), the return from it (R326), reset (R350).
-/

namespace Sys2Proof.Machine

/-- The number of a register, 0..3 (R8). -/
def regIndex : Reg → Nat
  | .r0 => 0
  | .r1 => 1
  | .r2 => 2
  | .r3 => 3

/-- The register of a file that a register number names (R111). -/
def Quad.get {α : Type} (q : Quad α) : Reg → α
  | .r0 => q.r0
  | .r1 => q.r1
  | .r2 => q.r2
  | .r3 => q.r3

/-- The file with one register replaced; no register aliases another (R38). -/
def Quad.set {α : Type} (q : Quad α) (r : Reg) (a : α) : Quad α :=
  match r with
  | .r0 => { q with r0 := a }
  | .r1 => { q with r1 := a }
  | .r2 => { q with r2 := a }
  | .r3 => { q with r3 := a }

/-! ## Element storage -/

/-- The greatest number of elements of a register, `MAXLEN` (R7, R8). -/
def maxLen : Nat := 4096

/-- The listed value of element `j`, if it is listed. -/
def lookupCell {α : Type} (j : Nat) : List (Nat × α) → Option α
  | [] => none
  | (i, v) :: cs => if i = j then some v else lookupCell j cs

/-- The list with element `j` given value `v`, indices still rising. -/
def insertCell {α : Type} (j : Nat) (v : α) : List (Nat × α) → List (Nat × α)
  | [] => [(j, v)]
  | (i, w) :: cs =>
    if j < i then (j, v) :: (i, w) :: cs
    else if j = i then (j, v) :: cs
    else (i, w) :: insertCell j v cs

/-- The values of a string as elements `j`, `j + 1`, ... -/
def numberedFrom {α : Type} (j : Nat) : List α → List (Nat × α)
  | [] => []
  | v :: vs => (j, v) :: numberedFrom (j + 1) vs

/-- Indices strictly rising, each at least `lo` and below `MAXLEN`. -/
def risingFrom {α : Type} (lo : Nat) : List (Nat × α) → Bool
  | [] => true
  | (i, _) :: cs => decide (lo ≤ i) && decide (i < maxLen) && risingFrom (i + 1) cs

/-- The canonical form of element storage. -/
def Store.wf {α : Type} (st : Store α) : Bool := risingFrom 0 st.cells

/-- One element written by the host (R85, R86): the others keep what they hold. -/
def Store.write {α : Type} (st : Store α) (j : Nat) (v : α) : Store α :=
  { st with cells := insertCell j v st.cells }

/-- The storage after a command wrote a whole string: elements at and beyond its length are unspecified (R37). -/
def Store.ofList {α : Type} (vs : List α) : Store α := { wiped := false, cells := numberedFrom 0 vs }

/-- What element `j` holds: the value written; 0 if `WIPE` was the last to touch it (R298, 90 C9); else `free`. -/
def Store.element {α : Type} (zero free : α) (st : Store α) (j : Nat) : α :=
  match lookupCell j st.cells with
  | some v => v
  | none => if st.wiped then zero else free

/-- The value of a string register: its first `len` elements (R31). -/
def StrReg.value {α : Type} (zero : α) (free : Nat → α) (r : StrReg α) : List α :=
  (List.range r.len).map fun j => r.store.element zero (free j) j

/-- What the host reads in the window at element `j` (R85, R86): below the length the element; at or beyond it 0 if
`WIPE` was the last to touch the element, else an unspecified value (log 4). -/
def StrReg.windowElement {α : Type} (zero : α) (free : Nat → α) (r : StrReg α) (j : Nat) : α :=
  if j < r.len then r.store.element zero (free j) j
  else if r.store.wiped && (lookupCell j r.store.cells).isNone then zero
  else free j

/-- A string register that a command has written (R35, R63). -/
def StrReg.ofList {α : Type} (vs : List α) : StrReg α :=
  { present := true, len := vs.length, store := Store.ofList vs }

/-- A host write of the length register (R56): the register becomes present, its elements stay. -/
def StrReg.setLen {α : Type} (r : StrReg α) (n : Nat) : StrReg α := { r with present := true, len := n }

/-- A host write of one element: neither the length nor the presence bit changes (R85). -/
def StrReg.setElement {α : Type} (r : StrReg α) (j : Nat) (v : α) : StrReg α :=
  { r with store := r.store.write j v }

/-- All eight element storages are in canonical form. -/
def Memory.wf (s : State) : Bool :=
  s.ns.r0.store.wf && s.ns.r1.store.wf && s.ns.r2.store.wf && s.ns.r3.store.wf &&
  s.bs.r0.store.wf && s.bs.r1.store.wf && s.bs.r2.store.wf && s.bs.r3.store.wf

/-! ## Register values -/

/-- The value of `ns[r]` (R31); an unspecified element is a free value of this draw (R37, log 3). -/
def State.nsVal (s : State) (r : Reg) : List Word :=
  (s.ns.get r).value 0 (Config.freeNumeral s.draws (regIndex r))

/-- The value of `bs[r]` (R33); an unspecified element is a free value of this draw (R37, log 3). -/
def State.bsVal (s : State) (r : Reg) : List Byte :=
  (s.bs.get r).value 0 (Config.freeByte s.draws (regIndex r))

/-- The value of `bn[r]` (R36). -/
def State.bnVal (s : State) (r : Reg) : Int := (s.bn.get r).value

/-- `ns[r] <- v` (R13): length and presence with it (R35, R63). -/
def State.putNs (s : State) (r : Reg) (v : List Word) : State := { s with ns := s.ns.set r (StrReg.ofList v) }

/-- `bs[r] <- v` (R13): length and presence with it (R35, R63). -/
def State.putBs (s : State) (r : Reg) (v : List Byte) : State := { s with bs := s.bs.set r (StrReg.ofList v) }

/-- `bn[r] <- v` (R13): presence with it (R35, R63). -/
def State.putBn (s : State) (r : Reg) (v : Int) : State :=
  { s with bn := s.bn.set r { present := true, value := v } }

/-! ## The progress register -/

/-- The fraction D0's diagnostics report: rounds completed out of rounds in all (R340). -/
structure Progress where
  total : Nat
  done  : Nat
deriving DecidableEq, Repr

/-- `PROG = 0`. -/
def Progress.none : Progress := { total := 0, done := 0 }

/-- Progress is reported: the parameter `DIAG` and `CTRL.DIAG_EN` (R340). -/
def State.diagOn (s : State) : Bool := s.cfg.diag && s.ctrl.getLsbD 2

/-- `PROG` shows `p`, or 0 where progress is not reported (R340). -/
def State.showProgress (s : State) (p : Progress) : State :=
  { s with
    rtotal := if s.diagOn then BitVec.ofNat 8 p.total else 0
    rdone  := if s.diagOn then BitVec.ofNat 8 p.done else 0 }

/-! ## A command's life -/

/-- Acceptance of a command word (R62), to be performed after `delay` further steps (R60, log 2). -/
def State.accept (s : State) (w : Word) (delay : Nat) : State :=
  { s with
    phase   := .busy w delay
    lastop  := w.extractLsb' 0 8
    eclass  := 0
    ecause  := 0
    errinfo := 0
    rdone   := 0
    rtotal  := 0 }

/-- Normal completion (R63), after the destination is written: `STATE <- DONE`, no error recorded. -/
def State.complete (s : State) (p : Progress := Progress.none) : State :=
  { s.showProgress p with
    phase   := .done
    eclass  := 0
    ecause  := 0
    errinfo := 0
    draws   := s.draws + 1 }

/-- ERROR ENTRY (R325), the one way a command error is taken: nothing is written but the error record. `DROP` and
`LASTOP` keep their values; nothing is saved anywhere else. -/
def State.enterError (s : State) (e : Raise) (p : Progress := Progress.none) : State :=
  { s.showProgress p with
    phase   := .error
    eclass  := e.cause.errorClass
    ecause  := e.cause.code
    errinfo := BitVec.ofNat 32 e.info
    errlog  := s.errlog ||| (1#32 <<< e.cause.errorClass.toNat)
    draws   := s.draws + 1 }

/-- THE RETURN FROM ERROR (R326), with which `CLR` and `WIPE` end: `STATE <- IDLE`, `DROP` and the error record
cleared, `PROG <- 0`. -/
def State.toIdle (s : State) : State :=
  { s with
    phase   := .idle
    drop    := false
    eclass  := 0
    ecause  := 0
    errinfo := 0
    rdone   := 0
    rtotal  := 0
    draws   := s.draws + 1 }

/-- The end of a command: what its rule computed completes it, what its rule raised enters ERROR (R15, R60). -/
def State.finish (s : State) (r : Except Raise State) : Host.Outcome State Fault Refusal :=
  match r with
  | .ok t => .next t.complete
  | .error e => .next (s.enterError e)

/-- The state of R65 as reset leaves it (R350, R351), whatever the engine was doing: a pending command is abandoned.
The configuration and what belongs to the outside world are no state of the engine and stay. -/
def State.afterReset (s : State) (held : Bool) : State :=
  { State.reset with
    resetHeld := held
    cfg       := s.cfg
    host      := s.host
    answers   := s.answers
    delays    := s.delays
    draws     := s.draws + 1 }

end Sys2Proof.Machine
end

