-- ==== Sys2Proof/Machine/Flags.lean ====
section
/-!
DEFINITION. Every flag and status word the spec computes: `STATUS`, `PROG`, `PRESENT`, `BNINFO` (R43, R46, R56) and the
interrupt output `irq` (R330).
-/

namespace Sys2Proof.Machine

/-- `STATUS.STATE` as a number (R43). -/
def Phase.code : Phase → BitVec 2
  | .idle => 0
  | .busy _ _ => 1
  | .done => 2
  | .error => 3

/-- The engine is BUSY. -/
def Phase.isBusy : Phase → Bool
  | .busy _ _ => true
  | _ => false

/-- One bit of a status word. -/
def bit (b : Bool) : BitVec 1 := if b then 1 else 0

/-- `STATUS` (R43): reserved, `LASTOP`, `ECAUSE`, `ECLASS`, reserved, `DROP`, `STATE`. -/
def State.statusWord (s : State) : Word :=
  (0 : BitVec 8) ++ s.lastop ++ s.ecause ++ s.eclass ++ (0 : BitVec 1) ++ bit s.drop ++ s.phase.code

/-- `PROG` (R46): `RTOTAL` in bits 15..8, `RDONE` in bits 7..0. -/
def State.progWord (s : State) : Word := (0 : BitVec 16) ++ s.rtotal ++ s.rdone

/-- The four presence bits of a file, register 3 first. -/
def presenceBits {α : Type} (present : α → Bool) (q : Quad α) : BitVec 4 :=
  bit (present q.r3) ++ bit (present q.r2) ++ bit (present q.r1) ++ bit (present q.r0)

/-- `PRESENT` (R56): bits 3..0 `ns`, 7..4 `bs`, 11..8 `bn`. -/
def State.presentWord (s : State) : Word :=
  (0 : BitVec 20) ++ presenceBits BnReg.present s.bn ++ presenceBits StrReg.present s.bs ++
    presenceBits StrReg.present s.ns

/-- The bit length of a natural: the least `k` with `v < 2^k` (R56). -/
def bitLength (v : Nat) : Nat := if v = 0 then 0 else v.log2 + 1

/-- The field `BNINFO[16:0]` of a bit length; a free value where 17 bits cannot hold it (log 14). -/
def bitLengthField (k : Nat) : BitVec 17 := if k < 2 ^ 17 then BitVec.ofNat 17 k else Config.wideBitLength k

/-- `BNINFO r` (R56): bit 31 the sign, bits 16..0 the bit length of the magnitude; 0 when absent. -/
def BnReg.infoWord (b : BnReg) : Word :=
  if b.present then bit (decide (b.value < 0)) ++ (0 : BitVec 14) ++ bitLengthField (bitLength b.value.natAbs)
  else 0

/-- The interrupt output (R330): `(DONE and IEN_DONE) or (ERROR and IEN_ERR)`; 0 while reset is active (R350). -/
def State.irq (s : State) : Bool :=
  !s.resetHeld &&
    match s.phase with
    | .done => s.ctrl.getLsbD 0
    | .error => s.ctrl.getLsbD 1
    | _ => false

end Sys2Proof.Machine
end

