-- ==== Sys2Proof/Machine/Operands.lean ====
section
/-!
DEFINITION. Every operand form: a source register of each file, with its presence check (R35), the fixed key and tweak
registers (R118), and the scalars (R112, R119).
-/

namespace Sys2Proof.Machine

/-- A numeral-string source: its value, or `cause` if it is absent (R35). -/
def State.srcNs (s : State) (r : Reg) (cause : Cause := .nullInput) : Except Raise (List Word) :=
  if (s.ns.get r).present then .ok (s.nsVal r) else .error ⟨cause, 0⟩

/-- A byte-string source: its value, or `cause` if it is absent (R35). -/
def State.srcBs (s : State) (r : Reg) (cause : Cause := .nullInput) : Except Raise (List Byte) :=
  if (s.bs.get r).present then .ok (s.bsVal r) else .error ⟨cause, 0⟩

/-- A big-integer source: its value, or `cause` if it is absent (R35). -/
def State.srcBn (s : State) (r : Reg) (cause : Cause := .nullInput) : Except Raise Int :=
  if (s.bn.get r).present then .ok (s.bnVal r) else .error ⟨cause, 0⟩

/-- The key `K` of the round-function and cipher commands, always `bs0` (R118). -/
def State.key (s : State) : Except Raise (List Byte) := s.srcBs .r0 .nullKey

/-- The tweak `T` of the round-function and cipher commands, always `bs1` (R118). -/
def State.tweak (s : State) : Except Raise (List Byte) := s.srcBs .r1 .nullTweak

/-- `ARG0` as a natural (R112, R159). -/
def State.scalar0 (s : State) : Nat := s.arg0.toNat

/-- `ARG1` as a natural (R112, R159). -/
def State.scalar1 (s : State) : Nat := s.arg1.toNat

/-- `MODE.METHOD` (R54). -/
def Params.method (p : Params) : Nat := (p.mode.extractLsb' 0 2).toNat

/-- `MODE.ARITH` (R54). -/
def Params.arith (p : Params) : Nat := (p.mode.extractLsb' 2 2).toNat

/-- `MODE.SPLIT` (R54). -/
def Params.split (p : Params) : Nat := (p.mode.extractLsb' 4 2).toNat

/-- `MODE.RF` (R54). -/
def Params.rf (p : Params) : Nat := (p.mode.extractLsb' 6 2).toNat

end Sys2Proof.Machine
end

