-- ==== Sys2Proof/Machine/Bus.lean ====
section
/-!
DEFINITION. The host port (20): what an address names (R40, R81), host reads and writes (R80 to R90), acceptance of a
command (R62), the reset input (R350), and what happens in a step in which the engine does not complete a command.
-/

namespace Sys2Proof.Machine

/-- The nine parameter registers by name, in address order from 0x40 (R40). -/
inductive ParamName where
  | radix
  | tweakRadix
  | minlen
  | maxlenP
  | mintlen
  | maxtlen
  | rounds
  | mode
  | splitK
deriving DecidableEq, Repr

/-- The read of a parameter register. -/
def Params.get (p : Params) : ParamName → Word
  | .radix => p.radix
  | .tweakRadix => p.tweakRadix
  | .minlen => p.minlen
  | .maxlenP => p.maxlenP
  | .mintlen => p.mintlen
  | .maxtlen => p.maxtlen
  | .rounds => p.rounds
  | .mode => p.mode
  | .splitK => p.splitK

/-- The host write of a parameter register: any value (R47); of `MODE` only bits 7..0 are stored (R54). -/
def Params.set (p : Params) (name : ParamName) (v : Word) : Params :=
  match name with
  | .radix => { p with radix := v }
  | .tweakRadix => { p with tweakRadix := v }
  | .minlen => { p with minlen := v }
  | .maxlenP => { p with maxlenP := v }
  | .mintlen => { p with mintlen := v }
  | .maxtlen => { p with maxtlen := v }
  | .rounds => { p with rounds := v }
  | .mode => { p with mode := v &&& 0xFF }
  | .splitK => { p with splitK := v }

/-- What a mapped, aligned address names (R40, R81, R85, R86). -/
inductive Location where
  | id
  | ctrl
  | cmd
  | status
  | errinfo
  | errlog
  | prog
  | res0
  | arg0
  | arg1
  | param (name : ParamName)
  | nslen (r : Reg)
  | bslen (r : Reg)
  | present
  | bninfo (r : Reg)
  | nsElement (r : Reg) (j : Nat)
  | bsElement (r : Reg) (j : Nat)
deriving DecidableEq, Repr

/-- The register of a file by its number 0..3. -/
def regOfNat (n : Nat) : Reg :=
  match n with
  | 0 => .r0
  | 1 => .r1
  | 2 => .r2
  | _ => .r3

/-- The control block (R40) by offset. -/
def controlLocation (a : Nat) : Option Location :=
  match a with
  | 0x00 => some .id
  | 0x04 => some .ctrl
  | 0x08 => some .cmd
  | 0x0C => some .status
  | 0x10 => some .errinfo
  | 0x14 => some .errlog
  | 0x18 => some .prog
  | 0x1C => some .res0
  | 0x20 => some .arg0
  | 0x24 => some .arg1
  | 0x40 => some (.param .radix)
  | 0x44 => some (.param .tweakRadix)
  | 0x48 => some (.param .minlen)
  | 0x4C => some (.param .maxlenP)
  | 0x50 => some (.param .mintlen)
  | 0x54 => some (.param .maxtlen)
  | 0x58 => some (.param .rounds)
  | 0x5C => some (.param .mode)
  | 0x60 => some (.param .splitK)
  | 0x80 => some (.nslen .r0)
  | 0x84 => some (.nslen .r1)
  | 0x88 => some (.nslen .r2)
  | 0x8C => some (.nslen .r3)
  | 0x90 => some (.bslen .r0)
  | 0x94 => some (.bslen .r1)
  | 0x98 => some (.bslen .r2)
  | 0x9C => some (.bslen .r3)
  | 0xA0 => some .present
  | 0xB0 => some (.bninfo .r0)
  | 0xB4 => some (.bninfo .r1)
  | 0xB8 => some (.bninfo .r2)
  | 0xBC => some (.bninfo .r3)
  | _ => none

/-- What an address names; `none` if it is misaligned (R82) or unmapped (R81, R83). -/
def locate (addr : Addr) : Option Location :=
  let a := addr.toNat
  if a % 4 ≠ 0 then none
  else if a < 0x10000 then controlLocation a
  else if a < 0x20000 then some (.nsElement (regOfNat ((a - 0x10000) / 0x4000)) ((a - 0x10000) % 0x4000 / 4))
  else if a < 0x30000 then some (.bsElement (regOfNat ((a - 0x20000) / 0x4000)) ((a - 0x20000) % 0x4000 / 4))
  else none

/-- The identity word (R45). -/
def idWord : Word := 0x46465801

/-- The value a location reads as (R40 to R56, R85, R86). Reading changes nothing (R89). -/
def State.readLocation (s : State) : Location → Word
  | .id => idWord
  | .ctrl => s.ctrl
  | .cmd => 0
  | .status => s.statusWord
  | .errinfo => s.errinfo
  | .errlog => s.errlog
  | .prog => s.progWord
  | .res0 => s.res0
  | .arg0 => s.arg0
  | .arg1 => s.arg1
  | .param name => s.params.get name
  | .nslen r => BitVec.ofNat 32 (s.ns.get r).len
  | .bslen r => BitVec.ofNat 32 (s.bs.get r).len
  | .present => s.presentWord
  | .bninfo r => (s.bn.get r).infoWord
  | .nsElement r j => (s.ns.get r).windowElement 0 (Config.freeNumeral s.draws (regIndex r)) j
  | .bsElement r j => ((s.bs.get r).windowElement 0 (Config.freeByte s.draws (regIndex r)) j).setWidth 32

/-- A data window, which cannot be read while BUSY (R90). -/
def Location.isWindow : Location → Bool
  | .nsElement _ _ => true
  | .bsElement _ _ => true
  | _ => false

/-- The answer to `HostRead(addr)` (R80 to R90, R350). The data of an `ERR` response is a free value (log 6). -/
def State.readAnswer (s : State) (addr : Addr) : Answer :=
  match locate addr with
  | some l =>
    if s.resetHeld || (s.phase.isBusy && l.isWindow) then ⟨.err, some (Config.errorData s.draws)⟩
    else ⟨.ok, some (s.readLocation l)⟩
  | none => ⟨.err, some (Config.errorData s.draws)⟩

/-- The bits of `CTRL` that are stored (R41): three, or two where `DIAG` is false (R340). -/
def ctrlMask (c : Config) : Word := if c.diag then 0x7 else 0x3

/-- The delay of the next command: the first of the schedule, 0 if the schedule is empty (log 2). -/
def State.nextDelay (s : State) : Nat := s.delays.headD 0

/-- `STATE` lets the command word `w` in (R62): any word from IDLE or DONE, only CLR and WIPE from ERROR. -/
def State.accepts (s : State) (w : Word) : Bool :=
  match s.phase with
  | .idle => true
  | .done => true
  | .error => w.extractLsb' 0 8 == 0x01#8 || w.extractLsb' 0 8 == 0x02#8
  | .busy _ _ => false

/-- `HostWrite(CMD, w)` (R62): accepted, or refused with `DROP` set. -/
def State.writeCommand (s : State) (w : Word) : State × Resp :=
  if s.accepts w then ({ s.accept w s.nextDelay with delays := s.delays.tail }, .ok)
  else ({ s with drop := true }, .err)

/-- A host write to a location, the engine not BUSY (R40 to R56, R84 to R86). -/
def State.writeLocation (s : State) (l : Location) (v : Word) : State × Resp :=
  match l with
  | .ctrl => ({ s with ctrl := v &&& ctrlMask s.cfg }, .ok)
  | .cmd => s.writeCommand v
  | .arg0 => ({ s with arg0 := v }, .ok)
  | .arg1 => ({ s with arg1 := v }, .ok)
  | .param name => ({ s with params := s.params.set name v }, .ok)
  | .nslen r =>
    if v.toNat ≤ maxLen then ({ s with ns := s.ns.set r ((s.ns.get r).setLen v.toNat) }, .ok) else (s, .err)
  | .bslen r =>
    if v.toNat ≤ maxLen then ({ s with bs := s.bs.set r ((s.bs.get r).setLen v.toNat) }, .ok) else (s, .err)
  | .nsElement r j => ({ s with ns := s.ns.set r ((s.ns.get r).setElement j v) }, .ok)
  | .bsElement r j => ({ s with bs := s.bs.set r ((s.bs.get r).setElement j (v.setWidth 8)) }, .ok)
  | .id | .status | .errinfo | .errlog | .prog | .res0 | .present | .bninfo _ => (s, .err)

/-- `HostWrite(addr, v)`. While reset is held: `ERR` (R350). While BUSY: `ERR` and `DROP`, whatever the address (R90,
log 13). -/
def State.hostWrite (s : State) (addr : Addr) (v : Word) : State × Resp :=
  if s.resetHeld then (s, .err)
  else if s.phase.isBusy then ({ s with drop := true }, .err)
  else match locate addr with
    | some l => s.writeLocation l v
    | none => (s, .err)

/-- The host is given its answer; a draw of free values is over. -/
def State.answer (s : State) (a : Answer) : State := { s with answers := a :: s.answers, draws := s.draws + 1 }

/-- One input from outside takes effect: a transaction (R80), or an edge of the reset input (R350, R351). -/
def State.input (s : State) (op : BusOp) : State :=
  match op with
  | .read addr => s.answer (s.readAnswer addr)
  | .write addr v => (s.hostWrite addr v).1.answer ⟨(s.hostWrite addr v).2, none⟩
  | .resetAssert => s.afterReset true
  | .resetRelease => s.afterReset false

/-- The next input from outside, if there is one; an engine with nothing to do simply waits (R343). -/
def State.serveHost (s : State) : State :=
  match s.host with
  | [] => s
  | op :: ops => { s with host := ops }.input op

/-- The round count a running cipher command may show (R340); `none` for every other word. -/
def State.progressTotal (s : State) (w : Word) : Option Nat :=
  match decode w with
  | .ok (.enc _ _) | .ok (.dec _ _) => if s.params.rounds.toNat ≤ 255 then some s.params.rounds.toNat else none
  | .ok (.ff1enc _ _) | .ok (.ff1dec _ _) | .ok (.ff2enc _ _) | .ok (.ff2dec _ _) => some 10
  | _ => none

/-- What `PROG` may come to show while a cipher command of `total` rounds runs (R340): the old progress, or
`RTOTAL = total` with an `RDONE` in `[0, total]` that is not below the old one. How far is a free value (log 7). -/
def State.progressed (s : State) (total : Option Nat) (free : Option Nat) : Progress :=
  match total, free with
  | some r, some k => if s.diagOn then ⟨r, min r (max s.rdone.toNat k)⟩ else ⟨s.rtotal.toNat, s.rdone.toNat⟩
  | _, _ => ⟨s.rtotal.toNat, s.rdone.toNat⟩

/-- `PROG` may advance while the engine is BUSY with `w` (R340). -/
def State.advanceProgress (s : State) (w : Word) : State :=
  { s with
    rtotal := BitVec.ofNat 8 (s.progressed (s.progressTotal w) (Config.freeProgress s.draws)).total
    rdone  := BitVec.ofNat 8 (s.progressed (s.progressTotal w) (Config.freeProgress s.draws)).done
    draws  := s.draws + 1 }

/-- A step in which the engine, BUSY with `w`, does not complete: its delay shortens, `PROG` may advance, and the host
may be served (R60, R90). -/
def State.busyTick (s : State) (w : Word) (delay : Nat) : State :=
  { s.advanceProgress w with phase := .busy w delay }.serveHost

/-- A decoding error as the error it raises (R113). -/
def decodeRaise : DecodeError → Raise
  | .reservedBits => ⟨.reservedBits, 0⟩
  | .illegalOpcode op => ⟨.illegalOpcode, op.toNat⟩

end Sys2Proof.Machine
end

