-- ==== Sys2Proof/Machine/Numeral.lean ====
section
/-!
DEFINITION. The primitives as pure functions on values (40), each with the errors it raises, its checks in the rule's
order; and the exact integer forms of `floor`, `ceil`, `log2` (R160 to R162).
-/

namespace Sys2Proof.Machine

/-! ## Positional values -/

/-- `sum over j of ds[j] * base^(len - 1 - j)`, the first digit the most significant (R130, R132). -/
def valueOf (base : Nat) (ds : List Nat) : Nat := ds.foldl (fun acc d => acc * base + d) 0

/-- `m` digits of `x`, digit `j` being `(x div base^(m-1-j)) mod base` (R135, R139). -/
def digitsOf (base m x : Nat) : List Nat := (List.range m).map fun j => x / base ^ (m - 1 - j) % base

/-- The value of a byte string (R130), without the length check. -/
def byteValue (X : List Byte) : Nat := valueOf 256 (X.map BitVec.toNat)

/-- The value of a numeral string in a radix (R132), without the checks. -/
def numeralValue (radix : Nat) (X : List Word) : Nat := valueOf radix (X.map BitVec.toNat)

/-- The `s` low bytes of `x`, big-endian (R139), without the checks. -/
def bytesOf (s x : Nat) : List Byte := (digitsOf 256 s x).map (BitVec.ofNat 8)

/-- The `m` low numerals of `x` in a radix, most significant first (R135), without the checks. -/
def numeralsOf (radix m x : Nat) : List Word := (digitsOf radix m x).map (BitVec.ofNat 32)

/-- `zeros(k)` (R11). -/
def zeros (k : Nat) : List Byte := List.replicate k 0

/-! ## Conversions -/

/-- `NUM(X)` (R130). -/
def num (X : List Byte) : Except Raise Nat := do
  require (1 ≤ X.length ∧ X.length ≤ 4096) .operandLen
  pure (byteValue X)

/-- `2 <= radix <= 65536` (R7, R47). -/
def radixCheck (radix : Nat) : Except Raise Unit := require (2 ≤ radix ∧ radix ≤ 65536) .radixRange

/-- For the least `j` with `X[j] >= radix`, `raise NUMERAL_RANGE(j)` (R132, R190, R205). -/
def numeralCheck (X : List Word) (radix : Nat) : Except Raise Unit :=
  match X.findIdx? fun d => decide (radix ≤ d.toNat) with
  | none => .ok ()
  | some j => .error ⟨.numeralRange, j⟩

/-- `NUM_radix(X, radix)` (R132). -/
def numRadix (X : List Word) (radix : Nat) : Except Raise Nat := do
  radixCheck radix
  require (1 ≤ X.length ∧ X.length ≤ 4096) .operandLen
  numeralCheck X radix
  pure (numeralValue radix X)

/-- `STR_m_radix(x, radix, m)` (R135): high digits are dropped. -/
def strRadix (x : Int) (radix m : Nat) : Except Raise (List Word) := do
  radixCheck radix
  require (1 ≤ m ∧ m ≤ 4096) .argRange
  require (0 ≤ x) .valueRange
  pure (numeralsOf radix m x.toNat)

/-- `bytestring(x, s)`, also `[x]_s` (R139). -/
def bytestring (x : Int) (s : Nat) : Except Raise (List Byte) := do
  require (1 ≤ s ∧ s ≤ 4096) .argRange
  require (0 ≤ x ∧ x < (256 ^ s : Nat)) .valueRange
  pure (bytesOf s x.toNat)

/-- `bitstring(bit, s)` (R142). -/
def bitstring (b s : Nat) : Except Raise (List Byte) := do
  require (0 < s ∧ s % 8 = 0 ∧ s / 8 ≤ 4096) .argRange
  require (b = 0 ∨ b = 1) .argRange
  pure (List.replicate (s / 8) (if b = 0 then 0x00 else 0xFF))

/-! ## Strings -/

/-- `X || Y` (R144). -/
def concatenate {α : Type} (X Y : List α) : Except Raise (List α) := do
  require (X.length + Y.length ≤ 4096) .operandLen
  pure (X ++ Y)

/-- Bytewise exclusive-or of two strings of the same length (R147), without the check. -/
def xorBytes (X Y : List Byte) : List Byte := List.zipWith (fun a b => a ^^^ b) X Y

/-- `X xor Y` (R147). -/
def xorStrings (X Y : List Byte) : Except Raise (List Byte) := do
  require (X.length = Y.length) .operandLen
  pure (xorBytes X Y)

/-- `REV(X)` and `REVB(X)` (R149). -/
def rev {α : Type} (X : List α) : List α := X.reverse

/-! ## Integers -/

/-- `mod(x, m)` (R153): the floored remainder, in `[0, m)`. -/
def modInt (x m : Int) : Except Raise Int := do
  require (0 < m) .modZero
  pure (x % m)

/-- A big-integer result is kept only if its magnitude is below `2^BNBITS` (R36, R157). -/
def capacityCheck (bnbits : Nat) (x : Int) : Except Raise Int := do
  require (x.natAbs < 2 ^ bnbits) .bnOverflow
  pure x

/-- `ceil(v * log2(r))` as R162 evaluates it, on `x = r^v`: the least `k` with `2^k >= x`. -/
def ceilLog2 (x : Nat) : Nat := if x ≤ 1 then 0 else (x - 1).log2 + 1

/-- `floor(c / log2(r))` as R162 evaluates it, for `r >= 2`: the greatest `k` with `r^k <= 2^c`; the name is R257's. -/
def cap (r c : Nat) : Nat := Nat.findGreatest (fun k => r ^ k ≤ 2 ^ c) c

/-- `ceil(a/b)` for naturals (R161). -/
def ceilDiv (a b : Nat) : Nat := (a + b - 1) / b

end Sys2Proof.Machine
end

