-- ==== Sys2Proof/Machine/Aes.lean ====
section
/-!
DEFINITION. The default of the parameter `E` (R9): the AES forward cipher of FIPS 197. PRESUMED (log 8): the spec names
it as the default and does not define it. The pure functions of the other files take `E` as an argument; a machine
runs with this cipher where its configuration names it.
-/

namespace Sys2Proof.Machine

/-- The substitution box of FIPS 197, entry 0 in the most significant byte. -/
def aesSBoxTable : BitVec 2048 :=
  0x637c777bf26b6fc53001672bfed7ab76ca82c97dfa5947f0add4a2af9ca472c0b7fd9326363ff7cc34a5e5f171d8311504c723c31896059a071280e2eb27b27509832c1a1b6e5aa0523bd6b329e32f8453d100ed20fcb15b6acbbe394a4c58cfd0efaafb434d338545f9027f503c9fa851a3408f929d38f5bcb6da2110fff3d2cd0c13ec5f974417c4a77e3d645d197360814fdc222a908846eeb814de5e0bdbe0323a0a4906245cc2d3ac629195e479e7c8376d8dd54ea96c56f4ea657aae08ba78252e1ca6b4c6e8dd741f4bbd8b8a703eb5664803f60e613557b986c11d9ee1f8981169d98e949b1e87e9ce5528df8ca1890dbfe6426841992d0fb054bb16

/-- Substitution of one byte. -/
def aesSubByte (b : Byte) : Byte := (aesSBoxTable >>> (8 * (255 - b.toNat))).setWidth 8

/-- Multiplication by `x` in GF(2^8) modulo `x^8 + x^4 + x^3 + x + 1`. -/
def aesXtime (b : Byte) : Byte := (b <<< 1) ^^^ (if b.getLsbD 7 then 0x1b else 0)

/-- One column of MixColumns. -/
def aesMixColumn (a b c d : Byte) : List Byte :=
  [ aesXtime a ^^^ (aesXtime b ^^^ b) ^^^ c ^^^ d,
    a ^^^ aesXtime b ^^^ (aesXtime c ^^^ c) ^^^ d,
    a ^^^ b ^^^ aesXtime c ^^^ (aesXtime d ^^^ d),
    (aesXtime a ^^^ a) ^^^ b ^^^ c ^^^ aesXtime d ]

/-- MixColumns on the state's 16 bytes, column after column. -/
def aesMixColumns : List Byte → List Byte
  | a :: b :: c :: d :: rest => aesMixColumn a b c d ++ aesMixColumns rest
  | _ => []

/-- ShiftRows: byte `i` of the result is byte `(i + 4 (i mod 4)) mod 16` of the state. -/
def aesShiftRows (st : List Byte) : List Byte :=
  (List.range 16).map fun i => st.getD ((i + 4 * (i % 4)) % 16) 0

/-- The round constants of the key expansion. -/
def aesRcon : List Byte := [0x01, 0x02, 0x04, 0x08, 0x10, 0x20, 0x40, 0x80, 0x1b, 0x36]

/-- SubWord on a 4-byte word. -/
def aesSubWord (w : List Byte) : List Byte := w.map aesSubByte

/-- The word that is combined with `w[i - nk]` to make word `i` of the key schedule. -/
def aesScheduleStep (nk i : Nat) (prev : List Byte) : List Byte :=
  if i % nk = 0 then
    xorBytes (aesSubWord (prev.rotateLeft 1)) [aesRcon.getD (i / nk - 1) 0, 0, 0, 0]
  else if 6 < nk ∧ i % nk = 4 then aesSubWord prev
  else prev

/-- `count` more words of the key schedule from word `i` on; `ws` holds the words so far, newest first. -/
def aesExpand (nk : Nat) : Nat → Nat → List (List Byte) → List (List Byte)
  | 0, _, ws => ws
  | count + 1, i, ws =>
    aesExpand nk count (i + 1)
      (xorBytes (ws.getD (nk - 1) []) (aesScheduleStep nk i (ws.headD [])) :: ws)

/-- A byte string in pieces of `k` bytes, `count` of them. -/
def pieces (k : Nat) : Nat → List Byte → List (List Byte)
  | 0, _ => []
  | count + 1, X => X.take k :: pieces k count (X.drop k)

/-- The round keys, 16 bytes each: `nk + 7` of them for a key of `4 nk` bytes. -/
def aesRoundKeys (key : List Byte) : List (List Byte) :=
  let nk := key.length / 4
  let schedule := aesExpand nk (4 * (nk + 7) - nk) nk (pieces 4 nk key).reverse
  pieces 16 (nk + 7) schedule.reverse.flatten

/-- The rounds after the first key addition: the last one without MixColumns. -/
def aesRounds : List (List Byte) → List Byte → List Byte
  | [], st => st
  | [k], st => xorBytes (aesShiftRows (st.map aesSubByte)) k
  | k :: ks, st => aesRounds ks (xorBytes (aesMixColumns (aesShiftRows (st.map aesSubByte))) k)

/-- AES encryption of one block under a key of 16, 24 or 32 bytes (R9). -/
def aesEncrypt : BlockCipher := fun key block =>
  match aesRoundKeys key with
  | [] => block
  | k :: ks => BitVec.ofNat 128 (byteValue (aesRounds ks (xorBytes (bytesOf 16 block.toNat) k)))

end Sys2Proof.Machine
end

