-- ==== Sys2Proof/Machine/Adapter.lean ====
section
/-!
DEFINITION. The AES port (R95 to R100) and the block-cipher adapter `CIPH`, `PRF`, `PRF2` (R170 to R178) as pure
functions of the provider.
-/

namespace Sys2Proof.Machine

/-- A named cipher as a function (R9). -/
def namedCipher : NamedCipher → BlockCipher
  | .aes => aesEncrypt
  | .other k => Config.otherCipher k

/-- The configured `E` as a function (R9, R96): a listed value, else the named cipher's. -/
def cipherOf (c : CipherChoice) : BlockCipher := fun K B =>
  match c.known.find? fun e => e.key == K && e.block == B with
  | some e => e.result
  | none => namedCipher c.rest K B

/-- The provider a machine is configured with: its `E` and the requests that fail (R9, R96, R98). -/
def State.provider (s : State) : Provider where
  E     := cipherOf s.cfg.cipher
  fails := fun q => s.cfg.aesFail.contains q

/-- Block `j` (counted from 0) of a byte string: `X[16j : 16j + 16]` (R97, R174). -/
def blockAt (X : List Byte) (j : Nat) : List Byte := (X.drop (16 * j)).take 16

/-- The 16-byte blocks of a byte string (R97, R174). -/
def blocksOf (X : List Byte) : List (List Byte) := (List.range (X.length / 16)).map (blockAt X)

/-- `E(K, B)` on byte strings (R96): always 16 bytes. -/
def encryptBlock (E : BlockCipher) (K B : List Byte) : List Byte :=
  bytesOf 16 (E K (BitVec.ofNat 128 (byteValue B))).toNat

/-- `AES_ECB(K, X)` (R97). -/
def aesEcb (E : BlockCipher) (K X : List Byte) : List Byte := (blocksOf X).flatMap (encryptBlock E K)

/-- The chained blocks `C_1, C_2, ...` of CBC encryption from the block `C_0` (R97). -/
def cbcChain (E : BlockCipher) (K : List Byte) : List Byte → List (List Byte) → List (List Byte)
  | _, [] => []
  | c, b :: bs => encryptBlock E K (xorBytes c b) :: cbcChain E K (encryptBlock E K (xorBytes c b)) bs

/-- `AES_CBC0(K, X)`: CBC encryption with a zero IV (R97). -/
def aesCbc0 (E : BlockCipher) (K X : List Byte) : List Byte := (cbcChain E K (zeros 16) (blocksOf X)).flatten

/-- One request on the AES port (R95): the provider's answer, or `AES_FAIL` (R98). -/
def aesRequest (P : Provider) (q : AesRequest) : Except Raise (List Byte) := do
  require (P.fails q = false) .aesFail
  pure (match q.mode with
    | .ecb => aesEcb P.E q.key q.data
    | .cbc0 => aesCbc0 P.E q.key q.data)

/-- `validKey(K)` (R171). -/
def validKey (K : List Byte) : Except Raise Unit :=
  require (K.length = 16 ∨ K.length = 24 ∨ K.length = 32) .keySize

/-- `validData(X)` (R172). -/
def validData (X : List Byte) : Except Raise Unit :=
  require (1 ≤ X.length ∧ X.length ≤ 4096 ∧ X.length % 16 = 0) .operandLen

/-- `CIPH(K, X)` (R173). DESIGN CHOICE (log 9): one ECB request. -/
def ciph (P : Provider) (K X : List Byte) : Except Raise (List Byte) := do
  validKey K
  validData X
  aesRequest P ⟨.ecb, K, X⟩

/-- The chain `Y_j = CIPH(K, Y_{j-1} xor X_j)` from `Y` on (R174). -/
def prfChain (P : Provider) (K : List Byte) : List Byte → List (List Byte) → Except Raise (List Byte)
  | Y, [] => pure Y
  | Y, X :: Xs => do
    let Y' ← ciph P K (xorBytes Y X)
    prfChain P K Y' Xs

/-- `PRF(K, X)` (R174). -/
def prf (P : Provider) (K X : List Byte) : Except Raise (List Byte) := do
  validKey K
  validData X
  prfChain P K (zeros 16) (blocksOf X)

/-- `PRF2(K, X)` (R176): the last 16 bytes of one CBC request. -/
def prf2 (P : Provider) (K X : List Byte) : Except Raise (List Byte) := do
  validKey K
  validData X
  let C ← aesRequest P ⟨.cbc0, K, X⟩
  pure (C.drop (X.length - 16))

/-- `OFF2(K, T)` (R290, R292): `CIPH` of exactly one block. -/
def off2 (P : Provider) (K T : List Byte) : Except Raise (List Byte) := do
  validKey K
  require (T.length = 16) .operandLen
  ciph P K T

end Sys2Proof.Machine
end

