-- ==== Sys2Proof/Machine/AdapterCommands.lean ====
section
/-!
DEFINITION. The adapter and offset commands: `CIPH`, `PRF`, `PRF2` (41), `OFF1`, `OFF2` (46). The key is `ra`, the data
`rb` (R118).
-/

namespace Sys2Proof.Machine

/-- `CIPH bsD, bsA, bsB` (R173). -/
def execCiph (rd ra rb : Reg) (s : State) : Host.Outcome State Fault Refusal :=
  s.finish do
    let K ← s.srcBs ra .nullKey
    let X ← s.srcBs rb
    let Y ← ciph s.provider K X
    pure (s.putBs rd Y)

/-- `PRF bsD, bsA, bsB` (R175). -/
def execPrf (rd ra rb : Reg) (s : State) : Host.Outcome State Fault Refusal :=
  s.finish do
    let K ← s.srcBs ra .nullKey
    let X ← s.srcBs rb
    let Y ← prf s.provider K X
    pure (s.putBs rd Y)

/-- `PRF2 bsD, bsA, bsB` (R177). -/
def execPrf2 (rd ra rb : Reg) (s : State) : Host.Outcome State Fault Refusal :=
  s.finish do
    let K ← s.srcBs ra .nullKey
    let X ← s.srcBs rb
    let Y ← prf2 s.provider K X
    pure (s.putBs rd Y)

/-- `OFF1 bsD, bsA, bsB` (R291): its sources are not read. -/
def execOff1 (rd : Reg) (s : State) : Host.Outcome State Fault Refusal := s.finish (.ok (s.putBs rd (zeros 16)))

/-- `OFF2 bsD, bsA, bsB` (R292). -/
def execOff2 (rd ra rb : Reg) (s : State) : Host.Outcome State Fault Refusal :=
  s.finish do
    let K ← s.srcBs ra .nullKey
    let T ← s.srcBs rb .nullTweak
    let Y ← off2 s.provider K T
    pure (s.putBs rd Y)

end Sys2Proof.Machine
end

