-- ==== Sys2Proof/Machine/Feistel.lean ====
section
/-!
DEFINITION. The generic FFX engine as pure functions: the arithmetic functions (R190 to R199), the split function and
round counter (R200, R201), the preconditions (R204 to R206) and the Feistel iteration (R207 to R209).
-/

namespace Sys2Proof.Machine

/-! ## The arithmetic function -/

/-- `arith_check(A, Y, radix)` (R190). -/
def arithCheck (A Y : List Word) (radix : Nat) : Except Raise Unit := do
  radixCheck radix
  require (A.length = Y.length) .operandLen
  require (1 ≤ A.length ∧ A.length ≤ 4096) .operandLen
  numeralCheck A radix
  numeralCheck Y radix

/-- The common form of the blockwise pair (R191): `op` on the two values, modulo `radix^m`. -/
def blockwise (op : Int → Int → Int) (radix : Nat) (A Y : List Word) : Except Raise (List Word) := do
  arithCheck A Y radix
  let a ← numRadix A radix
  let y ← numRadix Y radix
  let c ← modInt (op a y) (radix ^ A.length : Nat)
  strRadix c radix A.length

/-- `Add_blk(A, Y)` (R191). -/
def addBlk (radix : Nat) (A Y : List Word) : Except Raise (List Word) := blockwise (fun a y => a + y) radix A Y

/-- `Sub_blk(A, Y)` (R191). -/
def subBlk (radix : Nat) (A Y : List Word) : Except Raise (List Word) := blockwise (fun a y => a - y) radix A Y

/-- The common form of the reversed-blockwise pair (R194): `A` reversed before it is valued, the result reversed. -/
def reversedBlockwise (op : Int → Int → Int) (radix : Nat) (A Y : List Word) : Except Raise (List Word) := do
  arithCheck A Y radix
  let a ← numRadix (rev A) radix
  let y ← numRadix Y radix
  let c ← modInt (op a y) (radix ^ A.length : Nat)
  let C ← strRadix c radix A.length
  pure (rev C)

/-- `Add_rev(A, Y)` (R194). -/
def addRev (radix : Nat) (A Y : List Word) : Except Raise (List Word) :=
  reversedBlockwise (fun a y => a + y) radix A Y

/-- `Sub_rev(A, Y)` (R194). -/
def subRev (radix : Nat) (A Y : List Word) : Except Raise (List Word) :=
  reversedBlockwise (fun a y => a - y) radix A Y

/-- The common form of the characterwise pair (R197): `op` on each pair of numerals, modulo `radix`. -/
def characterwise (op : Int → Int → Int) (radix : Nat) (A Y : List Word) : Except Raise (List Word) := do
  arithCheck A Y radix
  pure (List.zipWith (fun a y : Word => BitVec.ofNat 32 (op a.toNat y.toNat % radix).toNat) A Y)

/-- `Add_chr(A, Y)` (R197). -/
def addChr (radix : Nat) (A Y : List Word) : Except Raise (List Word) := characterwise (fun a y => a + y) radix A Y

/-- `Sub_chr(A, Y)` (R197). -/
def subChr (radix : Nat) (A Y : List Word) : Except Raise (List Word) := characterwise (fun a y => a - y) radix A Y

/-- The `Add` that `MODE.ARITH` selects (R54, section 5 of 42). -/
def addBy (arith radix : Nat) : List Word → List Word → Except Raise (List Word) :=
  match arith with
  | 1 => addBlk radix
  | 2 => addRev radix
  | _ => addChr radix

/-- The `Sub` that `MODE.ARITH` selects (R54, section 5 of 42). -/
def subBy (arith radix : Nat) : List Word → List Word → Except Raise (List Word) :=
  match arith with
  | 1 => subBlk radix
  | 2 => subRev radix
  | _ => subChr radix

/-! ## Split function and round counter -/

/-- The left-partition length that `MODE.SPLIT` gives for `n` (R200), without the checks. -/
def splitLen (mode k n : Nat) : Nat :=
  match mode with
  | 1 => n / 2
  | 2 => (n + 1) / 2
  | _ => k

/-- `1 <= split(n) <= n-1` else `PARAM_INVALID(5)` (R200, R205). -/
def splitCheck (l n : Nat) : Except Raise Unit := require (1 ≤ l ∧ l ≤ n - 1) .paramInvalid 5

/-- `split(n)` (R200). -/
def splitOf (p : Params) (n : Nat) : Except Raise Nat := do
  require (p.split = 1 ∨ p.split = 2 ∨ p.split = 3) .paramInvalid 3
  splitCheck (splitLen p.split p.splitK.toNat n) n
  pure (splitLen p.split p.splitK.toNat n)

/-- `rounds(n)` (R201): the constant `ROUNDS`. -/
def roundsOf (p : Params) (_n : Nat) : Except Raise Nat := do
  require (p.rounds.toNat ≤ 255) .paramInvalid 4
  pure p.rounds.toNat

/-! ## Preconditions -/

/-- FF2's radix ranges (R204, R250): `2 <= radix <= 256` and `2 <= tradix <= 256`. -/
def ff2RadixCheck (radix tradix : Nat) : Except Raise Unit :=
  require ((2 ≤ radix ∧ radix ≤ 256) ∧ 2 ≤ tradix ∧ tradix ≤ 256) .radixRange

/-- `params_ok` (R204). -/
def paramsOk (p : Params) : Except Raise Unit := do
  require (p.method = 1 ∨ p.method = 2) .paramInvalid 0
  require (p.arith = 1 ∨ p.arith = 2 ∨ p.arith = 3) .paramInvalid 1
  require (p.rf = 1 ∨ p.rf = 2 ∨ p.rf = 3) .paramInvalid 2
  require (p.split = 1 ∨ p.split = 2 ∨ p.split = 3) .paramInvalid 3
  require (p.rounds.toNat ≤ 255) .paramInvalid 4
  radixCheck p.radix.toNat
  if p.rf = 2 then ff2RadixCheck p.radix.toNat p.tweakRadix.toNat else pure ()

/-- The entropy floor (R7, R205): `radix^n >= 100` else `ENTROPY`. -/
def entropyCheck (radix n : Nat) : Except Raise Unit := require (100 ≤ radix ^ n) .entropy

/-- The round-count floor (R206) for `r` rounds, split `l` of `n`. -/
def roundsFloor (method r l n : Nat) : Except Raise Unit :=
  if method = 2 ∨ l = n / 2 ∨ l = (n + 1) / 2 then require (8 ≤ r) .roundsFloor
  else require (4 * n ≤ r * l) .roundsFloor

/-! ## The Feistel iteration -/

/-- An error raised inside the rounds (R213): how many rounds were completed before it (R340). -/
structure RoundError where
  done  : Nat
  error : Raise
deriving DecidableEq, Repr

/-- `count` rounds from `x` on, `done` of them already completed; `f k` is the round performed after `k` others. -/
def iterate {σ : Type} (f : Nat → σ → Except Raise σ) : (count done : Nat) → σ → Except RoundError σ
  | 0, _, x => .ok x
  | count + 1, done, x =>
    match f done x with
    | .ok y => iterate f count (done + 1) y
    | .error e => .error ⟨done, e⟩

/-- What one run of the Feistel iteration is given: `n = len(X)`, `l = split(n)`, `r` rounds, the arithmetic pair and the
round function `F(K, n, T, i, B)` as a function of `i` and `B`. -/
structure Network where
  n   : Nat
  l   : Nat
  r   : Nat
  add : List Word → List Word → Except Raise (List Word)
  sub : List Word → List Word → Except Raise (List Word)
  F   : Nat → List Word → Except Raise (List Word)

/-- Round `i` of Method TWO, encrypt (R207). -/
def Network.twoEncRound (N : Network) (i : Nat) (x : List Word × List Word) :
    Except Raise (List Word × List Word) := do
  let y ← N.F i x.2
  let c ← N.add x.1 y
  pure (x.2, c)

/-- Round `i` of Method TWO, decrypt (R208): `C = B`, `B = A`, `A = Sub(C, F(K, n, T, i, B))`. -/
def Network.twoDecRound (N : Network) (i : Nat) (x : List Word × List Word) :
    Except Raise (List Word × List Word) := do
  let y ← N.F i x.1
  let a ← N.sub x.2 y
  pure (a, x.1)

/-- Round `i` of Method ONE, encrypt (R209): the string is cut anew at `l`. -/
def Network.oneEncRound (N : Network) (i : Nat) (X : List Word) : Except Raise (List Word) := do
  let y ← N.F i (X.drop N.l)
  let c ← N.add (X.take N.l) y
  pure (X.drop N.l ++ c)

/-- Round `i` of Method ONE, decrypt (R209). -/
def Network.oneDecRound (N : Network) (i : Nat) (X : List Word) : Except Raise (List Word) := do
  let y ← N.F i (X.take (N.n - N.l))
  let a ← N.sub (X.drop (N.n - N.l)) y
  pure (a ++ X.take (N.n - N.l))

/-- Method TWO, encrypt (R207). -/
def Network.twoEnc (N : Network) (X : List Word) : Except RoundError (List Word) := do
  let x ← iterate N.twoEncRound N.r 0 (X.take N.l, X.drop N.l)
  pure (x.1 ++ x.2)

/-- Where Method TWO's decrypt cuts its input (R208): `l` if `r` is even, `n - l` if it is odd. -/
def Network.decCut (N : Network) : Nat := if N.r % 2 = 0 then N.l else N.n - N.l

/-- Method TWO, decrypt (R208): the rounds from `r-1` down to 0. -/
def Network.twoDec (N : Network) (Y : List Word) : Except RoundError (List Word) := do
  let x ← iterate (fun k => N.twoDecRound (N.r - 1 - k)) N.r 0 (Y.take N.decCut, Y.drop N.decCut)
  pure (x.1 ++ x.2)

/-- Method ONE, encrypt (R209). -/
def Network.oneEnc (N : Network) (X : List Word) : Except RoundError (List Word) := iterate N.oneEncRound N.r 0 X

/-- Method ONE, decrypt (R209): the rounds from `r-1` down to 0. -/
def Network.oneDec (N : Network) (X : List Word) : Except RoundError (List Word) :=
  iterate (fun k => N.oneDecRound (N.r - 1 - k)) N.r 0 X

/-- `encrypt` by the method `MODE.METHOD` selects (R210). -/
def Network.encrypt (N : Network) (method : Nat) (X : List Word) : Except RoundError (List Word) :=
  if method = 1 then N.oneEnc X else N.twoEnc X

/-- `decrypt` by the method `MODE.METHOD` selects (R211). -/
def Network.decrypt (N : Network) (method : Nat) (Y : List Word) : Except RoundError (List Word) :=
  if method = 1 then N.oneDec Y else N.twoDec Y

end Sys2Proof.Machine
end

