-- ==== Sys2Proof/Machine/RoundFunctions.lean ====
section
/-!
DEFINITION. The three round functions `F(K, n, T, i, B)` (R202): FF1 (R231 to R235), FF2 (R250 to R255) and FF3 (R271 to
R275), as pure functions of the provider; and the lengths the parameter sets compute (R257, R277).
-/

namespace Sys2Proof.Machine

/-- The length of the round function's result: `u` on even rounds, `n - u` on odd ones (R231, R254, R271). -/
def halfLen (u n i : Nat) : Nat := if i % 2 = 0 then u else n - u

/-! ## FF1 -/

/-- `b` (R231): how many bytes hold any `v`-numeral value. -/
def ff1B (radix n : Nat) : Nat := (ceilLog2 (radix ^ (n - n / 2)) + 7) / 8

/-- `d` (R231): how many bytes of `S`. -/
def ff1D (radix n : Nat) : Nat := 4 * ((ff1B radix n + 3) / 4) + 4

/-- The header `P` (R232). -/
def ff1P (radix n t : Nat) : Except Raise (List Byte) := do
  let radix3 ← bytestring radix 3
  let n4 ← bytestring n 4
  let t4 ← bytestring t 4
  pure ([0x01, 0x02, 0x01] ++ radix3 ++ [0x0A] ++ bytesOf 1 (n / 2 % 256) ++ n4 ++ t4)

/-- The number of zero bytes in `Q` (R233): `mod(-t-b-1, 16)`. -/
def ff1Pad (t b : Nat) : Nat := ((-(t : Int) - b - 1) % 16).toNat

/-- `Q` (R233), its steps (a) to (d) in order. -/
def ff1Q (radix b : Nat) (T : List Byte) (i : Nat) (B : List Word) : Except Raise (List Byte) := do
  let x ← numRadix B radix
  let Bx ← bytestring x b
  let I ← bytestring i 1
  let T0 ← concatenate T (zeros (ff1Pad T.length b))
  let T1 ← concatenate T0 I
  concatenate T1 Bx

/-- The blocks `CIPH(K, R xor [j]_16)` for `count` values of `j` from `j` on, concatenated (R234). -/
def ff1Expand (P : Provider) (K R : List Byte) : (count j : Nat) → Except Raise (List Byte)
  | 0, _ => pure []
  | count + 1, j => do
    let J ← bytestring j 16
    let X ← xorStrings R J
    let Y ← ciph P K X
    let rest ← ff1Expand P K R count (j + 1)
    pure (Y ++ rest)

/-- `S` (R234): the first `d` bytes of `R` and the blocks that extend it, `ceil(d/16)` blocks in all. -/
def ff1S (P : Provider) (K PQ : List Byte) (d : Nat) : Except Raise (List Byte) := do
  let R ← prf P K PQ
  let more ← ff1Expand P K R (ceilDiv d 16 - 1) 1
  pure ((R ++ more).take d)

/-- `F_FF1(K, n, T, i, B)` (R235). -/
def fFF1 (P : Provider) (radix : Nat) (K : List Byte) (n : Nat) (T : List Byte) (i : Nat) (B : List Word) :
    Except Raise (List Word) := do
  let header ← ff1P radix n T.length
  let Q ← ff1Q radix (ff1B radix n) T i B
  let PQ ← concatenate header Q
  let S ← ff1S P K PQ (ff1D radix n)
  let y ← num S
  strRadix (y % radix ^ halfLen (n / 2) n i : Nat) radix (halfLen (n / 2) n i)

/-! ## FF2 -/

/-- For the least `j` with `T[j] >= tradix`, `raise TWEAK_DIGIT(j)` (R251). -/
def tweakDigitCheck (T : List Byte) (tradix : Nat) : Except Raise Unit :=
  match T.findIdx? fun d => decide (tradix ≤ d.toNat) with
  | none => .ok ()
  | some j => .error ⟨.tweakDigit, j⟩

/-- `NUM_tweakRadix(T)` (R251): `NUM_radix` on the tweak's bytes, with `TWEAK_DIGIT` for `NUMERAL_RANGE`. -/
def numTweak (T : List Byte) (tradix : Nat) : Except Raise Nat := do
  radixCheck tradix
  require (1 ≤ T.length ∧ T.length ≤ 4096) .operandLen
  tweakDigitCheck T tradix
  pure (valueOf tradix (T.map BitVec.toNat))

/-- The 13-byte field of FF2's `P` (R252 (d)): zero-filled for the empty tweak. -/
def ff2TweakField (tradix : Nat) (T : List Byte) : Except Raise (List Byte) :=
  if T.length = 0 then pure (zeros 13)
  else do
    let w ← numTweak T tradix
    bytestring w 13

/-- FF2's `P` (R252), its steps (a) to (e) in order. -/
def ff2P (radix tradix n : Nat) (T : List Byte) : Except Raise (List Byte) := do
  let radix1 ← bytestring radix 1
  let t1 ← bytestring T.length 1
  let n1 ← bytestring n 1
  let w13 ← ff2TweakField tradix T
  pure (radix1 ++ t1 ++ n1 ++ w13)

/-- `F_FF2(K, n, T, i, B)` (R253, R254, R255). -/
def fFF2 (P : Provider) (radix tradix : Nat) (K : List Byte) (n : Nat) (T : List Byte) (i : Nat) (B : List Word) :
    Except Raise (List Word) := do
  let header ← ff2P radix tradix n T
  let J ← ciph P K header
  let x ← numRadix B radix
  let Bx ← bytestring x 15
  let I ← bytestring i 1
  let Y ← ciph P J (I ++ Bx)
  let y ← num Y
  strRadix (y % radix ^ halfLen (n / 2) n i : Nat) radix (halfLen (n / 2) n i)

/-- `maxlen(radix)` of FF2 (R257). -/
def ff2Maxlen (radix : Nat) : Nat :=
  if 2 ^ radix.log2 = radix then max 2 (2 * cap radix 120) else 2 * cap radix 98

/-- `maxTlen(tradix)` of FF2 (R257). -/
def ff2MaxTlen (tradix : Nat) : Nat := cap tradix 104 - 1

/-! ## FF3 -/

/-- `W` (R271): `T_R = T[4:8]` on even rounds, `T_L = T[0:4]` on odd ones. -/
def ff3W (T : List Byte) (i : Nat) : List Byte := if i % 2 = 0 then (T.drop 4).take 4 else T.take 4

/-- FF3's `P` (R272), its steps (a) to (d) in order. -/
def ff3P (radix : Nat) (T : List Byte) (i : Nat) (B : List Word) : Except Raise (List Byte) := do
  let x ← numRadix (rev B) radix
  let Bx ← bytestring x 12
  let I ← bytestring i 4
  let W ← xorStrings (ff3W T i) I
  pure (W ++ Bx)

/-- `F_FF3(K, n, T, i, B)` (R271, R273, R274, R275). -/
def fFF3 (P : Provider) (radix : Nat) (K : List Byte) (n : Nat) (T : List Byte) (i : Nat) (B : List Word) :
    Except Raise (List Word) := do
  require (T.length = 8) .tweakLen
  let header ← ff3P radix T i B
  let S ← ciph P (rev K) (rev header)
  let y ← num (rev S)
  strRadix (y % radix ^ halfLen ((n + 1) / 2) n i : Nat) radix (halfLen ((n + 1) / 2) n i)

/-- `minlen(radix)` of FF3 (R277): the least `L >= 2` with `radix^L >= 100`; for `radix >= 2` it is at most 7. -/
def ff3Minlen (radix : Nat) : Nat :=
  ((List.range 8).find? fun L => decide (2 ≤ L) && decide (100 ≤ radix ^ L)).getD 7

/-- `maxlen(radix)` of FF3 (R277). -/
def ff3Maxlen (radix : Nat) : Nat := 2 * cap radix 96

/-! ## Selection -/

/-- `F(K, n, T, i, B)` as `MODE.RF` selects it (R202), for a selection the checks have passed. -/
def roundFunction (P : Provider) (rf radix tradix : Nat) (K : List Byte) (n : Nat) (T : List Byte) (i : Nat)
    (B : List Word) : Except Raise (List Word) :=
  match rf with
  | 1 => fFF1 P radix K n T i B
  | 2 => fFF2 P radix tradix K n T i B
  | _ => fFF3 P radix K n T i B

end Sys2Proof.Machine
end

