-- ==== Sys2Proof/Machine/CipherCommands.lean ====
section
/-!
DEFINITION. The cipher commands: the generic ENC and DEC (R204 to R211), and the direct FF1ENC, FF1DEC (R239 to R241),
FF2ENC, FF2DEC (R259 to R261).
-/

namespace Sys2Proof.Machine

/-- The operands of a cipher command: key, tweak, input numerals. -/
structure CipherInput where
  K : List Byte
  T : List Byte
  X : List Word
deriving DecidableEq, Repr

/-- The presence checks of a cipher command, in their order: key, tweak, input (R205, R240, R260). -/
def State.cipherInput (s : State) (ra : Reg) : Except Raise CipherInput := do
  let K ← s.key
  let T ← s.tweak
  let X ← s.srcNs ra
  pure ⟨K, T, X⟩

/-- The end of a cipher command of `total` rounds. `job` is an error raised before the rounds, or what the rounds gave:
an error inside them, or the result for `ns[rd]`. `PROG` as R340 says for each. -/
def State.finishCipher (s : State) (rd : Reg) (total : Nat) (job : Except Raise (Except RoundError (List Word))) :
    Host.Outcome State Fault Refusal :=
  match job with
  | .error e => .next (s.enterError e)
  | .ok (.error f) => .next (s.enterError f.error ⟨total, f.done⟩)
  | .ok (.ok Y) => .next ((s.putNs rd Y).complete ⟨total, total⟩)

/-! ## The generic engine -/

/-- `split(n)` by the parameter registers, once `params_ok` holds (R200). -/
def Params.splitAt (p : Params) (n : Nat) : Nat := splitLen p.split p.splitK.toNat n

/-- Items 2 to 9 of `precheck` (R205). -/
def Params.precheck (p : Params) (x : CipherInput) : Except Raise Unit := do
  paramsOk p
  validKey x.K
  require (p.mintlen.toNat ≤ x.T.length ∧ x.T.length ≤ p.maxtlen.toNat) .tweakLen
  require ((p.minlen.toNat ≤ x.X.length ∧ x.X.length ≤ p.maxlenP.toNat) ∧ 2 ≤ x.X.length) .inputLen
  entropyCheck p.radix.toNat x.X.length
  numeralCheck x.X p.radix.toNat
  splitCheck (p.splitAt x.X.length) x.X.length
  roundsFloor p.method p.rounds.toNat (p.splitAt x.X.length) x.X.length

/-- The Feistel network the parameter registers describe, for an input of `n` numerals (section 5 of 42). -/
def Params.network (p : Params) (P : Provider) (K T : List Byte) (n : Nat) : Network where
  n   := n
  l   := p.splitAt n
  r   := p.rounds.toNat
  add := addBy p.arith p.radix.toNat
  sub := subBy p.arith p.radix.toNat
  F   := fun i B => roundFunction P p.rf p.radix.toNat p.tweakRadix.toNat K n T i B

/-- `ENC nsD, nsA` (R210). -/
def execEnc (rd ra : Reg) (s : State) : Host.Outcome State Fault Refusal :=
  s.finishCipher rd s.params.rounds.toNat do
    let x ← s.cipherInput ra
    s.params.precheck x
    pure ((s.params.network s.provider x.K x.T x.X.length).encrypt s.params.method x.X)

/-- `DEC nsD, nsA` (R211). -/
def execDec (rd ra : Reg) (s : State) : Host.Outcome State Fault Refusal :=
  s.finishCipher rd s.params.rounds.toNat do
    let x ← s.cipherInput ra
    s.params.precheck x
    pure ((s.params.network s.provider x.K x.T x.X.length).decrypt s.params.method x.X)

/-! ## FF1, direct -/

/-- The checks of `FF1ENC` and `FF1DEC` after presence (R240). -/
def ff1Precheck (radix maxTlen : Nat) (x : CipherInput) : Except Raise Unit := do
  radixCheck radix
  validKey x.K
  require (x.T.length ≤ maxTlen) .tweakLen
  require (2 ≤ x.X.length) .inputLen
  entropyCheck radix x.X.length
  numeralCheck x.X radix

/-- The Feistel network with the FF1 values (R239, R240): Method TWO, blockwise, 10 rounds, split `floor(n/2)`. -/
def ff1Network (P : Provider) (radix : Nat) (K T : List Byte) (n : Nat) : Network where
  n   := n
  l   := n / 2
  r   := 10
  add := addBlk radix
  sub := subBlk radix
  F   := fun i B => fFF1 P radix K n T i B

/-- `FF1ENC nsD, nsA` (R240). -/
def execFf1enc (rd ra : Reg) (s : State) : Host.Outcome State Fault Refusal :=
  s.finishCipher rd 10 do
    let x ← s.cipherInput ra
    ff1Precheck s.params.radix.toNat s.params.maxtlen.toNat x
    pure ((ff1Network s.provider s.params.radix.toNat x.K x.T x.X.length).twoEnc x.X)

/-- `FF1DEC nsD, nsA` (R241). -/
def execFf1dec (rd ra : Reg) (s : State) : Host.Outcome State Fault Refusal :=
  s.finishCipher rd 10 do
    let x ← s.cipherInput ra
    ff1Precheck s.params.radix.toNat s.params.maxtlen.toNat x
    pure ((ff1Network s.provider s.params.radix.toNat x.K x.T x.X.length).twoDec x.X)

/-! ## FF2, direct -/

/-- The checks of `FF2ENC` and `FF2DEC` after presence (R260). -/
def ff2Precheck (radix tradix : Nat) (x : CipherInput) : Except Raise Unit := do
  ff2RadixCheck radix tradix
  validKey x.K
  require (x.T.length ≤ ff2MaxTlen tradix) .tweakLen
  require (2 ≤ x.X.length ∧ x.X.length ≤ ff2Maxlen radix) .inputLen
  entropyCheck radix x.X.length
  numeralCheck x.X radix

/-- The Feistel network with the FF2 values (R259, R260). -/
def ff2Network (P : Provider) (radix tradix : Nat) (K T : List Byte) (n : Nat) : Network where
  n   := n
  l   := n / 2
  r   := 10
  add := addBlk radix
  sub := subBlk radix
  F   := fun i B => fFF2 P radix tradix K n T i B

/-- `FF2ENC nsD, nsA` (R260). -/
def execFf2enc (rd ra : Reg) (s : State) : Host.Outcome State Fault Refusal :=
  s.finishCipher rd 10 do
    let x ← s.cipherInput ra
    ff2Precheck s.params.radix.toNat s.params.tweakRadix.toNat x
    pure ((ff2Network s.provider s.params.radix.toNat s.params.tweakRadix.toNat x.K x.T x.X.length).twoEnc x.X)

/-- `FF2DEC nsD, nsA` (R261). -/
def execFf2dec (rd ra : Reg) (s : State) : Host.Outcome State Fault Refusal :=
  s.finishCipher rd 10 do
    let x ← s.cipherInput ra
    ff2Precheck s.params.radix.toNat s.params.tweakRadix.toNat x
    pure ((ff2Network s.provider s.params.radix.toNat s.params.tweakRadix.toNat x.K x.T x.X.length).twoDec x.X)

end Sys2Proof.Machine
end

