-- ==== Sys2Proof/Machine/EngineCommands.lean ====
section
/-!
DEFINITION. The arithmetic commands, `SPLIT` and `RNDS` (42, sections 1 and 2). The radix is the `RADIX` register (R119).
-/

namespace Sys2Proof.Machine

/-- The common form of the six arithmetic commands (R192): two `ns` sources, one `ns` destination. -/
def State.arithmetic (s : State) (f : Nat → List Word → List Word → Except Raise (List Word)) (rd ra rb : Reg) :
    Host.Outcome State Fault Refusal :=
  s.finish do
    let A ← s.srcNs ra
    let Y ← s.srcNs rb
    let C ← f s.params.radix.toNat A Y
    pure (s.putNs rd C)

/-- `ADDBLK nsD, nsA, nsB` (R192). -/
def execAddblk (rd ra rb : Reg) (s : State) : Host.Outcome State Fault Refusal := s.arithmetic addBlk rd ra rb

/-- `SUBBLK nsD, nsA, nsB` (R193). -/
def execSubblk (rd ra rb : Reg) (s : State) : Host.Outcome State Fault Refusal := s.arithmetic subBlk rd ra rb

/-- `ADDREV nsD, nsA, nsB` (R195). -/
def execAddrev (rd ra rb : Reg) (s : State) : Host.Outcome State Fault Refusal := s.arithmetic addRev rd ra rb

/-- `SUBREV nsD, nsA, nsB` (R196). -/
def execSubrev (rd ra rb : Reg) (s : State) : Host.Outcome State Fault Refusal := s.arithmetic subRev rd ra rb

/-- `ADDCHR nsD, nsA, nsB` (R198). -/
def execAddchr (rd ra rb : Reg) (s : State) : Host.Outcome State Fault Refusal := s.arithmetic addChr rd ra rb

/-- `SUBCHR nsD, nsA, nsB` (R199). -/
def execSubchr (rd ra rb : Reg) (s : State) : Host.Outcome State Fault Refusal := s.arithmetic subChr rd ra rb

/-- The check of `ARG0 = n` in `SPLIT` and `RNDS` (R200, R201). -/
def lengthArgCheck (n : Nat) : Except Raise Unit := require (2 ≤ n ∧ n ≤ 4096) .argRange

/-- `SPLIT` (R200): `RES0 <- split(ARG0)`. -/
def execSplit (s : State) : Host.Outcome State Fault Refusal :=
  s.finish do
    lengthArgCheck s.scalar0
    let l ← splitOf s.params s.scalar0
    pure { s with res0 := BitVec.ofNat 32 l }

/-- `RNDS` (R201): `RES0 <- ROUNDS`. -/
def execRnds (s : State) : Host.Outcome State Fault Refusal :=
  s.finish do
    lengthArgCheck s.scalar0
    let r ← roundsOf s.params s.scalar0
    pure { s with res0 := BitVec.ofNat 32 r }

end Sys2Proof.Machine
end

