-- ==== Sys2Proof/Machine/LoadCommands.lean ====
section
/-!
DEFINITION. The parameter-load commands LDFF1 (R238), LDFF2 (R258), LDFF3 (R278): all nine parameter registers, or on an
error none.
-/

namespace Sys2Proof.Machine

/-- `FF1Parameters(radix, maxTlen)` (R237) as R238 lays them out. -/
def ff1Params (radix maxTlen : Word) : Params :=
  { radix := radix, tweakRadix := 0, minlen := 2, maxlenP := 4096, mintlen := 0, maxtlen := maxTlen, rounds := 10,
    mode := 0x56, splitK := 0 }

/-- FF2's parameters (R257) as R258 lays them out. -/
def ff2Params (radix tradix : Word) : Params :=
  { radix := radix, tweakRadix := tradix, minlen := 2, maxlenP := BitVec.ofNat 32 (ff2Maxlen radix.toNat),
    mintlen := 0, maxtlen := BitVec.ofNat 32 (ff2MaxTlen tradix.toNat), rounds := 10, mode := 0x96, splitK := 0 }

/-- FF3's parameters (R277) as R278 lays them out. -/
def ff3Params (radix : Word) : Params :=
  { radix := radix, tweakRadix := 0, minlen := BitVec.ofNat 32 (ff3Minlen radix.toNat),
    maxlenP := BitVec.ofNat 32 (ff3Maxlen radix.toNat), mintlen := 8, maxtlen := 8, rounds := 8, mode := 0xEA,
    splitK := 0 }

/-- `LDFF1` (R238): `ARG0` = radix, `ARG1` = maxTlen. -/
def execLdff1 (s : State) : Host.Outcome State Fault Refusal :=
  s.finish do
    radixCheck s.scalar0
    require (s.scalar1 ≤ 4096) .argRange
    pure { s with params := ff1Params s.arg0 s.arg1 }

/-- `LDFF2` (R258): `ARG0` = radix, `ARG1` = tweakRadix. -/
def execLdff2 (s : State) : Host.Outcome State Fault Refusal :=
  s.finish do
    require (2 ≤ s.scalar0 ∧ s.scalar0 ≤ 256) .radixRange
    require (2 ≤ s.scalar1 ∧ s.scalar1 ≤ 256) .radixRange
    pure { s with params := ff2Params s.arg0 s.arg1 }

/-- `LDFF3` (R278): `ARG0` = radix. -/
def execLdff3 (s : State) : Host.Outcome State Fault Refusal :=
  s.finish do
    radixCheck s.scalar0
    pure { s with params := ff3Params s.arg0 }

end Sys2Proof.Machine
end

