-- ==== Sys2Proof/Machine/Primitives.lean ====
section
/-!
DEFINITION. The primitive commands (40): each reads its sources in the order `ra`, `rb`, applies the function of its rule
and writes its destination.
-/

namespace Sys2Proof.Machine

/-- `NUM bnD, bsA` (R131). -/
def execNum (rd ra : Reg) (s : State) : Host.Outcome State Fault Refusal :=
  s.finish do
    let X ← s.srcBs ra
    let x ← num X
    pure (s.putBn rd x)

/-- `NUMR bnD, nsA` (R133): `ARG0` = radix. -/
def execNumr (rd ra : Reg) (s : State) : Host.Outcome State Fault Refusal :=
  s.finish do
    let X ← s.srcNs ra
    let x ← numRadix X s.scalar0
    pure (s.putBn rd x)

/-- `STR nsD, bnA` (R136): `ARG0` = radix, `ARG1` = m. -/
def execStr (rd ra : Reg) (s : State) : Host.Outcome State Fault Refusal :=
  s.finish do
    let x ← s.srcBn ra
    let Y ← strRadix x s.scalar0 s.scalar1
    pure (s.putNs rd Y)

/-- `BYTESTR bsD, bnA` (R140): `ARG0` = s. -/
def execBytestr (rd ra : Reg) (s : State) : Host.Outcome State Fault Refusal :=
  s.finish do
    let x ← s.srcBn ra
    let Y ← bytestring x s.scalar0
    pure (s.putBs rd Y)

/-- `BYTESTRI bsD` (R141): `ARG0` = s, `ARG1` = x. -/
def execBytestri (rd : Reg) (s : State) : Host.Outcome State Fault Refusal :=
  s.finish do
    let Y ← bytestring s.scalar1 s.scalar0
    pure (s.putBs rd Y)

/-- `BITSTR bsD` (R143): `ARG0` = s, `ARG1` = bit. -/
def execBitstr (rd : Reg) (s : State) : Host.Outcome State Fault Refusal :=
  s.finish do
    let Y ← bitstring s.scalar1 s.scalar0
    pure (s.putBs rd Y)

/-- `CATB bsD, bsA, bsB` (R145). -/
def execCatb (rd ra rb : Reg) (s : State) : Host.Outcome State Fault Refusal :=
  s.finish do
    let X ← s.srcBs ra
    let Y ← s.srcBs rb
    let Z ← concatenate X Y
    pure (s.putBs rd Z)

/-- `CATN nsD, nsA, nsB` (R146): no radix check. -/
def execCatn (rd ra rb : Reg) (s : State) : Host.Outcome State Fault Refusal :=
  s.finish do
    let X ← s.srcNs ra
    let Y ← s.srcNs rb
    let Z ← concatenate X Y
    pure (s.putNs rd Z)

/-- `XORB bsD, bsA, bsB` (R148). -/
def execXorb (rd ra rb : Reg) (s : State) : Host.Outcome State Fault Refusal :=
  s.finish do
    let X ← s.srcBs ra
    let Y ← s.srcBs rb
    let Z ← xorStrings X Y
    pure (s.putBs rd Z)

/-- `REV nsD, nsA` (R150). -/
def execRev (rd ra : Reg) (s : State) : Host.Outcome State Fault Refusal :=
  s.finish do
    let X ← s.srcNs ra
    pure (s.putNs rd (rev X))

/-- `REVB bsD, bsA` (R151). -/
def execRevb (rd ra : Reg) (s : State) : Host.Outcome State Fault Refusal :=
  s.finish do
    let X ← s.srcBs ra
    pure (s.putBs rd (rev X))

/-- `MOD bnD, bnA, bnB` (R154). -/
def execMod (rd ra rb : Reg) (s : State) : Host.Outcome State Fault Refusal :=
  s.finish do
    let x ← s.srcBn ra
    let m ← s.srcBn rb
    let r ← modInt x m
    pure (s.putBn rd r)

/-- `POWR bnD` (R156): `ARG0` = radix, `ARG1` = m. -/
def execPowr (rd : Reg) (s : State) : Host.Outcome State Fault Refusal :=
  s.finish do
    radixCheck s.scalar0
    require (s.scalar1 ≤ 4096) .argRange
    pure (s.putBn rd (s.scalar0 ^ s.scalar1 : Nat))

/-- `BNADD bnD, bnA, bnB` (R157). -/
def execBnadd (rd ra rb : Reg) (s : State) : Host.Outcome State Fault Refusal :=
  s.finish do
    let x ← s.srcBn ra
    let y ← s.srcBn rb
    let z ← capacityCheck s.cfg.bnbits (x + y)
    pure (s.putBn rd z)

/-- `BNSUB bnD, bnA, bnB` (R158). -/
def execBnsub (rd ra rb : Reg) (s : State) : Host.Outcome State Fault Refusal :=
  s.finish do
    let x ← s.srcBn ra
    let y ← s.srcBn rb
    let z ← capacityCheck s.cfg.bnbits (x - y)
    pure (s.putBn rd z)

end Sys2Proof.Machine
end

