-- ==== Sys2Proof/Machine/RoundCommands.lean ====
section
/-!
DEFINITION. The round-function commands FRND (R203), F1RND (R236), F2RND (R256), F3RND (R276): `K = bs0`, `T = bs1`,
`B = ns[ra]`, `ARG0 = n`, `ARG1 = i`.
-/

namespace Sys2Proof.Machine

/-- The operands of a round-function command. -/
structure RoundInput where
  K : List Byte
  T : List Byte
  B : List Word
deriving DecidableEq, Repr

/-- The presence checks of a round-function command, in their order: key, tweak, input. -/
def State.roundInput (s : State) (ra : Reg) : Except Raise RoundInput := do
  let K ← s.key
  let T ← s.tweak
  let B ← s.srcNs ra
  pure ⟨K, T, B⟩

/-- `2 <= ARG0 <= 4096` and `ARG1 <= 255` else `ARG_RANGE`. -/
def State.roundArgCheck (s : State) : Except Raise Unit :=
  require ((2 ≤ s.scalar0 ∧ s.scalar0 ≤ 4096) ∧ s.scalar1 ≤ 255) .argRange

/-- What `F1RND` does after its presence checks (R236). -/
def State.ff1Round (s : State) (x : RoundInput) : Except Raise (List Word) := do
  radixCheck s.params.radix.toNat
  validKey x.K
  s.roundArgCheck
  fFF1 s.provider s.params.radix.toNat x.K s.scalar0 x.T s.scalar1 x.B

/-- What `F2RND` does after its presence checks (R256). -/
def State.ff2Round (s : State) (x : RoundInput) : Except Raise (List Word) := do
  ff2RadixCheck s.params.radix.toNat s.params.tweakRadix.toNat
  validKey x.K
  s.roundArgCheck
  fFF2 s.provider s.params.radix.toNat s.params.tweakRadix.toNat x.K s.scalar0 x.T s.scalar1 x.B

/-- What `F3RND` does after its presence checks (R276). -/
def State.ff3Round (s : State) (x : RoundInput) : Except Raise (List Word) := do
  radixCheck s.params.radix.toNat
  validKey x.K
  s.roundArgCheck
  fFF3 s.provider s.params.radix.toNat x.K s.scalar0 x.T s.scalar1 x.B

/-- `FRND nsD, nsA` (R203): the round function that `MODE.RF` selects. -/
def execFrnd (rd ra : Reg) (s : State) : Host.Outcome State Fault Refusal :=
  s.finish do
    let x ← s.roundInput ra
    require (s.params.rf = 1 ∨ s.params.rf = 2 ∨ s.params.rf = 3) .paramInvalid 2
    let Y ← if s.params.rf = 1 then s.ff1Round x else if s.params.rf = 2 then s.ff2Round x else s.ff3Round x
    pure (s.putNs rd Y)

/-- `F1RND nsD, nsA` (R236). -/
def execF1rnd (rd ra : Reg) (s : State) : Host.Outcome State Fault Refusal :=
  s.finish do
    let x ← s.roundInput ra
    let Y ← s.ff1Round x
    pure (s.putNs rd Y)

/-- `F2RND nsD, nsA` (R256). -/
def execF2rnd (rd ra : Reg) (s : State) : Host.Outcome State Fault Refusal :=
  s.finish do
    let x ← s.roundInput ra
    let Y ← s.ff2Round x
    pure (s.putNs rd Y)

/-- `F3RND nsD, nsA` (R276). -/
def execF3rnd (rd ra : Reg) (s : State) : Host.Outcome State Fault Refusal :=
  s.finish do
    let x ← s.roundInput ra
    let Y ← s.ff3Round x
    pure (s.putNs rd Y)

end Sys2Proof.Machine
end

