-- ==== Sys2Proof/Machine/System.lean ====
section
/-!
DEFINITION. The system commands NOP, CLR and WIPE (R296 to R298).
-/

namespace Sys2Proof.Machine

/-- `NOP` (R296): nothing is computed; normal completion. -/
def execNop (s : State) : Host.Outcome State Fault Refusal := s.finish (.ok s)

/-- `CLR` (R297): the return from the error state; ends in IDLE. -/
def execClr (s : State) : Host.Outcome State Fault Refusal := .next s.toIdle

/-- Every data register absent with zero storage, and the scalars 0 (R298). -/
def State.wiped (s : State) : State :=
  { s with
    ns   := Quad.all (StrReg.absent Store.zeros)
    bs   := Quad.all (StrReg.absent Store.zeros)
    bn   := Quad.all BnReg.absent
    arg0 := 0
    arg1 := 0
    res0 := 0 }

/-- `WIPE` (R298): no operand survives in storage; then as `CLR`. -/
def execWipe (s : State) : Host.Outcome State Fault Refusal := .next s.wiped.toIdle

end Sys2Proof.Machine
end

