-- ==== Sys2Proof/Machine/Dispatch.lean ====
section
/-!
DEFINITION. Which meaning each command has: one arm per constructor of Instr, in the order of R115.
-/

namespace Sys2Proof.Machine

def exec (i : Instr) (s : State) : Host.Outcome State Fault Refusal :=
  match i with
  | .nop => Sys2Proof.Machine.execNop s
  | .clr => Sys2Proof.Machine.execClr s
  | .wipe => Sys2Proof.Machine.execWipe s
  | .num rd ra => Sys2Proof.Machine.execNum rd ra s
  | .numr rd ra => Sys2Proof.Machine.execNumr rd ra s
  | .str rd ra => Sys2Proof.Machine.execStr rd ra s
  | .bytestr rd ra => Sys2Proof.Machine.execBytestr rd ra s
  | .bytestri rd => Sys2Proof.Machine.execBytestri rd s
  | .bitstr rd => Sys2Proof.Machine.execBitstr rd s
  | .catb rd ra rb => Sys2Proof.Machine.execCatb rd ra rb s
  | .catn rd ra rb => Sys2Proof.Machine.execCatn rd ra rb s
  | .xorb rd ra rb => Sys2Proof.Machine.execXorb rd ra rb s
  | .rev rd ra => Sys2Proof.Machine.execRev rd ra s
  | .revb rd ra => Sys2Proof.Machine.execRevb rd ra s
  | .mod rd ra rb => Sys2Proof.Machine.execMod rd ra rb s
  | .powr rd => Sys2Proof.Machine.execPowr rd s
  | .bnadd rd ra rb => Sys2Proof.Machine.execBnadd rd ra rb s
  | .bnsub rd ra rb => Sys2Proof.Machine.execBnsub rd ra rb s
  | .ciph rd ra rb => Sys2Proof.Machine.execCiph rd ra rb s
  | .prf rd ra rb => Sys2Proof.Machine.execPrf rd ra rb s
  | .prf2 rd ra rb => Sys2Proof.Machine.execPrf2 rd ra rb s
  | .off1 rd _ _ => Sys2Proof.Machine.execOff1 rd s
  | .off2 rd ra rb => Sys2Proof.Machine.execOff2 rd ra rb s
  | .addblk rd ra rb => Sys2Proof.Machine.execAddblk rd ra rb s
  | .subblk rd ra rb => Sys2Proof.Machine.execSubblk rd ra rb s
  | .addrev rd ra rb => Sys2Proof.Machine.execAddrev rd ra rb s
  | .subrev rd ra rb => Sys2Proof.Machine.execSubrev rd ra rb s
  | .addchr rd ra rb => Sys2Proof.Machine.execAddchr rd ra rb s
  | .subchr rd ra rb => Sys2Proof.Machine.execSubchr rd ra rb s
  | .split => Sys2Proof.Machine.execSplit s
  | .rnds => Sys2Proof.Machine.execRnds s
  | .frnd rd ra => Sys2Proof.Machine.execFrnd rd ra s
  | .f1rnd rd ra => Sys2Proof.Machine.execF1rnd rd ra s
  | .f2rnd rd ra => Sys2Proof.Machine.execF2rnd rd ra s
  | .f3rnd rd ra => Sys2Proof.Machine.execF3rnd rd ra s
  | .ldff1 => Sys2Proof.Machine.execLdff1 s
  | .ldff2 => Sys2Proof.Machine.execLdff2 s
  | .ldff3 => Sys2Proof.Machine.execLdff3 s
  | .enc rd ra => Sys2Proof.Machine.execEnc rd ra s
  | .dec rd ra => Sys2Proof.Machine.execDec rd ra s
  | .ff1enc rd ra => Sys2Proof.Machine.execFf1enc rd ra s
  | .ff1dec rd ra => Sys2Proof.Machine.execFf1dec rd ra s
  | .ff2enc rd ra => Sys2Proof.Machine.execFf2enc rd ra s
  | .ff2dec rd ra => Sys2Proof.Machine.execFf2dec rd ra s

end Sys2Proof.Machine
end

