-- ==== Sys2Proof/Machine/Step.lean ====
section
/-!
DEFINITION. One step of the machine, and where the step finds its next instruction.
-/

namespace Sys2Proof.Machine

/-- One step (R4, R60). BUSY with no delay left: the engine performs the pending command as one transition, or takes the
error that decoding it raises (R113). BUSY with delay left: time passes, the host may be served. Otherwise the host is
served. -/
def step (s : State) : Host.Outcome State Fault Refusal :=
  match s.phase with
  | .busy w 0 =>
    match decode w with
    | .ok i => exec i s
    | .error e => .next (s.enterError (decodeRaise e))
  | .busy w (delay + 1) => .next (s.busyTick w delay)
  | _ => .next s.serveHost

/-- The low `nbits` bits of `w` accepted as the command word (R62), to be performed by the very next step. There is no
program counter and no program memory (R58): this stands for the host's write to `CMD` (logs 1, 18). -/
def State.withFetchWord (s : State) (nbits w : Nat) : State := s.accept (BitVec.ofNat 32 (w % 2 ^ nbits)) 0

end Sys2Proof.Machine
end

