-- ==== Sys2Proof/Safety.lean ====
section
/-!
DEFINITION. What counts as a sound state (`State.Inv`), and the terms statements are written in: the two ways a command
ends (R63, R325), values of strings as sums (R130, R132), the round functions and the Feistel rounds as plain formulas
without checks (R174, R231 to R235, R252 to R254, R271 to R274), the masks of R114, and which register a command writes
(R39).
-/

namespace Sys2Proof.Machine

/-! ## How a command ends -/

/-- Normal completion of a command that is no cipher command (R63), after its destination is written: `STATE` is DONE,
no error is recorded, `PROG` is 0; one draw of free values is over. Nothing else changes. -/
def State.completed (s : State) : State :=
  { s with
    phase   := .done
    eclass  := 0
    ecause  := 0
    errinfo := 0
    rtotal  := 0
    rdone   := 0
    draws   := s.draws + 1 }

/-- A count as `PROG` shows it: 0 unless `DIAG` and `CTRL.DIAG_EN` (R340). -/
def State.progField (s : State) (k : Nat) : BitVec 8 :=
  if s.cfg.diag = true ∧ s.ctrl.getLsbD 2 = true then BitVec.ofNat 8 k else 0

/-- Normal completion of a cipher command of `r` rounds (R63, R340). -/
def State.completedRounds (s : State) (r : Nat) : State :=
  { s.completed with
    rtotal := s.progField r
    rdone  := s.progField r }

/-- Error entry (R325) with cause `c` and detail `info`, `PROG` 0. Nothing else changes. -/
def State.failed (s : State) (c : Cause) (info : Nat) : State :=
  { s with
    phase   := .error
    eclass  := c.errorClass
    ecause  := c.code
    errinfo := BitVec.ofNat 32 info
    errlog  := s.errlog ||| (1#32 <<< c.errorClass.toNat)
    rtotal  := 0
    rdone   := 0
    draws   := s.draws + 1 }

/-- Error entry from inside the rounds of a cipher command (R213, R340): `PROG` shows how far it had come. -/
def State.failedInRounds (s : State) (c : Cause) (info total done : Nat) : State :=
  { s.failed c info with
    rtotal := s.progField total
    rdone  := s.progField done }

/-- The end of `CLR` and `WIPE` (R297, R326): IDLE, `DROP` and the error record cleared, `PROG` 0. -/
def State.cleared (s : State) : State :=
  { s with
    phase   := .idle
    drop    := false
    eclass  := 0
    ecause  := 0
    errinfo := 0
    rtotal  := 0
    rdone   := 0
    draws   := s.draws + 1 }

/-! ## Values of strings -/

/-- `sum over j of ds[j] * base^(len(ds)-1-j)` (R130, R132). -/
def digitSum (base : Nat) (ds : List Nat) : Nat :=
  ∑ j ∈ Finset.range ds.length, ds.getD j 0 * base ^ (ds.length - 1 - j)

/-- The value of a byte string (R130). -/
def byteSum (X : List Byte) : Nat := digitSum 256 (X.map BitVec.toNat)

/-- The value of a numeral string in a radix (R132). -/
def numeralSum (radix : Nat) (X : List Word) : Nat := digitSum radix (X.map BitVec.toNat)

/-- Every numeral is in `[0, radix)`. -/
def Numerals (radix : Nat) (X : List Word) : Prop := ∀ d ∈ X, d.toNat < radix

/-- `Y` is the one string of `m` numerals in `[0, radix)` whose value is `x`. -/
def IsNumerals (radix m x : Nat) (Y : List Word) : Prop :=
  Y.length = m ∧ Numerals radix Y ∧ numeralSum radix Y = x

/-- `Y` is the one string of `m` bytes whose value is `x`. -/
def IsBytes (m x : Nat) (Y : List Byte) : Prop := Y.length = m ∧ byteSum Y = x

/-! ## The adapter and the round functions as formulas -/

/-- `PRF` as R174 writes it: `Y_0 = 0^128`, `Y_j = E(K, Y_{j-1} xor X_j)`, the last one. -/
def macOf (E : BlockCipher) (K X : List Byte) : List Byte :=
  (blocksOf X).foldl (fun Y B => encryptBlock E K (xorBytes Y B)) (zeros 16)

/-- FF1's `b` (R231): `ceil(ceil(v * log2(radix)) / 8)`, with the least `k` such that `2^k >= radix^v`. -/
def ff1Bytes (radix n : Nat) : Nat := (Nat.clog 2 (radix ^ (n - n / 2)) + 7) / 8

/-- FF1's `d` (R231). -/
def ff1Keep (radix n : Nat) : Nat := 4 * ((ff1Bytes radix n + 3) / 4) + 4

/-- FF1's `P` (R232). -/
def ff1Header (radix n t : Nat) : List Byte :=
  [0x01, 0x02, 0x01] ++ bytesOf 3 radix ++ [0x0A] ++ bytesOf 1 (n / 2 % 256) ++ bytesOf 4 n ++ bytesOf 4 t

/-- FF1's `Q` (R233) for a half of value `x`. -/
def ff1Body (radix n : Nat) (T : List Byte) (i x : Nat) : List Byte :=
  T ++ List.replicate ((-(T.length : Int) - ff1Bytes radix n - 1) % 16).toNat 0 ++ bytesOf 1 i ++
    bytesOf (ff1Bytes radix n) x

/-- FF1's `S` (R234) from `R`: the first `d` bytes of `R`, `E(K, R xor [1]_16)`, `E(K, R xor [2]_16)`, ... -/
def ff1Stream (E : BlockCipher) (K R : List Byte) (d : Nat) : List Byte :=
  (R ++ (List.range ((d + 15) / 16 - 1)).flatMap fun j => encryptBlock E K (xorBytes R (bytesOf 16 (j + 1)))).take d

/-- FF1's `y` before the reduction (R235): `NUM(S)`, for a half of value `x`. -/
def ff1Y (E : BlockCipher) (radix : Nat) (K : List Byte) (n : Nat) (T : List Byte) (i x : Nat) : Nat :=
  byteSum (ff1Stream E K (macOf E K (ff1Header radix n T.length ++ ff1Body radix n T i x)) (ff1Keep radix n))

/-- FF2's `P` (R252). -/
def ff2Header (radix tradix n : Nat) (T : List Byte) : List Byte :=
  bytesOf 1 radix ++ bytesOf 1 T.length ++ bytesOf 1 n ++ bytesOf 13 (digitSum tradix (T.map BitVec.toNat))

/-- FF2's `NUM(Y)` (R253, R254) for a half of value `x`: `J = E(K, P)`, `Y = E(J, [i]_1 || [x]_15)`. -/
def ff2Y (E : BlockCipher) (radix tradix : Nat) (K : List Byte) (n : Nat) (T : List Byte) (i x : Nat) : Nat :=
  byteSum (encryptBlock E (encryptBlock E K (ff2Header radix tradix n T)) (bytesOf 1 i ++ bytesOf 15 x))

/-- FF3's `P` (R271, R272) for a half of reversed value `x`. -/
def ff3Block (T : List Byte) (i x : Nat) : List Byte :=
  xorBytes (if i % 2 = 0 then (T.drop 4).take 4 else T.take 4) (bytesOf 4 i) ++ bytesOf 12 x

/-- FF3's `NUM(S)` (R273, R274) for a half of reversed value `x`. -/
def ff3Y (E : BlockCipher) (K T : List Byte) (i x : Nat) : Nat :=
  byteSum (encryptBlock E K.reverse (ff3Block T i x).reverse).reverse

/-! ## The requests a function makes on the AES port, in the model's grouping (R100, log 9) -/

/-- Those of the chain `Y_j = E(K, Y_{j-1} xor X_j)` from `Y` on (R174): one ECB request for each block. -/
def chainRequests (E : BlockCipher) (K : List Byte) : (Y : List Byte) → (Xs : List (List Byte)) → List AesRequest
  | _, [] => []
  | Y, X :: Xs => ⟨.ecb, K, xorBytes Y X⟩ :: chainRequests E K (encryptBlock E K (xorBytes Y X)) Xs

/-- `PRF`'s (R174). -/
def macRequests (E : BlockCipher) (K X : List Byte) : List AesRequest := chainRequests E K (zeros 16) (blocksOf X)

/-- FF1's round function's: `PRF(K, P || Q)`, then the blocks that extend `R`. -/
def ff1Requests (E : BlockCipher) (radix : Nat) (K : List Byte) (n : Nat) (T : List Byte) (i x : Nat) :
    List AesRequest :=
  let PQ := ff1Header radix n T.length ++ ff1Body radix n T i x
  macRequests E K PQ ++
    (List.range ((ff1Keep radix n + 15) / 16 - 1)).map fun j =>
      ⟨.ecb, K, xorBytes (macOf E K PQ) (bytesOf 16 (j + 1))⟩

/-- FF2's round function's: the subkey `J`, then the round's block. -/
def ff2Requests (E : BlockCipher) (radix tradix : Nat) (K : List Byte) (n : Nat) (T : List Byte) (i x : Nat) :
    List AesRequest :=
  [⟨.ecb, K, ff2Header radix tradix n T⟩,
    ⟨.ecb, encryptBlock E K (ff2Header radix tradix n T), bytesOf 1 i ++ bytesOf 15 x⟩]

/-- FF3's round function's: one block. -/
def ff3Requests (K T : List Byte) (i x : Nat) : List AesRequest := [⟨.ecb, K.reverse, (ff3Block T i x).reverse⟩]

/-! ## Rounds -/

/-- The halves of a Feistel run of `r` rounds (R207): `L 0`, `L 1` are the two parts of `X` cut at `l`, each further half
is related by `round` to the two before it, and the result is the last two. -/
def FeistelRun (round : (i : Nat) → (A B C : List Word) → Prop) (l r : Nat) (X Z : List Word) : Prop :=
  ∃ L : Nat → List Word, L 0 = X.take l ∧ L 1 = X.drop l ∧
    (∀ i, i < r → round i (L i) (L (i + 1)) (L (i + 2))) ∧ Z = L r ++ L (r + 1)

/-- One round of blockwise addition (R191, R239, R259): the new half has the length of the old one and the value
`(NUM_radix(A) + y) mod radix^m`, `y` being the round function's value on `B`. -/
def BlockwiseRound (radix : Nat) (y : (i x : Nat) → Nat) (i : Nat) (A B C : List Word) : Prop :=
  IsNumerals radix A.length ((numeralSum radix A + y i (numeralSum radix B)) % radix ^ A.length) C

/-- One round of reversed-blockwise addition (R194, R279): halves are valued and results written in reverse. -/
def ReversedRound (radix : Nat) (y : (i x : Nat) → Nat) (i : Nat) (A B C : List Word) : Prop :=
  IsNumerals radix A.length
    ((numeralSum radix A.reverse + y i (numeralSum radix B.reverse)) % radix ^ A.length) C.reverse

/-- The halves `L` of a Feistel encryption whose first `k` of `r` rounds make no failing request and whose round `k` makes
one (R98, R213); `requests i B` is what round `i` asks of the provider for the half `B`. -/
def EncryptFailsIn (P : Provider) (round : (i : Nat) → (A B C : List Word) → Prop)
    (requests : (i : Nat) → (B : List Word) → List AesRequest) (l r k : Nat) (X : List Word) : Prop :=
  ∃ L : Nat → List Word, L 0 = X.take l ∧ L 1 = X.drop l ∧ k < r ∧
    (∀ i, i < k → round i (L i) (L (i + 1)) (L (i + 2)) ∧ ∀ q ∈ requests i (L (i + 1)), P.fails q = false) ∧
    ∃ q ∈ requests k (L (k + 1)), P.fails q = true

/-- The same of a decryption of an even number `r` of rounds, from round `r-1` down: `k` rounds are undone, the next one
makes a failing request. -/
def DecryptFailsIn (P : Provider) (radix : Nat) (round : (i : Nat) → (A B C : List Word) → Prop)
    (requests : (i : Nat) → (B : List Word) → List AesRequest) (l r k : Nat) (X : List Word) : Prop :=
  ∃ L : Nat → List Word, L r = X.take l ∧ L (r + 1) = X.drop l ∧ k < r ∧ (∀ i, Numerals radix (L i)) ∧
    (∀ i, r - k ≤ i → i < r →
      round i (L i) (L (i + 1)) (L (i + 2)) ∧ ∀ q ∈ requests i (L (i + 1)), P.fails q = false) ∧
    ∃ q ∈ requests (r - 1 - k) (L (r - k)), P.fails q = true

/-- The string after each round of Method ONE (R209), which cuts it anew at `l`: `Z` is the one after `r` rounds. -/
def ResplitRun (round : (i : Nat) → (A B C : List Word) → Prop) (l r : Nat) (X Z : List Word) : Prop :=
  ∃ L : Nat → List Word, L 0 = X ∧ Z = L r ∧
    ∀ i, i < r → ∃ C, round i ((L i).take l) ((L i).drop l) C ∧ L (i + 1) = (L i).drop l ++ C

/-- The round function's value before the reduction, as `MODE.RF` selects it (R202). -/
def Params.roundValue (p : Params) (E : BlockCipher) (K : List Byte) (n : Nat) (T : List Byte) (i : Nat) (B : List Word) :
    Nat :=
  if p.rf = 1 then ff1Y E p.radix.toNat K n T i (numeralSum p.radix.toNat B)
  else if p.rf = 2 then ff2Y E p.radix.toNat p.tweakRadix.toNat K n T i (numeralSum p.radix.toNat B)
  else ff3Y E K T i (numeralSum p.radix.toNat B.reverse)

/-- One round with the addition that `MODE.ARITH` selects (R191, R194, R197) of `y`: in blocks, in reversed blocks, or
numeral by numeral, `y` then written in `radix`. -/
def Params.Round (p : Params) (y : (i : Nat) → (B : List Word) → Nat) (i : Nat) (A B C : List Word) : Prop :=
  let radix := p.radix.toNat
  if p.arith = 1 then IsNumerals radix A.length ((numeralSum radix A + y i B) % radix ^ A.length) C
  else if p.arith = 2 then
    IsNumerals radix A.length ((numeralSum radix A.reverse + y i B) % radix ^ A.length) C.reverse
  else C.length = A.length ∧ ∃ Y, IsNumerals radix A.length (y i B % radix ^ A.length) Y ∧
    ∀ (j : Nat) (a b : Word), A[j]? = some a → Y[j]? = some b →
      ∃ c : Word, C[j]? = some c ∧ c.toNat = (a.toNat + b.toNat) % radix

/-! ## Checks in their order -/

/-- A check of a rule: what is required, and what is raised otherwise (R16). -/
structure Check where
  ok    : Prop
  cause : Cause
  info  : Nat

/-- Every check passes. -/
def AllHold : List Check → Prop
  | [] => True
  | c :: cs => c.ok ∧ AllHold cs

/-- `d` is the first check that fails (R16, R320). -/
def FirstFailing : List Check → Check → Prop
  | [], _ => False
  | c :: cs, d => (¬ c.ok ∧ d = c) ∨ (c.ok ∧ FirstFailing cs d)

/-- The first check that fails is the one error the command reports, and the error entry is all it does (R16, R325). -/
def RaisesFirst (i : Instr) (s : State) (checks : List Check) : Prop :=
  ∀ c, FirstFailing checks c → exec i s = .next (s.failed c.cause c.info)

/-- `ns[r]` is present. -/
def State.nsThere (s : State) (r : Reg) (c : Cause := .nullInput) : Check := ⟨(s.ns.get r).present = true, c, 0⟩

/-- `bs[r]` is present. -/
def State.bsThere (s : State) (r : Reg) (c : Cause := .nullInput) : Check := ⟨(s.bs.get r).present = true, c, 0⟩

/-- `bn[r]` is present. -/
def State.bnThere (s : State) (r : Reg) (c : Cause := .nullInput) : Check := ⟨(s.bn.get r).present = true, c, 0⟩

/-- A radix is in `[2, 65536]` (R7). -/
def radixIn (radix : Nat) : Check := ⟨2 ≤ radix ∧ radix ≤ 65536, .radixRange, 0⟩

/-- A string has 1 to 4096 elements. -/
def lengthIn (n : Nat) : Check := ⟨1 ≤ n ∧ n ≤ 4096, .operandLen, 0⟩

/-- Every numeral is below the radix; else the index of the first that is not. -/
def numeralsIn (radix : Nat) (X : List Word) : Check :=
  ⟨Numerals radix X, .numeralRange, X.findIdx fun d => decide (radix ≤ d.toNat)⟩

/-- A key has 16, 24 or 32 bytes (R171). -/
def keySized (n : Nat) : Check := ⟨n = 16 ∨ n = 24 ∨ n = 32, .keySize, 0⟩

/-- `radix^n >= 100` (R7). -/
def enoughEntropy (radix n : Nat) : Check := ⟨100 ≤ radix ^ n, .entropy, 0⟩

/-- The checks of `NUMR` (R133, R132). -/
def State.numrChecks (s : State) (ra : Reg) : List Check :=
  [s.nsThere ra, radixIn s.arg0.toNat, lengthIn (s.ns.get ra).len, numeralsIn s.arg0.toNat (s.nsVal ra)]

/-- The checks of `STR` (R136, R135). -/
def State.strChecks (s : State) (ra : Reg) : List Check :=
  [s.bnThere ra, radixIn s.arg0.toNat, ⟨1 ≤ s.arg1.toNat ∧ s.arg1.toNat ≤ 4096, .argRange, 0⟩,
    ⟨0 ≤ (s.bn.get ra).value, .valueRange, 0⟩]

/-- The checks of `bytestring(x, s)` (R139). -/
def bytestringChecks (x : Int) (s : Nat) : List Check :=
  [⟨1 ≤ s ∧ s ≤ 4096, .argRange, 0⟩, ⟨0 ≤ x ∧ x < (256 ^ s : Nat), .valueRange, 0⟩]

/-- The checks of `BITSTR` (R143, R142). -/
def State.bitstrChecks (s : State) : List Check :=
  [⟨0 < s.arg0.toNat ∧ s.arg0.toNat % 8 = 0 ∧ s.arg0.toNat / 8 ≤ 4096, .argRange, 0⟩,
    ⟨s.arg1.toNat = 0 ∨ s.arg1.toNat = 1, .argRange, 0⟩]

/-- The checks of `CIPH`, `PRF` and `PRF2` (R173, R175, R177), but for the provider's failure. -/
def State.adapterChecks (s : State) (ra rb : Reg) : List Check :=
  [s.bsThere ra .nullKey, s.bsThere rb, keySized (s.bs.get ra).len,
    ⟨1 ≤ (s.bs.get rb).len ∧ (s.bs.get rb).len ≤ 4096 ∧ (s.bs.get rb).len % 16 = 0, .operandLen, 0⟩]

/-- The checks of `OFF2` (R292), but for the provider's failure. -/
def State.off2Checks (s : State) (ra rb : Reg) : List Check :=
  [s.bsThere ra .nullKey, s.bsThere rb .nullTweak, keySized (s.bs.get ra).len,
    ⟨(s.bs.get rb).len = 16, .operandLen, 0⟩]

/-- The checks of the six arithmetic commands (R192, R190). -/
def State.arithmeticChecks (s : State) (ra rb : Reg) : List Check :=
  [s.nsThere ra, s.nsThere rb, radixIn s.params.radix.toNat, ⟨(s.ns.get ra).len = (s.ns.get rb).len, .operandLen, 0⟩,
    lengthIn (s.ns.get ra).len, numeralsIn s.params.radix.toNat (s.nsVal ra),
    numeralsIn s.params.radix.toNat (s.nsVal rb)]

/-- Key, tweak and input are present, in this order (R320). -/
def State.presenceChecks (s : State) (ra : Reg) : List Check :=
  [s.bsThere .r0 .nullKey, s.bsThere .r1 .nullTweak, s.nsThere ra]

/-- The scalar arguments of a round-function command: `n` in `[2, 4096]`, `i` in `[0, 255]`. -/
def State.roundArgs (s : State) : Check :=
  ⟨(2 ≤ s.arg0.toNat ∧ s.arg0.toNat ≤ 4096) ∧ s.arg1.toNat ≤ 255, .argRange, 0⟩

/-- Both FF2 radices are in `[2, 256]` (R250). -/
def State.ff2Radices (s : State) : Check :=
  ⟨(2 ≤ s.params.radix.toNat ∧ s.params.radix.toNat ≤ 256) ∧
    2 ≤ s.params.tweakRadix.toNat ∧ s.params.tweakRadix.toNat ≤ 256, .radixRange, 0⟩

/-- Every FF2 tweak numeral is below the tweak radix (R251). -/
def tweakDigitsIn (tradix : Nat) (T : List Byte) : Check :=
  ⟨∀ d ∈ T, d.toNat < tradix, .tweakDigit, T.findIdx fun d => decide (tradix ≤ d.toNat)⟩

/-- The checks of `F1RND` (R236) and of `F_FF1` (R233, R234, R244). -/
def State.f1Checks (s : State) (ra : Reg) : List Check :=
  s.presenceChecks ra ++
    [radixIn s.params.radix.toNat, keySized (s.bs.get .r0).len, s.roundArgs, lengthIn (s.ns.get ra).len,
      numeralsIn s.params.radix.toNat (s.nsVal ra),
      ⟨numeralSum s.params.radix.toNat (s.nsVal ra) < 256 ^ ff1Bytes s.params.radix.toNat s.arg0.toNat, .valueRange, 0⟩,
      ⟨(s.bs.get .r1).len + ff1Bytes s.params.radix.toNat s.arg0.toNat ≤ 4079, .operandLen, 0⟩]

/-- The checks of `F2RND` (R256) and of `F_FF2` as far as `P` (R252, R262): those before the request for `J`. -/
def State.f2HeaderChecks (s : State) (ra : Reg) : List Check :=
  s.presenceChecks ra ++
    [s.ff2Radices, keySized (s.bs.get .r0).len, s.roundArgs,
      ⟨s.params.radix.toNat < 256, .valueRange, 0⟩, ⟨(s.bs.get .r1).len < 256, .valueRange, 0⟩,
      ⟨s.arg0.toNat < 256, .valueRange, 0⟩, tweakDigitsIn s.params.tweakRadix.toNat (s.bsVal .r1),
      ⟨digitSum s.params.tweakRadix.toNat ((s.bsVal .r1).map BitVec.toNat) < 256 ^ 13, .valueRange, 0⟩]

/-- The provider answers the request for the subkey `J = CIPH(K, P)` (R253, R98). That it is one ECB request is the model's
choice (log 9). -/
def State.f2SubkeyAnswered (s : State) : Check :=
  ⟨s.provider.fails ⟨.ecb, s.bsVal .r0,
    ff2Header s.params.radix.toNat s.params.tweakRadix.toNat s.arg0.toNat (s.bsVal .r1)⟩ = false, .aesFail, 0⟩

/-- The checks of `F_FF2` on `B` (R254), which come after the request for `J` (R255). -/
def State.f2HalfChecks (s : State) (ra : Reg) : List Check :=
  [lengthIn (s.ns.get ra).len, numeralsIn s.params.radix.toNat (s.nsVal ra),
    ⟨numeralSum s.params.radix.toNat (s.nsVal ra) < 256 ^ 15, .valueRange, 0⟩]

/-- The checks of `F2RND` (R256) and of `F_FF2` (R252, R254, R262), but for the provider's failure. -/
def State.f2Checks (s : State) (ra : Reg) : List Check := s.f2HeaderChecks ra ++ s.f2HalfChecks ra

/-- The checks of `F3RND` (R276) and of `F_FF3` (R271, R272). -/
def State.f3Checks (s : State) (ra : Reg) : List Check :=
  s.presenceChecks ra ++
    [radixIn s.params.radix.toNat, keySized (s.bs.get .r0).len, s.roundArgs, ⟨(s.bs.get .r1).len = 8, .tweakLen, 0⟩,
      lengthIn (s.ns.get ra).len, numeralsIn s.params.radix.toNat (s.nsVal ra).reverse,
      ⟨numeralSum s.params.radix.toNat (s.nsVal ra).reverse < 256 ^ 12, .valueRange, 0⟩]

/-- `split(n)` by `MODE.SPLIT` and `SPLIT_K` (R200). -/
def Params.leftLen (p : Params) (n : Nat) : Nat :=
  if p.split = 1 then n / 2 else if p.split = 2 then (n + 1) / 2 else p.splitK.toNat

/-- The round-count floor (R206). -/
def Params.EnoughRounds (p : Params) (n : Nat) : Prop :=
  if p.method = 2 ∨ p.leftLen n = n / 2 ∨ p.leftLen n = (n + 1) / 2 then 8 ≤ p.rounds.toNat
  else 4 * n ≤ p.rounds.toNat * p.leftLen n

/-- `params_ok` (R204). -/
def Params.usable (p : Params) : List Check :=
  [⟨p.method = 1 ∨ p.method = 2, .paramInvalid, 0⟩,
    ⟨p.arith = 1 ∨ p.arith = 2 ∨ p.arith = 3, .paramInvalid, 1⟩,
    ⟨p.rf = 1 ∨ p.rf = 2 ∨ p.rf = 3, .paramInvalid, 2⟩,
    ⟨p.split = 1 ∨ p.split = 2 ∨ p.split = 3, .paramInvalid, 3⟩,
    ⟨p.rounds.toNat ≤ 255, .paramInvalid, 4⟩,
    radixIn p.radix.toNat,
    ⟨p.rf = 2 → p.radix.toNat ≤ 256 ∧ 2 ≤ p.tweakRadix.toNat ∧ p.tweakRadix.toNat ≤ 256, .radixRange, 0⟩]

/-- The preconditions of `ENC` and `DEC` in their order (R205). -/
def State.cipherChecks (s : State) (ra : Reg) : List Check :=
  s.presenceChecks ra ++ s.params.usable ++
    [keySized (s.bs.get .r0).len,
      ⟨s.params.mintlen.toNat ≤ (s.bs.get .r1).len ∧ (s.bs.get .r1).len ≤ s.params.maxtlen.toNat, .tweakLen, 0⟩,
      ⟨(s.params.minlen.toNat ≤ (s.ns.get ra).len ∧ (s.ns.get ra).len ≤ s.params.maxlenP.toNat) ∧
        2 ≤ (s.ns.get ra).len, .inputLen, 0⟩,
      enoughEntropy s.params.radix.toNat (s.ns.get ra).len, numeralsIn s.params.radix.toNat (s.nsVal ra),
      ⟨1 ≤ s.params.leftLen (s.ns.get ra).len ∧ s.params.leftLen (s.ns.get ra).len ≤ (s.ns.get ra).len - 1,
        .paramInvalid, 5⟩,
      ⟨s.params.EnoughRounds (s.ns.get ra).len, .roundsFloor, 0⟩]

/-- The rounds by the method `MODE.METHOD` selects (R207, R209), from `X` to `Z`. -/
def Params.Run (p : Params) (E : BlockCipher) (K T : List Byte) (X Z : List Word) : Prop :=
  let n := X.length
  let round := p.Round (p.roundValue E K n T)
  if p.method = 1 then ResplitRun round (p.leftLen n) p.rounds.toNat X Z
  else FeistelRun round (p.leftLen n) p.rounds.toNat X Z

/-- No check inside the rounds can fail (R213): the split is the round function's own, Method ONE has equal halves, and the
lengths and values fit the round function's fields (R244, R252, R254, R262, R271, R272). -/
def Params.RoundsFit (p : Params) (n : Nat) (T : List Byte) : Prop :=
  let radix := p.radix.toNat
  p.leftLen n = (if p.rf = 3 then (n + 1) / 2 else n / 2) ∧ (p.method = 1 → n % 2 = 0) ∧
    (p.rf = 1 → T.length + ff1Bytes radix n ≤ 4079) ∧
    (p.rf = 2 → radix < 256 ∧ n < 256 ∧ T.length < 256 ∧ (∀ d ∈ T, d.toNat < p.tweakRadix.toNat) ∧
      digitSum p.tweakRadix.toNat (T.map BitVec.toNat) < 256 ^ 13 ∧ radix ^ (n - n / 2) ≤ 256 ^ 15) ∧
    (p.rf = 3 → T.length = 8 ∧ radix ^ ((n + 1) / 2) ≤ 256 ^ 12)

/-- The checks of `FF1ENC` and `FF1DEC` before the rounds (R240). -/
def State.ff1CipherChecks (s : State) (ra : Reg) : List Check :=
  s.presenceChecks ra ++
    [radixIn s.params.radix.toNat, keySized (s.bs.get .r0).len,
      ⟨(s.bs.get .r1).len ≤ s.params.maxtlen.toNat, .tweakLen, 0⟩, ⟨2 ≤ (s.ns.get ra).len, .inputLen, 0⟩,
      enoughEntropy s.params.radix.toNat (s.ns.get ra).len, numeralsIn s.params.radix.toNat (s.nsVal ra)]

/-- `maxlen(radix)` of FF2 (R257), `cap(r, c)` being the greatest `k` with `r^k <= 2^c`. -/
def ff2LongestInput (radix : Nat) : Nat :=
  if 2 ^ Nat.log 2 radix = radix then max 2 (2 * Nat.log radix (2 ^ 120)) else 2 * Nat.log radix (2 ^ 98)

/-- `maxTlen(tradix)` of FF2 (R257). -/
def ff2LongestTweak (tradix : Nat) : Nat := Nat.log tradix (2 ^ 104) - 1

/-- The checks of `FF2ENC` and `FF2DEC` before the rounds (R260). -/
def State.ff2CipherChecks (s : State) (ra : Reg) : List Check :=
  s.presenceChecks ra ++
    [s.ff2Radices, keySized (s.bs.get .r0).len,
      ⟨(s.bs.get .r1).len ≤ ff2LongestTweak s.params.tweakRadix.toNat, .tweakLen, 0⟩,
      ⟨2 ≤ (s.ns.get ra).len ∧ (s.ns.get ra).len ≤ ff2LongestInput s.params.radix.toNat, .inputLen, 0⟩,
      enoughEntropy s.params.radix.toNat (s.ns.get ra).len, numeralsIn s.params.radix.toNat (s.nsVal ra)]

/-- The provider answers no request with `FAIL` (R9: the default; R98). -/
def State.providerAnswers (s : State) : Prop := ∀ q, s.provider.fails q = false

/-- The mask of R114 for a command's register fields. -/
def shapeMask : Shape → Word
  | .none => 0xFFFFFFFF
  | .rd => 0xFFFFFCFF
  | .rdra => 0xFFFFF0FF
  | .rdrarb => 0xFFFFC0FF

/-- The `ns` register a command writes (R39, R115). -/
def nsDest : Instr → Option Reg
  | .str rd _ | .catn rd _ _ | .rev rd _ | .addblk rd _ _ | .subblk rd _ _ | .addrev rd _ _ | .subrev rd _ _
  | .addchr rd _ _ | .subchr rd _ _ | .frnd rd _ | .f1rnd rd _ | .f2rnd rd _ | .f3rnd rd _ | .enc rd _ | .dec rd _
  | .ff1enc rd _ | .ff1dec rd _ | .ff2enc rd _ | .ff2dec rd _ => some rd
  | _ => none

/-- The `bs` register a command writes (R39, R115). -/
def bsDest : Instr → Option Reg
  | .bytestr rd _ | .bytestri rd | .bitstr rd | .catb rd _ _ | .xorb rd _ _ | .revb rd _ | .ciph rd _ _ | .prf rd _ _
  | .prf2 rd _ _ | .off1 rd _ _ | .off2 rd _ _ => some rd
  | _ => none

/-- The `bn` register a command writes (R39, R115). -/
def bnDest : Instr → Option Reg
  | .num rd _ | .numr rd _ | .mod rd _ _ | .powr rd | .bnadd rd _ _ | .bnsub rd _ _ => some rd
  | _ => none

/-! ## Sound states -/

/-- The engine is as reset leaves it (R65), apart from the configuration and what belongs to the outside world; of the
big-integer registers, whose values R65 leaves unspecified, only the presence bits are compared. -/
def State.EngineReset (s : State) : Prop :=
  (∀ r, (s.bn.get r).present = false) ∧
  { s with
    bn        := State.reset.bn
    resetHeld := false
    cfg       := State.reset.cfg
    host      := []
    answers   := []
    delays    := []
    draws     := 0 } = State.reset

/-- The error record fits the state (R43, R44, R325). -/
def State.ErrorRecord (s : State) : Prop :=
  match s.phase with
  | .error => ∃ c : Cause, s.eclass = c.errorClass ∧ s.ecause = c.code ∧ s.errlog.getLsbD c.errorClass.toNat = true
  | _ => s.eclass = 0 ∧ s.ecause = 0 ∧ s.errinfo = 0

/-- What holds after reset and is kept by every step. -/
structure State.Inv (s : State) : Prop where
  /-- Element storage is in canonical form, indices below 4096 (R31, R33). -/
  memory : Memory.wf s = true
  /-- Lengths are in `[0, 4096]` (R31, R33). -/
  lengths : ∀ r, (s.ns.get r).len ≤ 4096 ∧ (s.bs.get r).len ≤ 4096
  /-- An absent register has length 0 (R35). -/
  absentEmpty : ∀ r, ((s.ns.get r).present = false → (s.ns.get r).len = 0) ∧
    ((s.bs.get r).present = false → (s.bs.get r).len = 0)
  /-- Magnitudes are below `2^BNBITS` (R36). -/
  magnitudes : ∀ r, (s.bn.get r).value.natAbs < 2 ^ s.cfg.bnbits
  /-- Reserved bits of `CTRL` are 0; without `DIAG` so is `DIAG_EN` (R40, R41, R340). -/
  ctrlBits : s.ctrl &&& (if s.cfg.diag then 0x7 else 0x3) = s.ctrl
  /-- Reserved bits of `MODE` are 0 (R54). -/
  modeBits : s.params.mode.toNat < 256
  /-- Only bits 6..1 of `ERRLOG` are ever set (R44). -/
  errlogBits : s.errlog &&& 0x7E = s.errlog
  /-- The error record fits the state (R43, R44). -/
  errorRecord : s.ErrorRecord
  /-- `RDONE <= RTOTAL`, and `PROG` is 0 without `DIAG` (R340). -/
  progress : s.rdone.toNat ≤ s.rtotal.toNat ∧ (s.cfg.diag = false → s.rtotal = 0)
  /-- While BUSY, `PROG` is 0 unless a cipher command reports progress, and then `RTOTAL` is 0 or its round count (R340). -/
  busyProgress : ∀ w d, s.phase = .busy w d →
    (s.rtotal = 0 ∧ s.rdone = 0) ∨
      ∃ r, s.progressTotal w = some r ∧ s.cfg.diag = true ∧ s.ctrl.getLsbD 2 = true ∧ s.rtotal.toNat = r
  /-- `LASTOP` is the opcode byte of the pending command word (R43, R62). -/
  lastOp : ∀ w d, s.phase = .busy w d → s.lastop = w.extractLsb' 0 8
  /-- While reset is held the engine is as reset leaves it (R350; that it is so from the moment reset is asserted, and not
  only when it is released, is the model's choice, log 12). -/
  heldReset : s.resetHeld = true → s.EngineReset

end Sys2Proof.Machine
end

