-- ==== Sys2Proof/Certificates/Slice0/Obligations.lean ====
section
/-!
DEFINITION. The statements for the provers. In a command statement the checks stand in their order in a list of
`Sys2Proof/Safety.lean`: the first that fails is the error taken, with nothing else changed (`RaisesFirst`); when all
hold, `exec` answers the next state that the rule gives, written out as an update of the state before, so that everything
it does not name is unchanged. Element values that the spec leaves unspecified are free values: a statement holds for
every value of them. `s.provider.E` is the block cipher that the configuration of `s` names (R9): AES, one about which
nothing is known, or either with any finite list of values replaced (log 8).
-/

open Sys2Proof Sys2Proof.Machine

/-! ## Encoding -/

/-- R113, R114: a word decodes to a command exactly if it is the command's encoding. -/
def Obligations.DecodeExactlyTheEncodings : Prop := ∀ (w : Word) (i : Instr), decode w = .ok i ↔ w = encode i

/-- R114: word `w` selects a command with row (match, mask) iff `w & mask = match`; no two rows select one word. -/
def Obligations.MatchMaskSelectsTheCommand : Prop :=
  ∀ (w : Word) (op : BitVec 8) (sh : Shape), shapeOf op = some sh →
    ((∃ i, decode w = .ok i ∧ (fieldsOf i).opcode = op) ↔ w &&& shapeMask sh = op.setWidth 32) ∧
    ∀ (op' : BitVec 8) (sh' : Shape), shapeOf op' = some sh' → op' ≠ op → w &&& shapeMask sh = op.setWidth 32 →
      w &&& shapeMask sh' ≠ op'.setWidth 32

/-- R113: what the engine does with the pending word, for every word: the zero field, then the opcode, then the unused
register fields, then the command. -/
def Obligations.PendingWordIsDecodedInOrder : Prop :=
  ∀ (s : State) (w : Word), s.phase = .busy w 0 →
    (w.extractLsb' 14 18 ≠ 0 → step s = .next (s.failed .reservedBits 0)) ∧
    (w.extractLsb' 14 18 = 0 → shapeOf (w.extractLsb' 0 8) = none →
      step s = .next (s.failed .illegalOpcode (w.extractLsb' 0 8).toNat)) ∧
    (∀ sh, w.extractLsb' 14 18 = 0 → shapeOf (w.extractLsb' 0 8) = some sh →
      w &&& shapeMask sh ≠ (w.extractLsb' 0 8).setWidth 32 → step s = .next (s.failed .reservedBits 0)) ∧
    (∀ sh, w.extractLsb' 14 18 = 0 → shapeOf (w.extractLsb' 0 8) = some sh →
      w &&& shapeMask sh = (w.extractLsb' 0 8).setWidth 32 → ∃ i, w = encode i ∧ step s = exec i s)

/-- Words written out from R115's table, one per family, and the commands they stand for. -/
def Obligations.WrittenWordsDecode : Prop :=
  decode 0x00000000 = .ok .nop ∧ decode 0x00000111 = .ok (.numr .r1 .r0) ∧
  decode 0x00002516 = .ok (.catb .r1 .r1 .r2) ∧ decode 0x00001230 = .ok (.ciph .r2 .r0 .r1) ∧
  decode 0x00003F34 = .ok (.off2 .r3 .r3 .r3) ∧ decode 0x00001440 = .ok (.addblk .r0 .r1 .r1) ∧
  decode 0x00000049 = .ok .rnds ∧ decode 0x00000651 = .ok (.f1rnd .r2 .r1) ∧ decode 0x00000062 = .ok .ldff3 ∧
  decode 0x00000170 = .ok (.enc .r1 .r0)

/-- A step of an engine that is BUSY with no delay left runs the decoded command, and adds nothing around it: there is
no program counter to move (R58). -/
def Obligations.StepRunsTheDecodedCommand : Prop :=
  ∀ (s : State) (w : Word) (i : Instr), s.phase = .busy w 0 → decode w = .ok i → step s = exec i s

/-- R80, R89, R343: an engine that is not BUSY waits unchanged while nothing comes, answers a read and changes nothing
else, and performs a write; in ERROR as in IDLE (R326). R42, R60, R62: a command word written to CMD is the command the
engine performs, on the operands, scalars and parameters that stood when it was accepted. (The host's list is the model's,
log 1; the delay is the schedule of log 2, here 0; `draws` is log 19's counter.) -/
def Obligations.StepServesTheHost : Prop :=
  (∀ (s : State), s.phase.isBusy = false →
    (s.host = [] → step s = .next s) ∧
    (∀ a ops, s.host = .read a :: ops →
      step s = .next { s with host := ops, answers := s.readAnswer a :: s.answers, draws := s.draws + 1 }) ∧
    (∀ a v ops, s.host = .write a v :: ops →
      step s = .next { (s.hostWrite a v).1 with
        host := ops
        answers := ⟨(s.hostWrite a v).2, none⟩ :: s.answers
        draws := s.draws + 1 }) ∧
    (∀ ops, s.host = .resetAssert :: ops → step s = .next (State.input { s with host := ops } .resetAssert)) ∧
    (∀ ops, s.host = .resetRelease :: ops → step s = .next (State.input { s with host := ops } .resetRelease))) ∧
  ∀ (s : State) (i : Instr) (ops : List BusOp), s.resetHeld = false → s.phase = .idle ∨ s.phase = .done →
    s.host = .write 0x00008 (encode i) :: ops → s.delays.headD 0 = 0 →
    ∃ t, step s = .next t ∧ t.phase = .busy (encode i) 0 ∧ t.lastop = (fieldsOf i).opcode ∧ t.host = ops ∧
      t.answers = ⟨.ok, none⟩ :: s.answers ∧ t.ns = s.ns ∧ t.bs = s.bs ∧ t.bn = s.bn ∧ t.arg0 = s.arg0 ∧
      t.arg1 = s.arg1 ∧ t.params = s.params ∧ step t = exec i t

/-! ## Primitives -/

/-- R131: NUM. -/
def Obligations.NumValuesAByteString : Prop :=
  ∀ (rd ra : Reg) (s : State),
    RaisesFirst (.num rd ra) s [s.bsThere ra, lengthIn (s.bs.get ra).len] ∧
    (AllHold [s.bsThere ra, lengthIn (s.bs.get ra).len] →
      exec (.num rd ra) s = .next (s.putBn rd (byteSum (s.bsVal ra))).completed)

/-- R133: NUMR. -/
def Obligations.NumrValuesANumeralString : Prop :=
  ∀ (rd ra : Reg) (s : State),
    RaisesFirst (.numr rd ra) s (s.numrChecks ra) ∧
    (AllHold (s.numrChecks ra) →
      exec (.numr rd ra) s = .next (s.putBn rd (numeralSum s.arg0.toNat (s.nsVal ra))).completed)

/-- R136: STR writes the `m` numerals of `x mod radix^m`. -/
def Obligations.StrWritesTheLowNumerals : Prop :=
  ∀ (rd ra : Reg) (s : State),
    RaisesFirst (.str rd ra) s (s.strChecks ra) ∧
    (AllHold (s.strChecks ra) →
      ∃ Y, IsNumerals s.arg0.toNat s.arg1.toNat ((s.bn.get ra).value.toNat % s.arg0.toNat ^ s.arg1.toNat) Y ∧
        exec (.str rd ra) s = .next (s.putNs rd Y).completed)

/-- R140, R141: BYTESTR and BYTESTRI write the `s` bytes of `x`. -/
def Obligations.BytestrWritesTheBytes : Prop :=
  ∀ (rd ra : Reg) (s : State),
    (RaisesFirst (.bytestr rd ra) s (s.bnThere ra :: bytestringChecks (s.bn.get ra).value s.arg0.toNat) ∧
      (AllHold (s.bnThere ra :: bytestringChecks (s.bn.get ra).value s.arg0.toNat) →
        ∃ Y, IsBytes s.arg0.toNat (s.bn.get ra).value.toNat Y ∧
          exec (.bytestr rd ra) s = .next (s.putBs rd Y).completed)) ∧
    RaisesFirst (.bytestri rd) s (bytestringChecks s.arg1.toNat s.arg0.toNat) ∧
    (AllHold (bytestringChecks s.arg1.toNat s.arg0.toNat) →
      ∃ Y, IsBytes s.arg0.toNat s.arg1.toNat Y ∧ exec (.bytestri rd) s = .next (s.putBs rd Y).completed)

/-- R143: BITSTR. -/
def Obligations.BitstrRepeatsTheBit : Prop :=
  ∀ (rd : Reg) (s : State),
    RaisesFirst (.bitstr rd) s s.bitstrChecks ∧
    (AllHold s.bitstrChecks →
      exec (.bitstr rd) s =
        .next (s.putBs rd (List.replicate (s.arg0.toNat / 8) (if s.arg1.toNat = 0 then 0x00 else 0xFF))).completed)

/-- R145, R146, R148: CATB, CATN and XORB, on any operands, the destination among them or not. -/
def Obligations.StringsAreJoinedAndXored : Prop :=
  ∀ (rd ra rb : Reg) (s : State),
    (RaisesFirst (.catb rd ra rb) s
        [s.bsThere ra, s.bsThere rb, ⟨(s.bs.get ra).len + (s.bs.get rb).len ≤ 4096, .operandLen, 0⟩] ∧
      (AllHold [s.bsThere ra, s.bsThere rb, ⟨(s.bs.get ra).len + (s.bs.get rb).len ≤ 4096, .operandLen, 0⟩] →
        exec (.catb rd ra rb) s = .next (s.putBs rd (s.bsVal ra ++ s.bsVal rb)).completed)) ∧
    (RaisesFirst (.catn rd ra rb) s
        [s.nsThere ra, s.nsThere rb, ⟨(s.ns.get ra).len + (s.ns.get rb).len ≤ 4096, .operandLen, 0⟩] ∧
      (AllHold [s.nsThere ra, s.nsThere rb, ⟨(s.ns.get ra).len + (s.ns.get rb).len ≤ 4096, .operandLen, 0⟩] →
        exec (.catn rd ra rb) s = .next (s.putNs rd (s.nsVal ra ++ s.nsVal rb)).completed)) ∧
    RaisesFirst (.xorb rd ra rb) s
      [s.bsThere ra, s.bsThere rb, ⟨(s.bs.get ra).len = (s.bs.get rb).len, .operandLen, 0⟩] ∧
    (AllHold [s.bsThere ra, s.bsThere rb, ⟨(s.bs.get ra).len = (s.bs.get rb).len, .operandLen, 0⟩] →
      ∃ Z : List Byte, Z.length = (s.bs.get ra).len ∧
        (∀ (j : Nat) (x y : Byte), (s.bsVal ra)[j]? = some x → (s.bsVal rb)[j]? = some y → Z[j]? = some (x ^^^ y)) ∧
        exec (.xorb rd ra rb) s = .next (s.putBs rd Z).completed)

/-- R150, R151: REV and REVB. -/
def Obligations.StringsAreReversed : Prop :=
  ∀ (rd ra : Reg) (s : State),
    (RaisesFirst (.rev rd ra) s [s.nsThere ra] ∧
      (AllHold [s.nsThere ra] →
        ∃ Y : List Word, Y.length = (s.ns.get ra).len ∧
          (∀ j, j < Y.length → Y[j]? = (s.nsVal ra)[Y.length - 1 - j]?) ∧
          exec (.rev rd ra) s = .next (s.putNs rd Y).completed)) ∧
    RaisesFirst (.revb rd ra) s [s.bsThere ra] ∧
    (AllHold [s.bsThere ra] →
      ∃ Y : List Byte, Y.length = (s.bs.get ra).len ∧
        (∀ j, j < Y.length → Y[j]? = (s.bsVal ra)[Y.length - 1 - j]?) ∧
        exec (.revb rd ra) s = .next (s.putBs rd Y).completed)

/-- R154: MOD, the remainder in `[0, m)`. -/
def Obligations.ModGivesTheFlooredRemainder : Prop :=
  ∀ (rd ra rb : Reg) (s : State),
    RaisesFirst (.mod rd ra rb) s [s.bnThere ra, s.bnThere rb, ⟨0 < (s.bn.get rb).value, .modZero, 0⟩] ∧
    (AllHold [s.bnThere ra, s.bnThere rb, ⟨0 < (s.bn.get rb).value, .modZero, 0⟩] →
      ∃ r : Int, 0 ≤ r ∧ r < (s.bn.get rb).value ∧ (s.bn.get rb).value ∣ (s.bn.get ra).value - r ∧
        exec (.mod rd ra rb) s = .next (s.putBn rd r).completed)

/-- R156, R157, R158: POWR, BNADD and BNSUB are exact; a sum or difference of `BNBITS` bits or more is an error. -/
def Obligations.BigIntegersAreExact : Prop :=
  ∀ (rd ra rb : Reg) (s : State),
    (RaisesFirst (.powr rd) s [radixIn s.arg0.toNat, ⟨s.arg1.toNat ≤ 4096, .argRange, 0⟩] ∧
      (AllHold [radixIn s.arg0.toNat, ⟨s.arg1.toNat ≤ 4096, .argRange, 0⟩] →
        exec (.powr rd) s = .next (s.putBn rd ((s.arg0.toNat : Int) ^ s.arg1.toNat)).completed)) ∧
    (RaisesFirst (.bnadd rd ra rb) s [s.bnThere ra, s.bnThere rb,
        ⟨((s.bn.get ra).value + (s.bn.get rb).value).natAbs < 2 ^ s.cfg.bnbits, .bnOverflow, 0⟩] ∧
      (AllHold [s.bnThere ra, s.bnThere rb,
          ⟨((s.bn.get ra).value + (s.bn.get rb).value).natAbs < 2 ^ s.cfg.bnbits, .bnOverflow, 0⟩] →
        exec (.bnadd rd ra rb) s = .next (s.putBn rd ((s.bn.get ra).value + (s.bn.get rb).value)).completed)) ∧
    RaisesFirst (.bnsub rd ra rb) s [s.bnThere ra, s.bnThere rb,
      ⟨((s.bn.get ra).value - (s.bn.get rb).value).natAbs < 2 ^ s.cfg.bnbits, .bnOverflow, 0⟩] ∧
    (AllHold [s.bnThere ra, s.bnThere rb,
        ⟨((s.bn.get ra).value - (s.bn.get rb).value).natAbs < 2 ^ s.cfg.bnbits, .bnOverflow, 0⟩] →
      exec (.bnsub rd ra rb) s = .next (s.putBn rd ((s.bn.get ra).value - (s.bn.get rb).value)).completed)

/-! ## Adapter and offset -/

/-- R173: CIPH encrypts every block by itself: the function under every provider that answers, the command under the
configured one. -/
def Obligations.CiphEncryptsEachBlock : Prop :=
  (∀ (P : Provider) (K X : List Byte), (∀ q, P.fails q = false) → K.length = 16 ∨ K.length = 24 ∨ K.length = 32 →
    1 ≤ X.length ∧ X.length ≤ 4096 ∧ X.length % 16 = 0 →
    ∃ Y : List Byte, ciph P K X = .ok Y ∧ Y.length = X.length ∧
      ∀ j, j < X.length / 16 → (Y.drop (16 * j)).take 16 = encryptBlock P.E K ((X.drop (16 * j)).take 16)) ∧
  ∀ (rd ra rb : Reg) (s : State),
    RaisesFirst (.ciph rd ra rb) s (s.adapterChecks ra rb) ∧
    (AllHold (s.adapterChecks ra rb) → s.providerAnswers →
      ∃ Y : List Byte, Y.length = (s.bs.get rb).len ∧
        (∀ j, j < (s.bs.get rb).len / 16 →
          (Y.drop (16 * j)).take 16 =
            encryptBlock s.provider.E (s.bsVal ra) (((s.bsVal rb).drop (16 * j)).take 16)) ∧
        exec (.ciph rd ra rb) s = .next (s.putBs rd Y).completed)

/-- R175, R177: PRF and PRF2 write the last block of the chain `Y_j = E(K, Y_{j-1} xor X_j)`. -/
def Obligations.PrfAndPrf2WriteTheLastChainBlock : Prop :=
  ∀ (rd ra rb : Reg) (s : State) (i : Instr), i ∈ [Instr.prf rd ra rb, Instr.prf2 rd ra rb] →
    RaisesFirst i s (s.adapterChecks ra rb) ∧
    (AllHold (s.adapterChecks ra rb) → s.providerAnswers →
      (macOf s.provider.E (s.bsVal ra) (s.bsVal rb)).length = 16 ∧
        exec i s = .next (s.putBs rd (macOf s.provider.E (s.bsVal ra) (s.bsVal rb))).completed)

/-- R178: PRF and PRF2 give the same output, and the same errors, for every block cipher; the two commands end in the
same state. -/
def Obligations.PrfEqualsPrf2 : Prop :=
  (∀ (P : Provider) (K X : List Byte), (∀ q, P.fails q = false) → prf P K X = prf2 P K X) ∧
  ∀ (rd ra rb : Reg) (s : State), s.providerAnswers → exec (.prf rd ra rb) s = exec (.prf2 rd ra rb) s

/-- R291, R292: OFF1 reads nothing; OFF2 encrypts one block. -/
def Obligations.OffsetsWriteSixteenBytes : Prop :=
  ∀ (rd ra rb : Reg) (s : State),
    exec (.off1 rd ra rb) s = .next (s.putBs rd (List.replicate 16 0)).completed ∧
    RaisesFirst (.off2 rd ra rb) s (s.off2Checks ra rb) ∧
    (AllHold (s.off2Checks ra rb) → s.providerAnswers →
      exec (.off2 rd ra rb) s = .next (s.putBs rd (encryptBlock s.provider.E (s.bsVal ra) (s.bsVal rb))).completed)

/-- R98, R170, R213, R320: a request that the provider fails makes the command raise AES_FAIL, from inside a round with the
rounds completed before it. F2RND's request for `J` comes before its checks on `B` (R253 to R255): where it fails, none of
those is met. Which requests a command makes is the model's choice (log 9): CIPH and OFF2 one ECB request,
PRF2 one CBC request, PRF and the round functions those that `Sys2Proof/Safety.lean` lists. -/
def Obligations.FailingProviderRaisesAesFail : Prop :=
  (∀ (rd ra rb : Reg) (s : State),
    (AllHold (s.adapterChecks ra rb) → s.provider.fails ⟨.ecb, s.bsVal ra, s.bsVal rb⟩ = true →
      exec (.ciph rd ra rb) s = .next (s.failed .aesFail 0)) ∧
    (AllHold (s.adapterChecks ra rb) → s.provider.fails ⟨.cbc0, s.bsVal ra, s.bsVal rb⟩ = true →
      exec (.prf2 rd ra rb) s = .next (s.failed .aesFail 0)) ∧
    (AllHold (s.adapterChecks ra rb) →
      (∃ q ∈ macRequests s.provider.E (s.bsVal ra) (s.bsVal rb), s.provider.fails q = true) →
      exec (.prf rd ra rb) s = .next (s.failed .aesFail 0)) ∧
    (AllHold (s.off2Checks ra rb) → s.provider.fails ⟨.ecb, s.bsVal ra, s.bsVal rb⟩ = true →
      exec (.off2 rd ra rb) s = .next (s.failed .aesFail 0))) ∧
  (∀ (rd ra : Reg) (s : State) (i : Instr),
    let radix := s.params.radix.toNat
    let n := s.arg0.toNat
    (i = .f1rnd rd ra ∨ (i = .frnd rd ra ∧ s.params.rf = 1) → (s.bs.get .r1).len ≤ 4096 → AllHold (s.f1Checks ra) →
      (∃ q ∈ ff1Requests s.provider.E radix (s.bsVal .r0) n (s.bsVal .r1) s.arg1.toNat (numeralSum radix (s.nsVal ra)),
        s.provider.fails q = true) → exec i s = .next (s.failed .aesFail 0)) ∧
    (i = .f2rnd rd ra ∨ (i = .frnd rd ra ∧ s.params.rf = 2) → AllHold (s.f2HeaderChecks ra) → ¬ s.f2SubkeyAnswered.ok →
      exec i s = .next (s.failed .aesFail 0)) ∧
    (i = .f2rnd rd ra ∨ (i = .frnd rd ra ∧ s.params.rf = 2) → AllHold (s.f2Checks ra) →
      (∃ q ∈ ff2Requests s.provider.E radix s.params.tweakRadix.toNat (s.bsVal .r0) n (s.bsVal .r1) s.arg1.toNat
        (numeralSum radix (s.nsVal ra)), s.provider.fails q = true) → exec i s = .next (s.failed .aesFail 0)) ∧
    (i = .f3rnd rd ra ∨ (i = .frnd rd ra ∧ s.params.rf = 3) → AllHold (s.f3Checks ra) →
      (∃ q ∈ ff3Requests (s.bsVal .r0) (s.bsVal .r1) s.arg1.toNat (numeralSum radix (s.nsVal ra).reverse),
        s.provider.fails q = true) → exec i s = .next (s.failed .aesFail 0))) ∧
  ∀ (rd ra : Reg) (s : State) (k : Nat), (s.bs.get .r1).len ≤ 4096 → (s.ns.get ra).len ≤ 4096 →
    let n := (s.ns.get ra).len
    let radix := s.params.radix.toNat
    let tradix := s.params.tweakRadix.toNat
    let K := s.bsVal .r0
    let T := s.bsVal .r1
    let E := s.provider.E
    (AllHold (s.ff1CipherChecks ra) → T.length + ff1Bytes radix n ≤ 4079 →
      let round := BlockwiseRound radix fun i x => ff1Y E radix K n T i x
      let requests := fun i B => ff1Requests E radix K n T i (numeralSum radix B)
      (EncryptFailsIn s.provider round requests (n / 2) 10 k (s.nsVal ra) →
        exec (.ff1enc rd ra) s = .next (s.failedInRounds .aesFail 0 10 k)) ∧
      (DecryptFailsIn s.provider radix round requests (n / 2) 10 k (s.nsVal ra) →
        exec (.ff1dec rd ra) s = .next (s.failedInRounds .aesFail 0 10 k))) ∧
    (AllHold (s.ff2CipherChecks ra) → radix ≠ 256 → (tweakDigitsIn tradix T).ok →
      let round := BlockwiseRound radix fun i x => ff2Y E radix tradix K n T i x
      let requests := fun i B => ff2Requests E radix tradix K n T i (numeralSum radix B)
      (EncryptFailsIn s.provider round requests (n / 2) 10 k (s.nsVal ra) →
        exec (.ff2enc rd ra) s = .next (s.failedInRounds .aesFail 0 10 k)) ∧
      (DecryptFailsIn s.provider radix round requests (n / 2) 10 k (s.nsVal ra) →
        exec (.ff2dec rd ra) s = .next (s.failedInRounds .aesFail 0 10 k))) ∧
    (s.params = ff3Params s.params.radix → AllHold (s.cipherChecks ra) →
      let round := ReversedRound radix fun i x => ff3Y E K T i x
      let requests := fun i (B : List Word) => ff3Requests K T i (numeralSum radix B.reverse)
      (EncryptFailsIn s.provider round requests ((n + 1) / 2) 8 k (s.nsVal ra) →
        exec (.enc rd ra) s = .next (s.failedInRounds .aesFail 0 8 k)) ∧
      (DecryptFailsIn s.provider radix round requests ((n + 1) / 2) 8 k (s.nsVal ra) →
        exec (.dec rd ra) s = .next (s.failedInRounds .aesFail 0 8 k)))

/-! ## Arithmetic functions, split, rounds -/

/-- R190, R192, R193, R195, R196, R198, R199: the six arithmetic commands make the same checks in the same order. -/
def Obligations.ArithmeticChecksInOrder : Prop :=
  ∀ (rd ra rb : Reg) (s : State) (i : Instr),
    i ∈ [Instr.addblk rd ra rb, Instr.subblk rd ra rb, Instr.addrev rd ra rb, Instr.subrev rd ra rb,
      Instr.addchr rd ra rb, Instr.subchr rd ra rb] →
    RaisesFirst i s (s.arithmeticChecks ra rb)

/-- R191 to R193: ADDBLK and SUBBLK work on the strings' values modulo `radix^m`. -/
def Obligations.BlockwiseCommandsWorkModuloThePower : Prop :=
  ∀ (rd ra rb : Reg) (s : State), AllHold (s.arithmeticChecks ra rb) →
    let radix := s.params.radix.toNat
    let m := (s.ns.get ra).len
    (∃ C, IsNumerals radix m ((numeralSum radix (s.nsVal ra) + numeralSum radix (s.nsVal rb)) % radix ^ m) C ∧
      exec (.addblk rd ra rb) s = .next (s.putNs rd C).completed) ∧
    ∃ C, IsNumerals radix m
        (((numeralSum radix (s.nsVal ra) : Int) - numeralSum radix (s.nsVal rb)) % (radix ^ m : Nat)).toNat C ∧
      exec (.subblk rd ra rb) s = .next (s.putNs rd C).completed

/-- R194 to R196: ADDREV and SUBREV reverse the first operand before it is valued, and the result. -/
def Obligations.ReversedCommandsReverseOperandAndResult : Prop :=
  ∀ (rd ra rb : Reg) (s : State), AllHold (s.arithmeticChecks ra rb) →
    let radix := s.params.radix.toNat
    let m := (s.ns.get ra).len
    (∃ C, IsNumerals radix m
        ((numeralSum radix (s.nsVal ra).reverse + numeralSum radix (s.nsVal rb)) % radix ^ m) C.reverse ∧
      exec (.addrev rd ra rb) s = .next (s.putNs rd C).completed) ∧
    ∃ C, IsNumerals radix m
        (((numeralSum radix (s.nsVal ra).reverse : Int) - numeralSum radix (s.nsVal rb)) %
          (radix ^ m : Nat)).toNat C.reverse ∧
      exec (.subrev rd ra rb) s = .next (s.putNs rd C).completed

/-- R197 to R199: ADDCHR and SUBCHR work on each pair of numerals modulo the radix; no carry passes. -/
def Obligations.CharacterwiseCommandsWorkPerNumeral : Prop :=
  ∀ (rd ra rb : Reg) (s : State), AllHold (s.arithmeticChecks ra rb) →
    let radix := s.params.radix.toNat
    let m := (s.ns.get ra).len
    (∃ C : List Word, C.length = m ∧ Numerals radix C ∧
      (∀ (j : Nat) (a y : Word), (s.nsVal ra)[j]? = some a → (s.nsVal rb)[j]? = some y →
        ∃ c : Word, C[j]? = some c ∧ c.toNat = (a.toNat + y.toNat) % radix) ∧
      exec (.addchr rd ra rb) s = .next (s.putNs rd C).completed) ∧
    ∃ C : List Word, C.length = m ∧ Numerals radix C ∧
      (∀ (j : Nat) (a y : Word), (s.nsVal ra)[j]? = some a → (s.nsVal rb)[j]? = some y →
        ∃ c : Word, C[j]? = some c ∧ (c.toNat : Int) = ((a.toNat : Int) - y.toNat) % radix) ∧
      exec (.subchr rd ra rb) s = .next (s.putNs rd C).completed

/-- R193, R196: subtraction undoes addition, in each of the three forms. -/
def Obligations.SubtractionUndoesAddition : Prop :=
  ∀ (radix : Nat) (A Y C : List Word),
    (addBlk radix A Y = .ok C → subBlk radix C Y = .ok A) ∧
    (addRev radix A Y = .ok C → subRev radix C Y = .ok A) ∧
    (addChr radix A Y = .ok C → subChr radix C Y = .ok A)

/-- R200, R201: SPLIT and RNDS write their result to RES0. -/
def Obligations.SplitAndRndsWriteRes0 : Prop :=
  ∀ (s : State),
    (RaisesFirst .split s
        [⟨2 ≤ s.arg0.toNat ∧ s.arg0.toNat ≤ 4096, .argRange, 0⟩,
          ⟨s.params.split = 1 ∨ s.params.split = 2 ∨ s.params.split = 3, .paramInvalid, 3⟩,
          ⟨1 ≤ s.params.leftLen s.arg0.toNat ∧ s.params.leftLen s.arg0.toNat ≤ s.arg0.toNat - 1, .paramInvalid, 5⟩] ∧
      (AllHold
          [⟨2 ≤ s.arg0.toNat ∧ s.arg0.toNat ≤ 4096, .argRange, 0⟩,
            ⟨s.params.split = 1 ∨ s.params.split = 2 ∨ s.params.split = 3, .paramInvalid, 3⟩,
            ⟨1 ≤ s.params.leftLen s.arg0.toNat ∧ s.params.leftLen s.arg0.toNat ≤ s.arg0.toNat - 1,
              .paramInvalid, 5⟩] →
        ∃ l : Word, l.toNat = s.params.leftLen s.arg0.toNat ∧
          exec .split s = .next (State.completed { s with res0 := l }))) ∧
    RaisesFirst .rnds s
      [⟨2 ≤ s.arg0.toNat ∧ s.arg0.toNat ≤ 4096, .argRange, 0⟩, ⟨s.params.rounds.toNat ≤ 255, .paramInvalid, 4⟩] ∧
    (AllHold
        [⟨2 ≤ s.arg0.toNat ∧ s.arg0.toNat ≤ 4096, .argRange, 0⟩, ⟨s.params.rounds.toNat ≤ 255, .paramInvalid, 4⟩] →
      exec .rnds s = .next (State.completed { s with res0 := s.params.rounds }))

/-! ## Round functions -/

/-- R231 to R236: F1RND, the FF1 round function under the configured cipher: its checks, which all come before its first
request, whatever the provider does; its result where the provider fails no request. -/
def Obligations.F1rndComputesTheFf1Round : Prop :=
  ∀ (rd ra : Reg) (s : State), (s.bs.get .r1).len ≤ 4096 →
    let n := s.arg0.toNat
    let m := if s.arg1.toNat % 2 = 0 then n / 2 else n - n / 2
    let radix := s.params.radix.toNat
    RaisesFirst (.f1rnd rd ra) s (s.f1Checks ra) ∧
    (AllHold (s.f1Checks ra) → s.providerAnswers →
      ∃ Y, IsNumerals radix m
          (ff1Y s.provider.E radix (s.bsVal .r0) n (s.bsVal .r1) s.arg1.toNat (numeralSum radix (s.nsVal ra)) %
            radix ^ m) Y ∧
        exec (.f1rnd rd ra) s = .next (s.putNs rd Y).completed)

/-- R251 to R256, R262: F2RND, the FF2 round function under the configured cipher: its checks, with the request for `J` in
its place among them (R255), whatever the provider does; its result where the provider fails no request. Radix 256 raises
VALUE_RANGE. That the request for `J` is one ECB request of `P` under `K`, whose failure alone is AES_FAIL there, is the
model's choice (log 9): R100 leaves the number, order and grouping of requests open. -/
def Obligations.F2rndComputesTheFf2Round : Prop :=
  ∀ (rd ra : Reg) (s : State),
    let n := s.arg0.toNat
    let m := if s.arg1.toNat % 2 = 0 then n / 2 else n - n / 2
    let radix := s.params.radix.toNat
    RaisesFirst (.f2rnd rd ra) s (s.f2HeaderChecks ra ++ s.f2SubkeyAnswered :: s.f2HalfChecks ra) ∧
    (AllHold (s.f2Checks ra) → s.providerAnswers →
      ∃ Y, IsNumerals radix m
          (ff2Y s.provider.E radix s.params.tweakRadix.toNat (s.bsVal .r0) n (s.bsVal .r1) s.arg1.toNat
            (numeralSum radix (s.nsVal ra)) % radix ^ m) Y ∧
        exec (.f2rnd rd ra) s = .next (s.putNs rd Y).completed)

/-- R271 to R276: F3RND, the FF3 round function under the configured cipher: its checks, which all come before its request,
whatever the provider does; its result where the provider fails no request. -/
def Obligations.F3rndComputesTheFf3Round : Prop :=
  ∀ (rd ra : Reg) (s : State),
    let n := s.arg0.toNat
    let m := if s.arg1.toNat % 2 = 0 then (n + 1) / 2 else n - (n + 1) / 2
    let radix := s.params.radix.toNat
    RaisesFirst (.f3rnd rd ra) s (s.f3Checks ra) ∧
    (AllHold (s.f3Checks ra) → s.providerAnswers →
      ∃ Y, IsNumerals radix m
          (ff3Y s.provider.E (s.bsVal .r0) (s.bsVal .r1) s.arg1.toNat (numeralSum radix (s.nsVal ra).reverse) %
            radix ^ m) Y ∧
        exec (.f3rnd rd ra) s = .next (s.putNs rd Y).completed)

/-- R203: FRND makes its presence checks, then requires a legal MODE.RF, and is then F1RND, F2RND or F3RND. It completes
where the selected command does. -/
def Obligations.FrndIsTheSelectedRound : Prop :=
  ∀ (rd ra : Reg) (s : State),
    RaisesFirst (.frnd rd ra) s
      (s.presenceChecks ra ++
        [⟨s.params.rf = 1 ∨ s.params.rf = 2 ∨ s.params.rf = 3, .paramInvalid, 2⟩]) ∧
    (s.params.rf = 1 → exec (.frnd rd ra) s = exec (.f1rnd rd ra) s) ∧
    (s.params.rf = 2 → exec (.frnd rd ra) s = exec (.f2rnd rd ra) s) ∧
    (s.params.rf = 3 → exec (.frnd rd ra) s = exec (.f3rnd rd ra) s) ∧
    (s.params.rf = 3 → s.providerAnswers → AllHold (s.f3Checks ra) →
      ∃ Y : List Word, Y.length = (if s.arg1.toNat % 2 = 0 then (s.arg0.toNat + 1) / 2
          else s.arg0.toNat - (s.arg0.toNat + 1) / 2) ∧
        exec (.frnd rd ra) s = .next (s.putNs rd Y).completed)

/-! ## Parameter loads -/

/-- R238: LDFF1. -/
def Obligations.Ldff1LoadsTheFf1Parameters : Prop :=
  ∀ (s : State),
    RaisesFirst .ldff1 s [radixIn s.arg0.toNat, ⟨s.arg1.toNat ≤ 4096, .argRange, 0⟩] ∧
    (AllHold [radixIn s.arg0.toNat, ⟨s.arg1.toNat ≤ 4096, .argRange, 0⟩] →
      exec .ldff1 s = .next (State.completed { s with params :=
        { radix := s.arg0, tweakRadix := 0, minlen := 2, maxlenP := 4096, mintlen := 0, maxtlen := s.arg1,
          rounds := 10, mode := 0x56, splitK := 0 } }))

/-- R258, with `maxlen` and `maxTlen` as R257 derives them. -/
def Obligations.Ldff2LoadsTheFf2Parameters : Prop :=
  ∀ (s : State),
    RaisesFirst .ldff2 s [⟨2 ≤ s.arg0.toNat ∧ s.arg0.toNat ≤ 256, .radixRange, 0⟩,
      ⟨2 ≤ s.arg1.toNat ∧ s.arg1.toNat ≤ 256, .radixRange, 0⟩] ∧
    (AllHold [⟨2 ≤ s.arg0.toNat ∧ s.arg0.toNat ≤ 256, .radixRange, 0⟩,
        ⟨2 ≤ s.arg1.toNat ∧ s.arg1.toNat ≤ 256, .radixRange, 0⟩] →
      ∃ longest tweak : Word, longest.toNat = ff2LongestInput s.arg0.toNat ∧
        tweak.toNat = ff2LongestTweak s.arg1.toNat ∧
        exec .ldff2 s = .next (State.completed { s with params :=
          { radix := s.arg0, tweakRadix := s.arg1, minlen := 2, maxlenP := longest, mintlen := 0, maxtlen := tweak,
            rounds := 10, mode := 0x96, splitK := 0 } }))

/-- R278, with `minlen` and `maxlen` as R277 derives them. -/
def Obligations.Ldff3LoadsTheFf3Parameters : Prop :=
  ∀ (s : State),
    RaisesFirst .ldff3 s [radixIn s.arg0.toNat] ∧
    (AllHold [radixIn s.arg0.toNat] →
      ∃ shortest longest : Nat,
        (2 ≤ shortest ∧ 100 ≤ s.arg0.toNat ^ shortest ∧ ∀ L, 2 ≤ L → 100 ≤ s.arg0.toNat ^ L → shortest ≤ L) ∧
        longest = 2 * Nat.log s.arg0.toNat (2 ^ 96) ∧ shortest < 2 ^ 32 ∧ longest < 2 ^ 32 ∧
        exec .ldff3 s = .next (State.completed { s with params :=
          { radix := s.arg0, tweakRadix := 0, minlen := BitVec.ofNat 32 shortest,
            maxlenP := BitVec.ofNat 32 longest, mintlen := 8, maxtlen := 8, rounds := 8, mode := 0xEA,
            splitK := 0 } }))

/-! ## System commands -/

/-- R296, R297: NOP completes and changes no register; CLR ends in IDLE with the error record and DROP cleared. Both do
so in every state, so a well-formed CLR always succeeds (R327). -/
def Obligations.NopAndClrAlwaysComplete : Prop :=
  ∀ (s : State), exec .nop s = .next s.completed ∧ exec .clr s = .next s.cleared

/-- R298: after WIPE every data register is absent, every element reads 0 in its window and every value is 0; the scalars
are 0; CTRL, the parameter registers and ERRLOG are unchanged. -/
def Obligations.WipeLeavesNoOperand : Prop :=
  ∀ (s : State), ∃ t, exec .wipe s = .next t ∧ t.phase = .idle ∧ t.drop = false ∧ t.eclass = 0 ∧ t.ecause = 0 ∧
    t.errinfo = 0 ∧ t.progWord = 0 ∧ t.presentWord = 0 ∧ t.arg0 = 0 ∧ t.arg1 = 0 ∧ t.res0 = 0 ∧
    (∀ r, (t.ns.get r).len = 0 ∧ (t.bs.get r).len = 0 ∧ (t.bn.get r).value = 0) ∧
    (∀ r j, t.readLocation (.nsElement r j) = 0 ∧ t.readLocation (.bsElement r j) = 0) ∧
    t.ctrl = s.ctrl ∧ t.params = s.params ∧ t.errlog = s.errlog ∧ t.lastop = s.lastop ∧ t.cfg = s.cfg ∧
    t.host = s.host ∧ t.answers = s.answers ∧ t.delays = s.delays ∧ t.resetHeld = s.resetHeld

/-! ## Ciphers -/

/-- R204 to R206, R210, R211, R213, R340: ENC and DEC with any parameter set: the preconditions in their order, then the
rounds, whose result is written, or whose error is taken with PROG at the rounds completed. R207 to R209, R191, R194, R197,
R202: what the rounds give, written out without the model's own, for either method, every arithmetic and round function,
every number of rounds and every provider that answers; DEC's result is the string that these rounds take to its input. -/
def Obligations.EncAndDecCheckThenRunTheRounds : Prop :=
  (∀ (rd ra : Reg) (s : State) (i : Instr) (job : Except RoundError (List Word)),
    (i = .enc rd ra ∧ job = (s.params.network s.provider (s.bsVal .r0) (s.bsVal .r1) (s.ns.get ra).len).encrypt
      s.params.method (s.nsVal ra)) ∨
    (i = .dec rd ra ∧ job = (s.params.network s.provider (s.bsVal .r0) (s.bsVal .r1) (s.ns.get ra).len).decrypt
      s.params.method (s.nsVal ra)) →
    RaisesFirst i s (s.cipherChecks ra) ∧
    (AllHold (s.cipherChecks ra) →
      (∀ Y, job = .ok Y → exec i s = .next ((s.putNs rd Y).completedRounds s.params.rounds.toNat)) ∧
      (∀ f, job = .error f →
        exec i s = .next (s.failedInRounds f.error.cause f.error.info s.params.rounds.toNat f.done)))) ∧
  (∀ (rd ra : Reg) (s : State), s.providerAnswers → (s.bs.get .r1).len ≤ 4096 → (s.ns.get ra).len ≤ 4096 →
    AllHold (s.cipherChecks ra) → s.params.RoundsFit (s.ns.get ra).len (s.bsVal .r1) →
    (∃ Z, s.params.Run s.provider.E (s.bsVal .r0) (s.bsVal .r1) (s.nsVal ra) Z ∧
      Z.length = (s.ns.get ra).len ∧ Numerals s.params.radix.toNat Z ∧
      exec (.enc rd ra) s = .next ((s.putNs rd Z).completedRounds s.params.rounds.toNat)) ∧
    ∃ Z, s.params.Run s.provider.E (s.bsVal .r0) (s.bsVal .r1) Z (s.nsVal ra) ∧
      Z.length = (s.ns.get ra).len ∧ Numerals s.params.radix.toNat Z ∧
      exec (.dec rd ra) s = .next ((s.putNs rd Z).completedRounds s.params.rounds.toNat)) ∧
  ∀ (p : Params) (P : Provider) (K T : List Byte) (X : List Word), (∀ q, P.fails q = false) → AllHold p.usable →
    K.length = 16 ∨ K.length = 24 ∨ K.length = 32 → T.length ≤ 4096 → 2 ≤ X.length ∧ X.length ≤ 4096 →
    Numerals p.radix.toNat X → p.RoundsFit X.length T →
    (∃ Z, p.Run P.E K T X Z ∧ Z.length = X.length ∧ Numerals p.radix.toNat Z ∧
      (p.network P K T X.length).encrypt p.method X = .ok Z) ∧
    ∃ Z, p.Run P.E K T Z X ∧ Z.length = X.length ∧ Numerals p.radix.toNat Z ∧
      (p.network P K T X.length).decrypt p.method X = .ok Z

/-- R239 to R241, R244: FF1ENC runs the ten blockwise FF1 rounds, FF1DEC undoes them, under the configured cipher, where
it fails no request; the checks come first, whatever the provider does, and so does the OPERAND_LEN that operands whose
`P || Q` exceeds 4096 bytes raise in the first round. -/
def Obligations.Ff1CommandsRunTenRounds : Prop :=
  ∀ (rd ra : Reg) (s : State), (s.bs.get .r1).len ≤ 4096 → (s.ns.get ra).len ≤ 4096 →
    let n := (s.ns.get ra).len
    let radix := s.params.radix.toNat
    let round := BlockwiseRound radix fun i x => ff1Y s.provider.E radix (s.bsVal .r0) n (s.bsVal .r1) i x
    (RaisesFirst (.ff1enc rd ra) s (s.ff1CipherChecks ra) ∧ RaisesFirst (.ff1dec rd ra) s (s.ff1CipherChecks ra)) ∧
    (AllHold (s.ff1CipherChecks ra) → (s.bs.get .r1).len + ff1Bytes radix n ≤ 4079 → s.providerAnswers →
      (∃ Z, FeistelRun round (n / 2) 10 (s.nsVal ra) Z ∧ Z.length = n ∧ Numerals radix Z ∧
        exec (.ff1enc rd ra) s = .next ((s.putNs rd Z).completedRounds 10)) ∧
      ∃ Z, FeistelRun round (n / 2) 10 Z (s.nsVal ra) ∧ Z.length = n ∧ Numerals radix Z ∧
        exec (.ff1dec rd ra) s = .next ((s.putNs rd Z).completedRounds 10)) ∧
    (AllHold (s.ff1CipherChecks ra) → 4079 < (s.bs.get .r1).len + ff1Bytes radix n →
      exec (.ff1enc rd ra) s = .next (s.failedInRounds .operandLen 0 10 0) ∧
      exec (.ff1dec rd ra) s = .next (s.failedInRounds .operandLen 0 10 0))

/-- R259 to R262: FF2ENC runs the ten blockwise FF2 rounds, FF2DEC undoes them, under the configured cipher, where it
fails no request; the checks come first, whatever the provider does, and so do the errors of radix 256 and of a tweak digit
out of range, which are found in the first round. -/
def Obligations.Ff2CommandsRunTenRounds : Prop :=
  ∀ (rd ra : Reg) (s : State),
    let n := (s.ns.get ra).len
    let radix := s.params.radix.toNat
    let tradix := s.params.tweakRadix.toNat
    let round := BlockwiseRound radix fun i x => ff2Y s.provider.E radix tradix (s.bsVal .r0) n (s.bsVal .r1) i x
    let digits := tweakDigitsIn tradix (s.bsVal .r1)
    (RaisesFirst (.ff2enc rd ra) s (s.ff2CipherChecks ra) ∧ RaisesFirst (.ff2dec rd ra) s (s.ff2CipherChecks ra)) ∧
    (AllHold (s.ff2CipherChecks ra) → radix ≠ 256 → digits.ok → s.providerAnswers →
      (∃ Z, FeistelRun round (n / 2) 10 (s.nsVal ra) Z ∧ Z.length = n ∧ Numerals radix Z ∧
        exec (.ff2enc rd ra) s = .next ((s.putNs rd Z).completedRounds 10)) ∧
      ∃ Z, FeistelRun round (n / 2) 10 Z (s.nsVal ra) ∧ Z.length = n ∧ Numerals radix Z ∧
        exec (.ff2dec rd ra) s = .next ((s.putNs rd Z).completedRounds 10)) ∧
    (AllHold (s.ff2CipherChecks ra) → radix = 256 →
      exec (.ff2enc rd ra) s = .next (s.failedInRounds .valueRange 0 10 0) ∧
      exec (.ff2dec rd ra) s = .next (s.failedInRounds .valueRange 0 10 0)) ∧
    (AllHold (s.ff2CipherChecks ra) → radix ≠ 256 → ¬ digits.ok →
      exec (.ff2enc rd ra) s = .next (s.failedInRounds .tweakDigit digits.info 10 0) ∧
      exec (.ff2dec rd ra) s = .next (s.failedInRounds .tweakDigit digits.info 10 0))

/-- R279: ENC and DEC with the parameters LDFF3 loads run, and undo, the eight reversed-blockwise FF3 rounds, under the
configured cipher. -/
def Obligations.Ff3CommandsRunEightRounds : Prop :=
  ∀ (rd ra : Reg) (s : State), s.providerAnswers → s.params = ff3Params s.params.radix →
    let n := (s.ns.get ra).len
    let radix := s.params.radix.toNat
    let round := ReversedRound radix fun i x => ff3Y s.provider.E (s.bsVal .r0) (s.bsVal .r1) i x
    AllHold (s.cipherChecks ra) →
      (∃ Z, FeistelRun round ((n + 1) / 2) 8 (s.nsVal ra) Z ∧ Z.length = n ∧ Numerals radix Z ∧
        exec (.enc rd ra) s = .next ((s.putNs rd Z).completedRounds 8)) ∧
      ∃ Z, FeistelRun round ((n + 1) / 2) 8 Z (s.nsVal ra) ∧ Z.length = n ∧ Numerals radix Z ∧
        exec (.dec rd ra) s = .next ((s.putNs rd Z).completedRounds 8)

/-- R242: FF1ENC and FF1DEC end in the same state as ENC and DEC with the FF1 parameters, error or not; they read no
parameter register but RADIX and MAXTLEN. -/
def Obligations.Ff1DirectEqualsGeneric : Prop :=
  ∀ (rd ra : Reg) (s : State), (s.ns.get ra).len ≤ 4096 →
    let p := ff1Params s.params.radix s.params.maxtlen
    (∃ t, exec (.ff1enc rd ra) s = .next t ∧
      exec (.enc rd ra) { s with params := p } = .next { t with params := p }) ∧
    ∃ t, exec (.ff1dec rd ra) s = .next t ∧
      exec (.dec rd ra) { s with params := p } = .next { t with params := p }

/-- R263: FF2ENC and FF2DEC end in the same state as ENC and DEC with the FF2 parameters, error or not; they read no
parameter register but RADIX and TWEAK_RADIX. -/
def Obligations.Ff2DirectEqualsGeneric : Prop :=
  ∀ (rd ra : Reg) (s : State),
    (2 ≤ s.params.radix.toNat ∧ s.params.radix.toNat ≤ 256) →
    (2 ≤ s.params.tweakRadix.toNat ∧ s.params.tweakRadix.toNat ≤ 256) →
    let p := ff2Params s.params.radix s.params.tweakRadix
    (∃ t, exec (.ff2enc rd ra) s = .next t ∧
      exec (.enc rd ra) { s with params := p } = .next { t with params := p }) ∧
    ∃ t, exec (.ff2dec rd ra) s = .next t ∧
      exec (.dec rd ra) { s with params := p } = .next { t with params := p }

/-- R212: DEC undoes ENC, for every parameter set (each cipher, both methods, every arithmetic function), every register
choice, and a provider of any configuration, whenever the same key, tweak and parameters stand and the ciphertext is
intact; and the rounds of decryption undo those of encryption under every provider whatever. -/
def Obligations.DecUndoesEnc : Prop :=
  (∀ (s t u : State) (d a e : Reg), exec (.enc d a) s = .next t → t.phase = .done →
    u.params = s.params → u.cfg = s.cfg → u.ns.get d = t.ns.get d →
    (u.bs.get .r0).present = true → u.bsVal .r0 = s.bsVal .r0 →
    (u.bs.get .r1).present = true → u.bsVal .r1 = s.bsVal .r1 →
    ∃ v, exec (.dec e d) u = .next v ∧ v.phase = .done ∧ v.nsVal e = s.nsVal a) ∧
  ∀ (p : Params) (P : Provider) (K T : List Byte) (X Y : List Word),
    (p.network P K T X.length).encrypt p.method X = .ok Y → (p.network P K T X.length).decrypt p.method Y = .ok X

/-- R212: a cipher command that completes keeps the length, and every numeral of its result is below the radix. -/
def Obligations.CiphersPreserveTheFormat : Prop :=
  ∀ (s t : State) (rd ra : Reg) (i : Instr),
    i ∈ [Instr.enc rd ra, Instr.dec rd ra, Instr.ff1enc rd ra, Instr.ff1dec rd ra, Instr.ff2enc rd ra,
      Instr.ff2dec rd ra] →
    exec i s = .next t → t.phase = .done →
    (t.ns.get rd).present = true ∧ (t.ns.get rd).len = (s.ns.get ra).len ∧
      Numerals s.params.radix.toNat (t.nsVal rd)

/-! ## Every command -/

/-- R325: when a command ends in ERROR, the error record is all that has changed; its cause is one of R311, and the
cause's class and code are what STATUS shows. -/
def Obligations.ErrorEntryLeavesNoPartialResult : Prop :=
  ∀ (i : Instr) (s t : State), exec i s = .next t → t.phase = .error →
    ∃ (c : Cause) (info total done : Nat), done ≤ total ∧ t = s.failedInRounds c info total done

/-- R39, R46, R57, R214: a command other than WIPE writes its destination register and nothing else among the data
registers, scalars, parameters and controls. -/
def Obligations.CommandsWriteOnlyTheirDestination : Prop :=
  ∀ (i : Instr) (s t : State), exec i s = .next t → i ≠ .wipe →
    (∀ r, nsDest i ≠ some r → t.ns.get r = s.ns.get r) ∧
    (∀ r, bsDest i ≠ some r → t.bs.get r = s.bs.get r) ∧
    (∀ r, bnDest i ≠ some r → t.bn.get r = s.bn.get r) ∧
    (i ≠ .split → i ≠ .rnds → t.res0 = s.res0) ∧ t.arg0 = s.arg0 ∧ t.arg1 = s.arg1 ∧
    (i ≠ .ldff1 → i ≠ .ldff2 → i ≠ .ldff3 → t.params = s.params) ∧
    t.ctrl = s.ctrl ∧ t.lastop = s.lastop ∧ (i ≠ .clr → t.drop = s.drop) ∧
    (t.phase ≠ .error → t.errlog = s.errlog) ∧
    t.cfg = s.cfg ∧ t.host = s.host ∧ t.answers = s.answers ∧ t.delays = s.delays ∧ t.resetHeld = s.resetHeld

/-- R60, R63, R325: every command answers a next state, and ends in IDLE (CLR, WIPE), DONE or ERROR, never BUSY; DONE and
IDLE carry no error. And no step stops: 93, part 1, "Nothing in FFXE is stuck". -/
def Obligations.EveryCommandEnds : Prop :=
  (∀ (i : Instr) (s : State), ∃ t, exec i s = .next t ∧
    (t.phase = .idle ↔ i = .clr ∨ i = .wipe) ∧ t.phase.isBusy = false ∧
    (t.phase ≠ .error → t.eclass = 0 ∧ t.ecause = 0 ∧ t.errinfo = 0)) ∧
  ∀ (s : State), ∃ t, step s = .next t

/-- R41, R340: no bit of CTRL affects what any command computes, only what PROG shows. -/
def Obligations.CtrlAffectsNoResult : Prop :=
  ∀ (i : Instr) (s : State) (c : Word), ∃ t u, exec i s = .next t ∧ exec i { s with ctrl := c } = .next u ∧
    u.ctrl = c ∧ { u with ctrl := t.ctrl, rtotal := t.rtotal, rdone := t.rdone } = t

/-! ## Host port and reset -/

/-- R62: acceptance of a command word. The delay given to the word is the model's schedule (log 2). -/
def Obligations.CommandWordAcceptance : Prop :=
  ∀ (s : State) (w : Word), s.resetHeld = false →
    (s.phase = .idle ∨ s.phase = .done ∨
        (s.phase = .error ∧ (w.extractLsb' 0 8 = 0x01 ∨ w.extractLsb' 0 8 = 0x02)) →
      s.hostWrite 0x00008 w =
        ({ s with phase := .busy w (s.delays.headD 0), lastop := w.extractLsb' 0 8, eclass := 0, ecause := 0,
                  errinfo := 0, rdone := 0, rtotal := 0, delays := s.delays.tail }, .ok)) ∧
    ((∃ v d, s.phase = .busy v d) ∨
        (s.phase = .error ∧ w.extractLsb' 0 8 ≠ 0x01 ∧ w.extractLsb' 0 8 ≠ 0x02) →
      s.hostWrite 0x00008 w = ({ s with drop := true }, .err))

/-- R90: while BUSY every write is refused and recorded in DROP (a misaligned or unmapped one too: log 13), the control
block can be read, the data windows cannot. -/
def Obligations.BusyRefusesWritesAndWindowReads : Prop :=
  ∀ (s : State) (w : Word) (d : Nat), s.resetHeld = false → s.phase = .busy w d →
    (∀ a v, s.hostWrite a v = ({ s with drop := true }, .err)) ∧
    (∀ a : Addr, 0x10000 ≤ a.toNat → a.toNat < 0x30000 → (s.readAnswer a).resp = .err) ∧
    (∀ (a : Addr) (l : Location), a.toNat < 0x100 → locate a = some l →
      s.readAnswer a = ⟨.ok, some (s.readLocation l)⟩)

/-- R82, R83, R84: misaligned and unmapped transactions, and writes to read-only registers, get ERR and change nothing; a
read of CMD gets 0. (While BUSY a write sets DROP: R90.) -/
def Obligations.BadAddressesAreRefused : Prop :=
  ∀ (s : State), s.resetHeld = false → s.phase.isBusy = false →
    (∀ (a : Addr) (v : Word),
      a.toNat % 4 ≠ 0 ∨ (0x100 ≤ a.toNat ∧ a.toNat < 0x10000) ∨ 0x30000 ≤ a.toNat ∨
        (0x28 ≤ a.toNat ∧ a.toNat < 0x40) ∨ (0x64 ≤ a.toNat ∧ a.toNat < 0x80) ∨
        (0xA4 ≤ a.toNat ∧ a.toNat < 0xB0) ∨ (0xC0 ≤ a.toNat ∧ a.toNat < 0x100) →
      s.hostWrite a v = (s, .err) ∧ (s.readAnswer a).resp = .err) ∧
    (∀ (a : Addr) (v : Word),
      a ∈ [0x00, 0x0C, 0x10, 0x14, 0x18, 0x1C, 0xA0, 0xB0, 0xB4, 0xB8, 0xBC] → s.hostWrite a v = (s, .err)) ∧
    s.readAnswer 0x00 = ⟨.ok, some 0x46465801⟩ ∧ s.readAnswer 0x08 = ⟨.ok, some 0⟩

/-- R85, R86: a window write stores one element of one register and nothing else; below the length it is what the window
reads and what commands read; at or beyond it, it is there once a length write covers it (R37, R56, R121). -/
def Obligations.WindowsStoreOneElement : Prop :=
  ∀ (s : State) (r : Reg) (j : Nat) (v : Word) (a b : Addr), s.resetHeld = false → s.phase.isBusy = false →
    j < 4096 → a.toNat = 0x10000 + regIndex r * 0x4000 + 4 * j → b.toNat = 0x20000 + regIndex r * 0x4000 + 4 * j →
    (∃ x, s.hostWrite a v = ({ s with ns := s.ns.set r x }, .ok) ∧ x.present = (s.ns.get r).present ∧
      x.len = (s.ns.get r).len ∧
      (∀ k, (State.nsVal { s with ns := s.ns.set r x } r)[k]? =
        if k = j ∧ j < x.len then some v else (s.nsVal r)[k]?) ∧
      (j < x.len → (State.readAnswer { s with ns := s.ns.set r x } a) = ⟨.ok, some v⟩)) ∧
    (∃ x, s.hostWrite b v = ({ s with bs := s.bs.set r x }, .ok) ∧ x.present = (s.bs.get r).present ∧
      x.len = (s.bs.get r).len ∧
      (∀ k, (State.bsVal { s with bs := s.bs.set r x } r)[k]? =
        if k = j ∧ j < x.len then some (v.setWidth 8) else (s.bsVal r)[k]?) ∧
      (j < x.len → (State.readAnswer { s with bs := s.bs.set r x } b) = ⟨.ok, some (v &&& 0xFF)⟩)) ∧
    (∀ x, (s.nsVal r)[j]? = some x → s.readAnswer a = ⟨.ok, some x⟩) ∧
    (∀ x, (s.bsVal r)[j]? = some x → s.readAnswer b = ⟨.ok, some (x.setWidth 32)⟩) ∧
    ∀ (n : Word) (c d : Addr), n.toNat ≤ 4096 → c.toNat = 0x80 + 4 * regIndex r → d.toNat = 0x90 + 4 * regIndex r →
      (∀ k, ((((s.hostWrite a v).1).hostWrite c n).1.nsVal r)[k]? =
        if k = j ∧ j < n.toNat then some v else ((s.hostWrite c n).1.nsVal r)[k]?) ∧
      (∀ k, ((((s.hostWrite b v).1).hostWrite d n).1.bsVal r)[k]? =
        if k = j ∧ j < n.toNat then some (v.setWidth 8) else ((s.hostWrite d n).1.bsVal r)[k]?)

/-- R56: the length registers, PRESENT and BNINFO, as the host writes and reads them. Of a bit length that its 17 bits cannot hold BNINFO's field is left
open (log 14). -/
def Obligations.LengthAndPresenceRegisters : Prop :=
  ∀ (s : State) (r : Reg) (v : Word) (a b c : Addr), s.resetHeld = false → s.phase.isBusy = false →
    a.toNat = 0x80 + 4 * regIndex r → b.toNat = 0x90 + 4 * regIndex r → c.toNat = 0xB0 + 4 * regIndex r →
    (v.toNat ≤ 4096 →
      s.hostWrite a v = ({ s with ns := s.ns.set r ⟨true, v.toNat, (s.ns.get r).store⟩ }, .ok) ∧
      s.hostWrite b v = ({ s with bs := s.bs.set r ⟨true, v.toNat, (s.bs.get r).store⟩ }, .ok)) ∧
    (4096 < v.toNat → s.hostWrite a v = (s, .err) ∧ s.hostWrite b v = (s, .err)) ∧
    s.readAnswer a = ⟨.ok, some (BitVec.ofNat 32 (s.ns.get r).len)⟩ ∧
    s.readAnswer b = ⟨.ok, some (BitVec.ofNat 32 (s.bs.get r).len)⟩ ∧
    s.readAnswer 0xA0 = ⟨.ok, some s.presentWord⟩ ∧
    s.presentWord.getLsbD (regIndex r) = (s.ns.get r).present ∧
    s.presentWord.getLsbD (4 + regIndex r) = (s.bs.get r).present ∧
    s.presentWord.getLsbD (8 + regIndex r) = (s.bn.get r).present ∧
    (∀ k, 12 ≤ k → s.presentWord.getLsbD k = false) ∧
    ∃ w : Word, s.readAnswer c = ⟨.ok, some w⟩ ∧ ((s.bn.get r).present = false → w = 0) ∧
      ((s.bn.get r).present = true → (w.getLsbD 31 = true ↔ (s.bn.get r).value < 0) ∧
        (∀ k, 17 ≤ k → k < 31 → w.getLsbD k = false) ∧
        ((s.bn.get r).value.natAbs.size < 2 ^ 17 →
          (w.extractLsb' 0 17).toNat = (s.bn.get r).value.natAbs.size))

/-- R40, R41, R46 to R55: the writable control registers store what is written, CTRL and MODE without their reserved
bits, and read it back; nothing else changes. -/
def Obligations.ControlRegistersStoreWhatIsWritten : Prop :=
  ∀ (s : State) (v : Word), s.resetHeld = false → s.phase.isBusy = false →
    s.hostWrite 0x04 v = ({ s with ctrl := v &&& (if s.cfg.diag then 0x7 else 0x3) }, .ok) ∧
    s.hostWrite 0x20 v = ({ s with arg0 := v }, .ok) ∧ s.hostWrite 0x24 v = ({ s with arg1 := v }, .ok) ∧
    s.hostWrite 0x40 v = ({ s with params := { s.params with radix := v } }, .ok) ∧
    s.hostWrite 0x44 v = ({ s with params := { s.params with tweakRadix := v } }, .ok) ∧
    s.hostWrite 0x48 v = ({ s with params := { s.params with minlen := v } }, .ok) ∧
    s.hostWrite 0x4C v = ({ s with params := { s.params with maxlenP := v } }, .ok) ∧
    s.hostWrite 0x50 v = ({ s with params := { s.params with mintlen := v } }, .ok) ∧
    s.hostWrite 0x54 v = ({ s with params := { s.params with maxtlen := v } }, .ok) ∧
    s.hostWrite 0x58 v = ({ s with params := { s.params with rounds := v } }, .ok) ∧
    s.hostWrite 0x5C v = ({ s with params := { s.params with mode := v &&& 0xFF } }, .ok) ∧
    s.hostWrite 0x60 v = ({ s with params := { s.params with splitK := v } }, .ok) ∧
    s.readAnswer 0x04 = ⟨.ok, some s.ctrl⟩ ∧ s.readAnswer 0x20 = ⟨.ok, some s.arg0⟩ ∧
    s.readAnswer 0x24 = ⟨.ok, some s.arg1⟩ ∧ s.readAnswer 0x40 = ⟨.ok, some s.params.radix⟩ ∧
    s.readAnswer 0x44 = ⟨.ok, some s.params.tweakRadix⟩ ∧ s.readAnswer 0x48 = ⟨.ok, some s.params.minlen⟩ ∧
    s.readAnswer 0x4C = ⟨.ok, some s.params.maxlenP⟩ ∧ s.readAnswer 0x50 = ⟨.ok, some s.params.mintlen⟩ ∧
    s.readAnswer 0x54 = ⟨.ok, some s.params.maxtlen⟩ ∧ s.readAnswer 0x58 = ⟨.ok, some s.params.rounds⟩ ∧
    s.readAnswer 0x5C = ⟨.ok, some s.params.mode⟩ ∧ s.readAnswer 0x60 = ⟨.ok, some s.params.splitK⟩

/-- R43, R44, R330: the fields of STATUS, the other read-only registers, and `irq`. -/
def Obligations.StatusFieldsAndInterrupt : Prop :=
  ∀ (s : State), s.resetHeld = false →
    (∃ w : Word, s.readAnswer 0x0C = ⟨.ok, some w⟩ ∧
      (w.extractLsb' 0 2 = 0 ↔ s.phase = .idle) ∧ (w.extractLsb' 0 2 = 1 ↔ s.phase.isBusy = true) ∧
      (w.extractLsb' 0 2 = 2 ↔ s.phase = .done) ∧ (w.extractLsb' 0 2 = 3 ↔ s.phase = .error) ∧
      w.getLsbD 2 = s.drop ∧ w.getLsbD 3 = false ∧ w.extractLsb' 4 4 = s.eclass ∧ w.extractLsb' 8 8 = s.ecause ∧
      w.extractLsb' 16 8 = s.lastop ∧ w.extractLsb' 24 8 = 0) ∧
    s.readAnswer 0x10 = ⟨.ok, some s.errinfo⟩ ∧ s.readAnswer 0x14 = ⟨.ok, some s.errlog⟩ ∧
    s.readAnswer 0x1C = ⟨.ok, some s.res0⟩ ∧
    (∃ w : Word, s.readAnswer 0x18 = ⟨.ok, some w⟩ ∧ w.extractLsb' 0 8 = s.rdone ∧ w.extractLsb' 8 8 = s.rtotal ∧
      w.extractLsb' 16 16 = 0) ∧
    (s.irq = true ↔ (s.phase = .done ∧ s.ctrl.getLsbD 0 = true) ∨ (s.phase = .error ∧ s.ctrl.getLsbD 1 = true))

/-- R65: the state after reset, as the spec's table gives it. (What the table leaves unspecified, the element storage and
the values of `bn`, is not named here.) -/
def Obligations.ResetLeavesTheTableOfValues : Prop :=
  let s := State.reset
  (∀ r, (s.ns.get r).present = false ∧ (s.ns.get r).len = 0 ∧ (s.bs.get r).present = false ∧ (s.bs.get r).len = 0 ∧
    (s.bn.get r).present = false) ∧
  s.readAnswer 0x00 = ⟨.ok, some 0x46465801⟩ ∧ s.ctrl = 0 ∧ s.statusWord = 0 ∧ s.phase = .idle ∧ s.errinfo = 0 ∧
  s.errlog = 0 ∧ s.progWord = 0 ∧ s.res0 = 0 ∧ s.arg0 = 0 ∧ s.arg1 = 0 ∧ s.params.radix = 0 ∧
  s.params.tweakRadix = 0 ∧ s.params.minlen = 0 ∧ s.params.maxlenP = 0 ∧ s.params.mintlen = 0 ∧
  s.params.maxtlen = 0 ∧ s.params.rounds = 0 ∧ s.params.mode = 0 ∧ s.params.splitK = 0 ∧ s.irq = false

/-- R350, R351: reset, from every state, BUSY included, leaves the engine as the table of R65 says (of `bn`, whose values the
table leaves unspecified, the presence bits); while it is held every transaction gets ERR and changes nothing, and `irq` is
0. That the engine is so from the moment reset is asserted, and not only when it is released, is the model's choice
(log 12). -/
def Obligations.ResetFromEveryState : Prop :=
  ∀ (s : State),
    (s.input .resetAssert).EngineReset ∧ (s.input .resetAssert).resetHeld = true ∧
    (s.input .resetRelease).EngineReset ∧ (s.input .resetRelease).resetHeld = false ∧
    (s.resetHeld = true → s.irq = false ∧
      ∀ a v, s.hostWrite a v = (s, .err) ∧ (s.readAnswer a).resp = .err)

/-- R60, R90, R340: a step in which a BUSY engine does not yet complete, no reset arriving, changes no architectural
state but PROG and DROP; PROG changes only for a cipher command that reports progress, and then does not decrease; a
read of the control block is answered with the values that stand, a write is refused and recorded. That each such step
takes one off the delay is the model's schedule (log 2), the host's list is log 1's. -/
def Obligations.BusyChangesNothingButProgress : Prop :=
  ∀ (s t : State) (w : Word) (d : Nat), s.phase = .busy w (d + 1) →
    (∀ ops, s.host ≠ .resetAssert :: ops ∧ s.host ≠ .resetRelease :: ops) → step s = .next t →
    t.phase = .busy w d ∧ t.ns = s.ns ∧ t.bs = s.bs ∧ t.bn = s.bn ∧ t.ctrl = s.ctrl ∧ t.eclass = s.eclass ∧
    t.ecause = s.ecause ∧ t.lastop = s.lastop ∧ t.errinfo = s.errinfo ∧ t.errlog = s.errlog ∧ t.res0 = s.res0 ∧
    t.arg0 = s.arg0 ∧ t.arg1 = s.arg1 ∧ t.params = s.params ∧ t.cfg = s.cfg ∧ t.resetHeld = s.resetHeld ∧
    t.delays = s.delays ∧ t.host = s.host.tail ∧ (s.drop = true → t.drop = true) ∧
    (s.progressTotal w = none ∨ s.cfg.diag = false ∨ s.ctrl.getLsbD 2 = false →
      t.rtotal = s.rtotal ∧ t.rdone = s.rdone) ∧
    (∀ r, s.progressTotal w = some r → s.rdone.toNat ≤ r → s.rdone.toNat ≤ t.rdone.toNat ∧ t.rdone.toNat ≤ r) ∧
    ((t.rtotal = s.rtotal ∧ t.rdone = s.rdone) ∨ ∃ r, s.progressTotal w = some r ∧ t.rtotal.toNat = r) ∧
    (s.host = [] → t.answers = s.answers ∧ t.drop = s.drop) ∧
    (∀ a ops l, s.host = .read a :: ops → s.resetHeld = false → a.toNat < 0x100 → locate a = some l →
      t.answers = ⟨.ok, some (t.readLocation l)⟩ :: s.answers ∧ t.drop = s.drop) ∧
    (∀ a v ops, s.host = .write a v :: ops → s.resetHeld = false →
      t.answers = ⟨.err, none⟩ :: s.answers ∧ t.drop = true)

/-- R365: a BUSY engine leaves BUSY after a finite delay, whatever the host does meanwhile. The bound, the delay left and one
step more, is the model's schedule (log 2): no rule bounds the delay. -/
def Obligations.BusyEngineBecomesFree : Prop :=
  ∀ (s : State) (w : Word) (d : Nat), s.phase = .busy w d →
    ∃ k t, k ≤ d + 1 ∧ Host.Core.run Sys2Proof.core k s = .next t ∧ State.phase t ≠ .busy w d ∧
      (State.phase t).isBusy = false

/-! ## The invariant -/

/-- The invariant holds after reset. -/
def Obligations.ResetStateIsSound : Prop := State.reset.Inv

/-- Every step keeps the invariant, from every state that has it. Its clause on a reset that is held rests on the model's
choice that the engine is reset from the moment reset is asserted (log 12). -/
def Obligations.StepKeepsTheInvariant : Prop := ∀ (s t : State), s.Inv → step s = .next t → t.Inv
end

