-- ==== Sys2Proof/Laws/Bus.lean ====
section
/-!
SUPPORT. The host port: a transaction neither reads nor writes what belongs to the outside world.
-/

namespace Sys2Proof.Machine

@[simp] theorem State.readLocation_host (s : State) (ops : List BusOp) (l : Location) :
    State.readLocation { s with host := ops } l = s.readLocation l := by
  cases l <;> rfl

@[simp] theorem State.readAnswer_host (s : State) (ops : List BusOp) (a : Addr) :
    State.readAnswer { s with host := ops } a = s.readAnswer a := by
  simp only [State.readAnswer, State.readLocation_host]

/-- What acceptance of a command word does to the rest of the state, the outside world's part included. -/
theorem State.writeCommand_host (s : State) (ops : List BusOp) (w : Word) :
    State.writeCommand { s with host := ops } w =
      ({ (s.writeCommand w).1 with host := ops }, (s.writeCommand w).2) := by
  have h : State.accepts { s with host := ops } w = s.accepts w := rfl
  simp only [State.writeCommand, h]
  split <;> rfl

theorem State.writeLocation_host (s : State) (ops : List BusOp) (l : Location) (v : Word) :
    State.writeLocation { s with host := ops } l v =
      ({ (s.writeLocation l v).1 with host := ops }, (s.writeLocation l v).2) := by
  cases l <;> simp only [State.writeLocation, State.writeCommand_host] <;> split <;> rfl

/-- A host write does not depend on what the host will do next. -/
theorem State.hostWrite_host (s : State) (ops : List BusOp) (a : Addr) (v : Word) :
    State.hostWrite { s with host := ops } a v = ({ (s.hostWrite a v).1 with host := ops }, (s.hostWrite a v).2) := by
  simp only [State.hostWrite, State.writeLocation_host]
  split
  · rfl
  split
  · rfl
  split <;> rfl

/-- A host write leaves the answers given, the draws made and the configuration alone. -/
theorem State.hostWrite_frame (s : State) (a : Addr) (v : Word) :
    (s.hostWrite a v).1.answers = s.answers ∧ (s.hostWrite a v).1.draws = s.draws ∧
      (s.hostWrite a v).1.cfg = s.cfg ∧ (s.hostWrite a v).1.resetHeld = s.resetHeld := by
  simp only [State.hostWrite]
  split
  · exact ⟨rfl, rfl, rfl, rfl⟩
  split
  · exact ⟨rfl, rfl, rfl, rfl⟩
  split
  · rename_i l _
    cases l <;> simp only [State.writeLocation, State.writeCommand, State.accept] <;> (try split) <;> simp
  · exact ⟨rfl, rfl, rfl, rfl⟩

/-- While BUSY, reset not held, a write changes `DROP` alone (R90). -/
theorem State.hostWrite_busy {s : State} (hr : s.resetHeld = false) (hb : s.phase.isBusy = true) (a : Addr) (v : Word) :
    s.hostWrite a v = ({ s with drop := true }, .err) := by
  simp [State.hostWrite, hr, hb]

end Sys2Proof.Machine
end

