-- ==== Sys2Proof/Laws/Numerals.lean ====
section
/-!
SUPPORT. Positional values: the model's `valueOf` is the sum that R130 and R132 write, the digits of a number have its
value, and a string of digits is determined by its length and its value.
-/

namespace Sys2Proof.Machine

theorem valueOf_foldl (b : Nat) (ds : List Nat) (a : Nat) :
    ds.foldl (fun acc d => acc * b + d) a = a * b ^ ds.length + valueOf b ds := by
  induction ds generalizing a with
  | nil => simp [valueOf]
  | cons d ds ih =>
    simp only [List.foldl_cons, List.length_cons, valueOf]
    rw [ih, ih (0 * b + d)]
    ring

@[simp] theorem valueOf_nil (b : Nat) : valueOf b [] = 0 := rfl

theorem valueOf_cons (b d : Nat) (ds : List Nat) : valueOf b (d :: ds) = d * b ^ ds.length + valueOf b ds := by
  rw [valueOf, List.foldl_cons, valueOf_foldl]
  simp

theorem valueOf_append (b : Nat) (xs ys : List Nat) :
    valueOf b (xs ++ ys) = valueOf b xs * b ^ ys.length + valueOf b ys := by
  rw [valueOf, List.foldl_append, valueOf_foldl]
  rfl

/-- The model's value of a digit string is the sum of R130 and R132. -/
theorem valueOf_eq_digitSum (b : Nat) (ds : List Nat) : valueOf b ds = digitSum b ds := by
  induction ds with
  | nil => simp [digitSum]
  | cons d ds ih =>
    rw [valueOf_cons, ih, digitSum, digitSum, List.length_cons, Finset.sum_range_succ']
    simp only [List.getD_cons_succ, List.getD_cons_zero, Nat.sub_zero, Nat.add_sub_cancel]
    rw [add_comm]
    congr 1
    refine Finset.sum_congr rfl fun j hj => ?_
    have := Finset.mem_range.mp hj
    rw [show ds.length - (j + 1) = ds.length - 1 - j by omega]

theorem byteValue_eq_byteSum (X : List Byte) : byteValue X = byteSum X := valueOf_eq_digitSum _ _

theorem numeralValue_eq_numeralSum (radix : Nat) (X : List Word) : numeralValue radix X = numeralSum radix X :=
  valueOf_eq_digitSum _ _

theorem valueOf_lt {b : Nat} {ds : List Nat} (h : ∀ d ∈ ds, d < b) : valueOf b ds < b ^ ds.length := by
  induction ds with
  | nil => simp
  | cons d ds ih =>
    have hd := h d (by simp)
    have := ih fun e he => h e (by simp [he])
    rw [valueOf_cons, List.length_cons, pow_succ]
    calc d * b ^ ds.length + valueOf b ds < d * b ^ ds.length + b ^ ds.length := by omega
      _ = (d + 1) * b ^ ds.length := by ring
      _ ≤ b * b ^ ds.length := Nat.mul_le_mul_right _ hd
      _ = b ^ ds.length * b := by ring

@[simp] theorem length_digitsOf (b m x : Nat) : (digitsOf b m x).length = m := by simp [digitsOf]

theorem digitsOf_lt {b : Nat} (hb : 0 < b) (m x : Nat) : ∀ d ∈ digitsOf b m x, d < b := by
  intro d hd
  simp only [digitsOf, List.mem_map] at hd
  obtain ⟨j, _, rfl⟩ := hd
  exact Nat.mod_lt _ hb

theorem digitsOf_succ (b m x : Nat) : digitsOf b (m + 1) x = digitsOf b m (x / b) ++ [x % b] := by
  simp only [digitsOf, List.range_succ, List.map_append, List.map_cons, List.map_nil, Nat.add_sub_cancel,
    Nat.sub_self, pow_zero, Nat.div_one]
  congr 1
  refine List.map_congr_left fun j hj => ?_
  have := List.mem_range.mp hj
  rw [Nat.div_div_eq_div_mul, ← pow_succ', show m - 1 - j + 1 = m - j by omega]

/-- The `m` low digits of `x` have the value `x mod b^m` (R135). -/
theorem valueOf_digitsOf (b m x : Nat) : valueOf b (digitsOf b m x) = x % b ^ m := by
  induction m generalizing x with
  | zero => simp [digitsOf, Nat.mod_one]
  | succ m ih =>
    rw [digitsOf_succ, valueOf_append, ih, valueOf_cons]
    simp only [List.length_cons, List.length_nil, valueOf_nil, pow_zero, mul_one, add_zero, zero_add, pow_one]
    rw [pow_succ', Nat.mod_mul]
    ring

/-- A string of digits below the base is the digits of its value. -/
theorem digitsOf_valueOf {b : Nat} {ds : List Nat} (h : ∀ d ∈ ds, d < b) : digitsOf b ds.length (valueOf b ds) = ds := by
  induction ds using List.reverseRecOn with
  | nil => rfl
  | append_singleton ds d ih =>
    have hd : d < b := h d (by simp)
    have hds := ih fun e he => h e (by simp [he])
    have hv : valueOf b (ds ++ [d]) = valueOf b ds * b + d := by
      rw [valueOf_append, valueOf_cons]
      simp
    rw [List.length_append, List.length_singleton, digitsOf_succ, hv]
    rw [show (valueOf b ds * b + d) / b = valueOf b ds by
          rw [Nat.mul_comm, Nat.mul_add_div (by omega), Nat.div_eq_of_lt hd, Nat.add_zero],
      show (valueOf b ds * b + d) % b = d by
          rw [Nat.mul_comm, Nat.mul_add_mod, Nat.mod_eq_of_lt hd], hds]

theorem toNat_numerals {radix : Nat} (h : 0 < radix) (hr : radix ≤ 2 ^ 32) (m x : Nat) :
    (numeralsOf radix m x).map BitVec.toNat = digitsOf radix m x := by
  rw [numeralsOf, List.map_map]
  conv_rhs => rw [← List.map_id (digitsOf radix m x)]
  refine List.map_congr_left fun d hd => ?_
  have := digitsOf_lt h m x d hd
  simp only [Function.comp, BitVec.toNat_ofNat, id]
  exact Nat.mod_eq_of_lt (by omega)

theorem toNat_bytes (m x : Nat) : (bytesOf m x).map BitVec.toNat = digitsOf 256 m x := by
  rw [bytesOf, List.map_map]
  conv_rhs => rw [← List.map_id (digitsOf 256 m x)]
  refine List.map_congr_left fun d hd => ?_
  have := digitsOf_lt (by norm_num : 0 < 256) m x d hd
  simp only [Function.comp, BitVec.toNat_ofNat, id]
  exact Nat.mod_eq_of_lt (by omega)

@[simp] theorem length_numeralsOf (radix m x : Nat) : (numeralsOf radix m x).length = m := by simp [numeralsOf]

@[simp] theorem length_bytesOf (m x : Nat) : (bytesOf m x).length = m := by simp [bytesOf]

/-- What `STR_m_radix` writes (R135). -/
theorem isNumerals_numeralsOf {radix : Nat} (h : 0 < radix) (hr : radix ≤ 2 ^ 32) (m x : Nat) :
    IsNumerals radix m (x % radix ^ m) (numeralsOf radix m x) := by
  refine ⟨by simp, ?_, ?_⟩
  · intro d hd
    have : d.toNat ∈ (numeralsOf radix m x).map BitVec.toNat := List.mem_map_of_mem hd
    rw [toNat_numerals h hr] at this
    exact digitsOf_lt h m x _ this
  · rw [numeralSum, toNat_numerals h hr, ← valueOf_eq_digitSum, valueOf_digitsOf]

/-- What `bytestring` writes (R139). -/
theorem isBytes_bytesOf {m x : Nat} (h : x < 256 ^ m) : IsBytes m x (bytesOf m x) := by
  refine ⟨by simp, ?_⟩
  rw [byteSum, toNat_bytes, ← valueOf_eq_digitSum, valueOf_digitsOf, Nat.mod_eq_of_lt h]

theorem numeralSum_lt {radix : Nat} {X : List Word} (h : Numerals radix X) : numeralSum radix X < radix ^ X.length := by
  rw [numeralSum, ← valueOf_eq_digitSum]
  have := valueOf_lt (b := radix) (ds := X.map BitVec.toNat) (by simpa [Numerals] using h)
  simpa using this

/-- A numeral string is the numerals of its value. -/
theorem numeralsOf_numeralSum {radix : Nat} {X : List Word} (h : Numerals radix X) :
    numeralsOf radix X.length (numeralSum radix X) = X := by
  have h' : digitsOf radix (X.map BitVec.toNat).length (valueOf radix (X.map BitVec.toNat)) = X.map BitVec.toNat :=
    digitsOf_valueOf (by simpa [Numerals] using h)
  rw [List.length_map, valueOf_eq_digitSum] at h'
  rw [numeralsOf, numeralSum, h', List.map_map]
  conv_rhs => rw [← List.map_id X]
  refine List.map_congr_left fun d _ => ?_
  simp

/-- A numeral string is determined by its length and its value. -/
theorem isNumerals_unique {radix m x : Nat} {X Y : List Word} (hX : IsNumerals radix m x X)
    (hY : IsNumerals radix m x Y) : X = Y := by
  rw [← numeralsOf_numeralSum hX.2.1, ← numeralsOf_numeralSum hY.2.1, hX.1, hY.1, hX.2.2, hY.2.2]

end Sys2Proof.Machine
end

