-- ==== Sys2Proof/Laws/State.lean ====
section
/-!
SUPPORT. One lemma per field per update of the state, each true by unfolding, for simp.
-/

namespace Sys2Proof.Machine

variable (s : State)

/-! ## `putNs` -/

@[simp] theorem State.putNs_ns (r : Reg) (v : List Word) : (s.putNs r v).ns = s.ns.set r (StrReg.ofList v) := rfl
@[simp] theorem State.putNs_bs (r : Reg) (v : List Word) : (s.putNs r v).bs = s.bs := rfl
@[simp] theorem State.putNs_bn (r : Reg) (v : List Word) : (s.putNs r v).bn = s.bn := rfl
@[simp] theorem State.putNs_ctrl (r : Reg) (v : List Word) : (s.putNs r v).ctrl = s.ctrl := rfl
@[simp] theorem State.putNs_phase (r : Reg) (v : List Word) : (s.putNs r v).phase = s.phase := rfl
@[simp] theorem State.putNs_drop (r : Reg) (v : List Word) : (s.putNs r v).drop = s.drop := rfl
@[simp] theorem State.putNs_eclass (r : Reg) (v : List Word) : (s.putNs r v).eclass = s.eclass := rfl
@[simp] theorem State.putNs_ecause (r : Reg) (v : List Word) : (s.putNs r v).ecause = s.ecause := rfl
@[simp] theorem State.putNs_lastop (r : Reg) (v : List Word) : (s.putNs r v).lastop = s.lastop := rfl
@[simp] theorem State.putNs_errinfo (r : Reg) (v : List Word) : (s.putNs r v).errinfo = s.errinfo := rfl
@[simp] theorem State.putNs_errlog (r : Reg) (v : List Word) : (s.putNs r v).errlog = s.errlog := rfl
@[simp] theorem State.putNs_rdone (r : Reg) (v : List Word) : (s.putNs r v).rdone = s.rdone := rfl
@[simp] theorem State.putNs_rtotal (r : Reg) (v : List Word) : (s.putNs r v).rtotal = s.rtotal := rfl
@[simp] theorem State.putNs_res0 (r : Reg) (v : List Word) : (s.putNs r v).res0 = s.res0 := rfl
@[simp] theorem State.putNs_arg0 (r : Reg) (v : List Word) : (s.putNs r v).arg0 = s.arg0 := rfl
@[simp] theorem State.putNs_arg1 (r : Reg) (v : List Word) : (s.putNs r v).arg1 = s.arg1 := rfl
@[simp] theorem State.putNs_params (r : Reg) (v : List Word) : (s.putNs r v).params = s.params := rfl
@[simp] theorem State.putNs_resetHeld (r : Reg) (v : List Word) : (s.putNs r v).resetHeld = s.resetHeld := rfl
@[simp] theorem State.putNs_cfg (r : Reg) (v : List Word) : (s.putNs r v).cfg = s.cfg := rfl
@[simp] theorem State.putNs_host (r : Reg) (v : List Word) : (s.putNs r v).host = s.host := rfl
@[simp] theorem State.putNs_answers (r : Reg) (v : List Word) : (s.putNs r v).answers = s.answers := rfl
@[simp] theorem State.putNs_delays (r : Reg) (v : List Word) : (s.putNs r v).delays = s.delays := rfl
@[simp] theorem State.putNs_draws (r : Reg) (v : List Word) : (s.putNs r v).draws = s.draws := rfl

/-! ## `putBs` -/

@[simp] theorem State.putBs_ns (r : Reg) (v : List Byte) : (s.putBs r v).ns = s.ns := rfl
@[simp] theorem State.putBs_bs (r : Reg) (v : List Byte) : (s.putBs r v).bs = s.bs.set r (StrReg.ofList v) := rfl
@[simp] theorem State.putBs_bn (r : Reg) (v : List Byte) : (s.putBs r v).bn = s.bn := rfl
@[simp] theorem State.putBs_ctrl (r : Reg) (v : List Byte) : (s.putBs r v).ctrl = s.ctrl := rfl
@[simp] theorem State.putBs_phase (r : Reg) (v : List Byte) : (s.putBs r v).phase = s.phase := rfl
@[simp] theorem State.putBs_drop (r : Reg) (v : List Byte) : (s.putBs r v).drop = s.drop := rfl
@[simp] theorem State.putBs_eclass (r : Reg) (v : List Byte) : (s.putBs r v).eclass = s.eclass := rfl
@[simp] theorem State.putBs_ecause (r : Reg) (v : List Byte) : (s.putBs r v).ecause = s.ecause := rfl
@[simp] theorem State.putBs_lastop (r : Reg) (v : List Byte) : (s.putBs r v).lastop = s.lastop := rfl
@[simp] theorem State.putBs_errinfo (r : Reg) (v : List Byte) : (s.putBs r v).errinfo = s.errinfo := rfl
@[simp] theorem State.putBs_errlog (r : Reg) (v : List Byte) : (s.putBs r v).errlog = s.errlog := rfl
@[simp] theorem State.putBs_rdone (r : Reg) (v : List Byte) : (s.putBs r v).rdone = s.rdone := rfl
@[simp] theorem State.putBs_rtotal (r : Reg) (v : List Byte) : (s.putBs r v).rtotal = s.rtotal := rfl
@[simp] theorem State.putBs_res0 (r : Reg) (v : List Byte) : (s.putBs r v).res0 = s.res0 := rfl
@[simp] theorem State.putBs_arg0 (r : Reg) (v : List Byte) : (s.putBs r v).arg0 = s.arg0 := rfl
@[simp] theorem State.putBs_arg1 (r : Reg) (v : List Byte) : (s.putBs r v).arg1 = s.arg1 := rfl
@[simp] theorem State.putBs_params (r : Reg) (v : List Byte) : (s.putBs r v).params = s.params := rfl
@[simp] theorem State.putBs_resetHeld (r : Reg) (v : List Byte) : (s.putBs r v).resetHeld = s.resetHeld := rfl
@[simp] theorem State.putBs_cfg (r : Reg) (v : List Byte) : (s.putBs r v).cfg = s.cfg := rfl
@[simp] theorem State.putBs_host (r : Reg) (v : List Byte) : (s.putBs r v).host = s.host := rfl
@[simp] theorem State.putBs_answers (r : Reg) (v : List Byte) : (s.putBs r v).answers = s.answers := rfl
@[simp] theorem State.putBs_delays (r : Reg) (v : List Byte) : (s.putBs r v).delays = s.delays := rfl
@[simp] theorem State.putBs_draws (r : Reg) (v : List Byte) : (s.putBs r v).draws = s.draws := rfl

/-! ## `putBn` -/

@[simp] theorem State.putBn_ns (r : Reg) (v : Int) : (s.putBn r v).ns = s.ns := rfl
@[simp] theorem State.putBn_bs (r : Reg) (v : Int) : (s.putBn r v).bs = s.bs := rfl
@[simp] theorem State.putBn_bn (r : Reg) (v : Int) : (s.putBn r v).bn = s.bn.set r { present := true, value := v } := rfl
@[simp] theorem State.putBn_ctrl (r : Reg) (v : Int) : (s.putBn r v).ctrl = s.ctrl := rfl
@[simp] theorem State.putBn_phase (r : Reg) (v : Int) : (s.putBn r v).phase = s.phase := rfl
@[simp] theorem State.putBn_drop (r : Reg) (v : Int) : (s.putBn r v).drop = s.drop := rfl
@[simp] theorem State.putBn_eclass (r : Reg) (v : Int) : (s.putBn r v).eclass = s.eclass := rfl
@[simp] theorem State.putBn_ecause (r : Reg) (v : Int) : (s.putBn r v).ecause = s.ecause := rfl
@[simp] theorem State.putBn_lastop (r : Reg) (v : Int) : (s.putBn r v).lastop = s.lastop := rfl
@[simp] theorem State.putBn_errinfo (r : Reg) (v : Int) : (s.putBn r v).errinfo = s.errinfo := rfl
@[simp] theorem State.putBn_errlog (r : Reg) (v : Int) : (s.putBn r v).errlog = s.errlog := rfl
@[simp] theorem State.putBn_rdone (r : Reg) (v : Int) : (s.putBn r v).rdone = s.rdone := rfl
@[simp] theorem State.putBn_rtotal (r : Reg) (v : Int) : (s.putBn r v).rtotal = s.rtotal := rfl
@[simp] theorem State.putBn_res0 (r : Reg) (v : Int) : (s.putBn r v).res0 = s.res0 := rfl
@[simp] theorem State.putBn_arg0 (r : Reg) (v : Int) : (s.putBn r v).arg0 = s.arg0 := rfl
@[simp] theorem State.putBn_arg1 (r : Reg) (v : Int) : (s.putBn r v).arg1 = s.arg1 := rfl
@[simp] theorem State.putBn_params (r : Reg) (v : Int) : (s.putBn r v).params = s.params := rfl
@[simp] theorem State.putBn_resetHeld (r : Reg) (v : Int) : (s.putBn r v).resetHeld = s.resetHeld := rfl
@[simp] theorem State.putBn_cfg (r : Reg) (v : Int) : (s.putBn r v).cfg = s.cfg := rfl
@[simp] theorem State.putBn_host (r : Reg) (v : Int) : (s.putBn r v).host = s.host := rfl
@[simp] theorem State.putBn_answers (r : Reg) (v : Int) : (s.putBn r v).answers = s.answers := rfl
@[simp] theorem State.putBn_delays (r : Reg) (v : Int) : (s.putBn r v).delays = s.delays := rfl
@[simp] theorem State.putBn_draws (r : Reg) (v : Int) : (s.putBn r v).draws = s.draws := rfl

/-! ## `showProgress` -/

@[simp] theorem State.showProgress_ns (p : Progress) : (s.showProgress p).ns = s.ns := rfl
@[simp] theorem State.showProgress_bs (p : Progress) : (s.showProgress p).bs = s.bs := rfl
@[simp] theorem State.showProgress_bn (p : Progress) : (s.showProgress p).bn = s.bn := rfl
@[simp] theorem State.showProgress_ctrl (p : Progress) : (s.showProgress p).ctrl = s.ctrl := rfl
@[simp] theorem State.showProgress_phase (p : Progress) : (s.showProgress p).phase = s.phase := rfl
@[simp] theorem State.showProgress_drop (p : Progress) : (s.showProgress p).drop = s.drop := rfl
@[simp] theorem State.showProgress_eclass (p : Progress) : (s.showProgress p).eclass = s.eclass := rfl
@[simp] theorem State.showProgress_ecause (p : Progress) : (s.showProgress p).ecause = s.ecause := rfl
@[simp] theorem State.showProgress_lastop (p : Progress) : (s.showProgress p).lastop = s.lastop := rfl
@[simp] theorem State.showProgress_errinfo (p : Progress) : (s.showProgress p).errinfo = s.errinfo := rfl
@[simp] theorem State.showProgress_errlog (p : Progress) : (s.showProgress p).errlog = s.errlog := rfl
@[simp] theorem State.showProgress_rdone (p : Progress) : (s.showProgress p).rdone = if s.diagOn then BitVec.ofNat 8 p.done else 0 := rfl
@[simp] theorem State.showProgress_rtotal (p : Progress) : (s.showProgress p).rtotal = if s.diagOn then BitVec.ofNat 8 p.total else 0 := rfl
@[simp] theorem State.showProgress_res0 (p : Progress) : (s.showProgress p).res0 = s.res0 := rfl
@[simp] theorem State.showProgress_arg0 (p : Progress) : (s.showProgress p).arg0 = s.arg0 := rfl
@[simp] theorem State.showProgress_arg1 (p : Progress) : (s.showProgress p).arg1 = s.arg1 := rfl
@[simp] theorem State.showProgress_params (p : Progress) : (s.showProgress p).params = s.params := rfl
@[simp] theorem State.showProgress_resetHeld (p : Progress) : (s.showProgress p).resetHeld = s.resetHeld := rfl
@[simp] theorem State.showProgress_cfg (p : Progress) : (s.showProgress p).cfg = s.cfg := rfl
@[simp] theorem State.showProgress_host (p : Progress) : (s.showProgress p).host = s.host := rfl
@[simp] theorem State.showProgress_answers (p : Progress) : (s.showProgress p).answers = s.answers := rfl
@[simp] theorem State.showProgress_delays (p : Progress) : (s.showProgress p).delays = s.delays := rfl
@[simp] theorem State.showProgress_draws (p : Progress) : (s.showProgress p).draws = s.draws := rfl

/-! ## `accept` -/

@[simp] theorem State.accept_ns (w : Word) (d : Nat) : (s.accept w d).ns = s.ns := rfl
@[simp] theorem State.accept_bs (w : Word) (d : Nat) : (s.accept w d).bs = s.bs := rfl
@[simp] theorem State.accept_bn (w : Word) (d : Nat) : (s.accept w d).bn = s.bn := rfl
@[simp] theorem State.accept_ctrl (w : Word) (d : Nat) : (s.accept w d).ctrl = s.ctrl := rfl
@[simp] theorem State.accept_phase (w : Word) (d : Nat) : (s.accept w d).phase = .busy w d := rfl
@[simp] theorem State.accept_drop (w : Word) (d : Nat) : (s.accept w d).drop = s.drop := rfl
@[simp] theorem State.accept_eclass (w : Word) (d : Nat) : (s.accept w d).eclass = 0 := rfl
@[simp] theorem State.accept_ecause (w : Word) (d : Nat) : (s.accept w d).ecause = 0 := rfl
@[simp] theorem State.accept_lastop (w : Word) (d : Nat) : (s.accept w d).lastop = w.extractLsb' 0 8 := rfl
@[simp] theorem State.accept_errinfo (w : Word) (d : Nat) : (s.accept w d).errinfo = 0 := rfl
@[simp] theorem State.accept_errlog (w : Word) (d : Nat) : (s.accept w d).errlog = s.errlog := rfl
@[simp] theorem State.accept_rdone (w : Word) (d : Nat) : (s.accept w d).rdone = 0 := rfl
@[simp] theorem State.accept_rtotal (w : Word) (d : Nat) : (s.accept w d).rtotal = 0 := rfl
@[simp] theorem State.accept_res0 (w : Word) (d : Nat) : (s.accept w d).res0 = s.res0 := rfl
@[simp] theorem State.accept_arg0 (w : Word) (d : Nat) : (s.accept w d).arg0 = s.arg0 := rfl
@[simp] theorem State.accept_arg1 (w : Word) (d : Nat) : (s.accept w d).arg1 = s.arg1 := rfl
@[simp] theorem State.accept_params (w : Word) (d : Nat) : (s.accept w d).params = s.params := rfl
@[simp] theorem State.accept_resetHeld (w : Word) (d : Nat) : (s.accept w d).resetHeld = s.resetHeld := rfl
@[simp] theorem State.accept_cfg (w : Word) (d : Nat) : (s.accept w d).cfg = s.cfg := rfl
@[simp] theorem State.accept_host (w : Word) (d : Nat) : (s.accept w d).host = s.host := rfl
@[simp] theorem State.accept_answers (w : Word) (d : Nat) : (s.accept w d).answers = s.answers := rfl
@[simp] theorem State.accept_delays (w : Word) (d : Nat) : (s.accept w d).delays = s.delays := rfl
@[simp] theorem State.accept_draws (w : Word) (d : Nat) : (s.accept w d).draws = s.draws := rfl

/-! ## `complete` -/

@[simp] theorem State.complete_ns (p : Progress) : (s.complete p).ns = s.ns := rfl
@[simp] theorem State.complete_bs (p : Progress) : (s.complete p).bs = s.bs := rfl
@[simp] theorem State.complete_bn (p : Progress) : (s.complete p).bn = s.bn := rfl
@[simp] theorem State.complete_ctrl (p : Progress) : (s.complete p).ctrl = s.ctrl := rfl
@[simp] theorem State.complete_phase (p : Progress) : (s.complete p).phase = .done := rfl
@[simp] theorem State.complete_drop (p : Progress) : (s.complete p).drop = s.drop := rfl
@[simp] theorem State.complete_eclass (p : Progress) : (s.complete p).eclass = 0 := rfl
@[simp] theorem State.complete_ecause (p : Progress) : (s.complete p).ecause = 0 := rfl
@[simp] theorem State.complete_lastop (p : Progress) : (s.complete p).lastop = s.lastop := rfl
@[simp] theorem State.complete_errinfo (p : Progress) : (s.complete p).errinfo = 0 := rfl
@[simp] theorem State.complete_errlog (p : Progress) : (s.complete p).errlog = s.errlog := rfl
@[simp] theorem State.complete_rdone (p : Progress) : (s.complete p).rdone = if s.diagOn then BitVec.ofNat 8 p.done else 0 := rfl
@[simp] theorem State.complete_rtotal (p : Progress) : (s.complete p).rtotal = if s.diagOn then BitVec.ofNat 8 p.total else 0 := rfl
@[simp] theorem State.complete_res0 (p : Progress) : (s.complete p).res0 = s.res0 := rfl
@[simp] theorem State.complete_arg0 (p : Progress) : (s.complete p).arg0 = s.arg0 := rfl
@[simp] theorem State.complete_arg1 (p : Progress) : (s.complete p).arg1 = s.arg1 := rfl
@[simp] theorem State.complete_params (p : Progress) : (s.complete p).params = s.params := rfl
@[simp] theorem State.complete_resetHeld (p : Progress) : (s.complete p).resetHeld = s.resetHeld := rfl
@[simp] theorem State.complete_cfg (p : Progress) : (s.complete p).cfg = s.cfg := rfl
@[simp] theorem State.complete_host (p : Progress) : (s.complete p).host = s.host := rfl
@[simp] theorem State.complete_answers (p : Progress) : (s.complete p).answers = s.answers := rfl
@[simp] theorem State.complete_delays (p : Progress) : (s.complete p).delays = s.delays := rfl
@[simp] theorem State.complete_draws (p : Progress) : (s.complete p).draws = s.draws + 1 := rfl

/-! ## `enterError` -/

@[simp] theorem State.enterError_ns (e : Raise) (p : Progress) : (s.enterError e p).ns = s.ns := rfl
@[simp] theorem State.enterError_bs (e : Raise) (p : Progress) : (s.enterError e p).bs = s.bs := rfl
@[simp] theorem State.enterError_bn (e : Raise) (p : Progress) : (s.enterError e p).bn = s.bn := rfl
@[simp] theorem State.enterError_ctrl (e : Raise) (p : Progress) : (s.enterError e p).ctrl = s.ctrl := rfl
@[simp] theorem State.enterError_phase (e : Raise) (p : Progress) : (s.enterError e p).phase = .error := rfl
@[simp] theorem State.enterError_drop (e : Raise) (p : Progress) : (s.enterError e p).drop = s.drop := rfl
@[simp] theorem State.enterError_eclass (e : Raise) (p : Progress) : (s.enterError e p).eclass = e.cause.errorClass := rfl
@[simp] theorem State.enterError_ecause (e : Raise) (p : Progress) : (s.enterError e p).ecause = e.cause.code := rfl
@[simp] theorem State.enterError_lastop (e : Raise) (p : Progress) : (s.enterError e p).lastop = s.lastop := rfl
@[simp] theorem State.enterError_errinfo (e : Raise) (p : Progress) : (s.enterError e p).errinfo = BitVec.ofNat 32 e.info := rfl
@[simp] theorem State.enterError_errlog (e : Raise) (p : Progress) : (s.enterError e p).errlog = s.errlog ||| (1#32 <<< e.cause.errorClass.toNat) := rfl
@[simp] theorem State.enterError_rdone (e : Raise) (p : Progress) : (s.enterError e p).rdone = if s.diagOn then BitVec.ofNat 8 p.done else 0 := rfl
@[simp] theorem State.enterError_rtotal (e : Raise) (p : Progress) : (s.enterError e p).rtotal = if s.diagOn then BitVec.ofNat 8 p.total else 0 := rfl
@[simp] theorem State.enterError_res0 (e : Raise) (p : Progress) : (s.enterError e p).res0 = s.res0 := rfl
@[simp] theorem State.enterError_arg0 (e : Raise) (p : Progress) : (s.enterError e p).arg0 = s.arg0 := rfl
@[simp] theorem State.enterError_arg1 (e : Raise) (p : Progress) : (s.enterError e p).arg1 = s.arg1 := rfl
@[simp] theorem State.enterError_params (e : Raise) (p : Progress) : (s.enterError e p).params = s.params := rfl
@[simp] theorem State.enterError_resetHeld (e : Raise) (p : Progress) : (s.enterError e p).resetHeld = s.resetHeld := rfl
@[simp] theorem State.enterError_cfg (e : Raise) (p : Progress) : (s.enterError e p).cfg = s.cfg := rfl
@[simp] theorem State.enterError_host (e : Raise) (p : Progress) : (s.enterError e p).host = s.host := rfl
@[simp] theorem State.enterError_answers (e : Raise) (p : Progress) : (s.enterError e p).answers = s.answers := rfl
@[simp] theorem State.enterError_delays (e : Raise) (p : Progress) : (s.enterError e p).delays = s.delays := rfl
@[simp] theorem State.enterError_draws (e : Raise) (p : Progress) : (s.enterError e p).draws = s.draws + 1 := rfl

/-! ## `toIdle` -/

@[simp] theorem State.toIdle_ns : s.toIdle.ns = s.ns := rfl
@[simp] theorem State.toIdle_bs : s.toIdle.bs = s.bs := rfl
@[simp] theorem State.toIdle_bn : s.toIdle.bn = s.bn := rfl
@[simp] theorem State.toIdle_ctrl : s.toIdle.ctrl = s.ctrl := rfl
@[simp] theorem State.toIdle_phase : s.toIdle.phase = .idle := rfl
@[simp] theorem State.toIdle_drop : s.toIdle.drop = false := rfl
@[simp] theorem State.toIdle_eclass : s.toIdle.eclass = 0 := rfl
@[simp] theorem State.toIdle_ecause : s.toIdle.ecause = 0 := rfl
@[simp] theorem State.toIdle_lastop : s.toIdle.lastop = s.lastop := rfl
@[simp] theorem State.toIdle_errinfo : s.toIdle.errinfo = 0 := rfl
@[simp] theorem State.toIdle_errlog : s.toIdle.errlog = s.errlog := rfl
@[simp] theorem State.toIdle_rdone : s.toIdle.rdone = 0 := rfl
@[simp] theorem State.toIdle_rtotal : s.toIdle.rtotal = 0 := rfl
@[simp] theorem State.toIdle_res0 : s.toIdle.res0 = s.res0 := rfl
@[simp] theorem State.toIdle_arg0 : s.toIdle.arg0 = s.arg0 := rfl
@[simp] theorem State.toIdle_arg1 : s.toIdle.arg1 = s.arg1 := rfl
@[simp] theorem State.toIdle_params : s.toIdle.params = s.params := rfl
@[simp] theorem State.toIdle_resetHeld : s.toIdle.resetHeld = s.resetHeld := rfl
@[simp] theorem State.toIdle_cfg : s.toIdle.cfg = s.cfg := rfl
@[simp] theorem State.toIdle_host : s.toIdle.host = s.host := rfl
@[simp] theorem State.toIdle_answers : s.toIdle.answers = s.answers := rfl
@[simp] theorem State.toIdle_delays : s.toIdle.delays = s.delays := rfl
@[simp] theorem State.toIdle_draws : s.toIdle.draws = s.draws + 1 := rfl

/-! ## `answer` -/

@[simp] theorem State.answer_ns (a : Answer) : (s.answer a).ns = s.ns := rfl
@[simp] theorem State.answer_bs (a : Answer) : (s.answer a).bs = s.bs := rfl
@[simp] theorem State.answer_bn (a : Answer) : (s.answer a).bn = s.bn := rfl
@[simp] theorem State.answer_ctrl (a : Answer) : (s.answer a).ctrl = s.ctrl := rfl
@[simp] theorem State.answer_phase (a : Answer) : (s.answer a).phase = s.phase := rfl
@[simp] theorem State.answer_drop (a : Answer) : (s.answer a).drop = s.drop := rfl
@[simp] theorem State.answer_eclass (a : Answer) : (s.answer a).eclass = s.eclass := rfl
@[simp] theorem State.answer_ecause (a : Answer) : (s.answer a).ecause = s.ecause := rfl
@[simp] theorem State.answer_lastop (a : Answer) : (s.answer a).lastop = s.lastop := rfl
@[simp] theorem State.answer_errinfo (a : Answer) : (s.answer a).errinfo = s.errinfo := rfl
@[simp] theorem State.answer_errlog (a : Answer) : (s.answer a).errlog = s.errlog := rfl
@[simp] theorem State.answer_rdone (a : Answer) : (s.answer a).rdone = s.rdone := rfl
@[simp] theorem State.answer_rtotal (a : Answer) : (s.answer a).rtotal = s.rtotal := rfl
@[simp] theorem State.answer_res0 (a : Answer) : (s.answer a).res0 = s.res0 := rfl
@[simp] theorem State.answer_arg0 (a : Answer) : (s.answer a).arg0 = s.arg0 := rfl
@[simp] theorem State.answer_arg1 (a : Answer) : (s.answer a).arg1 = s.arg1 := rfl
@[simp] theorem State.answer_params (a : Answer) : (s.answer a).params = s.params := rfl
@[simp] theorem State.answer_resetHeld (a : Answer) : (s.answer a).resetHeld = s.resetHeld := rfl
@[simp] theorem State.answer_cfg (a : Answer) : (s.answer a).cfg = s.cfg := rfl
@[simp] theorem State.answer_host (a : Answer) : (s.answer a).host = s.host := rfl
@[simp] theorem State.answer_answers (a : Answer) : (s.answer a).answers = a :: s.answers := rfl
@[simp] theorem State.answer_delays (a : Answer) : (s.answer a).delays = s.delays := rfl
@[simp] theorem State.answer_draws (a : Answer) : (s.answer a).draws = s.draws + 1 := rfl

/-! ## `wiped` -/

@[simp] theorem State.wiped_ns : s.wiped.ns = Quad.all (StrReg.absent Store.zeros) := rfl
@[simp] theorem State.wiped_bs : s.wiped.bs = Quad.all (StrReg.absent Store.zeros) := rfl
@[simp] theorem State.wiped_bn : s.wiped.bn = Quad.all BnReg.absent := rfl
@[simp] theorem State.wiped_ctrl : s.wiped.ctrl = s.ctrl := rfl
@[simp] theorem State.wiped_phase : s.wiped.phase = s.phase := rfl
@[simp] theorem State.wiped_drop : s.wiped.drop = s.drop := rfl
@[simp] theorem State.wiped_eclass : s.wiped.eclass = s.eclass := rfl
@[simp] theorem State.wiped_ecause : s.wiped.ecause = s.ecause := rfl
@[simp] theorem State.wiped_lastop : s.wiped.lastop = s.lastop := rfl
@[simp] theorem State.wiped_errinfo : s.wiped.errinfo = s.errinfo := rfl
@[simp] theorem State.wiped_errlog : s.wiped.errlog = s.errlog := rfl
@[simp] theorem State.wiped_rdone : s.wiped.rdone = s.rdone := rfl
@[simp] theorem State.wiped_rtotal : s.wiped.rtotal = s.rtotal := rfl
@[simp] theorem State.wiped_res0 : s.wiped.res0 = 0 := rfl
@[simp] theorem State.wiped_arg0 : s.wiped.arg0 = 0 := rfl
@[simp] theorem State.wiped_arg1 : s.wiped.arg1 = 0 := rfl
@[simp] theorem State.wiped_params : s.wiped.params = s.params := rfl
@[simp] theorem State.wiped_resetHeld : s.wiped.resetHeld = s.resetHeld := rfl
@[simp] theorem State.wiped_cfg : s.wiped.cfg = s.cfg := rfl
@[simp] theorem State.wiped_host : s.wiped.host = s.host := rfl
@[simp] theorem State.wiped_answers : s.wiped.answers = s.answers := rfl
@[simp] theorem State.wiped_delays : s.wiped.delays = s.delays := rfl
@[simp] theorem State.wiped_draws : s.wiped.draws = s.draws := rfl

/-! ## `afterReset` -/

@[simp] theorem State.afterReset_ns (held : Bool) : (s.afterReset held).ns = State.reset.ns := rfl
@[simp] theorem State.afterReset_bs (held : Bool) : (s.afterReset held).bs = State.reset.bs := rfl
@[simp] theorem State.afterReset_bn (held : Bool) : (s.afterReset held).bn = State.reset.bn := rfl
@[simp] theorem State.afterReset_ctrl (held : Bool) : (s.afterReset held).ctrl = State.reset.ctrl := rfl
@[simp] theorem State.afterReset_phase (held : Bool) : (s.afterReset held).phase = State.reset.phase := rfl
@[simp] theorem State.afterReset_drop (held : Bool) : (s.afterReset held).drop = State.reset.drop := rfl
@[simp] theorem State.afterReset_eclass (held : Bool) : (s.afterReset held).eclass = State.reset.eclass := rfl
@[simp] theorem State.afterReset_ecause (held : Bool) : (s.afterReset held).ecause = State.reset.ecause := rfl
@[simp] theorem State.afterReset_lastop (held : Bool) : (s.afterReset held).lastop = State.reset.lastop := rfl
@[simp] theorem State.afterReset_errinfo (held : Bool) : (s.afterReset held).errinfo = State.reset.errinfo := rfl
@[simp] theorem State.afterReset_errlog (held : Bool) : (s.afterReset held).errlog = State.reset.errlog := rfl
@[simp] theorem State.afterReset_rdone (held : Bool) : (s.afterReset held).rdone = State.reset.rdone := rfl
@[simp] theorem State.afterReset_rtotal (held : Bool) : (s.afterReset held).rtotal = State.reset.rtotal := rfl
@[simp] theorem State.afterReset_res0 (held : Bool) : (s.afterReset held).res0 = State.reset.res0 := rfl
@[simp] theorem State.afterReset_arg0 (held : Bool) : (s.afterReset held).arg0 = State.reset.arg0 := rfl
@[simp] theorem State.afterReset_arg1 (held : Bool) : (s.afterReset held).arg1 = State.reset.arg1 := rfl
@[simp] theorem State.afterReset_params (held : Bool) : (s.afterReset held).params = State.reset.params := rfl
@[simp] theorem State.afterReset_resetHeld (held : Bool) : (s.afterReset held).resetHeld = held := rfl
@[simp] theorem State.afterReset_cfg (held : Bool) : (s.afterReset held).cfg = s.cfg := rfl
@[simp] theorem State.afterReset_host (held : Bool) : (s.afterReset held).host = s.host := rfl
@[simp] theorem State.afterReset_answers (held : Bool) : (s.afterReset held).answers = s.answers := rfl
@[simp] theorem State.afterReset_delays (held : Bool) : (s.afterReset held).delays = s.delays := rfl
@[simp] theorem State.afterReset_draws (held : Bool) : (s.afterReset held).draws = s.draws + 1 := rfl

end Sys2Proof.Machine
end

