-- ==== Sys2Proof/Laws/Ops.lean ====
section
/-!
SUPPORT. What each shared operation can do, said once: register files, element storage and its canonical form, operand
forms, `require`, and the ends of commands. Proofs cite these and need not unfold the operations.
-/

namespace Sys2Proof.Machine

/-! ## Register files -/

@[simp] theorem Quad.get_set_same {α : Type} (q : Quad α) (r : Reg) (a : α) : (q.set r a).get r = a := by
  cases r <;> rfl

theorem Quad.get_set {α : Type} (q : Quad α) (r r' : Reg) (a : α) :
    (q.set r a).get r' = if r' = r then a else q.get r' := by
  cases r <;> cases r' <;> rfl

@[simp] theorem Quad.get_all {α : Type} (a : α) (r : Reg) : (Quad.all a).get r = a := by
  cases r <;> rfl

theorem Quad.set_get {α : Type} (q : Quad α) (r : Reg) : q.set r (q.get r) = q := by
  cases r <;> rfl

theorem Quad.forall_get {α : Type} (p : α → Prop) (q : Quad α) :
    (∀ r, p (q.get r)) ↔ p q.r0 ∧ p q.r1 ∧ p q.r2 ∧ p q.r3 :=
  ⟨fun h => ⟨h .r0, h .r1, h .r2, h .r3⟩, fun h r => by cases r <;> simp [Quad.get, h]⟩

/-! ## Element storage -/

theorem lookupCell_insertCell_same {α : Type} (j : Nat) (v : α) (cs : List (Nat × α)) :
    lookupCell j (insertCell j v cs) = some v := by
  induction cs with
  | nil => simp [insertCell, lookupCell]
  | cons c cs ih =>
    obtain ⟨i, w⟩ := c
    simp only [insertCell]
    split
    · simp [lookupCell]
    · split
      · simp [lookupCell]
      · simp only [lookupCell]
        rw [if_neg (by omega), ih]

theorem lookupCell_insertCell_ne {α : Type} (j k : Nat) (v : α) (cs : List (Nat × α)) (h : k ≠ j) :
    lookupCell k (insertCell j v cs) = lookupCell k cs := by
  induction cs with
  | nil => simp [insertCell, lookupCell, Ne.symm h]
  | cons c cs ih =>
    obtain ⟨i, w⟩ := c
    simp only [insertCell]
    split
    · simp [lookupCell, Ne.symm h]
    · split
      · rename_i _ hji
        subst hji
        simp [lookupCell, Ne.symm h]
      · simp only [lookupCell, ih]

theorem risingFrom_weaken {α : Type} {lo lo' : Nat} {cs : List (Nat × α)} (h : risingFrom lo cs = true)
    (hlo : lo' ≤ lo) : risingFrom lo' cs = true := by
  cases cs with
  | nil => rfl
  | cons c cs =>
    simp only [risingFrom, Bool.and_eq_true, decide_eq_true_eq] at h ⊢
    exact ⟨⟨by omega, h.1.2⟩, h.2⟩

theorem risingFrom_insertCell {α : Type} {lo j : Nat} (v : α) {cs : List (Nat × α)} (h : risingFrom lo cs = true)
    (hlo : lo ≤ j) (hj : j < maxLen) : risingFrom lo (insertCell j v cs) = true := by
  induction cs generalizing lo with
  | nil => simp [insertCell, risingFrom, hlo, hj]
  | cons c cs ih =>
    obtain ⟨i, w⟩ := c
    simp only [risingFrom, Bool.and_eq_true, decide_eq_true_eq] at h
    simp only [insertCell]
    split
    · simp only [risingFrom, Bool.and_eq_true, decide_eq_true_eq]
      exact ⟨⟨hlo, hj⟩, ⟨by omega, h.1.2⟩, h.2⟩
    · split
      · rename_i _ hji
        subst hji
        simp only [risingFrom, Bool.and_eq_true, decide_eq_true_eq]
        exact h
      · simp only [risingFrom, Bool.and_eq_true, decide_eq_true_eq]
        exact ⟨h.1, ih h.2 (by omega)⟩

theorem risingFrom_numberedFrom {α : Type} (j : Nat) (vs : List α) (h : j + vs.length ≤ maxLen) :
    risingFrom j (numberedFrom j vs) = true := by
  induction vs generalizing j with
  | nil => rfl
  | cons v vs ih =>
    simp only [List.length_cons] at h
    simp only [numberedFrom, risingFrom, Bool.and_eq_true, decide_eq_true_eq]
    exact ⟨⟨le_refl _, by omega⟩, ih _ (by omega)⟩

theorem lookupCell_numberedFrom {α : Type} (j k : Nat) (vs : List α) :
    lookupCell (j + k) (numberedFrom j vs) = vs[k]? := by
  induction vs generalizing j k with
  | nil => simp [numberedFrom, lookupCell]
  | cons v vs ih =>
    simp only [numberedFrom, lookupCell]
    cases k with
    | zero => simp
    | succ k =>
      rw [if_neg (by omega), show j + (k + 1) = j + 1 + k by omega, ih]
      simp

/-- A host write keeps the canonical form of element storage. -/
theorem Store.wf_write {α : Type} {st : Store α} (h : st.wf = true) (j : Nat) (v : α) (hj : j < maxLen) :
    (st.write j v).wf = true :=
  risingFrom_insertCell v h (Nat.zero_le j) hj

/-- A command's write of a whole string leaves canonical storage. -/
theorem Store.wf_ofList {α : Type} (vs : List α) (h : vs.length ≤ maxLen) : (Store.ofList vs).wf = true :=
  risingFrom_numberedFrom 0 vs (by omega)

theorem Store.wf_unspecified {α : Type} : (Store.unspecified : Store α).wf = true := rfl

theorem Store.wf_zeros {α : Type} : (Store.zeros : Store α).wf = true := rfl

/-- Writing an element and reading it gives the value written. -/
theorem Store.element_write_same {α : Type} (zero free : α) (st : Store α) (j : Nat) (v : α) :
    (st.write j v).element zero free j = v := by
  simp [Store.element, Store.write, lookupCell_insertCell_same]

/-- Writing an element leaves every other element alone. -/
theorem Store.element_write_ne {α : Type} (zero free : α) (st : Store α) (j k : Nat) (v : α) (h : k ≠ j) :
    (st.write j v).element zero free k = st.element zero free k := by
  have e := lookupCell_insertCell_ne j k v st.cells h
  simp only [Store.element, Store.write]
  rw [e]
  rfl

theorem Store.element_ofList {α : Type} (zero free : α) (vs : List α) (j : Nat) :
    (Store.ofList vs).element zero free j = (vs[j]?).getD free := by
  have h := lookupCell_numberedFrom 0 j vs
  rw [Nat.zero_add] at h
  simp only [Store.element, Store.ofList, h]
  cases vs[j]? <;> simp

/-- A string that a command has written reads back as itself. -/
@[simp] theorem StrReg.value_ofList {α : Type} (zero : α) (free : Nat → α) (vs : List α) :
    (StrReg.ofList vs).value zero free = vs := by
  apply List.ext_getElem?
  intro j
  simp only [StrReg.value, StrReg.ofList, List.getElem?_map, Store.element_ofList]
  by_cases h : j < vs.length
  · simp [h]
  · simp [List.getElem?_eq_none (by simp; omega : (List.range vs.length).length ≤ j), List.getElem?_eq_none (by omega : vs.length ≤ j)]

@[simp] theorem StrReg.length_value {α : Type} (zero : α) (free : Nat → α) (r : StrReg α) :
    (r.value zero free).length = r.len := by
  simp [StrReg.value]

@[simp] theorem State.length_nsVal (s : State) (r : Reg) : (s.nsVal r).length = (s.ns.get r).len := by
  simp [State.nsVal]

@[simp] theorem State.length_bsVal (s : State) (r : Reg) : (s.bsVal r).length = (s.bs.get r).len := by
  simp [State.bsVal]

theorem Memory.wf_iff (s : State) :
    Memory.wf s = true ↔ ∀ r, (s.ns.get r).store.wf = true ∧ (s.bs.get r).store.wf = true := by
  constructor
  · intro h r
    simp only [Memory.wf, Bool.and_eq_true] at h
    cases r <;> simp [Quad.get, h]
  · intro h
    have h0 := h .r0; have h1 := h .r1; have h2 := h .r2; have h3 := h .r3
    simp only [Quad.get] at h0 h1 h2 h3
    simp [Memory.wf, h0, h1, h2, h3]

/-- The storage after reset is in canonical form. -/
theorem Memory.wf_reset : Memory.wf State.reset = true := rfl

/-- A command's write of an `ns` register keeps all element storage in canonical form. -/
theorem Memory.wf_putNs {s : State} (h : Memory.wf s = true) (r : Reg) (v : List Word) (hv : v.length ≤ maxLen) :
    Memory.wf (s.putNs r v) = true := by
  rw [Memory.wf_iff] at h ⊢
  intro r'
  refine ⟨?_, (h r').2⟩
  simp only [State.putNs_ns, Quad.get_set]
  split
  · exact Store.wf_ofList v hv
  · exact (h r').1

/-- A command's write of a `bs` register keeps all element storage in canonical form. -/
theorem Memory.wf_putBs {s : State} (h : Memory.wf s = true) (r : Reg) (v : List Byte) (hv : v.length ≤ maxLen) :
    Memory.wf (s.putBs r v) = true := by
  rw [Memory.wf_iff] at h ⊢
  intro r'
  refine ⟨(h r').1, ?_⟩
  simp only [State.putBs_bs, Quad.get_set]
  split
  · exact Store.wf_ofList v hv
  · exact (h r').2

/-- `WIPE` leaves canonical storage. -/
theorem Memory.wf_wiped (s : State) : Memory.wf s.wiped = true := rfl

/-- Reset leaves canonical storage. -/
theorem Memory.wf_afterReset (s : State) (held : Bool) : Memory.wf (s.afterReset held) = true := rfl

/-- A host write of an element keeps the canonical form; a length write does not touch storage. -/
theorem StrReg.wf_setElement {α : Type} {r : StrReg α} (h : r.store.wf = true) (j : Nat) (v : α) (hj : j < maxLen) :
    (r.setElement j v).store.wf = true :=
  Store.wf_write h j v hj

@[simp] theorem StrReg.store_setLen {α : Type} (r : StrReg α) (n : Nat) : (r.setLen n).store = r.store := rfl

/-! ## Errors -/

theorem require_of {c : Prop} {inst : Decidable c} (h : c) (cause : Cause) (info : Nat) : require c cause info = .ok () := by
  simp [require, h]

theorem require_of_not {c : Prop} {inst : Decidable c} (h : ¬ c) (cause : Cause) (info : Nat) :
    require c cause info = .error ⟨cause, info⟩ := by
  simp [require, h]

theorem require_ok_iff {c : Prop} {inst : Decidable c} {cause : Cause} {info : Nat} {u : Unit} :
    require c cause info = .ok u ↔ c := by
  unfold require; split <;> simp_all

theorem require_error_iff {c : Prop} {inst : Decidable c} {cause : Cause} {info : Nat} {e : Raise} :
    require c cause info = .error e ↔ ¬ c ∧ e = ⟨cause, info⟩ := by
  unfold require; split <;> simp_all [eq_comm]

@[simp] theorem except_ok_bind {ε α β : Type} (a : α) (f : α → Except ε β) : (Except.ok a >>= f) = f a := by
  simp [bind, Except.bind]

@[simp] theorem except_error_bind {ε α β : Type} (e : ε) (f : α → Except ε β) :
    ((Except.error e : Except ε α) >>= f) = .error e := by
  simp [bind, Except.bind]

@[simp] theorem except_pure {ε α : Type} (a : α) : (pure a : Except ε α) = .ok a := by
  simp [pure, Except.pure]

/-- A sequence of two steps succeeds exactly if both do. -/
theorem except_bind_ok_iff {ε α β : Type} {x : Except ε α} {f : α → Except ε β} {b : β} :
    (x >>= f) = .ok b ↔ ∃ a, x = .ok a ∧ f a = .ok b := by
  cases x <;> simp

/-- A sequence of two steps fails with the first error there is. -/
theorem except_bind_error_iff {ε α β : Type} {x : Except ε α} {f : α → Except ε β} {e : ε} :
    (x >>= f) = .error e ↔ x = .error e ∨ ∃ a, x = .ok a ∧ f a = .error e := by
  cases x <;> simp

/-! ## Operands -/

theorem State.srcNs_present {s : State} {r : Reg} (h : (s.ns.get r).present = true) (c : Cause) :
    s.srcNs r c = .ok (s.nsVal r) := by
  simp [State.srcNs, h]

theorem State.srcNs_absent {s : State} {r : Reg} (h : (s.ns.get r).present = false) (c : Cause) :
    s.srcNs r c = .error ⟨c, 0⟩ := by
  simp [State.srcNs, h]

theorem State.srcBs_present {s : State} {r : Reg} (h : (s.bs.get r).present = true) (c : Cause) :
    s.srcBs r c = .ok (s.bsVal r) := by
  simp [State.srcBs, h]

theorem State.srcBs_absent {s : State} {r : Reg} (h : (s.bs.get r).present = false) (c : Cause) :
    s.srcBs r c = .error ⟨c, 0⟩ := by
  simp [State.srcBs, h]

theorem State.srcBn_present {s : State} {r : Reg} (h : (s.bn.get r).present = true) (c : Cause) :
    s.srcBn r c = .ok (s.bnVal r) := by
  simp [State.srcBn, h]

theorem State.srcBn_absent {s : State} {r : Reg} (h : (s.bn.get r).present = false) (c : Cause) :
    s.srcBn r c = .error ⟨c, 0⟩ := by
  simp [State.srcBn, h]

/-! ## The ends of a command -/

/-- Everything the end of a command can be: completion of what its rule computed, or error entry. -/
theorem State.finish_next_iff {s t : State} {r : Except Raise State} :
    s.finish r = .next t ↔ (∃ u, r = .ok u ∧ t = u.complete) ∨ ∃ e, r = .error e ∧ t = s.enterError e := by
  cases r <;> simp [State.finish, eq_comm]

/-- Everything the end of a cipher command can be. -/
theorem State.finishCipher_next_iff {s t : State} {rd : Reg} {total : Nat}
    {job : Except Raise (Except RoundError (List Word))} :
    s.finishCipher rd total job = .next t ↔
      (∃ e, job = .error e ∧ t = s.enterError e) ∨
      (∃ f, job = .ok (.error f) ∧ t = s.enterError f.error ⟨total, f.done⟩) ∨
      ∃ Y, job = .ok (.ok Y) ∧ t = (s.putNs rd Y).complete ⟨total, total⟩ := by
  rcases job with e | (f | Y) <;> simp [State.finishCipher, eq_comm]

/-- Completion without progress is what statements write as `completed`. -/
theorem State.complete_eq_completed (s : State) : s.complete = s.completed := by
  simp only [State.complete, State.completed, State.showProgress, Progress.none]
  split <;> rfl

/-- Error entry without progress is what statements write as `failed`. -/
theorem State.enterError_eq_failed (s : State) (c : Cause) (k : Nat) : s.enterError ⟨c, k⟩ = s.failed c k := by
  simp only [State.enterError, State.failed, State.showProgress, Progress.none]
  split <;> rfl

/-- Completion of a cipher command is what statements write as `completedRounds`. -/
theorem State.complete_eq_completedRounds (s : State) (r : Nat) : s.complete ⟨r, r⟩ = s.completedRounds r := by
  simp only [State.complete, State.completedRounds, State.completed, State.showProgress, State.progField,
    State.diagOn, Bool.and_eq_true]

/-! ## Rounds -/

/-- What the iteration gives when every round succeeds, as a chain of states. -/
theorem iterate_ok_iff {σ : Type} (f : Nat → σ → Except Raise σ) (count done : Nat) (x y : σ) :
    iterate f count done x = .ok y ↔
      ∃ g : Nat → σ, g 0 = x ∧ g count = y ∧ ∀ k, k < count → f (done + k) (g k) = .ok (g (k + 1)) := by
  induction count generalizing done x with
  | zero =>
    constructor
    · intro h
      simp only [iterate, Except.ok.injEq] at h
      exact ⟨fun _ => x, rfl, h, fun k hk => absurd hk (Nat.not_lt_zero k)⟩
    · rintro ⟨g, h0, hc, _⟩
      simp only [iterate]
      rw [← h0, hc]
  | succ count ih =>
    constructor
    · intro h
      simp only [iterate] at h
      split at h
      · rename_i z hz
        obtain ⟨g, h0, hc, hs⟩ := (ih (done + 1) z).mp h
        refine ⟨fun k => match k with | 0 => x | k + 1 => g k, rfl, hc, ?_⟩
        intro k hk
        cases k with
        | zero => simpa [h0] using hz
        | succ k =>
          have := hs k (by omega)
          simpa [Nat.add_assoc, Nat.add_comm 1 k] using this
      · simp at h
    · rintro ⟨g, h0, hc, hs⟩
      have h1 := hs 0 (Nat.succ_pos _)
      simp only [Nat.add_zero, Nat.zero_add, h0] at h1
      simp only [iterate, h1]
      refine (ih (done + 1) (g 1)).mpr ⟨fun k => g (k + 1), rfl, hc, ?_⟩
      intro k hk
      have := hs (k + 1) (by omega)
      simpa [Nat.add_assoc, Nat.add_comm 1 k] using this

/-- An error inside the rounds comes after fewer than all rounds. -/
theorem iterate_error_done {σ : Type} (f : Nat → σ → Except Raise σ) (count done : Nat) (x : σ) (e : RoundError)
    (h : iterate f count done x = .error e) : done ≤ e.done ∧ e.done < done + count := by
  induction count generalizing done x with
  | zero => simp [iterate] at h
  | succ count ih =>
    simp only [iterate] at h
    split at h
    · have := ih _ _ h
      omega
    · simp only [Except.error.injEq] at h
      subst h
      simp

end Sys2Proof.Machine
end

