-- ==== Sys2Proof/Laws/Functions.lean ====
section
/-!
SUPPORT. What each pure function answers: the conversions (R130 to R142), the adapter (R173 to R178) and the arithmetic
functions (R190 to R199).
-/

namespace Sys2Proof.Machine

/-! ## Checks -/

theorem numeralCheck_ok {radix : Nat} {X : List Word} (h : Numerals radix X) : numeralCheck X radix = .ok () := by
  have : X.findIdx? (fun d => decide (radix ≤ d.toNat)) = none := by
    rw [List.findIdx?_eq_none_iff]
    intro d hd
    have := h d hd
    simpa using this
  simp [numeralCheck, this]

theorem numeralCheck_error {radix : Nat} {X : List Word} (h : ¬ Numerals radix X) :
    numeralCheck X radix = .error ⟨.numeralRange, X.findIdx fun d => decide (radix ≤ d.toNat)⟩ := by
  have hlt : X.findIdx (fun d => decide (radix ≤ d.toNat)) < X.length := by
    rw [List.findIdx_lt_length]
    simp only [Numerals, not_forall] at h
    obtain ⟨d, hd, hn⟩ := h
    exact ⟨d, hd, by simpa using hn⟩
  have : X.findIdx? (fun d => decide (radix ≤ d.toNat)) = some (X.findIdx fun d => decide (radix ≤ d.toNat)) := by
    rw [List.findIdx?_eq_some_iff_findIdx_eq]
    exact ⟨hlt, rfl⟩
  simp [numeralCheck, this]

theorem numeralCheck_ok_iff {radix : Nat} {X : List Word} {u : Unit} : numeralCheck X radix = .ok u ↔ Numerals radix X := by
  by_cases h : Numerals radix X
  · simp [numeralCheck_ok h, h]
  · simp [numeralCheck_error h, h]

theorem tweakDigitCheck_ok {tradix : Nat} {T : List Byte} (h : ∀ d ∈ T, d.toNat < tradix) :
    tweakDigitCheck T tradix = .ok () := by
  have : T.findIdx? (fun d => decide (tradix ≤ d.toNat)) = none := by
    rw [List.findIdx?_eq_none_iff]
    intro d hd
    have := h d hd
    simpa using this
  simp [tweakDigitCheck, this]

theorem tweakDigitCheck_error {tradix : Nat} {T : List Byte} (h : ¬ ∀ d ∈ T, d.toNat < tradix) :
    tweakDigitCheck T tradix = .error ⟨.tweakDigit, T.findIdx fun d => decide (tradix ≤ d.toNat)⟩ := by
  have hlt : T.findIdx (fun d => decide (tradix ≤ d.toNat)) < T.length := by
    rw [List.findIdx_lt_length]
    simp only [not_forall] at h
    obtain ⟨d, hd, hn⟩ := h
    exact ⟨d, hd, by simpa using hn⟩
  have : T.findIdx? (fun d => decide (tradix ≤ d.toNat)) = some (T.findIdx fun d => decide (tradix ≤ d.toNat)) := by
    rw [List.findIdx?_eq_some_iff_findIdx_eq]
    exact ⟨hlt, rfl⟩
  simp [tweakDigitCheck, this]

theorem radixCheck_ok {radix : Nat} (h : 2 ≤ radix ∧ radix ≤ 65536) : radixCheck radix = .ok () := require_of h _ _

/-! ## Conversions -/

theorem num_ok {X : List Byte} (h : 1 ≤ X.length ∧ X.length ≤ 4096) : num X = .ok (byteSum X) := by
  simp [num, require_of h, byteValue_eq_byteSum]

theorem numRadix_ok {radix : Nat} {X : List Word} (hr : 2 ≤ radix ∧ radix ≤ 65536)
    (hl : 1 ≤ X.length ∧ X.length ≤ 4096) (hX : Numerals radix X) : numRadix X radix = .ok (numeralSum radix X) := by
  simp [numRadix, radixCheck_ok hr, require_of hl, numeralCheck_ok hX, numeralValue_eq_numeralSum]

/-- Everything `NUM_radix` can answer. -/
theorem numRadix_ok_iff {radix v : Nat} {X : List Word} :
    numRadix X radix = .ok v ↔ (2 ≤ radix ∧ radix ≤ 65536) ∧ (1 ≤ X.length ∧ X.length ≤ 4096) ∧ Numerals radix X ∧
      v = numeralSum radix X := by
  constructor
  · intro h
    simp only [numRadix, except_bind_ok_iff, radixCheck, require_ok_iff, numeralCheck_ok_iff] at h
    obtain ⟨_, hr, _, hl, _, hX, hv⟩ := h
    refine ⟨hr, hl, hX, ?_⟩
    simp only [except_pure, Except.ok.injEq] at hv
    rw [← hv, numeralValue_eq_numeralSum]
  · rintro ⟨hr, hl, hX, rfl⟩
    exact numRadix_ok hr hl hX

theorem strRadix_ok {radix m : Nat} {x : Int} (hr : 2 ≤ radix ∧ radix ≤ 65536) (hm : 1 ≤ m ∧ m ≤ 4096) (hx : 0 ≤ x) :
    strRadix x radix m = .ok (numeralsOf radix m x.toNat) := by
  simp [strRadix, radixCheck_ok hr, require_of hm, require_of hx]

/-- Everything `STR_m_radix` can answer. -/
theorem strRadix_ok_iff {radix m : Nat} {x : Int} {Y : List Word} :
    strRadix x radix m = .ok Y ↔ (2 ≤ radix ∧ radix ≤ 65536) ∧ (1 ≤ m ∧ m ≤ 4096) ∧ 0 ≤ x ∧
      Y = numeralsOf radix m x.toNat := by
  constructor
  · intro h
    simp only [strRadix, except_bind_ok_iff, radixCheck, require_ok_iff, except_pure, Except.ok.injEq] at h
    obtain ⟨_, hr, _, hm, _, hx, hY⟩ := h
    exact ⟨hr, hm, hx, hY.symm⟩
  · rintro ⟨hr, hm, hx, rfl⟩
    exact strRadix_ok hr hm hx

theorem bytestring_ok {s : Nat} {x : Int} (hs : 1 ≤ s ∧ s ≤ 4096) (hx : 0 ≤ x ∧ x < (256 ^ s : Nat)) :
    bytestring x s = .ok (bytesOf s x.toNat) := by
  simp only [bytestring, require_of hs, require_of hx, except_ok_bind, except_pure]

theorem bytestring_nat_ok {s x : Nat} (hs : 1 ≤ s ∧ s ≤ 4096) (hx : x < 256 ^ s) :
    bytestring (x : Int) s = .ok (bytesOf s x) := by
  rw [bytestring_ok hs ⟨Int.natCast_nonneg x, by exact_mod_cast hx⟩, Int.toNat_natCast]

theorem bytestring_nat_error {s x : Nat} (hs : 1 ≤ s ∧ s ≤ 4096) (hx : ¬ x < 256 ^ s) :
    bytestring (x : Int) s = .error ⟨.valueRange, 0⟩ := by
  have : ¬ (0 ≤ (x : Int) ∧ (x : Int) < (256 ^ s : Nat)) := fun h => hx (by exact_mod_cast h.2)
  simp only [bytestring, require_of hs, require_of_not this, except_ok_bind, except_error_bind]

theorem concatenate_ok {α : Type} {X Y : List α} (h : X.length + Y.length ≤ 4096) : concatenate X Y = .ok (X ++ Y) := by
  simp [concatenate, require_of h]

theorem concatenate_error {α : Type} {X Y : List α} (h : ¬ X.length + Y.length ≤ 4096) :
    concatenate X Y = .error ⟨.operandLen, 0⟩ := by
  simp [concatenate, require_of_not h]

@[simp] theorem length_xorBytes (X Y : List Byte) : (xorBytes X Y).length = min X.length Y.length := by
  simp [xorBytes]

@[simp] theorem length_zeros (k : Nat) : (zeros k).length = k := by simp [zeros]

theorem xorStrings_ok {X Y : List Byte} (h : X.length = Y.length) : xorStrings X Y = .ok (xorBytes X Y) := by
  simp [xorStrings, require_of h]

/-! ## The adapter -/

/-- The default machine runs with AES (R9). -/
theorem provider_reset : State.reset.provider.E = aesEncrypt := by
  funext K B
  rfl

/-- Some choice of the parameter `E` agrees with a given cipher on any given blocks (log 8). -/
theorem cipherOf_known (E : BlockCipher) (rest : NamedCipher) (qs : List (List Byte × Block)) :
    ∀ q ∈ qs, cipherOf { rest := rest, known := qs.map fun q => ⟨q.1, q.2, E q.1 q.2⟩ } q.1 q.2 = E q.1 q.2 := by
  intro q hq
  unfold cipherOf
  split
  · rename_i e he
    obtain ⟨q', _, rfl⟩ := List.mem_map.mp (List.mem_of_find?_eq_some he)
    have := List.find?_some he
    simp only [Bool.and_eq_true, beq_iff_eq] at this
    simp only [this.1, this.2]
  · rename_i he
    have := List.find?_eq_none.mp he _ (List.mem_map.mpr ⟨q, hq, rfl⟩)
    simp at this

@[simp] theorem length_encryptBlock (E : BlockCipher) (K B : List Byte) : (encryptBlock E K B).length = 16 := by
  simp [encryptBlock]

theorem validKey_ok {K : List Byte} (h : K.length = 16 ∨ K.length = 24 ∨ K.length = 32) : validKey K = .ok () :=
  require_of h _ _

theorem validData_ok {X : List Byte} (h : 1 ≤ X.length ∧ X.length ≤ 4096 ∧ X.length % 16 = 0) : validData X = .ok () :=
  require_of h _ _

/-- Everything a port request can answer (R95, R98). -/
theorem aesRequest_eq (P : Provider) (q : AesRequest) :
    aesRequest P q = if P.fails q = true then .error ⟨.aesFail, 0⟩ else .ok (match q.mode with
      | .ecb => aesEcb P.E q.key q.data
      | .cbc0 => aesCbc0 P.E q.key q.data) := by
  unfold aesRequest
  by_cases h : P.fails q = true
  · rw [if_pos h, require_of_not (by simp [h]), except_error_bind]
  · rw [if_neg h, require_of (by simpa using h), except_ok_bind]
    rfl

/-- Everything `CIPH` can answer on a legal key and legal data (R173). -/
theorem ciph_eq {P : Provider} {K X : List Byte} (hK : K.length = 16 ∨ K.length = 24 ∨ K.length = 32)
    (hX : 1 ≤ X.length ∧ X.length ≤ 4096 ∧ X.length % 16 = 0) :
    ciph P K X = if P.fails ⟨.ecb, K, X⟩ = true then .error ⟨.aesFail, 0⟩ else .ok (aesEcb P.E K X) := by
  simp only [ciph, validKey_ok hK, validData_ok hX, except_ok_bind, aesRequest_eq]

theorem ciph_ok {P : Provider} {K X : List Byte} (hP : ∀ q, P.fails q = false)
    (hK : K.length = 16 ∨ K.length = 24 ∨ K.length = 32) (hX : 1 ≤ X.length ∧ X.length ≤ 4096 ∧ X.length % 16 = 0) :
    ciph P K X = .ok (aesEcb P.E K X) := by
  rw [ciph_eq hK hX, if_neg (by simp [hP])]

theorem aesEcb_block (E : BlockCipher) (K X : List Byte) (h : X.length = 16) : aesEcb E K X = encryptBlock E K X := by
  have ht : X.take 16 = X := List.take_of_length_le (by omega)
  simp [aesEcb, blocksOf, blockAt, h, ht]

/-- `CIPH` of one block (R173). -/
theorem ciph_block_eq {P : Provider} {K X : List Byte} (hK : K.length = 16 ∨ K.length = 24 ∨ K.length = 32)
    (hX : X.length = 16) :
    ciph P K X = if P.fails ⟨.ecb, K, X⟩ = true then .error ⟨.aesFail, 0⟩ else .ok (encryptBlock P.E K X) := by
  rw [ciph_eq hK (by omega), aesEcb_block _ _ _ hX]

theorem length_blocksOf {X B : List Byte} (h : B ∈ blocksOf X) : B.length = 16 := by
  simp only [blocksOf, List.mem_map, List.mem_range] at h
  obtain ⟨j, hj, rfl⟩ := h
  simp only [blockAt, List.length_take, List.length_drop]
  omega

theorem prfChain_eq {P : Provider} {K : List Byte} (hK : K.length = 16 ∨ K.length = 24 ∨ K.length = 32)
    (Bs : List (List Byte)) (Y : List Byte) (hY : Y.length = 16) (hB : ∀ B ∈ Bs, B.length = 16) :
    prfChain P K Y Bs = if (chainRequests P.E K Y Bs).any P.fails = true then .error ⟨.aesFail, 0⟩
      else .ok (Bs.foldl (fun Y B => encryptBlock P.E K (xorBytes Y B)) Y) := by
  induction Bs generalizing Y with
  | nil => rfl
  | cons B Bs ih =>
    have hx : (xorBytes Y B).length = 16 := by simp [hY, hB B (by simp)]
    simp only [prfChain, ciph_block_eq hK hx, chainRequests, List.any_cons, List.foldl_cons, Bool.or_eq_true]
    by_cases hf : P.fails ⟨.ecb, K, xorBytes Y B⟩ = true
    · simp only [hf, if_true, true_or, except_error_bind]
    · simp only [hf, Bool.false_eq_true, if_false, false_or, except_ok_bind]
      exact ih _ (by simp) fun B' h => hB B' (by simp [h])

/-- Everything `PRF` can answer on a legal key and legal data (R174). -/
theorem prf_eq {P : Provider} {K X : List Byte} (hK : K.length = 16 ∨ K.length = 24 ∨ K.length = 32)
    (hX : 1 ≤ X.length ∧ X.length ≤ 4096 ∧ X.length % 16 = 0) :
    prf P K X = if (macRequests P.E K X).any P.fails = true then .error ⟨.aesFail, 0⟩ else .ok (macOf P.E K X) := by
  simp only [prf, validKey_ok hK, validData_ok hX, except_ok_bind]
  exact prfChain_eq hK _ _ (by simp) fun B h => length_blocksOf h

/-- `PRF` as R174 writes it. -/
theorem prf_ok {P : Provider} {K X : List Byte} (hP : ∀ q, P.fails q = false)
    (hK : K.length = 16 ∨ K.length = 24 ∨ K.length = 32) (hX : 1 ≤ X.length ∧ X.length ≤ 4096 ∧ X.length % 16 = 0) :
    prf P K X = .ok (macOf P.E K X) := by
  rw [prf_eq hK hX, if_neg (by simp [hP])]

theorem length_macOf (E : BlockCipher) (K X : List Byte) : (macOf E K X).length = 16 := by
  rw [macOf]
  generalize blocksOf X = Bs
  have : ∀ (Y : List Byte), Y.length = 16 →
      (Bs.foldl (fun Y B => encryptBlock E K (xorBytes Y B)) Y).length = 16 := by
    induction Bs with
    | nil => exact fun Y h => h
    | cons B Bs ih => exact fun Y _ => ih _ (by simp)
  exact this _ (by simp)

/-! ## The arithmetic functions -/

theorem arithCheck_ok {radix : Nat} {A Y : List Word} (hr : 2 ≤ radix ∧ radix ≤ 65536) (hl : A.length = Y.length)
    (hm : 1 ≤ A.length ∧ A.length ≤ 4096) (hA : Numerals radix A) (hY : Numerals radix Y) :
    arithCheck A Y radix = .ok () := by
  simp [arithCheck, radixCheck_ok hr, require_of hl, require_of hm, numeralCheck_ok hA, numeralCheck_ok hY]

/-- Everything `arith_check` accepts (R190). -/
theorem arithCheck_ok_iff {radix : Nat} {A Y : List Word} {u : Unit} :
    arithCheck A Y radix = .ok u ↔ (2 ≤ radix ∧ radix ≤ 65536) ∧ A.length = Y.length ∧
      (1 ≤ A.length ∧ A.length ≤ 4096) ∧ Numerals radix A ∧ Numerals radix Y := by
  constructor
  · intro h
    simp only [arithCheck, except_bind_ok_iff, radixCheck, require_ok_iff, numeralCheck_ok_iff] at h
    obtain ⟨_, hr, _, hl, _, hm, _, hA, hY⟩ := h
    exact ⟨hr, hl, hm, hA, hY⟩
  · rintro ⟨hr, hl, hm, hA, hY⟩
    exact arithCheck_ok hr hl hm hA hY

theorem modInt_ok {x m : Int} (h : 0 < m) : modInt x m = .ok (x % m) := by
  simp [modInt, require_of h]

/-- What the blockwise pair answers (R191). -/
theorem blockwise_ok {op : Int → Int → Int} {radix : Nat} {A Y : List Word} (h : arithCheck A Y radix = .ok ()) :
    blockwise op radix A Y = .ok (numeralsOf radix A.length
      (op (numeralSum radix A) (numeralSum radix Y) % (radix ^ A.length : Nat)).toNat) := by
  obtain ⟨hr, hl, hm, hA, hY⟩ := arithCheck_ok_iff.mp h
  have hpos : (0 : Int) < (radix ^ A.length : Nat) := by
    exact_mod_cast Nat.pow_pos (by omega : 0 < radix)
  simp only [blockwise, h, except_ok_bind, numRadix_ok hr hm hA, numRadix_ok hr (hl ▸ hm) hY, modInt_ok hpos]
  exact strRadix_ok hr hm (Int.emod_nonneg _ (by omega))

/-- What the reversed-blockwise pair answers (R194). -/
theorem reversedBlockwise_ok {op : Int → Int → Int} {radix : Nat} {A Y : List Word}
    (h : arithCheck A Y radix = .ok ()) :
    reversedBlockwise op radix A Y = .ok (numeralsOf radix A.length
      (op (numeralSum radix A.reverse) (numeralSum radix Y) % (radix ^ A.length : Nat)).toNat).reverse := by
  obtain ⟨hr, hl, hm, hA, hY⟩ := arithCheck_ok_iff.mp h
  have hpos : (0 : Int) < (radix ^ A.length : Nat) := by
    exact_mod_cast Nat.pow_pos (by omega : 0 < radix)
  have hA' : Numerals radix (rev A) := fun d hd => hA d (by simpa [rev] using hd)
  have hm' : 1 ≤ (rev A).length ∧ (rev A).length ≤ 4096 := by simpa [rev] using hm
  simp only [reversedBlockwise, h, except_ok_bind, numRadix_ok hr hm' hA', numRadix_ok hr (hl ▸ hm) hY,
    modInt_ok hpos]
  rw [strRadix_ok hr hm (Int.emod_nonneg _ (ne_of_gt hpos))]
  rfl

end Sys2Proof.Machine
end

