-- ==== Sys2Proof/Laws/RoundFunctions.lean ====
section
/-!
SUPPORT. What the three round functions answer: the plain formulas of `Sys2Proof/Safety.lean`, wherever every check holds.
-/

namespace Sys2Proof.Machine

/-! ## The integer forms of the logarithms (R162) -/

theorem ceilLog2_eq_clog (x : Nat) : ceilLog2 x = Nat.clog 2 x := by
  unfold ceilLog2
  split
  · rw [Nat.clog_of_right_le_one (by omega)]
  · have h0 : x - 1 ≠ 0 := by omega
    apply le_antisymm
    · rw [Nat.succ_le_iff, Nat.lt_clog_iff_pow_lt (by norm_num)]
      have := (Nat.le_log2 h0).mp (le_refl (x - 1).log2)
      omega
    · rw [Nat.clog_le_iff_le_pow (by norm_num)]
      have := (Nat.log2_lt h0).mp (Nat.lt_succ_self _)
      omega

theorem cap_eq_log {r : Nat} (hr : 2 ≤ r) (c : Nat) : cap r c = Nat.log r (2 ^ c) := by
  have h2 : (2 : Nat) ^ c ≠ 0 := by positivity
  unfold cap
  rw [Nat.findGreatest_eq_iff]
  refine ⟨?_, fun _ => Nat.pow_log_le_self _ h2, fun {n} hn _ hp => ?_⟩
  · have := Nat.pow_log_le_self r h2
    have h3 : 2 ^ Nat.log r (2 ^ c) ≤ r ^ Nat.log r (2 ^ c) := Nat.pow_le_pow_left hr _
    exact (Nat.pow_le_pow_iff_right (by norm_num)).mp (h3.trans this)
  · have := (Nat.le_log_iff_pow_le (by omega) h2).mpr hp
    omega

/-! ## FF1 -/

theorem ff1B_eq (radix n : Nat) : ff1B radix n = ff1Bytes radix n := by
  rw [ff1B, ff1Bytes, ceilLog2_eq_clog]

theorem ff1D_eq (radix n : Nat) : ff1D radix n = ff1Keep radix n := by
  rw [ff1D, ff1Keep, ff1B_eq]

theorem ff1P_ok {radix n t : Nat} (hr : radix ≤ 65536) (hn : n ≤ 4096) (ht : t ≤ 4096) :
    ff1P radix n t = .ok (ff1Header radix n t) := by
  simp only [ff1P, bytestring_nat_ok (by norm_num : 1 ≤ 3 ∧ 3 ≤ 4096) (by omega : radix < 256 ^ 3),
    bytestring_nat_ok (by norm_num : 1 ≤ 4 ∧ 4 ≤ 4096) (by omega : n < 256 ^ 4),
    bytestring_nat_ok (by norm_num : 1 ≤ 4 ∧ 4 ≤ 4096) (by omega : t < 256 ^ 4), except_ok_bind, except_pure]
  rfl

theorem length_ff1Header (radix n t : Nat) : (ff1Header radix n t).length = 16 := by
  simp [ff1Header]

/-- `len(Q)` (R233): `t`, the padding, one byte and `b` make a multiple of 16. -/
theorem ff1Pad_length (t b : Nat) :
    ff1Pad t b < 16 ∧ (t + ff1Pad t b + 1 + b) % 16 = 0 := by
  unfold ff1Pad
  omega

/-- `Q`, when the half's checks hold: it is formed, or it alone is longer than 4096 bytes. -/
theorem ff1Q_eq {radix n i : Nat} {T : List Byte} {B : List Word} (hr : 2 ≤ radix ∧ radix ≤ 65536) (hi : i ≤ 255)
    (hl : 1 ≤ B.length ∧ B.length ≤ 4096) (hB : Numerals radix B)
    (hb : 1 ≤ ff1Bytes radix n ∧ ff1Bytes radix n ≤ 4096) (hx : numeralSum radix B < 256 ^ ff1Bytes radix n) :
    ff1Q radix (ff1B radix n) T i B =
      if (ff1Body radix n T i (numeralSum radix B)).length ≤ 4096 then .ok (ff1Body radix n T i (numeralSum radix B))
      else .error ⟨.operandLen, 0⟩ := by
  have hpad := ff1Pad_length T.length (ff1Bytes radix n)
  have hbody : ff1Body radix n T i (numeralSum radix B) =
      T ++ zeros (ff1Pad T.length (ff1Bytes radix n)) ++ bytesOf 1 i ++ bytesOf (ff1Bytes radix n) (numeralSum radix B) :=
    rfl
  simp only [ff1Q, numRadix_ok hr hl hB, except_ok_bind, ff1B_eq, bytestring_nat_ok hb hx,
    bytestring_nat_ok (by norm_num : 1 ≤ 1 ∧ 1 ≤ 4096) (by omega : i < 256 ^ 1)]
  rw [hbody]
  split
  · rename_i h
    simp only [List.length_append, length_zeros, length_bytesOf] at h
    rw [concatenate_ok (by simp; omega), except_ok_bind, concatenate_ok (by simp; omega), except_ok_bind,
      concatenate_ok (by simp; omega)]
  · rename_i h
    simp only [List.length_append, length_zeros, length_bytesOf] at h
    by_cases h0 : T.length + ff1Pad T.length (ff1Bytes radix n) ≤ 4096
    · rw [concatenate_ok (by simpa using h0), except_ok_bind]
      by_cases h1 : T.length + ff1Pad T.length (ff1Bytes radix n) + 1 ≤ 4096
      · rw [concatenate_ok (by simpa [Nat.add_assoc] using h1), except_ok_bind, concatenate_error (by simp; omega)]
      · rw [concatenate_error (by simp; omega)]
        rfl
    · rw [concatenate_error (by simpa using h0)]
      rfl

theorem ff1Expand_eq {P : Provider} {K R : List Byte} (hK : K.length = 16 ∨ K.length = 24 ∨ K.length = 32)
    (hR : R.length = 16) (count j : Nat) (hj : j + count ≤ 4096) :
    ff1Expand P K R count j =
      if ((List.range count).map fun k => (⟨.ecb, K, xorBytes R (bytesOf 16 (j + k))⟩ : AesRequest)).any P.fails = true
      then .error ⟨.aesFail, 0⟩
      else .ok ((List.range count).flatMap fun k => encryptBlock P.E K (xorBytes R (bytesOf 16 (j + k)))) := by
  induction count generalizing j with
  | zero => rfl
  | succ count ih =>
    have hJ : j < 256 ^ 16 := by
      have : (4096 : Nat) < 256 ^ 16 := by norm_num
      omega
    have hx : (xorBytes R (bytesOf 16 j)).length = 16 := by simp [hR]
    have hq : (fun k => (⟨.ecb, K, xorBytes R (bytesOf 16 (j + (k + 1)))⟩ : AesRequest)) =
        fun k => ⟨.ecb, K, xorBytes R (bytesOf 16 (j + 1 + k))⟩ := by
      funext k; rw [show j + (k + 1) = j + 1 + k by omega]
    have he : (fun k => encryptBlock P.E K (xorBytes R (bytesOf 16 (j + (k + 1))))) =
        fun k => encryptBlock P.E K (xorBytes R (bytesOf 16 (j + 1 + k))) := by
      funext k; rw [show j + (k + 1) = j + 1 + k by omega]
    simp only [ff1Expand, bytestring_nat_ok (by norm_num : 1 ≤ 16 ∧ 16 ≤ 4096) hJ, except_ok_bind,
      xorStrings_ok (by simp [hR] : R.length = (bytesOf 16 j).length), ciph_block_eq hK hx,
      List.range_succ_eq_map, List.map_cons, List.map_map, List.any_cons, List.flatMap_cons, List.flatMap_map,
      Function.comp_def, Nat.add_zero, Nat.succ_eq_add_one, hq, he, Bool.or_eq_true]
    by_cases hf : P.fails ⟨.ecb, K, xorBytes R (bytesOf 16 j)⟩ = true
    · simp only [hf, if_true, true_or, except_error_bind]
    · simp only [hf, Bool.false_eq_true, if_false, false_or, except_ok_bind, ih (j + 1) (by omega)]
      split <;> simp only [except_ok_bind, except_error_bind, except_pure]

theorem ff1Bytes_pos {radix n : Nat} (hr : 2 ≤ radix) (hn : 2 ≤ n) : 1 ≤ ff1Bytes radix n := by
  have hv : 1 ≤ n - n / 2 := by omega
  have : 2 ≤ radix ^ (n - n / 2) := by
    calc 2 ≤ radix := hr
      _ = radix ^ 1 := (pow_one _).symm
      _ ≤ radix ^ (n - n / 2) := Nat.pow_le_pow_right (by omega) hv
  have : 1 ≤ Nat.clog 2 (radix ^ (n - n / 2)) := Nat.clog_pos (by norm_num) this
  unfold ff1Bytes
  omega

theorem ff1Bytes_le {radix n : Nat} (hr : radix ≤ 65536) (hn : n ≤ 4096) : ff1Bytes radix n ≤ 4096 := by
  have : Nat.clog 2 (radix ^ (n - n / 2)) ≤ 32768 := by
    rw [Nat.clog_le_iff_le_pow (by norm_num)]
    calc radix ^ (n - n / 2) ≤ 65536 ^ (n - n / 2) := Nat.pow_le_pow_left hr _
      _ = 2 ^ (16 * (n - n / 2)) := by rw [pow_mul]; norm_num
      _ ≤ 2 ^ 32768 := Nat.pow_le_pow_right (by norm_num) (by omega)
  unfold ff1Bytes
  omega

/-- A value of at most `v` numerals fits the `b` bytes of R231. -/
theorem lt_ff1Bytes {radix n x : Nat} (hx : x < radix ^ (n - n / 2)) : x < 256 ^ ff1Bytes radix n := by
  have h := Nat.le_pow_clog (b := 2) (by norm_num) (radix ^ (n - n / 2))
  calc x < radix ^ (n - n / 2) := hx
    _ ≤ 2 ^ Nat.clog 2 (radix ^ (n - n / 2)) := h
    _ ≤ 2 ^ (8 * ff1Bytes radix n) := Nat.pow_le_pow_right (by norm_num) (by unfold ff1Bytes; omega)
    _ = 256 ^ ff1Bytes radix n := by rw [pow_mul]; norm_num

/-- `F_FF1` (R235) where every check holds but the length of `P || Q`: the plain formula, `AES_FAIL` if a request fails,
or `OPERAND_LEN` (R244). -/
theorem fFF1_eq {P : Provider} {radix n i : Nat} {K T : List Byte} {B : List Word}
    (hr : 2 ≤ radix ∧ radix ≤ 65536) (hK : K.length = 16 ∨ K.length = 24 ∨ K.length = 32)
    (hn : 2 ≤ n ∧ n ≤ 4096) (hi : i ≤ 255) (hT : T.length ≤ 4096) (hl : 1 ≤ B.length ∧ B.length ≤ 4096)
    (hB : Numerals radix B) (hx : numeralSum radix B < 256 ^ ff1Bytes radix n) :
    fFF1 P radix K n T i B =
      if T.length + ff1Bytes radix n ≤ 4079 then
        if (ff1Requests P.E radix K n T i (numeralSum radix B)).any P.fails = true then .error ⟨.aesFail, 0⟩
        else .ok (numeralsOf radix (halfLen (n / 2) n i)
          (ff1Y P.E radix K n T i (numeralSum radix B) % radix ^ halfLen (n / 2) n i))
      else .error ⟨.operandLen, 0⟩ := by
  have hb := ff1Bytes_pos hr.1 hn.1
  have hb' := ff1Bytes_le hr.2 hn.2
  have hpad := ff1Pad_length T.length (ff1Bytes radix n)
  have hm : 1 ≤ halfLen (n / 2) n i ∧ halfLen (n / 2) n i ≤ 4096 := by
    unfold halfLen; split <;> omega
  have hQ := ff1Q_eq (T := T) (n := n) hr hi hl hB ⟨hb, hb'⟩ hx
  have hlen : (ff1Body radix n T i (numeralSum radix B)).length =
      T.length + ff1Pad T.length (ff1Bytes radix n) + 1 + ff1Bytes radix n := by
    simp [ff1Body, ff1Pad, Nat.add_assoc]
  simp only [fFF1, ff1P_ok hr.2 hn.2 hT, except_ok_bind, hQ]
  by_cases h : T.length + ff1Bytes radix n ≤ 4079
  · rw [if_pos h, if_pos (by omega), except_ok_bind]
    have hPQ : (ff1Header radix n T.length ++ ff1Body radix n T i (numeralSum radix B)).length ≤ 4096 ∧
        (ff1Header radix n T.length ++ ff1Body radix n T i (numeralSum radix B)).length % 16 = 0 ∧
        1 ≤ (ff1Header radix n T.length ++ ff1Body radix n T i (numeralSum radix B)).length := by
      simp only [List.length_append, length_ff1Header]; omega
    rw [concatenate_ok (by simpa using hPQ.1), except_ok_bind]
    have hd : 1 ≤ ff1Keep radix n ∧ ff1Keep radix n ≤ 4096 := by unfold ff1Keep; omega
    have hmac := length_macOf P.E K (ff1Header radix n T.length ++ ff1Body radix n T i (numeralSum radix B))
    have hS : ff1S P K (ff1Header radix n T.length ++ ff1Body radix n T i (numeralSum radix B)) (ff1D radix n) =
        if (ff1Requests P.E radix K n T i (numeralSum radix B)).any P.fails = true then .error ⟨.aesFail, 0⟩
        else .ok (ff1Stream P.E K
          (macOf P.E K (ff1Header radix n T.length ++ ff1Body radix n T i (numeralSum radix B))) (ff1Keep radix n)) := by
      have hc : ceilDiv (ff1Keep radix n) 16 - 1 = (ff1Keep radix n + 15) / 16 - 1 := by unfold ceilDiv; omega
      have he := ff1Expand_eq (P := P) hK hmac ((ff1Keep radix n + 15) / 16 - 1) 1 (by omega)
      simp only [ff1S, prf_eq hK ⟨hPQ.2.2, hPQ.1, hPQ.2.1⟩, ff1D_eq, hc, ff1Requests, List.any_append, Bool.or_eq_true]
      by_cases hf : (macRequests P.E K
          (ff1Header radix n T.length ++ ff1Body radix n T i (numeralSum radix B))).any P.fails = true
      · simp only [hf, if_true, true_or, except_error_bind]
      · simp only [hf, Bool.false_eq_true, if_false, false_or, except_ok_bind, he, Nat.add_comm 1]
        split <;> simp only [except_ok_bind, except_error_bind, except_pure, ff1Stream]
    rw [hS]
    have hSlen : ∀ R : List Byte, R.length = 16 → (ff1Stream P.E K R (ff1Keep radix n)).length = ff1Keep radix n := by
      intro R hR
      have hf : ((List.range ((ff1Keep radix n + 15) / 16 - 1)).flatMap fun j =>
          encryptBlock P.E K (xorBytes R (bytesOf 16 (j + 1)))).length = 16 * ((ff1Keep radix n + 15) / 16 - 1) := by
        simp [List.length_flatMap, Nat.mul_comm]
      rw [ff1Stream, List.length_take, List.length_append, hf, hR]
      omega
    split
    · rw [except_error_bind]
    · rw [except_ok_bind, num_ok (by rw [hSlen _ hmac]; exact hd), except_ok_bind,
        strRadix_ok hr hm (Int.natCast_nonneg _), Int.toNat_natCast]
      rfl
  · rw [if_neg h]
    by_cases h2 : (ff1Body radix n T i (numeralSum radix B)).length ≤ 4096
    · rw [if_pos h2, except_ok_bind, concatenate_error (by rw [length_ff1Header]; omega)]
      rfl
    · rw [if_neg h2]
      rfl

/-! ## FF2 -/

theorem ff2P_ok {radix tradix n : Nat} {T : List Byte} (hr : radix < 256) (htr : 2 ≤ tradix ∧ tradix ≤ 256)
    (hn : n < 256) (ht : T.length < 256) (hT : ∀ d ∈ T, d.toNat < tradix)
    (hw : digitSum tradix (T.map BitVec.toNat) < 256 ^ 13) :
    ff2P radix tradix n T = .ok (ff2Header radix tradix n T) := by
  have hfield : ff2TweakField tradix T = .ok (bytesOf 13 (digitSum tradix (T.map BitVec.toNat))) := by
    unfold ff2TweakField
    split
    · rename_i h
      rw [List.length_eq_zero_iff] at h
      subst h
      simp only [List.map_nil, digitSum, List.length_nil, Finset.range_zero, Finset.sum_empty, except_pure]
      exact congrArg Except.ok (by decide)
    · rename_i h
      simp only [numTweak, radixCheck_ok (by omega : 2 ≤ tradix ∧ tradix ≤ 65536), except_ok_bind,
        require_of (by omega : 1 ≤ T.length ∧ T.length ≤ 4096), tweakDigitCheck_ok hT, except_pure]
      rw [valueOf_eq_digitSum, bytestring_nat_ok (by norm_num) hw]
  simp only [ff2P, bytestring_nat_ok (by norm_num : 1 ≤ 1 ∧ 1 ≤ 4096) (by omega : radix < 256 ^ 1),
    bytestring_nat_ok (by norm_num : 1 ≤ 1 ∧ 1 ≤ 4096) (by omega : n < 256 ^ 1),
    bytestring_nat_ok (by norm_num : 1 ≤ 1 ∧ 1 ≤ 4096) (by omega : T.length < 256 ^ 1), except_ok_bind, hfield,
    except_pure, ff2Header]

theorem length_ff2Header (radix tradix n : Nat) (T : List Byte) : (ff2Header radix tradix n T).length = 16 := by
  simp [ff2Header]

/-- `F_FF2` where `P` is formed and the request for `J` fails: `AES_FAIL`, whatever `B` is (R253 before R254, R255). -/
theorem fFF2_subkey_fails {P : Provider} {radix tradix n i : Nat} {K T : List Byte} {B : List Word} (hr : radix < 256)
    (htr : 2 ≤ tradix ∧ tradix ≤ 256) (hK : K.length = 16 ∨ K.length = 24 ∨ K.length = 32) (hn : n < 256)
    (ht : T.length < 256) (hT : ∀ d ∈ T, d.toNat < tradix) (hw : digitSum tradix (T.map BitVec.toNat) < 256 ^ 13)
    (hJ : P.fails ⟨.ecb, K, ff2Header radix tradix n T⟩ = true) :
    fFF2 P radix tradix K n T i B = .error ⟨.aesFail, 0⟩ := by
  simp only [fFF2, ff2P_ok hr htr hn ht hT hw, except_ok_bind, ciph_block_eq hK (length_ff2Header radix tradix n T), hJ,
    if_true, except_error_bind]

/-- `F_FF2` (R255) where every check holds: the plain formula, or `AES_FAIL` if a request fails. -/
theorem fFF2_eq {P : Provider} {radix tradix n i : Nat} {K T : List Byte} {B : List Word}
    (hr : 2 ≤ radix ∧ radix < 256) (htr : 2 ≤ tradix ∧ tradix ≤ 256)
    (hK : K.length = 16 ∨ K.length = 24 ∨ K.length = 32) (hn : 2 ≤ n ∧ n < 256) (hi : i ≤ 255)
    (ht : T.length < 256) (hT : ∀ d ∈ T, d.toNat < tradix) (hw : digitSum tradix (T.map BitVec.toNat) < 256 ^ 13)
    (hl : 1 ≤ B.length ∧ B.length ≤ 4096) (hB : Numerals radix B) (hx : numeralSum radix B < 256 ^ 15) :
    fFF2 P radix tradix K n T i B =
      if (ff2Requests P.E radix tradix K n T i (numeralSum radix B)).any P.fails = true then .error ⟨.aesFail, 0⟩
      else .ok (numeralsOf radix (halfLen (n / 2) n i)
        (ff2Y P.E radix tradix K n T i (numeralSum radix B) % radix ^ halfLen (n / 2) n i)) := by
  have hr' : 2 ≤ radix ∧ radix ≤ 65536 := by omega
  have hm : 1 ≤ halfLen (n / 2) n i ∧ halfLen (n / 2) n i ≤ 4096 := by unfold halfLen; split <;> omega
  simp only [fFF2, ff2P_ok hr.2 htr hn.2 ht hT hw, except_ok_bind, ff2Requests, List.any_cons, List.any_nil,
    Bool.or_eq_true, Bool.false_eq_true, or_false, ciph_block_eq hK (length_ff2Header radix tradix n T)]
  by_cases h1 : P.fails ⟨.ecb, K, ff2Header radix tradix n T⟩ = true
  · simp only [h1, if_true, true_or, except_error_bind]
  · simp only [h1, Bool.false_eq_true, if_false, false_or, except_ok_bind, numRadix_ok hr' hl hB,
      bytestring_nat_ok (by norm_num : 1 ≤ 15 ∧ 15 ≤ 4096) hx,
      bytestring_nat_ok (by norm_num : 1 ≤ 1 ∧ 1 ≤ 4096) (by omega : i < 256 ^ 1)]
    rw [ciph_block_eq (Or.inl (by simp)) (by simp)]
    split
    · rw [except_error_bind]
    · rw [except_ok_bind, num_ok (by simp), except_ok_bind, strRadix_ok hr' hm (Int.natCast_nonneg _),
        Int.toNat_natCast, ff2Y]

/-! ## FF3 -/

theorem length_ff3W {T : List Byte} (hT : T.length = 8) (i : Nat) : (ff3W T i).length = 4 := by
  unfold ff3W; split <;> simp [hT]

/-- `F_FF3` (R275) where every check holds: the plain formula, or `AES_FAIL` if its request fails. -/
theorem fFF3_eq {P : Provider} {radix n i : Nat} {K T : List Byte} {B : List Word}
    (hr : 2 ≤ radix ∧ radix ≤ 65536)
    (hK : K.length = 16 ∨ K.length = 24 ∨ K.length = 32) (hn : 2 ≤ n ∧ n ≤ 4096) (hi : i ≤ 255)
    (hT : T.length = 8) (hl : 1 ≤ B.length ∧ B.length ≤ 4096) (hB : Numerals radix B)
    (hx : numeralSum radix B.reverse < 256 ^ 12) :
    fFF3 P radix K n T i B =
      if (ff3Requests K T i (numeralSum radix B.reverse)).any P.fails = true then .error ⟨.aesFail, 0⟩
      else .ok (numeralsOf radix (halfLen ((n + 1) / 2) n i)
        (ff3Y P.E K T i (numeralSum radix B.reverse) % radix ^ halfLen ((n + 1) / 2) n i)) := by
  have hm : 1 ≤ halfLen ((n + 1) / 2) n i ∧ halfLen ((n + 1) / 2) n i ≤ 4096 := by unfold halfLen; split <;> omega
  have hB' : Numerals radix (rev B) := fun d hd => hB d (by simpa [rev] using hd)
  have hl' : 1 ≤ (rev B).length ∧ (rev B).length ≤ 4096 := by simpa [rev] using hl
  have hW := length_ff3W hT i
  have hx' : numeralSum radix (rev B) < 256 ^ 12 := hx
  simp only [fFF3, ff3P, require_of hT, except_ok_bind, numRadix_ok hr hl' hB',
    bytestring_nat_ok (by norm_num : 1 ≤ 12 ∧ 12 ≤ 4096) hx',
    bytestring_nat_ok (by norm_num : 1 ≤ 4 ∧ 4 ≤ 4096) (by omega : i < 256 ^ 4),
    xorStrings_ok (by simp [hW] : (ff3W T i).length = (bytesOf 4 i).length), except_pure]
  have hblock : rev (xorBytes (ff3W T i) (bytesOf 4 i) ++ bytesOf 12 (numeralSum radix (rev B))) =
      (ff3Block T i (numeralSum radix B.reverse)).reverse := rfl
  rw [hblock, ciph_block_eq (by simpa [rev] using hK) (by rw [← hblock]; simp [rev, hW])]
  simp only [ff3Requests, List.any_cons, List.any_nil, Bool.or_false]
  change (if P.fails ⟨.ecb, K.reverse, (ff3Block T i (numeralSum radix B.reverse)).reverse⟩ = true then _ else _) >>= _ = _
  split
  · rw [except_error_bind]
  · rw [except_ok_bind, num_ok (by simp [rev]), except_ok_bind, strRadix_ok hr hm (Int.natCast_nonneg _),
      Int.toNat_natCast]
    rfl

end Sys2Proof.Machine
end

