-- ==== Sys2Proof/Laws/Feistel.lean ====
section
/-!
SUPPORT. What one Feistel round of the network that the parameters describe answers, where no check inside it fails
(`Params.RoundsFit`) and the provider answers: the round that `Params.Round` states, encrypting and decrypting.
-/

namespace Sys2Proof.Machine

/-! ## Numeral strings -/

theorem Numerals.reverse {radix : Nat} {X : List Word} (h : Numerals radix X) : Numerals radix X.reverse :=
  fun d hd => h d (List.mem_reverse.mp hd)

theorem isNumerals_mod {radix : Nat} (hr : 2 ≤ radix ∧ radix ≤ 65536) (m x : Nat) :
    IsNumerals radix m (x % radix ^ m) (numeralsOf radix m (x % radix ^ m)) := by
  simpa using isNumerals_numeralsOf (by omega : 0 < radix) (by omega) m (x % radix ^ m)

theorem halfLen_bounds {l n i : Nat} (hn : 2 ≤ n) (hl : l = n / 2 ∨ l = (n + 1) / 2) :
    1 ≤ halfLen l n i ∧ halfLen l n i < n := by
  unfold halfLen
  split <;> omega

/-- Where no check inside the rounds fails, the split is in the middle, rounded down or up. -/
theorem Params.RoundsFit.split {p : Params} {n : Nat} {T : List Byte} (h : p.RoundsFit n T) :
    p.leftLen n = n / 2 ∨ p.leftLen n = (n + 1) / 2 := by
  have := h.1
  split at this <;> omega

theorem Params.splitAt_eq_leftLen (p : Params) (n : Nat) : p.splitAt n = p.leftLen n := by
  unfold Params.splitAt Params.leftLen splitLen
  split <;> simp_all

/-! ## The round function -/

/-- The selected round function (R202), where its checks hold and the provider answers. -/
theorem roundFunction_ok {p : Params} {P : Provider} {K T : List Byte} {n i : Nat} {B : List Word}
    (hP : ∀ q, P.fails q = false) (hu : AllHold p.usable) (hK : K.length = 16 ∨ K.length = 24 ∨ K.length = 32)
    (hT : T.length ≤ 4096) (hn : 2 ≤ n ∧ n ≤ 4096) (hf : p.RoundsFit n T) (hi : i ≤ 255)
    (hl : B.length = n - halfLen (p.leftLen n) n i) (hB : Numerals p.radix.toNat B) :
    roundFunction P p.rf p.radix.toNat p.tweakRadix.toNat K n T i B =
      .ok (numeralsOf p.radix.toNat (halfLen (p.leftLen n) n i)
        (p.roundValue P.E K n T i B % p.radix.toNat ^ halfLen (p.leftLen n) n i)) := by
  obtain ⟨-, -, hrf, -, -, hr, h2, -⟩ := hu
  obtain ⟨hleft, -, f1, f2, f3⟩ := hf
  have hr' : 2 ≤ p.radix.toNat ∧ p.radix.toNat ≤ 65536 := hr
  have hlt := numeralSum_lt hB
  have answers : ∀ qs : List AesRequest, qs.any P.fails = false := fun qs => by simp [hP]
  have hhalf : p.leftLen n = n / 2 → 1 ≤ B.length ∧ B.length ≤ 4096 ∧ B.length ≤ n - n / 2 := fun h => by
    rw [hl, h]; unfold halfLen; split <;> omega
  rcases hrf with h | h | h
  · have hs : p.leftLen n = n / 2 := by rw [hleft, if_neg (by omega)]
    obtain ⟨b1, b2, b3⟩ := hhalf hs
    have hx : numeralSum p.radix.toNat B < 256 ^ ff1Bytes p.radix.toNat n :=
      lt_ff1Bytes (hlt.trans_le (Nat.pow_le_pow_right (by omega) b3))
    rw [Params.roundValue, if_pos h, h, hs]
    simp only [roundFunction]
    rw [fFF1_eq hr' hK hn hi hT ⟨b1, b2⟩ hB hx, if_pos (f1 h), answers, if_neg Bool.false_ne_true]
  · obtain ⟨a, b, c, d, e, f⟩ := f2 h
    have hs : p.leftLen n = n / 2 := by rw [hleft, if_neg (by omega)]
    obtain ⟨b1, b2, b3⟩ := hhalf hs
    have hx : numeralSum p.radix.toNat B < 256 ^ 15 :=
      (hlt.trans_le (Nat.pow_le_pow_right (by omega) b3)).trans_le f
    rw [Params.roundValue, if_neg (by omega), if_pos h, h, hs]
    simp only [roundFunction]
    rw [fFF2_eq ⟨hr'.1, a⟩ (h2 h).2 hK ⟨hn.1, b⟩ hi c d e ⟨b1, b2⟩ hB hx, answers, if_neg Bool.false_ne_true]
  · obtain ⟨a, b⟩ := f3 h
    have hs : p.leftLen n = (n + 1) / 2 := by rw [hleft, if_pos h]
    have hBl : 1 ≤ B.length ∧ B.length ≤ 4096 ∧ B.length ≤ (n + 1) / 2 := by
      rw [hl, hs]; unfold halfLen; split <;> omega
    have hx : numeralSum p.radix.toNat B.reverse < 256 ^ 12 :=
      ((numeralSum_lt hB.reverse).trans_le (Nat.pow_le_pow_right (by omega) (by simpa using hBl.2.2))).trans_le b
    rw [Params.roundValue, if_neg (by omega), if_neg (by omega), h, hs]
    simp only [roundFunction]
    rw [fFF3_eq hr' hK hn hi a ⟨hBl.1, hBl.2.1⟩ hB hx, answers, if_neg Bool.false_ne_true]

/-! ## The arithmetic function -/

/-- The selected `Add` (R191, R194, R197) of the numerals of `y`: the new half. -/
theorem addBy_ok {p : Params} {y : Nat → List Word → Nat} {i : Nat} {A B : List Word}
    (har : p.arith = 1 ∨ p.arith = 2 ∨ p.arith = 3) (hr : 2 ≤ p.radix.toNat ∧ p.radix.toNat ≤ 65536)
    (hA : Numerals p.radix.toNat A) (hm : 1 ≤ A.length ∧ A.length ≤ 4096) :
    ∃ C, addBy p.arith p.radix.toNat A (numeralsOf p.radix.toNat A.length (y i B % p.radix.toNat ^ A.length)) = .ok C ∧
      p.Round y i A B C ∧ C.length = A.length ∧ Numerals p.radix.toNat C := by
  have hYn := isNumerals_mod hr A.length (y i B)
  generalize numeralsOf p.radix.toNat A.length (y i B % p.radix.toNat ^ A.length) = Y at *
  unfold Params.Round
  generalize p.radix.toNat = radix at *
  have hpos : 0 < radix := by omega
  have hchk : arithCheck A Y radix = .ok () := arithCheck_ok hr hYn.1.symm hm hA hYn.2.1
  have hval : ∀ a : Nat, ((a : Int) + numeralSum radix Y) % (radix ^ A.length : Nat) =
      ((a + y i B) % radix ^ A.length : Nat) := fun a => by
    rw [hYn.2.2]; push_cast; simp
  rcases har with h | h | h
  · have hb := (show addBy p.arith radix A Y = blockwise (fun a y => a + y) radix A Y by rw [h]; rfl).trans
      (blockwise_ok hchk)
    have hn := isNumerals_mod hr A.length (numeralSum radix A + y i B)
    rw [hval, Int.toNat_natCast] at hb
    refine ⟨_, hb, ?_, by simp, hn.2.1⟩
    simp only [if_pos h]
    exact hn
  · have hb := (show addBy p.arith radix A Y = reversedBlockwise (fun a y => a + y) radix A Y by rw [h]; rfl).trans
      (reversedBlockwise_ok hchk)
    have hn := isNumerals_mod hr A.length (numeralSum radix A.reverse + y i B)
    rw [hval, Int.toNat_natCast] at hb
    refine ⟨_, hb, ?_, by simp, hn.2.1.reverse⟩
    simp only [if_neg (by omega : ¬ p.arith = 1), if_pos h, List.reverse_reverse]
    exact hn
  · have hb : addBy p.arith radix A Y =
        .ok (List.zipWith (fun a y : Word => BitVec.ofNat 32 (((a.toNat : Int) + y.toNat) % radix).toNat) A Y) := by
      rw [h]; simp [addBy, addChr, characterwise, hchk]
    have hchar : ∀ a b : Word, (BitVec.ofNat 32 (((a.toNat : Int) + b.toNat) % radix).toNat).toNat =
        (a.toNat + b.toNat) % radix := fun a b => by
      have hlt := Nat.mod_lt (a.toNat + b.toNat) hpos
      rw [← Int.natCast_add, ← Int.natCast_mod, Int.toNat_natCast, BitVec.toNat_ofNat, Nat.mod_eq_of_lt (by omega)]
    refine ⟨_, hb, ?_, by simp [hYn.1], ?_⟩
    · simp only [if_neg (by omega : ¬ p.arith = 1), if_neg (by omega : ¬ p.arith = 2)]
      exact ⟨by simp [hYn.1], Y, hYn, fun j a b ha hb' => ⟨_, by simp [List.getElem?_zipWith, ha, hb'], hchar a b⟩⟩
    · intro d hd
      obtain ⟨k, hk, rfl⟩ := List.mem_iff_getElem.mp hd
      rw [List.getElem_zipWith, hchar]
      exact Nat.mod_lt _ hpos

/-- `c - y` modulo `M` is the one value below `M` to which adding `y` gives `c`. -/
theorem exists_sub_mod {c y M : Nat} (hc : c < M) :
    ∃ a : Nat, ((c : Int) - (y % M : Nat)) % M = a ∧ a < M ∧ (a + y) % M = c := by
  have hM : (M : Int) ≠ 0 := by omega
  have h0 := Int.emod_nonneg ((c : Int) - (y % M : Nat)) hM
  have h1 := Int.emod_lt_of_pos ((c : Int) - (y % M : Nat)) (by omega : (0 : Int) < M)
  refine ⟨(((c : Int) - (y % M : Nat)) % M).toNat, (Int.toNat_of_nonneg h0).symm, by omega, ?_⟩
  have h : ((((((c : Int) - (y % M : Nat)) % M).toNat + y : Nat) : Int)) % M = c := by
    push_cast
    rw [Int.toNat_of_nonneg (by exact_mod_cast h0), Int.emod_add_emod,
      show (c : Int) - (y : Int) % M + y = c + M * ((y : Int) / M) by
        have := Int.emod_add_mul_ediv (y : Int) M
        linarith,
      Int.add_mul_emod_self_left]
    exact Int.emod_eq_of_lt (by omega) (by omega)
  exact_mod_cast h

/-- The selected `Sub` (R191, R194, R197) of the numerals of `y`: the half from which the round made `C`. -/
theorem subBy_ok {p : Params} {y : Nat → List Word → Nat} {i : Nat} {C B : List Word}
    (har : p.arith = 1 ∨ p.arith = 2 ∨ p.arith = 3) (hr : 2 ≤ p.radix.toNat ∧ p.radix.toNat ≤ 65536)
    (hC : Numerals p.radix.toNat C) (hm : 1 ≤ C.length ∧ C.length ≤ 4096) :
    ∃ A, subBy p.arith p.radix.toNat C (numeralsOf p.radix.toNat C.length (y i B % p.radix.toNat ^ C.length)) = .ok A ∧
      p.Round y i A B C ∧ A.length = C.length ∧ Numerals p.radix.toNat A := by
  have hYn := isNumerals_mod hr C.length (y i B)
  generalize numeralsOf p.radix.toNat C.length (y i B % p.radix.toNat ^ C.length) = Y at *
  unfold Params.Round
  generalize p.radix.toNat = radix at *
  have hpos : 0 < radix := by omega
  have hchk : arithCheck C Y radix = .ok () := arithCheck_ok hr hYn.1.symm hm hC hYn.2.1
  rcases har with h | h | h
  · have hb := (show subBy p.arith radix C Y = blockwise (fun a y => a - y) radix C Y by rw [h]; rfl).trans
      (blockwise_ok hchk)
    obtain ⟨a, ea, ha, hab⟩ := exists_sub_mod (y := y i B) (numeralSum_lt hC)
    simp only [hYn.2.2, ea, Int.toNat_natCast] at hb
    have hn := isNumerals_mod hr C.length a
    rw [Nat.mod_eq_of_lt ha] at hn
    refine ⟨_, hb, ?_, by simp, hn.2.1⟩
    simp only [if_pos h, length_numeralsOf, hn.2.2, hab]
    exact ⟨rfl, hC, rfl⟩
  · have hb := (show subBy p.arith radix C Y = reversedBlockwise (fun a y => a - y) radix C Y by rw [h]; rfl).trans
      (reversedBlockwise_ok hchk)
    obtain ⟨a, ea, ha, hab⟩ := exists_sub_mod (y := y i B) (numeralSum_lt hC.reverse)
    rw [List.length_reverse] at ea ha hab
    simp only [hYn.2.2, ea, Int.toNat_natCast] at hb
    have hn := isNumerals_mod hr C.length a
    rw [Nat.mod_eq_of_lt ha] at hn
    refine ⟨_, hb, ?_, by simp, hn.2.1.reverse⟩
    simp only [if_neg (by omega : ¬ p.arith = 1), if_pos h, List.length_reverse, length_numeralsOf,
      List.reverse_reverse, hn.2.2, hab]
    exact ⟨List.length_reverse, hC.reverse, rfl⟩
  · have hb : subBy p.arith radix C Y =
        .ok (List.zipWith (fun a y : Word => BitVec.ofNat 32 (((a.toNat : Int) - y.toNat) % radix).toNat) C Y) := by
      rw [h]; simp [subBy, subChr, characterwise, hchk]
    have hchar : ∀ a b : Word, ((BitVec.ofNat 32 (((a.toNat : Int) - b.toNat) % radix).toNat).toNat : Int) =
        ((a.toNat : Int) - b.toNat) % radix := fun a b => by
      have h1 := Int.emod_nonneg ((a.toNat : Int) - b.toNat) (by omega : (radix : Int) ≠ 0)
      have h2 := Int.emod_lt_of_pos ((a.toNat : Int) - b.toNat) (by omega : (0 : Int) < radix)
      rw [BitVec.toNat_ofNat, Nat.mod_eq_of_lt (by omega), Int.toNat_of_nonneg h1]
    refine ⟨_, hb, ?_, by simp [hYn.1], ?_⟩
    · simp only [if_neg (by omega : ¬ p.arith = 1), if_neg (by omega : ¬ p.arith = 2)]
      refine ⟨by simp [hYn.1], Y, by simpa [hYn.1] using hYn, fun j a b ha hb' => ?_⟩
      rw [List.getElem?_zipWith] at ha
      rcases hc : C[j]? with _ | c
      · simp [hc] at ha
      · rw [hc, hb'] at ha
        simp only [Option.some.injEq] at ha
        have hcr := hC c (List.mem_of_getElem? hc)
        have hcb := hchar c b
        rw [ha] at hcb
        refine ⟨c, rfl, ?_⟩
        zify
        rw [hcb]
        simp [Int.emod_eq_of_lt, hcr]
    · intro d hd
      obtain ⟨k, hk, rfl⟩ := List.mem_iff_getElem.mp hd
      rw [List.getElem_zipWith]
      generalize C[k]'_ = c
      generalize Y[k]'_ = b
      have h1 := hchar c b
      have h2 := Int.emod_lt_of_pos ((c.toNat : Int) - b.toNat) (by omega : (0 : Int) < radix)
      omega

/-! ## One round -/

/-- Encrypting: `Add(A, F(K, n, T, i, B))`. -/
theorem Params.encryptRound_ok {p : Params} {P : Provider} {K T : List Byte} {n i : Nat} {A B : List Word}
    (hP : ∀ q, P.fails q = false) (hu : AllHold p.usable) (hK : K.length = 16 ∨ K.length = 24 ∨ K.length = 32)
    (hT : T.length ≤ 4096) (hn : 2 ≤ n ∧ n ≤ 4096) (hf : p.RoundsFit n T) (hi : i ≤ 255)
    (hA : A.length = halfLen (p.leftLen n) n i) (hB : B.length = n - halfLen (p.leftLen n) n i)
    (nA : Numerals p.radix.toNat A) (nB : Numerals p.radix.toNat B) :
    ∃ C, ((p.network P K T n).F i B >>= fun y => (p.network P K T n).add A y) = .ok C ∧
      p.Round (p.roundValue P.E K n T) i A B C ∧ C.length = A.length ∧ Numerals p.radix.toNat C := by
  have hF := roundFunction_ok hP hu hK hT hn hf hi hB nB
  have hm := halfLen_bounds (i := i) hn.1 hf.split
  simp only [Params.network]
  rw [hF, except_ok_bind, ← hA]
  exact addBy_ok hu.2.1 hu.2.2.2.2.2.1 nA (by omega)

/-- Decrypting: `Sub(C, F(K, n, T, i, B))`. -/
theorem Params.decryptRound_ok {p : Params} {P : Provider} {K T : List Byte} {n i : Nat} {C B : List Word}
    (hP : ∀ q, P.fails q = false) (hu : AllHold p.usable) (hK : K.length = 16 ∨ K.length = 24 ∨ K.length = 32)
    (hT : T.length ≤ 4096) (hn : 2 ≤ n ∧ n ≤ 4096) (hf : p.RoundsFit n T) (hi : i ≤ 255)
    (hC : C.length = halfLen (p.leftLen n) n i) (hB : B.length = n - halfLen (p.leftLen n) n i)
    (nC : Numerals p.radix.toNat C) (nB : Numerals p.radix.toNat B) :
    ∃ A, ((p.network P K T n).F i B >>= fun y => (p.network P K T n).sub C y) = .ok A ∧
      p.Round (p.roundValue P.E K n T) i A B C ∧ A.length = C.length ∧ Numerals p.radix.toNat A := by
  have hF := roundFunction_ok hP hu hK hT hn hf hi hB nB
  have hm := halfLen_bounds (i := i) hn.1 hf.split
  simp only [Params.network]
  rw [hF, except_ok_bind, ← hC]
  exact subBy_ok hu.2.1 hu.2.2.2.2.2.1 nC (by omega)

end Sys2Proof.Machine
end

