-- ==== Sys2Proof/Laws/PerInstr.lean ====
section
/-!
SUPPORT. Per-instruction lemmas. `EncodingWellFormed`: the fields of a command's word are the command's fields, and they
pass the three checks of R113.
-/

namespace Sys2Proof.Laws

/-- The word of a command has the command's fields, and they are well-formed. -/
def EncodingWellFormed.Statement (i : Instr) : Prop :=
  fieldsOfWord (encode i) = fieldsOf i ∧ (fieldsOf i).wellFormed = true

theorem EncodingWellFormed.nop : EncodingWellFormed.Statement .nop := by
  exact ⟨rfl, rfl⟩

theorem EncodingWellFormed.clr : EncodingWellFormed.Statement .clr := by
  exact ⟨rfl, rfl⟩

theorem EncodingWellFormed.wipe : EncodingWellFormed.Statement .wipe := by
  exact ⟨rfl, rfl⟩

theorem EncodingWellFormed.num (rd ra : Reg) : EncodingWellFormed.Statement (.num rd ra) := by
  cases rd <;> cases ra <;> exact ⟨rfl, rfl⟩

theorem EncodingWellFormed.numr (rd ra : Reg) : EncodingWellFormed.Statement (.numr rd ra) := by
  cases rd <;> cases ra <;> exact ⟨rfl, rfl⟩

theorem EncodingWellFormed.str (rd ra : Reg) : EncodingWellFormed.Statement (.str rd ra) := by
  cases rd <;> cases ra <;> exact ⟨rfl, rfl⟩

theorem EncodingWellFormed.bytestr (rd ra : Reg) : EncodingWellFormed.Statement (.bytestr rd ra) := by
  cases rd <;> cases ra <;> exact ⟨rfl, rfl⟩

theorem EncodingWellFormed.bytestri (rd : Reg) : EncodingWellFormed.Statement (.bytestri rd) := by
  cases rd <;> exact ⟨rfl, rfl⟩

theorem EncodingWellFormed.bitstr (rd : Reg) : EncodingWellFormed.Statement (.bitstr rd) := by
  cases rd <;> exact ⟨rfl, rfl⟩

theorem EncodingWellFormed.catb (rd ra rb : Reg) : EncodingWellFormed.Statement (.catb rd ra rb) := by
  cases rd <;> cases ra <;> cases rb <;> exact ⟨rfl, rfl⟩

theorem EncodingWellFormed.catn (rd ra rb : Reg) : EncodingWellFormed.Statement (.catn rd ra rb) := by
  cases rd <;> cases ra <;> cases rb <;> exact ⟨rfl, rfl⟩

theorem EncodingWellFormed.xorb (rd ra rb : Reg) : EncodingWellFormed.Statement (.xorb rd ra rb) := by
  cases rd <;> cases ra <;> cases rb <;> exact ⟨rfl, rfl⟩

theorem EncodingWellFormed.rev (rd ra : Reg) : EncodingWellFormed.Statement (.rev rd ra) := by
  cases rd <;> cases ra <;> exact ⟨rfl, rfl⟩

theorem EncodingWellFormed.revb (rd ra : Reg) : EncodingWellFormed.Statement (.revb rd ra) := by
  cases rd <;> cases ra <;> exact ⟨rfl, rfl⟩

theorem EncodingWellFormed.mod (rd ra rb : Reg) : EncodingWellFormed.Statement (.mod rd ra rb) := by
  cases rd <;> cases ra <;> cases rb <;> exact ⟨rfl, rfl⟩

theorem EncodingWellFormed.powr (rd : Reg) : EncodingWellFormed.Statement (.powr rd) := by
  cases rd <;> exact ⟨rfl, rfl⟩

theorem EncodingWellFormed.bnadd (rd ra rb : Reg) : EncodingWellFormed.Statement (.bnadd rd ra rb) := by
  cases rd <;> cases ra <;> cases rb <;> exact ⟨rfl, rfl⟩

theorem EncodingWellFormed.bnsub (rd ra rb : Reg) : EncodingWellFormed.Statement (.bnsub rd ra rb) := by
  cases rd <;> cases ra <;> cases rb <;> exact ⟨rfl, rfl⟩

theorem EncodingWellFormed.ciph (rd ra rb : Reg) : EncodingWellFormed.Statement (.ciph rd ra rb) := by
  cases rd <;> cases ra <;> cases rb <;> exact ⟨rfl, rfl⟩

theorem EncodingWellFormed.prf (rd ra rb : Reg) : EncodingWellFormed.Statement (.prf rd ra rb) := by
  cases rd <;> cases ra <;> cases rb <;> exact ⟨rfl, rfl⟩

theorem EncodingWellFormed.prf2 (rd ra rb : Reg) : EncodingWellFormed.Statement (.prf2 rd ra rb) := by
  cases rd <;> cases ra <;> cases rb <;> exact ⟨rfl, rfl⟩

theorem EncodingWellFormed.off1 (rd ra rb : Reg) : EncodingWellFormed.Statement (.off1 rd ra rb) := by
  cases rd <;> cases ra <;> cases rb <;> exact ⟨rfl, rfl⟩

theorem EncodingWellFormed.off2 (rd ra rb : Reg) : EncodingWellFormed.Statement (.off2 rd ra rb) := by
  cases rd <;> cases ra <;> cases rb <;> exact ⟨rfl, rfl⟩

theorem EncodingWellFormed.addblk (rd ra rb : Reg) : EncodingWellFormed.Statement (.addblk rd ra rb) := by
  cases rd <;> cases ra <;> cases rb <;> exact ⟨rfl, rfl⟩

theorem EncodingWellFormed.subblk (rd ra rb : Reg) : EncodingWellFormed.Statement (.subblk rd ra rb) := by
  cases rd <;> cases ra <;> cases rb <;> exact ⟨rfl, rfl⟩

theorem EncodingWellFormed.addrev (rd ra rb : Reg) : EncodingWellFormed.Statement (.addrev rd ra rb) := by
  cases rd <;> cases ra <;> cases rb <;> exact ⟨rfl, rfl⟩

theorem EncodingWellFormed.subrev (rd ra rb : Reg) : EncodingWellFormed.Statement (.subrev rd ra rb) := by
  cases rd <;> cases ra <;> cases rb <;> exact ⟨rfl, rfl⟩

theorem EncodingWellFormed.addchr (rd ra rb : Reg) : EncodingWellFormed.Statement (.addchr rd ra rb) := by
  cases rd <;> cases ra <;> cases rb <;> exact ⟨rfl, rfl⟩

theorem EncodingWellFormed.subchr (rd ra rb : Reg) : EncodingWellFormed.Statement (.subchr rd ra rb) := by
  cases rd <;> cases ra <;> cases rb <;> exact ⟨rfl, rfl⟩

theorem EncodingWellFormed.split : EncodingWellFormed.Statement .split := by
  exact ⟨rfl, rfl⟩

theorem EncodingWellFormed.rnds : EncodingWellFormed.Statement .rnds := by
  exact ⟨rfl, rfl⟩

theorem EncodingWellFormed.frnd (rd ra : Reg) : EncodingWellFormed.Statement (.frnd rd ra) := by
  cases rd <;> cases ra <;> exact ⟨rfl, rfl⟩

theorem EncodingWellFormed.f1rnd (rd ra : Reg) : EncodingWellFormed.Statement (.f1rnd rd ra) := by
  cases rd <;> cases ra <;> exact ⟨rfl, rfl⟩

theorem EncodingWellFormed.f2rnd (rd ra : Reg) : EncodingWellFormed.Statement (.f2rnd rd ra) := by
  cases rd <;> cases ra <;> exact ⟨rfl, rfl⟩

theorem EncodingWellFormed.f3rnd (rd ra : Reg) : EncodingWellFormed.Statement (.f3rnd rd ra) := by
  cases rd <;> cases ra <;> exact ⟨rfl, rfl⟩

theorem EncodingWellFormed.ldff1 : EncodingWellFormed.Statement .ldff1 := by
  exact ⟨rfl, rfl⟩

theorem EncodingWellFormed.ldff2 : EncodingWellFormed.Statement .ldff2 := by
  exact ⟨rfl, rfl⟩

theorem EncodingWellFormed.ldff3 : EncodingWellFormed.Statement .ldff3 := by
  exact ⟨rfl, rfl⟩

theorem EncodingWellFormed.enc (rd ra : Reg) : EncodingWellFormed.Statement (.enc rd ra) := by
  cases rd <;> cases ra <;> exact ⟨rfl, rfl⟩

theorem EncodingWellFormed.dec (rd ra : Reg) : EncodingWellFormed.Statement (.dec rd ra) := by
  cases rd <;> cases ra <;> exact ⟨rfl, rfl⟩

theorem EncodingWellFormed.ff1enc (rd ra : Reg) : EncodingWellFormed.Statement (.ff1enc rd ra) := by
  cases rd <;> cases ra <;> exact ⟨rfl, rfl⟩

theorem EncodingWellFormed.ff1dec (rd ra : Reg) : EncodingWellFormed.Statement (.ff1dec rd ra) := by
  cases rd <;> cases ra <;> exact ⟨rfl, rfl⟩

theorem EncodingWellFormed.ff2enc (rd ra : Reg) : EncodingWellFormed.Statement (.ff2enc rd ra) := by
  cases rd <;> cases ra <;> exact ⟨rfl, rfl⟩

theorem EncodingWellFormed.ff2dec (rd ra : Reg) : EncodingWellFormed.Statement (.ff2dec rd ra) := by
  cases rd <;> cases ra <;> exact ⟨rfl, rfl⟩

end Sys2Proof.Laws
end

