-- ==== Sys2Proof/Tests/Slice0.lean ====
section
/-!
SUPPORT. Tests. Expected values come from the spec's rules and from its test vectors (95), never from the model.
-/

namespace Sys2Proof.Tests

open Sys2Proof.Machine

set_option Elab.async false

/-! ## Well-formed command words: a word that each check refuses (R113) -/

theorem test_zero_field_refused : (fieldsOfWord 0x00004000).zeroOk = false := by decide

theorem test_illegal_opcode_refused : (fieldsOfWord 0x00000003).opcodeOk = false := by decide

theorem test_unused_field_refused : (fieldsOfWord 0x00000100).unusedOk = false := by decide

theorem test_unused_rb_refused : (fieldsOfWord 0x00001010).unusedOk = false := by decide

theorem test_none_of_them_well_formed :
    (fieldsOfWord 0x00004000).wellFormed = false ∧ (fieldsOfWord 0x00000003).wellFormed = false ∧
      (fieldsOfWord 0x00000100).wellFormed = false := by decide

/-- R116: every opcode that R115 does not list is illegal. -/
theorem test_illegal_opcodes :
    (List.range 256).filter (fun n => (shapeOf (BitVec.ofNat 8 n)).isNone) =
      List.range' 0x03 13 ++ List.range' 0x1F 17 ++ List.range' 0x35 11 ++ [0x46, 0x47] ++ List.range' 0x4A 6 ++
        List.range' 0x54 12 ++ List.range' 0x63 13 ++ List.range' 0x76 138 := by decide +kernel

/-- R113: the zero field is checked before the opcode, the opcode before the unused fields. -/
theorem test_decode_order :
    decode 0x00004003 = .error .reservedBits ∧ decode 0x00000103 = .error (.illegalOpcode 0x03) ∧
      decode 0x00000100 = .error .reservedBits := ⟨rfl, rfl, rfl⟩

/-! ## Every command's word, written out from R115 with `rd = 1`, `ra = 2`, `rb = 3` in the fields it uses -/

theorem test_decode_system :
    decode 0x00000000 = .ok .nop ∧
      decode 0x00000001 = .ok .clr ∧
      decode 0x00000002 = .ok .wipe :=
  ⟨rfl, rfl, rfl⟩

theorem test_decode_primitives :
    decode 0x00000910 = .ok (.num .r1 .r2) ∧
      decode 0x00000911 = .ok (.numr .r1 .r2) ∧
      decode 0x00000912 = .ok (.str .r1 .r2) ∧
      decode 0x00000913 = .ok (.bytestr .r1 .r2) ∧
      decode 0x00000114 = .ok (.bytestri .r1) ∧
      decode 0x00000115 = .ok (.bitstr .r1) ∧
      decode 0x00003916 = .ok (.catb .r1 .r2 .r3) ∧
      decode 0x00003917 = .ok (.catn .r1 .r2 .r3) ∧
      decode 0x00003918 = .ok (.xorb .r1 .r2 .r3) ∧
      decode 0x00000919 = .ok (.rev .r1 .r2) ∧
      decode 0x0000091A = .ok (.revb .r1 .r2) ∧
      decode 0x0000391B = .ok (.mod .r1 .r2 .r3) ∧
      decode 0x0000011C = .ok (.powr .r1) ∧
      decode 0x0000391D = .ok (.bnadd .r1 .r2 .r3) ∧
      decode 0x0000391E = .ok (.bnsub .r1 .r2 .r3) :=
  ⟨rfl, rfl, rfl, rfl, rfl, rfl, rfl, rfl, rfl, rfl, rfl, rfl, rfl, rfl, rfl⟩

theorem test_decode_adapter_and_offset :
    decode 0x00003930 = .ok (.ciph .r1 .r2 .r3) ∧
      decode 0x00003931 = .ok (.prf .r1 .r2 .r3) ∧
      decode 0x00003932 = .ok (.prf2 .r1 .r2 .r3) ∧
      decode 0x00003933 = .ok (.off1 .r1 .r2 .r3) ∧
      decode 0x00003934 = .ok (.off2 .r1 .r2 .r3) :=
  ⟨rfl, rfl, rfl, rfl, rfl⟩

theorem test_decode_arithmetic :
    decode 0x00003940 = .ok (.addblk .r1 .r2 .r3) ∧
      decode 0x00003941 = .ok (.subblk .r1 .r2 .r3) ∧
      decode 0x00003942 = .ok (.addrev .r1 .r2 .r3) ∧
      decode 0x00003943 = .ok (.subrev .r1 .r2 .r3) ∧
      decode 0x00003944 = .ok (.addchr .r1 .r2 .r3) ∧
      decode 0x00003945 = .ok (.subchr .r1 .r2 .r3) ∧
      decode 0x00000048 = .ok .split ∧
      decode 0x00000049 = .ok .rnds :=
  ⟨rfl, rfl, rfl, rfl, rfl, rfl, rfl, rfl⟩

theorem test_decode_rounds_and_loads :
    decode 0x00000950 = .ok (.frnd .r1 .r2) ∧
      decode 0x00000951 = .ok (.f1rnd .r1 .r2) ∧
      decode 0x00000952 = .ok (.f2rnd .r1 .r2) ∧
      decode 0x00000953 = .ok (.f3rnd .r1 .r2) ∧
      decode 0x00000060 = .ok .ldff1 ∧
      decode 0x00000061 = .ok .ldff2 ∧
      decode 0x00000062 = .ok .ldff3 :=
  ⟨rfl, rfl, rfl, rfl, rfl, rfl, rfl⟩

theorem test_decode_ciphers :
    decode 0x00000970 = .ok (.enc .r1 .r2) ∧
      decode 0x00000971 = .ok (.dec .r1 .r2) ∧
      decode 0x00000972 = .ok (.ff1enc .r1 .r2) ∧
      decode 0x00000973 = .ok (.ff1dec .r1 .r2) ∧
      decode 0x00000974 = .ok (.ff2enc .r1 .r2) ∧
      decode 0x00000975 = .ok (.ff2dec .r1 .r2) :=
  ⟨rfl, rfl, rfl, rfl, rfl, rfl⟩

/-! ## One small test or two per command. Expected values: the rows of 95 named in the comments -/

/-- A present numeral string, a present byte string, a present integer, from plain numbers. -/
def nsOf (ds : List Nat) : StrReg Word := StrReg.ofList (ds.map (BitVec.ofNat 32))

def bsOf (ds : List Nat) : StrReg Byte := StrReg.ofList (ds.map (BitVec.ofNat 8))

def bnOf (x : Int) : BnReg := { present := true, value := x }

/-- Reset, with the sources 2 and 3 of one file loaded. -/
def withNs (a b : List Nat) : State :=
  { State.reset with ns := State.reset.ns.set .r2 (nsOf a) |>.set .r3 (nsOf b) }

def withBs (a b : List Nat) : State :=
  { State.reset with bs := State.reset.bs.set .r2 (bsOf a) |>.set .r3 (bsOf b) }

def withBn (a b : Int) : State :=
  { State.reset with bn := State.reset.bn.set .r2 (bnOf a) |>.set .r3 (bnOf b) }

def withArgs (s : State) (a b : Word) : State := { s with arg0 := a, arg1 := b }

def withParams (s : State) (p : Params) : State := { s with params := p }

/-- Key, tweak and the numeral string 2. -/
def withOperands (k t x : List Nat) : State :=
  { State.reset with
    bs := State.reset.bs.set .r0 (bsOf k) |>.set .r1 (bsOf t)
    ns := State.reset.ns.set .r2 (nsOf x) }

/-- The state after a command. -/
def runOf (i : Instr) (s : State) : State :=
  match exec i s with
  | .next t => t
  | _ => s

/-- What a command that completes leaves in a register 1: the elements, or the value. -/
def nsOut (i : Instr) (s : State) : Option (List Nat) :=
  if (runOf i s).phase = .done then some (((runOf i s).nsVal .r1).map BitVec.toNat) else none

def bsOut (i : Instr) (s : State) : Option (List Nat) :=
  if (runOf i s).phase = .done then some (((runOf i s).bsVal .r1).map BitVec.toNat) else none

def bnOut (i : Instr) (s : State) : Option Int :=
  if (runOf i s).phase = .done then some ((runOf i s).bn.get .r1).value else none

/-- `ECAUSE` and `ERRINFO` of a command that ends in ERROR. -/
def errOut (i : Instr) (s : State) : Option (Nat × Nat) :=
  if (runOf i s).phase = .error then some ((runOf i s).ecause.toNat, (runOf i s).errinfo.toNat) else none

def k128 : List Nat :=
  [0x2B, 0x7E, 0x15, 0x16, 0x28, 0xAE, 0xD2, 0xA6, 0xAB, 0xF7, 0x15, 0x88, 0x09, 0xCF, 0x4F, 0x3C]

def k3 : List Nat :=
  [0xEF, 0x43, 0x59, 0xD8, 0xD5, 0x80, 0xAA, 0x4F, 0x7F, 0x03, 0x6D, 0x6F, 0x04, 0xFC, 0x6A, 0x94]

def t3 : List Nat := [0xD8, 0xE7, 0x92, 0x0A, 0xFA, 0x33, 0x0A, 0x73]

def tweakA : List Nat := [9, 8, 7, 6, 5, 4, 3, 2, 1, 0]

def digits : List Nat := [0, 1, 2, 3, 4, 5, 6, 7, 8, 9]

def ka : List Nat := [0, 1, 2, 3, 4, 5, 6, 7, 8, 9, 10, 11, 12, 13, 14, 15]

def xa : List Nat :=
  [0x00, 0x11, 0x22, 0x33, 0x44, 0x55, 0x66, 0x77, 0x88, 0x99, 0xAA, 0xBB, 0xCC, 0xDD, 0xEE, 0xFF]

def zeroBlock : List Nat := List.replicate 16 0

/-- 95, 5.1: `STATUS = 0x00000002` after NOP. -/
theorem test_nop : (runOf .nop State.reset).statusWord = 0x00000002 := by decide +kernel

/-- CLR from the ERROR that a NUM of an absent register enters (R297): `0x00010000`; `ERRLOG` keeps class 1. -/
theorem test_clr :
    (runOf .clr (State.accept (runOf (.num .r1 .r2) State.reset) 0x01 0)).statusWord = 0x00010000 ∧
      (runOf .clr (State.accept (runOf (.num .r1 .r2) State.reset) 0x01 0)).errlog = 0x2 := by decide +kernel

theorem test_wipe :
    (runOf .wipe (State.accept (withNs [1, 2] [3]) 0x02 0)).statusWord = 0x00020000 ∧
      (runOf .wipe (withNs [1, 2] [3])).presentWord = 0 ∧
      (runOf .wipe (withNs [1, 2] [3])).readAnswer 0x18000 = ⟨.ok, some 0⟩ := by decide +kernel

/-- P1, P3, P4. -/
theorem test_num : bnOut (.num .r1 .r2) (withBs [0x00, 0xDD, 0xD5] []) = some 56789 := by decide +kernel

theorem test_num_errors :
    errOut (.num .r1 .r3) (withBs [1] []) = some (0x15, 0) ∧ errOut (.num .r1 .r0) (withBs [1] []) = some (0x03, 0) := by
  decide +kernel

/-- P6, P7. -/
theorem test_numr :
    bnOut (.numr .r1 .r2) (withArgs (withNs [65535, 65535] []) 65536 0) = some 4294967295 := by decide +kernel

theorem test_numr_range :
    errOut (.numr .r1 .r2) (withArgs (withNs [1, 2, 10, 4] []) 10 0) = some (0x20, 2) := by decide +kernel

/-- P11, P12. -/
theorem test_str_pads : nsOut (.str .r1 .r2) (withArgs (withBn 56789 0) 10 7) = some [0, 0, 5, 6, 7, 8, 9] := by
  decide +kernel

theorem test_str_truncates : nsOut (.str .r1 .r2) (withArgs (withBn 56789 0) 10 3) = some [7, 8, 9] := by
  decide +kernel

/-- P17, P18. -/
theorem test_bytestr : bsOut (.bytestr .r1 .r2) (withArgs (withBn 56789 0) 3 0) = some [0x00, 0xDD, 0xD5] := by
  decide +kernel

theorem test_bytestr_range : errOut (.bytestr .r1 .r2) (withArgs (withBn 56789 0) 1 0) = some (0x17, 0) := by
  decide +kernel

/-- P21, P22. -/
theorem test_bytestri : bsOut (.bytestri .r1) (withArgs State.reset 4 10) = some [0, 0, 0, 0x0A] := by decide +kernel

theorem test_bytestri_range : errOut (.bytestri .r1) (withArgs State.reset 1 256) = some (0x17, 0) := by decide +kernel

/-- P25, P26. -/
theorem test_bitstr : bsOut (.bitstr .r1) (withArgs State.reset 16 1) = some [0xFF, 0xFF] := by decide +kernel

theorem test_bitstr_range : errOut (.bitstr .r1) (withArgs State.reset 12 1) = some (0x16, 0) := by decide +kernel

/-- P27, P28. -/
theorem test_catb :
    bsOut (.catb .r1 .r2 .r3) (withBs [1, 2] [3]) = some [1, 2, 3] ∧
      bsOut (.catb .r1 .r2 .r3) (withBs [] [0xAA]) = some [0xAA] := by decide +kernel

/-- P30. -/
theorem test_catn :
    nsOut (.catn .r1 .r2 .r3) (withNs [2, 4, 3, 3, 4] [7, 7, 4, 8, 4]) = some [2, 4, 3, 3, 4, 7, 7, 4, 8, 4] := by
  decide +kernel

/-- P31, P32. -/
theorem test_xorb :
    bsOut (.xorb .r1 .r2 .r3) (withBs [0xC3, 0xB8] [0x00, 0x01]) = some [0xC3, 0xB9] ∧
      errOut (.xorb .r1 .r2 .r3) (withBs [1, 2] [1, 2, 3]) = some (0x15, 0) := by decide +kernel

/-- P33, P34. -/
theorem test_rev :
    nsOut (.rev .r1 .r2) (withNs [1, 2, 3] []) = some [3, 2, 1] ∧ nsOut (.rev .r1 .r3) (withNs [1] []) = some [] := by
  decide +kernel

theorem test_revb : bsOut (.revb .r1 .r2) (withBs [0xEF, 0x43, 0x59, 0xD8] []) = some [0xD8, 0x59, 0x43, 0xEF] := by
  decide +kernel

/-- P36, P37. -/
theorem test_mod :
    bnOut (.mod .r1 .r2 .r3) (withBn (-7) 16) = some 9 ∧ bnOut (.mod .r1 .r2 .r3) (withBn (-32) 16) = some 0 := by
  decide +kernel

theorem test_mod_zero : errOut (.mod .r1 .r2 .r3) (withBn 7 (-5)) = some (0x22, 0) := by decide +kernel

/-- P38, P40. -/
theorem test_powr :
    bnOut (.powr .r1) (withArgs State.reset 10 5) = some 100000 ∧
      errOut (.powr .r1) (withArgs State.reset 10 4097) = some (0x16, 0) := by decide +kernel

/-- P41, P43. -/
theorem test_bnadd : bnOut (.bnadd .r1 .r2 .r3) (withBn 1234 60536) = some 61770 := by decide +kernel

theorem test_bnadd_overflow :
    errOut (.bnadd .r1 .r2 .r3) (withBn (2 ^ 65599) (2 ^ 65599)) = some (0x19, 0) := by decide +kernel

/-- P42. -/
theorem test_bnsub :
    bnOut (.bnsub .r1 .r2 .r3) (withBn 5 12) = some (-7) ∧
      ((runOf (.bnsub .r1 .r2 .r3) (withBn 5 12)).bn.get .r1).infoWord = 0x80000003 := by decide +kernel

/-- A1, A13. -/
theorem test_ciph :
    bsOut (.ciph .r1 .r2 .r3) (withBs ka xa) =
      some [0x69, 0xC4, 0xE0, 0xD8, 0x6A, 0x7B, 0x04, 0x30, 0xD8, 0xCD, 0xB7, 0x80, 0x70, 0xB4, 0xC5, 0x5A] := by
  decide +kernel

/-- R9: the machine runs with another `E`, here one whose only listed value is not AES's. -/
theorem test_ciph_other_cipher :
    bsOut (.ciph .r1 .r2 .r3)
        { withBs ka xa with
          cfg := { Config.standard with
            cipher := { rest := .other 0
                        known := [⟨ka.map (BitVec.ofNat 8), 0x00112233445566778899AABBCCDDEEFF, 7⟩] } } } =
      some (List.replicate 15 0 ++ [7]) := by decide +kernel

theorem test_ciph_key_first :
    errOut (.ciph .r1 .r2 .r3) (withBs (List.replicate 20 0) (List.replicate 17 0)) = some (0x10, 0) := by
  decide +kernel

/-- A7, A8. -/
theorem test_prf :
    bsOut (.prf .r1 .r2 .r3) (withBs ka (xa ++ zeroBlock)) =
      some [0x4F, 0x63, 0x8C, 0x73, 0x5F, 0x61, 0x43, 0x01, 0x56, 0x78, 0x24, 0xB1, 0xA2, 0x1A, 0x4F, 0x6A] := by
  decide +kernel

theorem test_prf2 :
    bsOut (.prf2 .r1 .r2 .r3) (withBs ka (xa ++ zeroBlock)) =
      some [0x4F, 0x63, 0x8C, 0x73, 0x5F, 0x61, 0x43, 0x01, 0x56, 0x78, 0x24, 0xB1, 0xA2, 0x1A, 0x4F, 0x6A] := by
  decide +kernel

/-- A14. -/
theorem test_off1 : bsOut (.off1 .r1 .r2 .r3) State.reset = some zeroBlock := by decide +kernel

/-- A15, A16. -/
theorem test_off2 :
    bsOut (.off2 .r1 .r2 .r3) (withBs k128 zeroBlock) =
      some [0x7D, 0xF7, 0x6B, 0x0C, 0x1A, 0xB8, 0x99, 0xB3, 0x3E, 0x42, 0xF0, 0x47, 0xB9, 0x1B, 0x54, 0x6F] := by
  decide +kernel

theorem test_off2_length : errOut (.off2 .r1 .r2 .r3) (withBs k128 t3) = some (0x15, 0) := by decide +kernel

def decimal : Params := ff1Params 10 16

/-- B1, B3. -/
theorem test_addblk :
    nsOut (.addblk .r1 .r2 .r3) (withParams (withNs [0, 1, 2, 3, 4] [6, 0, 5, 3, 6]) decimal) =
        some [6, 1, 7, 7, 0] ∧
      nsOut (.addblk .r1 .r2 .r3) (withParams (withNs [9, 9, 9] [0, 0, 1]) decimal) = some [0, 0, 0] := by
  decide +kernel

/-- B4, B18. -/
theorem test_subblk :
    nsOut (.subblk .r1 .r2 .r3) (withParams (withNs [0, 0, 0] [0, 0, 1]) decimal) = some [9, 9, 9] ∧
      errOut (.subblk .r1 .r2 .r3) (withNs [0, 0, 0] [0, 0, 1]) = some (0x13, 0) := by decide +kernel

/-- B9, B10. -/
theorem test_addrev :
    nsOut (.addrev .r1 .r2 .r3) (withParams (withNs [1, 2, 3] [0, 0, 1]) decimal) = some [2, 2, 3] ∧
      nsOut (.addrev .r1 .r2 .r3) (withParams (withNs [0, 0, 1] [1, 2, 3]) decimal) = some [3, 2, 2] := by
  decide +kernel

/-- B11. -/
theorem test_subrev :
    nsOut (.subrev .r1 .r2 .r3) (withParams (withNs [2, 2, 3] [0, 0, 1]) decimal) = some [1, 2, 3] := by decide +kernel

/-- B13. -/
theorem test_addchr :
    nsOut (.addchr .r1 .r2 .r3) (withParams (withNs [9, 9, 9] [0, 0, 1]) decimal) = some [9, 9, 0] := by decide +kernel

/-- B15. -/
theorem test_subchr :
    nsOut (.subchr .r1 .r2 .r3) (withParams (withNs [9, 0] [0, 1]) decimal) = some [9, 9] := by decide +kernel

/-- S1. -/
theorem test_split :
    (runOf .split (withArgs (withParams State.reset (ff1Params 10 0)) 19 0)).res0 = 9 ∧
      (runOf .split (withArgs (withParams State.reset (ff3Params 10)) 19 0)).res0 = 10 := by decide +kernel

/-- S6, S7. -/
theorem test_rnds :
    (runOf .rnds (withArgs (withParams State.reset (ff3Params 10)) 10 0)).res0 = 8 ∧
      errOut .rnds (withArgs (withParams State.reset { decimal with rounds := 256 }) 10 0) = some (0x18, 4) := by
  decide +kernel

/-- S8, S15. -/
theorem test_f1rnd :
    nsOut (.f1rnd .r1 .r2) (withArgs (withParams (withOperands k128 [] [5, 6, 7, 8, 9]) decimal) 10 0) =
      some [6, 0, 5, 3, 6] := by decide +kernel

theorem test_f1rnd_range :
    errOut (.f1rnd .r1 .r2) (withArgs (withParams (withOperands k128 [] [5, 6, 7, 8, 9]) decimal) 10 256) =
      some (0x16, 0) := by decide +kernel

/-- S10, S16. -/
theorem test_f2rnd :
    nsOut (.f2rnd .r1 .r2) (withArgs (withParams (withOperands k128 tweakA [5, 6, 7, 8, 9]) (ff2Params 10 10)) 10 0) =
      some [9, 6, 5, 4, 2] := by decide +kernel

theorem test_f2rnd_radix_256 :
    errOut (.f2rnd .r1 .r2) (withArgs (withParams (withOperands k128 tweakA [5, 6]) (ff2Params 256 10)) 4 0) =
      some (0x17, 0) := by decide +kernel

/-- S11, S14. -/
theorem test_f3rnd :
    nsOut (.f3rnd .r1 .r2)
        (withArgs (withParams (withOperands k3 t3 [5, 6, 7, 8, 9, 0, 0, 0, 0]) (ff3Params 10)) 18 0) =
      some [8, 0, 4, 9, 8, 5, 4, 0, 1] := by decide +kernel

theorem test_f3rnd_tweak :
    errOut (.f3rnd .r1 .r2) (withArgs (withParams (withOperands k3 [1, 2, 3, 4, 5, 6, 7] [5]) (ff3Params 10)) 18 0) =
      some (0x11, 0) := by decide +kernel

/-- S12, S13. -/
theorem test_frnd :
    nsOut (.frnd .r1 .r2) (withArgs (withParams (withOperands k128 tweakA [5, 6, 7, 8, 9]) (ff2Params 10 10)) 10 0) =
      some [9, 6, 5, 4, 2] := by decide +kernel

theorem test_frnd_mode :
    errOut (.frnd .r1 .r2) (withArgs (withOperands k128 [] [5, 6, 7, 8, 9]) 10 0) = some (0x18, 2) := by decide +kernel

/-- 95, 5.1, end state; E13's `RADIX = 1`. -/
theorem test_ldff1 :
    (runOf .ldff1 (withArgs State.reset 10 0)).params =
        { radix := 10, tweakRadix := 0, minlen := 2, maxlenP := 4096, mintlen := 0, maxtlen := 0, rounds := 10,
          mode := 0x56, splitK := 0 } ∧
      errOut .ldff1 (withArgs State.reset 1 0) = some (0x13, 0) := by decide +kernel

/-- 95, 4.1 and 4.2: `maxlen(128) = 34`, `maxlen(10) = 58`, `maxTlen(10) = 30`, `maxTlen(256) = 12`. -/
theorem test_ldff2 :
    (runOf .ldff2 (withArgs State.reset 10 256)).params =
        { radix := 10, tweakRadix := 256, minlen := 2, maxlenP := 58, mintlen := 0, maxtlen := 12, rounds := 10,
          mode := 0x96, splitK := 0 } ∧
      (runOf .ldff2 (withArgs State.reset 128 10)).params.maxlenP = 34 ∧
      (runOf .ldff2 (withArgs State.reset 128 10)).params.maxtlen = 30 := by decide +kernel

/-- 95, 5.2 and 4.3. -/
theorem test_ldff3 :
    (runOf .ldff3 (withArgs State.reset 10 0)).params =
        { radix := 10, tweakRadix := 0, minlen := 2, maxlenP := 56, mintlen := 8, maxtlen := 8, rounds := 8,
          mode := 0xEA, splitK := 0 } ∧
      (runOf .ldff3 (withArgs State.reset 2 0)).params.minlen = 7 := by decide +kernel

/-- 95, 1.3: `[4,2]` under FF3 gives `[9,0]`. -/
theorem test_enc :
    nsOut (.enc .r1 .r2) (withParams (withOperands k3 t3 [4, 2]) (ff3Params 10)) = some [9, 0] := by decide +kernel

/-- E12: the least index. -/
theorem test_enc_range :
    errOut (.enc .r1 .r2) (withParams (withOperands k128 [] [10, 1, 2, 3, 4, 5, 6, 7, 8, 10]) (ff1Params 10 0)) =
      some (0x20, 0) := by decide +kernel

/-- 95, 1.3, sample 1: the plaintext 890121234567890000 back from its ciphertext. -/
theorem test_dec :
    nsOut (.dec .r1 .r2)
        (withParams (withOperands k3 t3 [7, 5, 0, 9, 1, 8, 8, 1, 4, 0, 5, 8, 6, 5, 4, 6, 0, 7]) (ff3Params 10)) =
      some [8, 9, 0, 1, 2, 1, 2, 3, 4, 5, 6, 7, 8, 9, 0, 0, 0, 0] := by decide +kernel

/-- 95, 1.1, sample 1. -/
theorem test_ff1enc :
    nsOut (.ff1enc .r1 .r2) (withParams (withOperands k128 [] digits) decimal) = some [2, 4, 3, 3, 4, 7, 7, 4, 8, 4] := by
  decide +kernel

/-- E19. -/
theorem test_ff1enc_radix : errOut (.ff1enc .r1 .r2) (withOperands k128 [] digits) = some (0x13, 0) := by decide +kernel

/-- 95, 1.1: `[1,2,3]` from `[3,8,1]`, an odd length. -/
theorem test_ff1dec :
    nsOut (.ff1dec .r1 .r2) (withParams (withOperands k128 [] [3, 8, 1]) decimal) = some [1, 2, 3] := by decide +kernel

/-- 95, 1.2, vector FF2-A, and the tweak digit error. -/
theorem test_ff2enc :
    nsOut (.ff2enc .r1 .r2) (withParams (withOperands k128 tweakA digits) (ff2Params 10 10)) =
      some [0, 4, 7, 1, 1, 2, 0, 8, 8, 0] := by decide +kernel

theorem test_ff2enc_tweak_digit :
    errOut (.ff2enc .r1 .r2) (withParams (withOperands k128 [1, 2, 10] digits) (ff2Params 10 10)) = some (0x21, 2) := by
  decide +kernel

/-- 95, 1.2, vector FF2-D backwards. -/
theorem test_ff2dec :
    nsOut (.ff2dec .r1 .r2) (withParams (withOperands k128 [1, 0, 1] [0, 1, 1, 1, 0, 1, 1]) (ff2Params 2 2)) =
      some [1, 0, 1, 0, 1, 0, 1] := by decide +kernel

/-! ## Host port and step -/

/-- The answers, oldest first, and `STATUS`, after `k` steps from reset with the given inputs to come. -/
def after (k : Nat) (ops : List BusOp) : Option (List Resp × Word) :=
  match Host.Core.run Sys2Proof.core k { State.reset with host := ops } with
  | .next (t : State) => some ((t.answers.map Answer.resp).reverse, t.statusWord)
  | _ => none

/-- X6 to X8: a reserved bit, a command refused in ERROR with `DROP` set, then WIPE. -/
theorem test_error_and_return :
    after 2 [.write 0x08 0x101] = some ([.ok], 0x00014153) ∧
      after 3 [.write 0x08 0x101, .write 0x08 0x0] = some ([.ok, .err], 0x00014157) ∧
      after 5 [.write 0x08 0x101, .write 0x08 0x0, .write 0x08 0x2] = some ([.ok, .err, .ok], 0x00020000) := by
  decide +kernel

/-- R82, R83: misaligned and unmapped. -/
theorem test_bad_addresses :
    after 3 [.write 0x06 1, .write 0x28 1, .read 0x30000] = some ([.err, .err, .err], 0) := by decide +kernel

/-- X1 through `withFetchWord` and `step`. -/
theorem test_fetch_word :
    step (State.reset.withFetchWord 32 0x00000003) =
      .next { State.reset with
        phase := .error
        lastop := 3
        eclass := 5
        ecause := 0x40
        errinfo := 3
        errlog := 0x20
        draws := 1 } := rfl

/-! ## Witnesses: for each statement with hypotheses, a state and operands that meet them, clause by clause -/

/-- Some check of the list is the first to fail, with this cause and detail. -/
def Fails (checks : List Check) (cause : Cause) (info : Nat) : Prop :=
  ∃ c, FirstFailing checks c ∧ c.cause = cause ∧ c.info = info

theorem fails_here {p : Prop} {cause : Cause} {info : Nat} {cs : List Check} (h : ¬ p) :
    Fails (⟨p, cause, info⟩ :: cs) cause info := ⟨_, Or.inl ⟨h, rfl⟩, rfl, rfl⟩

theorem fails_later {p : Prop} {k cause : Cause} {n info : Nat} {cs : List Check} (h : p) (hf : Fails cs cause info) :
    Fails (⟨p, k, n⟩ :: cs) cause info := by
  obtain ⟨c, hc, h1, h2⟩ := hf
  exact ⟨c, Or.inr ⟨h, hc⟩, h1, h2⟩

theorem holds_next {p : Prop} {k : Cause} {n : Nat} {cs : List Check} (h : p) (hs : AllHold cs) :
    AllHold (⟨p, k, n⟩ :: cs) := ⟨h, hs⟩

theorem numerals_of {radix : Nat} {X : List Word} (h : (X.all fun d => decide (d.toNat < radix)) = true) :
    Numerals radix X := by
  intro d hd
  simpa using List.all_eq_true.mp h d hd

theorem not_numerals_of {radix : Nat} {X : List Word} (h : (X.all fun d => decide (d.toNat < radix)) = false) :
    ¬ Numerals radix X := fun hn => by
  rw [List.all_eq_true.mpr fun d hd => decide_eq_true (hn d hd)] at h
  exact Bool.noConfusion h

/-- A register of `n` elements that nobody has written: its values are free. -/
def sized {α : Type} (n : Nat) : StrReg α := { present := true, len := n, store := Store.unspecified }

def withBsLen (a b : Nat) : State :=
  { State.reset with bs := State.reset.bs.set .r2 (sized a) |>.set .r3 (sized b) }

def withNsLen (a b : Nat) : State :=
  { State.reset with ns := State.reset.ns.set .r2 (sized a) |>.set .r3 (sized b) }

def busyWith (w : Word) (d : Nat) : State := { State.reset with phase := .busy w d }

theorem witness_MatchMaskSelectsTheCommand :
    shapeOf 0x50 = some .rdra ∧ shapeOf 0x51 = some .rdra ∧ (0x51#8 ≠ 0x50#8) ∧
      0x00000F50 &&& shapeMask .rdra = BitVec.setWidth 32 0x50#8 := by decide

theorem witness_PendingWordIsDecodedInOrder :
    (busyWith 0x80000000 0).phase = .busy 0x80000000 0 ∧ (0x80000000 : Word).extractLsb' 14 18 ≠ 0 ∧
      (0x00003F76 : Word).extractLsb' 14 18 = 0 ∧ shapeOf ((0x00003F76 : Word).extractLsb' 0 8) = none ∧
      (0x00001F75 : Word).extractLsb' 14 18 = 0 ∧ shapeOf ((0x00001F75 : Word).extractLsb' 0 8) = some .rdra ∧
      0x00001F75 &&& shapeMask .rdra ≠ ((0x00001F75 : Word).extractLsb' 0 8).setWidth 32 ∧
      0x00000F75 &&& shapeMask .rdra = ((0x00000F75 : Word).extractLsb' 0 8).setWidth 32 := by decide

theorem witness_StepRunsTheDecodedCommand :
    (busyWith 0x00000F75 0).phase = .busy 0x00000F75 0 ∧ decode 0x00000F75 = .ok (.ff2dec .r3 .r3) := ⟨rfl, rfl⟩

theorem witness_StepServesTheHost :
    (let s := State.failed State.reset .nullKey 0;
      s.phase.isBusy = false ∧ s.host = [] ∧
        ∀ op, ({ s with host := [op, .read 0x0000C] } : State).host = op :: [.read 0x0000C]) ∧
    (let s := { State.reset with host := [.write 0x00008 (encode (.enc .r1 .r0)), .read 0x0000C] };
      s.resetHeld = false ∧ (s.phase = .idle ∨ s.phase = .done) ∧
        s.host = .write 0x00008 (encode (.enc .r1 .r0)) :: [.read 0x0000C] ∧ s.delays.headD 0 = 0) :=
  ⟨⟨rfl, rfl, fun _ => rfl⟩, rfl, Or.inl rfl, rfl, rfl⟩

theorem witness_NumValuesAByteString :
    AllHold [(withBsLen 4096 0).bsThere .r2, lengthIn ((withBsLen 4096 0).bs.get .r2).len] ∧
      Fails [(withBsLen 1 0).bsThere .r3, lengthIn ((withBsLen 1 0).bs.get .r3).len] .operandLen 0 ∧
      Fails [State.reset.bsThere .r2, lengthIn (State.reset.bs.get .r2).len] .nullInput 0 :=
  ⟨holds_next (by decide) (holds_next (by decide) trivial), fails_later (by decide) (fails_here (by decide)),
    fails_here (by decide)⟩

theorem witness_NumrValuesANumeralString :
    AllHold ((withArgs (withNs [65535, 0] []) 65536 0).numrChecks .r2) ∧
      Fails (State.reset.numrChecks .r2) .nullInput 0 ∧
      Fails ((withArgs (withNsLen 1 0) 65537 0).numrChecks .r2) .radixRange 0 ∧
      Fails ((withArgs (withNsLen 1 0) 2 0).numrChecks .r3) .operandLen 0 ∧
      Fails ((withArgs (withNs [1, 2, 1] []) 2 0).numrChecks .r2) .numeralRange 1 :=
  ⟨holds_next (by decide) (holds_next (by decide) (holds_next (by decide)
      (holds_next (numerals_of (by decide)) trivial))),
    fails_here (by decide), fails_later (by decide) (fails_here (by decide)),
    fails_later (by decide) (fails_later (by decide) (fails_here (by decide))),
    fails_later (by decide) (fails_later (by decide) (fails_later (by decide) (fails_here (not_numerals_of (by decide)))))⟩

theorem witness_StrWritesTheLowNumerals :
    AllHold ((withArgs (withBn 0 0) 2 4096).strChecks .r2) ∧ Fails (State.reset.strChecks .r2) .nullInput 0 ∧
      Fails ((withArgs (withBn 0 0) 1 1).strChecks .r2) .radixRange 0 ∧
      Fails ((withArgs (withBn 0 0) 2 0).strChecks .r2) .argRange 0 ∧
      Fails ((withArgs (withBn (-1) 0) 2 1).strChecks .r2) .valueRange 0 :=
  ⟨holds_next (by decide) (holds_next (by decide) (holds_next (by decide) (holds_next (by decide) trivial))),
    fails_here (by decide), fails_later (by decide) (fails_here (by decide)),
    fails_later (by decide) (fails_later (by decide) (fails_here (by decide))),
    fails_later (by decide) (fails_later (by decide) (fails_later (by decide) (fails_here (by decide))))⟩

theorem witness_BytestrWritesTheBytes :
    AllHold ((withBn 255 0).bnThere .r2 :: bytestringChecks ((withBn 255 0).bn.get .r2).value 1) ∧
      Fails (State.reset.bnThere .r2 :: bytestringChecks (State.reset.bn.get .r2).value 1) .nullInput 0 ∧
      Fails ((withBn 256 0).bnThere .r2 :: bytestringChecks ((withBn 256 0).bn.get .r2).value 1) .valueRange 0 ∧
      AllHold (bytestringChecks 0 4096) ∧ Fails (bytestringChecks 0 4097) .argRange 0 ∧
      Fails (bytestringChecks 256 1) .valueRange 0 :=
  ⟨holds_next (by decide) (holds_next (by decide) (holds_next (by decide) trivial)), fails_here (by decide),
    fails_later (by decide) (fails_later (by decide) (fails_here (by decide))),
    holds_next (by decide) (holds_next ⟨by decide, by positivity⟩ trivial), fails_here (by decide),
    fails_later (by decide) (fails_here (by decide))⟩

theorem witness_BitstrRepeatsTheBit :
    AllHold (withArgs State.reset 32768 1).bitstrChecks ∧ Fails (withArgs State.reset 32776 0).bitstrChecks .argRange 0 ∧
      Fails (withArgs State.reset 8 2).bitstrChecks .argRange 0 :=
  ⟨holds_next (by decide) (holds_next (by decide) trivial), fails_here (by decide),
    fails_later (by decide) (fails_here (by decide))⟩

theorem witness_StringsAreJoinedAndXored :
    (let s := withBsLen 4095 1;
      AllHold [s.bsThere .r2, s.bsThere .r3, ⟨(s.bs.get .r2).len + (s.bs.get .r3).len ≤ 4096, .operandLen, 0⟩] ∧
      Fails [s.bsThere .r2, s.bsThere .r3, ⟨(s.bs.get .r2).len = (s.bs.get .r3).len, .operandLen, 0⟩] .operandLen 0) ∧
    (let s := withBsLen 4096 1;
      Fails [s.bsThere .r2, s.bsThere .r3, ⟨(s.bs.get .r2).len + (s.bs.get .r3).len ≤ 4096, .operandLen, 0⟩]
        .operandLen 0) ∧
    (let s := withNsLen 0 4096;
      AllHold [s.nsThere .r2, s.nsThere .r3, ⟨(s.ns.get .r2).len + (s.ns.get .r3).len ≤ 4096, .operandLen, 0⟩] ∧
      Fails [s.nsThere .r2, s.nsThere .r1, ⟨(s.ns.get .r2).len + (s.ns.get .r1).len ≤ 4096, .operandLen, 0⟩]
        .nullInput 0) ∧
    (let s := withBsLen 4096 4096;
      AllHold [s.bsThere .r2, s.bsThere .r3, ⟨(s.bs.get .r2).len = (s.bs.get .r3).len, .operandLen, 0⟩]) :=
  ⟨⟨holds_next (by decide) (holds_next (by decide) (holds_next (by decide) trivial)),
      fails_later (by decide) (fails_later (by decide) (fails_here (by decide)))⟩,
    fails_later (by decide) (fails_later (by decide) (fails_here (by decide))),
    ⟨holds_next (by decide) (holds_next (by decide) (holds_next (by decide) trivial)),
      fails_later (by decide) (fails_here (by decide))⟩,
    holds_next (by decide) (holds_next (by decide) (holds_next (by decide) trivial))⟩

theorem witness_StringsAreReversed :
    AllHold [(withNsLen 0 0).nsThere .r2] ∧ Fails [State.reset.nsThere .r2] .nullInput 0 ∧
      AllHold [(withBsLen 4096 0).bsThere .r2] ∧ Fails [State.reset.bsThere .r2] .nullInput 0 :=
  ⟨holds_next (by decide) trivial, fails_here (by decide), holds_next (by decide) trivial, fails_here (by decide)⟩

theorem witness_ModGivesTheFlooredRemainder :
    (let s := withBn (-7) 1;
      AllHold [s.bnThere .r2, s.bnThere .r3, ⟨0 < (s.bn.get .r3).value, .modZero, 0⟩]) ∧
    (let s := withBn 7 0;
      Fails [s.bnThere .r2, s.bnThere .r3, ⟨0 < (s.bn.get .r3).value, .modZero, 0⟩] .modZero 0) ∧
    (let s := withBn 7 0;
      Fails [s.bnThere .r2, s.bnThere .r1, ⟨0 < (s.bn.get .r1).value, .modZero, 0⟩] .nullInput 0) :=
  ⟨holds_next (by decide) (holds_next (by decide) (holds_next (by decide) trivial)),
    fails_later (by decide) (fails_later (by decide) (fails_here (by decide))),
    fails_later (by decide) (fails_here (by decide))⟩

theorem witness_BigIntegersAreExact :
    (let s := withArgs State.reset 65536 4096;
      AllHold [radixIn s.arg0.toNat, ⟨s.arg1.toNat ≤ 4096, .argRange, 0⟩]) ∧
    (let s := withArgs State.reset 2 4097;
      Fails [radixIn s.arg0.toNat, ⟨s.arg1.toNat ≤ 4096, .argRange, 0⟩] .argRange 0) ∧
    (let s := withBn (2 ^ 65600 - 1) 1;
      Fails [s.bnThere .r2, s.bnThere .r3,
        ⟨((s.bn.get .r2).value + (s.bn.get .r3).value).natAbs < 2 ^ s.cfg.bnbits, .bnOverflow, 0⟩] .bnOverflow 0 ∧
      AllHold [s.bnThere .r2, s.bnThere .r3,
        ⟨((s.bn.get .r2).value - (s.bn.get .r3).value).natAbs < 2 ^ s.cfg.bnbits, .bnOverflow, 0⟩]) ∧
    (let s := withBn (1 - 2 ^ 65600) 1;
      AllHold [s.bnThere .r2, s.bnThere .r3,
        ⟨((s.bn.get .r2).value + (s.bn.get .r3).value).natAbs < 2 ^ s.cfg.bnbits, .bnOverflow, 0⟩] ∧
      Fails [s.bnThere .r2, s.bnThere .r3,
        ⟨((s.bn.get .r2).value - (s.bn.get .r3).value).natAbs < 2 ^ s.cfg.bnbits, .bnOverflow, 0⟩] .bnOverflow 0) :=
  ⟨holds_next (by decide) (holds_next (by decide) trivial), fails_later (by decide) (fails_here (by decide)),
    ⟨fails_later (by decide) (fails_later (by decide) (fails_here (by decide +kernel))),
      holds_next (by decide) (holds_next (by decide) (holds_next (by decide +kernel) trivial))⟩,
    ⟨holds_next (by decide) (holds_next (by decide) (holds_next (by decide +kernel) trivial)),
      fails_later (by decide) (fails_later (by decide) (fails_here (by decide +kernel)))⟩⟩

/-- AES, and no request fails: a provider of the pure functions. -/
def aesProvider : Provider := { E := aesEncrypt, fails := fun _ => false }

theorem witness_CiphEncryptsEachBlock :
    (∀ q, aesProvider.fails q = false) ∧ (k128.map (BitVec.ofNat 8)).length = 16 ∧ 4096 % 16 = 0 ∧
    AllHold ((withBsLen 32 4096).adapterChecks .r2 .r3) ∧ (withBsLen 32 4096).providerAnswers ∧
      Fails ((withBsLen 16 16).adapterChecks .r1 .r3) .nullKey 0 ∧
      Fails ((withBsLen 16 16).adapterChecks .r2 .r1) .nullInput 0 ∧
      Fails ((withBsLen 17 17).adapterChecks .r2 .r3) .keySize 0 ∧
      Fails ((withBsLen 16 0).adapterChecks .r2 .r3) .operandLen 0 :=
  ⟨fun _ => rfl, rfl, rfl, holds_next (by decide) (holds_next (by decide) (holds_next (by decide) (holds_next (by decide) trivial))),
    fun _ => rfl, fails_here (by decide), fails_later (by decide) (fails_here (by decide)),
    fails_later (by decide) (fails_later (by decide) (fails_here (by decide))),
    fails_later (by decide) (fails_later (by decide) (fails_later (by decide) (fails_here (by decide))))⟩

theorem witness_PrfAndPrf2WriteTheLastChainBlock :
    Instr.prf2 .r1 .r2 .r3 ∈ [Instr.prf .r1 .r2 .r3, Instr.prf2 .r1 .r2 .r3] ∧
      AllHold ((withBsLen 24 16).adapterChecks .r2 .r3) ∧ (withBsLen 24 16).providerAnswers ∧
      Fails ((withBsLen 24 31).adapterChecks .r2 .r3) .operandLen 0 :=
  ⟨by decide, holds_next (by decide) (holds_next (by decide) (holds_next (by decide) (holds_next (by decide) trivial))),
    fun _ => rfl,
    fails_later (by decide) (fails_later (by decide) (fails_later (by decide) (fails_here (by decide))))⟩

theorem witness_PrfEqualsPrf2 :
    (∀ q, (withBsLen 16 16).provider.fails q = false) ∧ (withBsLen 16 16).providerAnswers := ⟨fun _ => rfl, fun _ => rfl⟩

theorem witness_OffsetsWriteSixteenBytes :
    AllHold ((withBsLen 32 16).off2Checks .r2 .r3) ∧ (withBsLen 32 16).providerAnswers ∧
      Fails ((withBsLen 32 17).off2Checks .r2 .r3) .operandLen 0 ∧
      Fails ((withBsLen 32 16).off2Checks .r2 .r1) .nullTweak 0 :=
  ⟨holds_next (by decide) (holds_next (by decide) (holds_next (by decide) (holds_next (by decide) trivial))),
    fun _ => rfl, fails_later (by decide) (fails_later (by decide) (fails_later (by decide) (fails_here (by decide)))),
    fails_later (by decide) (fails_here (by decide))⟩

def binary (a b : List Nat) : State := withParams (withNs a b) (ff1Params 2 0)

theorem witness_ArithmeticChecksInOrder :
    Instr.subchr .r1 .r2 .r3 ∈ [Instr.addblk .r1 .r2 .r3, Instr.subblk .r1 .r2 .r3, Instr.addrev .r1 .r2 .r3,
        Instr.subrev .r1 .r2 .r3, Instr.addchr .r1 .r2 .r3, Instr.subchr .r1 .r2 .r3] ∧
      Fails (State.reset.arithmeticChecks .r2 .r3) .nullInput 0 ∧
      Fails ((withNs [1] [1]).arithmeticChecks .r2 .r3) .radixRange 0 ∧
      Fails ((binary [2] [1, 1]).arithmeticChecks .r2 .r3) .operandLen 0 ∧
      Fails ((binary [] []).arithmeticChecks .r2 .r3) .operandLen 0 ∧
      Fails ((binary [1, 2] [2, 2]).arithmeticChecks .r2 .r3) .numeralRange 1 ∧
      Fails ((binary [1, 1] [2, 1]).arithmeticChecks .r2 .r3) .numeralRange 0 :=
  ⟨by decide, fails_here (by decide), fails_later (by decide) (fails_later (by decide) (fails_here (by decide))),
    fails_later (by decide) (fails_later (by decide) (fails_later (by decide) (fails_here (by decide)))),
    fails_later (by decide) (fails_later (by decide) (fails_later (by decide) (fails_later (by decide)
      (fails_here (by decide))))),
    fails_later (by decide) (fails_later (by decide) (fails_later (by decide) (fails_later (by decide)
      (fails_later (by decide) (fails_here (not_numerals_of (by decide))))))),
    fails_later (by decide) (fails_later (by decide) (fails_later (by decide) (fails_later (by decide)
      (fails_later (by decide) (fails_later (numerals_of (by decide)) (fails_here (not_numerals_of (by decide))))))))⟩

theorem witness_BlockwiseCommandsWorkModuloThePower : AllHold ((binary [1, 1] [0, 1]).arithmeticChecks .r2 .r3) :=
  holds_next (by decide) (holds_next (by decide) (holds_next (by decide) (holds_next (by decide)
    (holds_next (by decide) (holds_next (numerals_of (by decide)) (holds_next (numerals_of (by decide)) trivial))))))

theorem witness_ReversedCommandsReverseOperandAndResult : AllHold ((binary [1] [0]).arithmeticChecks .r2 .r3) :=
  holds_next (by decide) (holds_next (by decide) (holds_next (by decide) (holds_next (by decide)
    (holds_next (by decide) (holds_next (numerals_of (by decide)) (holds_next (numerals_of (by decide)) trivial))))))

theorem witness_CharacterwiseCommandsWorkPerNumeral :
    AllHold ((withParams (withNs [65535] [65535]) (ff1Params 65536 0)).arithmeticChecks .r2 .r3) :=
  holds_next (by decide) (holds_next (by decide) (holds_next (by decide) (holds_next (by decide)
    (holds_next (by decide) (holds_next (numerals_of (by decide)) (holds_next (numerals_of (by decide)) trivial))))))

theorem witness_SubtractionUndoesAddition :
    addBlk 10 [9, 9] [0, 1] = .ok [0, 0] ∧ addRev 10 [9, 9] [0, 1] = .ok [0, 0] ∧ addChr 10 [9, 9] [0, 1] = .ok [9, 0] := by
  decide +kernel

theorem witness_SplitAndRndsWriteRes0 :
    (let s := withArgs (withParams State.reset { Params.zero with mode := 0x30, splitK := 4095 }) 4096 0;
      AllHold
        [⟨2 ≤ s.arg0.toNat ∧ s.arg0.toNat ≤ 4096, .argRange, 0⟩,
          ⟨s.params.split = 1 ∨ s.params.split = 2 ∨ s.params.split = 3, .paramInvalid, 3⟩,
          ⟨1 ≤ s.params.leftLen s.arg0.toNat ∧ s.params.leftLen s.arg0.toNat ≤ s.arg0.toNat - 1, .paramInvalid, 5⟩]) ∧
    (let s := withArgs (withParams State.reset { Params.zero with mode := 0x30, splitK := 2 }) 2 0;
      Fails
        [⟨2 ≤ s.arg0.toNat ∧ s.arg0.toNat ≤ 4096, .argRange, 0⟩,
          ⟨s.params.split = 1 ∨ s.params.split = 2 ∨ s.params.split = 3, .paramInvalid, 3⟩,
          ⟨1 ≤ s.params.leftLen s.arg0.toNat ∧ s.params.leftLen s.arg0.toNat ≤ s.arg0.toNat - 1, .paramInvalid, 5⟩]
        .paramInvalid 5) ∧
    (let s := withArgs (withParams State.reset { Params.zero with rounds := 255 }) 2 0;
      AllHold
        [⟨2 ≤ s.arg0.toNat ∧ s.arg0.toNat ≤ 4096, .argRange, 0⟩, ⟨s.params.rounds.toNat ≤ 255, .paramInvalid, 4⟩]) ∧
    (let s := withArgs (withParams State.reset { Params.zero with rounds := 256 }) 2 0;
      Fails
        [⟨2 ≤ s.arg0.toNat ∧ s.arg0.toNat ≤ 4096, .argRange, 0⟩, ⟨s.params.rounds.toNat ≤ 255, .paramInvalid, 4⟩]
        .paramInvalid 4) :=
  ⟨holds_next (by decide) (holds_next (by decide) (holds_next (by decide) trivial)),
    fails_later (by decide) (fails_later (by decide) (fails_here (by decide))),
    holds_next (by decide) (holds_next (by decide) trivial), fails_later (by decide) (fails_here (by decide))⟩

/-- Key of 16 bytes, tweak and numerals of given lengths that nobody has written, and the scalars. -/
def shaped (p : Params) (t n : Nat) (a b : Word) : State :=
  { State.reset with
    bs := State.reset.bs.set .r0 (sized 16) |>.set .r1 (sized t)
    ns := State.reset.ns.set .r2 (sized n)
    params := p
    arg0 := a
    arg1 := b }

theorem numeralSum_eq (radix : Nat) (X : List Word) : numeralSum radix X = numeralValue radix X :=
  (numeralValue_eq_numeralSum radix X).symm

def f1State (x : List Nat) (t : List Nat) : State := withArgs (withParams (withOperands k128 t x) (ff1Params 10 16)) 4096 255

theorem witness_F1rndComputesTheFf1Round :
    (f1State [9] []).providerAnswers ∧ ((f1State [9] []).bs.get .r1).len ≤ 4096 ∧
      AllHold ((f1State [9] []).f1Checks .r2) ∧
      Fails ((shaped (ff1Params 10 0) 0 1 2 256).f1Checks .r2) .argRange 0 ∧
      Fails ((shaped (ff1Params 10 0) 0 1 4097 0).f1Checks .r2) .argRange 0 ∧
      Fails ((shaped (ff1Params 10 0) 0 0 2 255).f1Checks .r2) .operandLen 0 ∧
      Fails ((withArgs (f1State [9, 9, 9] []) 2 0).f1Checks .r2) .valueRange 0 ∧
      Fails ((withArgs (f1State [9] (List.replicate 4079 0)) 2 0).f1Checks .r2) .operandLen 0 :=
  ⟨fun _ => rfl, by decide,
    holds_next (by decide) (holds_next (by decide) (holds_next (by decide) (holds_next (by decide) (holds_next (by decide)
      (holds_next (by decide) (holds_next (by decide) (holds_next (numerals_of (by decide)) (holds_next
        (by rw [numeralSum_eq, ← ff1B_eq]; decide +kernel)
        (holds_next (by rw [← ff1B_eq]; decide +kernel) trivial))))))))),
    fails_later (by decide) (fails_later (by decide) (fails_later (by decide) (fails_later (by decide)
      (fails_later (by decide) (fails_here (by decide)))))),
    fails_later (by decide) (fails_later (by decide) (fails_later (by decide) (fails_later (by decide)
      (fails_later (by decide) (fails_here (by decide)))))),
    fails_later (by decide) (fails_later (by decide) (fails_later (by decide) (fails_later (by decide)
      (fails_later (by decide) (fails_later (by decide) (fails_here (by decide))))))),
    fails_later (by decide) (fails_later (by decide) (fails_later (by decide) (fails_later (by decide)
      (fails_later (by decide) (fails_later (by decide) (fails_later (by decide) (fails_later (numerals_of (by decide))
        (fails_here (by rw [numeralSum_eq, ← ff1B_eq]; decide +kernel))))))))),
    fails_later (by decide) (fails_later (by decide) (fails_later (by decide) (fails_later (by decide)
      (fails_later (by decide) (fails_later (by decide) (fails_later (by decide) (fails_later (numerals_of (by decide))
        (fails_later (by rw [numeralSum_eq, ← ff1B_eq]; decide +kernel)
          (fails_here (by rw [← ff1B_eq]; decide +kernel))))))))))⟩

def f2State (p : Params) (t x : List Nat) (n : Word) : State := withArgs (withParams (withOperands k128 t x) p) n 0

theorem witness_F2rndComputesTheFf2Round :
    (f2State (ff2Params 255 2) [1, 0] [254] 255).providerAnswers ∧
      AllHold ((f2State (ff2Params 255 2) [1, 0] [254] 255).f2Checks .r2) ∧
      Fails ((f2State (ff2Params 257 2) [] [1] 2).f2Checks .r2) .radixRange 0 ∧
      Fails ((f2State (ff2Params 256 2) [] [1] 256).f2Checks .r2) .valueRange 0 ∧
      Fails ((f2State (ff2Params 10 2) [] [1] 256).f2Checks .r2) .valueRange 0 ∧
      Fails ((f2State (ff2Params 10 2) [0, 2] [1] 2).f2Checks .r2) .tweakDigit 1 :=
  ⟨fun _ => rfl,
    holds_next (by decide) (holds_next (by decide) (holds_next (by decide) (holds_next (by decide) (holds_next (by decide)
      (holds_next (by decide) (holds_next (by decide) (holds_next (by decide) (holds_next (by decide) (holds_next (by decide)
        (holds_next (by rw [← valueOf_eq_digitSum]; decide +kernel) (holds_next (by decide)
          (holds_next (numerals_of (by decide)) (holds_next (by rw [numeralSum_eq]; decide +kernel)
            trivial))))))))))))),
    fails_later (by decide) (fails_later (by decide) (fails_later (by decide) (fails_here (by decide)))),
    fails_later (by decide) (fails_later (by decide) (fails_later (by decide) (fails_later (by decide)
      (fails_later (by decide) (fails_later (by decide) (fails_here (by decide))))))),
    fails_later (by decide) (fails_later (by decide) (fails_later (by decide) (fails_later (by decide)
      (fails_later (by decide) (fails_later (by decide) (fails_later (by decide) (fails_later (by decide)
        (fails_here (by decide))))))))),
    fails_later (by decide) (fails_later (by decide) (fails_later (by decide) (fails_later (by decide)
      (fails_later (by decide) (fails_later (by decide) (fails_later (by decide) (fails_later (by decide)
        (fails_later (by decide) (fails_here (by decide))))))))))⟩

def f3State (t x : List Nat) : State := withArgs (withParams (withOperands k3 t x) (ff3Params 10)) 2 0

theorem witness_F3rndComputesTheFf3Round :
    (f3State t3 [9, 0]).providerAnswers ∧ AllHold ((f3State t3 [9, 0]).f3Checks .r2) ∧
      Fails ((f3State [1] [9]).f3Checks .r2) .tweakLen 0 ∧ Fails ((f3State t3 [10, 0]).f3Checks .r2) .numeralRange 1 ∧
      Fails ((f3State t3 (List.replicate 29 9)).f3Checks .r2) .valueRange 0 :=
  ⟨fun _ => rfl,
    holds_next (by decide) (holds_next (by decide) (holds_next (by decide) (holds_next (by decide) (holds_next (by decide)
      (holds_next (by decide) (holds_next (by decide) (holds_next (by decide) (holds_next (numerals_of (by decide))
        (holds_next (by rw [numeralSum_eq]; decide +kernel) trivial))))))))),
    fails_later (by decide) (fails_later (by decide) (fails_later (by decide) (fails_later (by decide)
      (fails_later (by decide) (fails_later (by decide) (fails_here (by decide))))))),
    fails_later (by decide) (fails_later (by decide) (fails_later (by decide) (fails_later (by decide)
      (fails_later (by decide) (fails_later (by decide) (fails_later (by decide) (fails_later (by decide)
        (fails_here (not_numerals_of (by decide)))))))))),
    fails_later (by decide) (fails_later (by decide) (fails_later (by decide) (fails_later (by decide)
      (fails_later (by decide) (fails_later (by decide) (fails_later (by decide) (fails_later (by decide)
        (fails_later (numerals_of (by decide)) (fails_here (by rw [numeralSum_eq]; decide +kernel))))))))))⟩

theorem witness_FrndIsTheSelectedRound :
    (f3State t3 [9, 0]).params.rf = 3 ∧ (f3State t3 [9, 0]).providerAnswers ∧ AllHold ((f3State t3 [9, 0]).f3Checks .r2) ∧
      (ff1Params 10 0).rf = 1 ∧ (ff2Params 10 10).rf = 2 ∧
      (let s := shaped Params.zero 0 1 2 0;
      Fails (s.presenceChecks .r2 ++ [⟨s.params.rf = 1 ∨ s.params.rf = 2 ∨ s.params.rf = 3, .paramInvalid, 2⟩])
        .paramInvalid 2) :=
  ⟨by decide, fun _ => rfl, witness_F3rndComputesTheFf3Round.2.1, by decide, by decide,
    fails_later (by decide) (fails_later (by decide) (fails_later (by decide) (fails_here (by decide))))⟩

theorem witness_Ldff1LoadsTheFf1Parameters :
    (let s := withArgs State.reset 65536 4096;
      AllHold [radixIn s.arg0.toNat, ⟨s.arg1.toNat ≤ 4096, .argRange, 0⟩]) ∧
    (let s := withArgs State.reset 65537 0;
      Fails [radixIn s.arg0.toNat, ⟨s.arg1.toNat ≤ 4096, .argRange, 0⟩] .radixRange 0) ∧
    (let s := withArgs State.reset 2 4097;
      Fails [radixIn s.arg0.toNat, ⟨s.arg1.toNat ≤ 4096, .argRange, 0⟩] .argRange 0) :=
  ⟨holds_next (by decide) (holds_next (by decide) trivial), fails_here (by decide),
    fails_later (by decide) (fails_here (by decide))⟩

theorem witness_Ldff2LoadsTheFf2Parameters :
    (let s := withArgs State.reset 256 2;
      AllHold [⟨2 ≤ s.arg0.toNat ∧ s.arg0.toNat ≤ 256, .radixRange, 0⟩,
        ⟨2 ≤ s.arg1.toNat ∧ s.arg1.toNat ≤ 256, .radixRange, 0⟩]) ∧
    (let s := withArgs State.reset 2 257;
      Fails [⟨2 ≤ s.arg0.toNat ∧ s.arg0.toNat ≤ 256, .radixRange, 0⟩,
        ⟨2 ≤ s.arg1.toNat ∧ s.arg1.toNat ≤ 256, .radixRange, 0⟩] .radixRange 0) :=
  ⟨holds_next (by decide) (holds_next (by decide) trivial), fails_later (by decide) (fails_here (by decide))⟩

theorem witness_Ldff3LoadsTheFf3Parameters :
    AllHold [radixIn (withArgs State.reset 2 0).arg0.toNat] ∧
      Fails [radixIn (withArgs State.reset 1 0).arg0.toNat] .radixRange 0 :=
  ⟨holds_next (by decide) trivial, fails_here (by decide)⟩

/-- The checks of ENC hold with the FF3 parameters and the shortest input. -/
def encState : State := withParams (withOperands k3 t3 [4, 2]) (ff3Params 10)

theorem encState_checks : AllHold (encState.cipherChecks .r2) :=
  holds_next (by decide) (holds_next (by decide) (holds_next (by decide) (holds_next (by decide) (holds_next (by decide)
    (holds_next (by decide) (holds_next (by decide) (holds_next (by decide) (holds_next (by decide) (holds_next (by decide)
      (holds_next (by decide) (holds_next (by decide) (holds_next (by decide) (holds_next (by decide)
        (holds_next (numerals_of (by decide)) (holds_next (by decide)
          (holds_next (by unfold Params.EnoughRounds; decide) trivial))))))))))))))))

theorem witness_EncAndDecCheckThenRunTheRounds :
    AllHold (encState.cipherChecks .r2) ∧
      (encState.params.network encState.provider (encState.bsVal .r0) (encState.bsVal .r1)
        (encState.ns.get .r2).len).encrypt encState.params.method (encState.nsVal .r2) = .ok [9, 0] ∧
      (let s := withParams (withOperands k128 [] digits) { ff1Params 10 0 with mode := 0x76, splitK := 3 };
      (s.params.network s.provider (s.bsVal .r0) (s.bsVal .r1) (s.ns.get .r2).len).encrypt s.params.method
        (s.nsVal .r2) = .error ⟨0, ⟨.operandLen, 0⟩⟩) ∧
      Fails ((shaped { ff1Params 10 0 with mode := 0x55 } 0 1 0 0).cipherChecks .r2) .inputLen 0 ∧
      Fails ((shaped { ff1Params 10 0 with mode := 0 } 0 1 0 0).cipherChecks .r2) .paramInvalid 0 :=
  ⟨encState_checks, by decide +kernel, by decide +kernel,
    fails_later (by decide) (fails_later (by decide) (fails_later (by decide) (fails_later (by decide)
      (fails_later (by decide) (fails_later (by decide) (fails_later (by decide) (fails_later (by decide)
        (fails_later (by decide) (fails_later (by decide) (fails_later (by decide) (fails_later (by decide)
          (fails_here (by decide))))))))))))),
    fails_later (by decide) (fails_later (by decide) (fails_later (by decide) (fails_here (by decide))))⟩

def ff1State (t : Nat) : State :=
  { shaped (ff1Params 10 4096) t 0 0 0 with ns := State.reset.ns.set .r2 (nsOf [4, 2]) }

theorem ff1State_b : ff1Bytes 10 2 = 1 := by rw [← ff1B_eq]; decide +kernel

/-- Method ONE, characterwise, FF1's round function, eight rounds; and Method TWO, nine rounds. -/
def oneParams : Params := { ff1Params 10 0 with mode := 0x5D, rounds := 8 }

def oddParams : Params := { ff1Params 10 0 with rounds := 9 }

theorem rounds_fit (p : Params) (hp : p = oneParams ∨ p = oddParams) :
    AllHold ((withParams (withOperands k128 [] [4, 2]) p).cipherChecks .r2) ∧ p.RoundsFit 2 [] := by
  have hb : (0 : Nat) + ff1Bytes 10 2 ≤ 4079 := by rw [ff1State_b]; decide
  rcases hp with rfl | rfl
  all_goals
    exact ⟨holds_next (by decide) (holds_next (by decide) (holds_next (by decide) (holds_next (by decide)
      (holds_next (by decide) (holds_next (by decide) (holds_next (by decide) (holds_next (by decide)
        (holds_next (by decide) (holds_next (by decide) (holds_next (by decide) (holds_next (by decide)
          (holds_next (by decide) (holds_next (by decide) (holds_next (numerals_of (by decide)) (holds_next (by decide)
            (holds_next (by unfold Params.EnoughRounds; decide) trivial)))))))))))))))),
      by decide, by decide, fun _ => hb, fun h => absurd h (by decide), fun h => absurd h (by decide)⟩

/-- The clauses of `EncAndDecCheckThenRunTheRounds` on the rounds, for Method ONE, an odd round count and FF3. -/
theorem witness_EncAndDecCheckThenRunTheRounds_rounds :
    (∀ p, p = oneParams ∨ p = oddParams →
      (withParams (withOperands k128 [] [4, 2]) p).providerAnswers ∧
        AllHold ((withParams (withOperands k128 [] [4, 2]) p).cipherChecks .r2) ∧ p.RoundsFit 2 []) ∧
      encState.params.RoundsFit 2 (encState.bsVal .r1) ∧
      (∀ q, aesProvider.fails q = false) ∧ AllHold oneParams.usable ∧ Numerals 10 [4, 2] :=
  ⟨fun p hp => ⟨fun _ => rfl, rounds_fit p hp⟩,
    ⟨by decide, by decide, fun h => absurd h (by decide), fun h => absurd h (by decide), fun _ => by decide⟩,
    fun _ => rfl,
    holds_next (by decide) (holds_next (by decide) (holds_next (by decide) (holds_next (by decide) (holds_next (by decide)
      (holds_next (by decide) (holds_next (by decide) trivial)))))), numerals_of (by decide)⟩

theorem witness_Ff1CommandsRunTenRounds :
    (ff1State 4078).providerAnswers ∧ ((ff1State 4078).bs.get .r1).len ≤ 4096 ∧ ((ff1State 4078).ns.get .r2).len ≤ 4096 ∧
      AllHold ((ff1State 4078).ff1CipherChecks .r2) ∧
      ((ff1State 4078).bs.get .r1).len + ff1Bytes (ff1State 4078).params.radix.toNat ((ff1State 4078).ns.get .r2).len ≤
        4079 ∧
      AllHold ((ff1State 4079).ff1CipherChecks .r2) ∧
      4079 < ((ff1State 4079).bs.get .r1).len +
        ff1Bytes (ff1State 4079).params.radix.toNat ((ff1State 4079).ns.get .r2).len ∧
      Fails ((shaped (ff1Params 10 0) 0 1 0 0).ff1CipherChecks .r2) .inputLen 0 :=
  ⟨fun _ => rfl, by decide, by decide,
    holds_next (by decide) (holds_next (by decide) (holds_next (by decide) (holds_next (by decide) (holds_next (by decide)
      (holds_next (by decide) (holds_next (by decide) (holds_next (by decide) (holds_next (numerals_of (by decide))
        trivial)))))))),
    by show 4078 + ff1Bytes 10 2 ≤ 4079; rw [ff1State_b],
    holds_next (by decide) (holds_next (by decide) (holds_next (by decide) (holds_next (by decide) (holds_next (by decide)
      (holds_next (by decide) (holds_next (by decide) (holds_next (by decide) (holds_next (numerals_of (by decide))
        trivial)))))))),
    by show 4079 < 4079 + ff1Bytes 10 2; rw [ff1State_b]; decide,
    fails_later (by decide) (fails_later (by decide) (fails_later (by decide) (fails_later (by decide)
      (fails_later (by decide) (fails_later (by decide) (fails_here (by decide)))))))⟩

def ff2State (radix : Word) (t : List Nat) : State := withParams (withOperands k128 t [9, 9]) (ff2Params radix 10)

theorem ff2State_checks (radix : Word) (t : List Nat) (h1 : 10 ≤ radix.toNat ∧ radix.toNat ≤ 256)
    (h2 : t.length ≤ 30) (h3 : 2 ≤ ff2LongestInput radix.toNat) : AllHold ((ff2State radix t).ff2CipherChecks .r2) := by
  have hlog : ff2LongestTweak 10 = 30 := by
    unfold ff2LongestTweak; rw [← cap_eq_log (by decide)]; decide +kernel
  have hlen : ((ff2State radix t).bs.get .r1).len = t.length := by
    show ((t.map (BitVec.ofNat 8)).length) = t.length; simp
  refine holds_next rfl (holds_next rfl (holds_next rfl (holds_next ⟨⟨?_, h1.2⟩, ?_, ?_⟩
    (holds_next (Or.inl rfl) (holds_next ?_ (holds_next ⟨le_refl 2, h3⟩ (holds_next ?_ (holds_next ?_ trivial))))))))
  · show 2 ≤ radix.toNat; omega
  · show 2 ≤ (10 : Nat); decide
  · show (10 : Nat) ≤ 256; decide
  · rw [hlen]; show t.length ≤ ff2LongestTweak 10; omega
  · show 100 ≤ radix.toNat ^ 2; nlinarith
  · show ∀ d ∈ [9#32, 9#32], d.toNat < radix.toNat
    intro d hd
    fin_cases hd <;> · show 9 < radix.toNat; omega

theorem longest10 : 2 ≤ ff2LongestInput 10 := by
  unfold ff2LongestInput
  rw [if_neg (by decide +kernel), ← cap_eq_log (by decide)]
  decide +kernel

theorem longest256 : 2 ≤ ff2LongestInput 256 := by
  unfold ff2LongestInput
  rw [if_pos (by decide +kernel)]
  exact le_max_left _ _

theorem witness_Ff2CommandsRunTenRounds :
    (ff2State 10 [9]).providerAnswers ∧ AllHold ((ff2State 10 [9]).ff2CipherChecks .r2) ∧
      (ff2State 10 [9]).params.radix.toNat ≠ 256 ∧ (tweakDigitsIn 10 ((ff2State 10 [9]).bsVal .r1)).ok ∧
      AllHold ((ff2State 256 [10]).ff2CipherChecks .r2) ∧ (ff2State 256 [10]).params.radix.toNat = 256 ∧
      AllHold ((ff2State 10 [9, 10]).ff2CipherChecks .r2) ∧ ¬ (tweakDigitsIn 10 ((ff2State 10 [9, 10]).bsVal .r1)).ok ∧
      Fails (State.reset.ff2CipherChecks .r2) .nullKey 0 :=
  ⟨fun _ => rfl, ff2State_checks _ _ (by decide) (by decide) longest10, by decide,
    by show ∀ d ∈ (ff2State 10 [9]).bsVal .r1, d.toNat < 10; decide,
    ff2State_checks _ _ (by decide) (by decide) longest256, by decide,
    ff2State_checks _ _ (by decide) (by decide) longest10,
    by show ¬ ∀ d ∈ (ff2State 10 [9, 10]).bsVal .r1, d.toNat < 10; decide, fails_here (by decide)⟩

/-- The state, with a provider that fails the given requests. -/
def failOn (s : State) (qs : List AesRequest) : State := { s with cfg := { s.cfg with aesFail := qs } }

theorem failOn_fails (s : State) {q : AesRequest} {qs : List AesRequest} (h : q ∈ qs) :
    (failOn s qs).provider.fails q = true := by
  simpa [State.provider, failOn] using h

/-- The checks do not depend on the provider. -/
theorem failOn_checks (s : State) (qs : List AesRequest) (ra : Reg) :
    (failOn s qs).f1Checks ra = s.f1Checks ra ∧ (failOn s qs).f2Checks ra = s.f2Checks ra ∧
      (failOn s qs).f3Checks ra = s.f3Checks ra ∧ (failOn s qs).ff2CipherChecks ra = s.ff2CipherChecks ra ∧
      (failOn s qs).cipherChecks ra = s.cipherChecks ra := ⟨rfl, rfl, rfl, rfl, rfl⟩

theorem mac_first (E : BlockCipher) (K H B : List Byte) (h : H.length = 16) :
    ⟨.ecb, K, xorBytes (zeros 16) H⟩ ∈ macRequests E K (H ++ B) := by
  obtain ⟨k, hk⟩ : ∃ k, (H ++ B).length / 16 = k + 1 := ⟨(H ++ B).length / 16 - 1, by simp; omega⟩
  have h0 : blockAt (H ++ B) 0 = H := by simp [blockAt, h]
  rw [macRequests, blocksOf, hk, List.range_succ_eq_map, List.map_cons, chainRequests, h0]
  exact List.mem_cons_self ..

theorem ff1_first (E : BlockCipher) (radix n i x : Nat) (K T : List Byte) :
    ⟨.ecb, K, xorBytes (zeros 16) (ff1Header radix n T.length)⟩ ∈ ff1Requests E radix K n T i x :=
  List.mem_append_left _ (mac_first E K _ _ (length_ff1Header _ _ _))

theorem encrypt_fails_at_once {P : Provider} {round : Nat → List Word → List Word → List Word → Prop}
    {requests : Nat → List Word → List AesRequest} {l r : Nat} {X : List Word} (hr : 0 < r) {q : AesRequest}
    (h : q ∈ requests 0 (X.drop l)) (hq : P.fails q = true) : EncryptFailsIn P round requests l r 0 X :=
  ⟨fun i => if i = 0 then X.take l else X.drop l, rfl, rfl, hr, fun _ hi => absurd hi (Nat.not_lt_zero _), q, h, hq⟩

theorem decrypt_fails_at_once {P : Provider} {radix : Nat} {round : Nat → List Word → List Word → List Word → Prop}
    {requests : Nat → List Word → List AesRequest} {l r : Nat} {X : List Word} (hr : 0 < r) (hX : Numerals radix X)
    {q : AesRequest} (h : q ∈ requests (r - 1) (X.take l)) (hq : P.fails q = true) :
    DecryptFailsIn P radix round requests l r 0 X := by
  refine ⟨fun i => if i = r then X.take l else X.drop l, by simp, by simp, hr, fun i => ?_, fun i h1 h2 => ?_, q, ?_, hq⟩
  · simp only
    split
    · exact fun d hd => hX d (List.mem_of_mem_take hd)
    · exact fun d hd => hX d (List.mem_of_mem_drop hd)
  · omega
  · simpa using h

/-- FF1, FF2 and FF3 on `[4,2]` or `[9,9]`, and what their first requests are. -/
def ff1Plain : State := withParams (withOperands k128 [] [4, 2]) (ff1Params 10 0)

def ff1Failing (n : Nat) (s : State) : State :=
  failOn s [⟨.ecb, s.bsVal .r0, xorBytes (zeros 16) (ff1Header 10 n (s.bsVal .r1).length)⟩]

def ff2Failing (radix tradix n : Nat) (s : State) : State :=
  failOn s [⟨.ecb, s.bsVal .r0, ff2Header radix tradix n (s.bsVal .r1)⟩]

def ff3Failing (s : State) : State :=
  failOn s (ff3Requests (s.bsVal .r0) (s.bsVal .r1) 0 (numeralSum 10 ((s.nsVal .r2).drop 1).reverse) ++
    ff3Requests (s.bsVal .r0) (s.bsVal .r1) 7 (numeralSum 10 ((s.nsVal .r2).take 1).reverse) ++
    ff3Requests (s.bsVal .r0) (s.bsVal .r1) 0 (numeralSum 10 (s.nsVal .r2).reverse))

/-- One zero block under a zero key, and a provider that fails on it in both modes. -/
def failing : State := failOn (withBs zeroBlock zeroBlock)
  [⟨.ecb, List.replicate 16 0, List.replicate 16 0⟩, ⟨.cbc0, List.replicate 16 0, List.replicate 16 0⟩]

theorem witness_FailingProviderRaisesAesFail :
    AllHold (failing.adapterChecks .r2 .r3) ∧ AllHold (failing.off2Checks .r2 .r3) ∧
      failing.provider.fails ⟨.ecb, failing.bsVal .r2, failing.bsVal .r3⟩ = true ∧
      failing.provider.fails ⟨.cbc0, failing.bsVal .r2, failing.bsVal .r3⟩ = true ∧
      ∃ q ∈ macRequests failing.provider.E (failing.bsVal .r2) (failing.bsVal .r3), failing.provider.fails q = true :=
  ⟨holds_next (by decide) (holds_next (by decide) (holds_next (by decide) (holds_next (by decide) trivial))),
    holds_next (by decide) (holds_next (by decide) (holds_next (by decide) (holds_next (by decide) trivial))),
    by decide +kernel, by decide +kernel, by decide +kernel⟩

/-- Its clauses on the round commands. -/
theorem witness_FailingProviderRaisesAesFail_rounds :
    (let s := ff1Failing 4096 (f1State [9] []);
      s.params.rf = 1 ∧ (s.bs.get .r1).len ≤ 4096 ∧ AllHold (s.f1Checks .r2) ∧
        ∃ q ∈ ff1Requests s.provider.E s.params.radix.toNat (s.bsVal .r0) s.arg0.toNat (s.bsVal .r1) s.arg1.toNat
          (numeralSum s.params.radix.toNat (s.nsVal .r2)), s.provider.fails q = true) ∧
    (let s := ff2Failing 255 2 255 (f2State (ff2Params 255 2) [1, 0] [254] 255);
      s.params.rf = 2 ∧ AllHold (s.f2Checks .r2) ∧
        ∃ q ∈ ff2Requests s.provider.E s.params.radix.toNat s.params.tweakRadix.toNat (s.bsVal .r0) s.arg0.toNat
          (s.bsVal .r1) s.arg1.toNat (numeralSum s.params.radix.toNat (s.nsVal .r2)), s.provider.fails q = true) ∧
    (let s := ff3Failing (f3State t3 [9, 0]);
      s.params.rf = 3 ∧ AllHold (s.f3Checks .r2) ∧
        ∃ q ∈ ff3Requests (s.bsVal .r0) (s.bsVal .r1) s.arg1.toNat
          (numeralSum s.params.radix.toNat (s.nsVal .r2).reverse), s.provider.fails q = true) :=
  ⟨⟨by decide, by decide, (failOn_checks _ _ _).1 ▸ witness_F1rndComputesTheFf1Round.2.2.1, _, ff1_first _ _ _ _ _ _ _,
      failOn_fails _ (List.mem_cons_self ..)⟩,
    ⟨by decide, (failOn_checks _ _ _).2.1 ▸ witness_F2rndComputesTheFf2Round.2.1, _, List.mem_cons_self .., failOn_fails _ (List.mem_cons_self ..)⟩,
    ⟨by decide, (failOn_checks _ _ _).2.2.1 ▸ witness_F3rndComputesTheFf3Round.2.1, _, List.mem_cons_self ..,
      failOn_fails _ (List.mem_append_right _ (List.mem_cons_self ..))⟩⟩

/-- The clauses on the request for `J`: it fails, and `B` holds a numeral out of range, a check that comes later. -/
theorem witness_FailingProviderRaisesAesFail_subkey :
    let s := ff2Failing 10 2 2 (f2State (ff2Params 10 2) [0, 1] [10] 2)
    s.params.rf = 2 ∧ AllHold (s.f2HeaderChecks .r2) ∧ ¬ s.f2SubkeyAnswered.ok ∧ Fails (s.f2HalfChecks .r2) .numeralRange 0 ∧
      Fails (s.f2HeaderChecks .r2 ++ s.f2SubkeyAnswered :: s.f2HalfChecks .r2) .aesFail 0 := by
  have hJ : ¬ (ff2Failing 10 2 2 (f2State (ff2Params 10 2) [0, 1] [10] 2)).f2SubkeyAnswered.ok := fun h =>
    Bool.false_ne_true (h.symm.trans (failOn_fails _ (List.mem_cons_self ..)))
  have hw : digitSum 2 [0, 1] < 256 ^ 13 := by rw [← valueOf_eq_digitSum]; decide +kernel
  exact ⟨by decide,
    holds_next (by decide) (holds_next (by decide) (holds_next (by decide) (holds_next (by decide) (holds_next (by decide)
      (holds_next (by decide) (holds_next (by decide) (holds_next (by decide) (holds_next (by decide) (holds_next (by decide)
        (holds_next hw trivial)))))))))),
    hJ, fails_later (by decide) (fails_here (not_numerals_of (by decide))),
    fails_later (by decide) (fails_later (by decide) (fails_later (by decide) (fails_later (by decide)
      (fails_later (by decide) (fails_later (by decide) (fails_later (by decide) (fails_later (by decide)
        (fails_later (by decide) (fails_later (by decide) (fails_later hw (fails_here hJ)))))))))))⟩

/-- Its clauses on the ciphers. -/
theorem witness_FailingProviderRaisesAesFail_ciphers :
    (let s := ff1Failing 2 ff1Plain;
      AllHold (s.ff1CipherChecks .r2) ∧ (s.bsVal .r1).length + ff1Bytes 10 2 ≤ 4079 ∧
        ∀ round, let requests := fun i B => ff1Requests s.provider.E 10 (s.bsVal .r0) 2 (s.bsVal .r1) i (numeralSum 10 B)
          EncryptFailsIn s.provider round requests 1 10 0 (s.nsVal .r2) ∧
            DecryptFailsIn s.provider 10 round requests 1 10 0 (s.nsVal .r2)) ∧
    (let s := ff2Failing 10 10 2 (ff2State 10 [9]);
      AllHold (s.ff2CipherChecks .r2) ∧ (tweakDigitsIn 10 (s.bsVal .r1)).ok ∧
        ∀ round, let requests := fun i B =>
            ff2Requests s.provider.E 10 10 (s.bsVal .r0) 2 (s.bsVal .r1) i (numeralSum 10 B)
          EncryptFailsIn s.provider round requests 1 10 0 (s.nsVal .r2) ∧
            DecryptFailsIn s.provider 10 round requests 1 10 0 (s.nsVal .r2)) ∧
    (let s := ff3Failing encState;
      s.params = ff3Params s.params.radix ∧ AllHold (s.cipherChecks .r2) ∧
        ∀ round, let requests := fun i (B : List Word) =>
            ff3Requests (s.bsVal .r0) (s.bsVal .r1) i (numeralSum 10 B.reverse)
          EncryptFailsIn s.provider round requests 1 8 0 (s.nsVal .r2) ∧
            DecryptFailsIn s.provider 10 round requests 1 8 0 (s.nsVal .r2)) :=
  ⟨⟨holds_next (by decide) (holds_next (by decide) (holds_next (by decide) (holds_next (by decide) (holds_next (by decide)
        (holds_next (by decide) (holds_next (by decide) (holds_next (by decide) (holds_next (numerals_of (by decide))
          trivial)))))))),
      by rw [ff1State_b]; decide,
      fun _ => ⟨encrypt_fails_at_once (by decide) (ff1_first _ _ _ _ _ _ _) (failOn_fails _ (List.mem_cons_self ..)),
        decrypt_fails_at_once (by decide) (numerals_of (by decide)) (ff1_first _ _ _ _ _ _ _)
          (failOn_fails _ (List.mem_cons_self ..))⟩⟩,
    ⟨ff2State_checks _ _ (by decide) (by decide) longest10, witness_Ff2CommandsRunTenRounds.2.2.2.1,
      fun _ => ⟨encrypt_fails_at_once (by decide) (List.mem_cons_self ..) (failOn_fails _ (List.mem_cons_self ..)),
        decrypt_fails_at_once (by decide) (numerals_of (by decide)) (List.mem_cons_self ..)
          (failOn_fails _ (List.mem_cons_self ..))⟩⟩,
    ⟨rfl, encState_checks,
      fun _ => ⟨encrypt_fails_at_once (by decide) (List.mem_cons_self ..)
          (failOn_fails _ (List.mem_append_left _ (List.mem_append_left _ (List.mem_cons_self ..)))),
        decrypt_fails_at_once (by decide) (numerals_of (by decide)) (List.mem_cons_self ..)
          (failOn_fails _ (List.mem_append_left _ (List.mem_append_right _ (List.mem_cons_self ..))))⟩⟩⟩

theorem witness_Ff3CommandsRunEightRounds :
    encState.providerAnswers ∧ encState.params = ff3Params encState.params.radix ∧ AllHold (encState.cipherChecks .r2) :=
  ⟨fun _ => rfl, rfl, encState_checks⟩

theorem witness_Ff1DirectEqualsGeneric : ((withNsLen 4096 0).ns.get .r2).len ≤ 4096 := by decide

theorem witness_Ff2DirectEqualsGeneric :
    (2 ≤ (ff2State 256 []).params.radix.toNat ∧ (ff2State 256 []).params.radix.toNat ≤ 256) ∧
      2 ≤ (ff2State 256 []).params.tweakRadix.toNat ∧ (ff2State 256 []).params.tweakRadix.toNat ≤ 256 := by decide

theorem enc_runs (s : State) : exec (.enc .r3 .r2) s = .next (runOf (.enc .r3 .r2) s) := by
  simp only [runOf, exec, execEnc, State.finishCipher]
  split <;> rfl

/-- The state after ENC, from which DEC gives the input back. -/
def decState : State := runOf (.enc .r3 .r2) encState

theorem witness_DecUndoesEnc :
    exec (.enc .r3 .r2) encState = .next decState ∧ decState.phase = .done ∧ decState.params = encState.params ∧
      decState.cfg = encState.cfg ∧ decState.ns.get .r3 = decState.ns.get .r3 ∧
      (decState.bs.get .r0).present = true ∧ decState.bsVal .r0 = encState.bsVal .r0 ∧
      (decState.bs.get .r1).present = true ∧ decState.bsVal .r1 = encState.bsVal .r1 ∧
      ∃ Y, (encState.params.network aesProvider (encState.bsVal .r0) (encState.bsVal .r1) 2).encrypt
        encState.params.method (encState.nsVal .r2) = .ok Y :=
  ⟨enc_runs _, by decide +kernel, by decide +kernel, by decide +kernel, by decide +kernel, by decide +kernel,
    by decide +kernel, by decide +kernel, by decide +kernel, [9, 0], by decide +kernel⟩

theorem witness_CiphersPreserveTheFormat :
    Instr.enc .r3 .r2 ∈ [Instr.enc .r3 .r2, Instr.dec .r3 .r2, Instr.ff1enc .r3 .r2, Instr.ff1dec .r3 .r2,
        Instr.ff2enc .r3 .r2, Instr.ff2dec .r3 .r2] ∧
      exec (.enc .r3 .r2) encState = .next decState ∧ decState.phase = .done :=
  ⟨by decide, enc_runs _, witness_DecUndoesEnc.2.1⟩

theorem witness_ErrorEntryLeavesNoPartialResult :
    exec (.enc .r3 .r2) State.reset = .next (State.reset.failed .nullKey 0) ∧
      (State.reset.failed .nullKey 0).phase = .error := ⟨rfl, rfl⟩

theorem witness_CommandsWriteOnlyTheirDestination :
    exec (.off1 .r3 .r0 .r0) State.reset = .next (runOf (.off1 .r3 .r0 .r0) State.reset) ∧
      Instr.off1 .r3 .r0 .r0 ≠ .wipe ∧ bsDest (.off1 .r3 .r0 .r0) ≠ some .r2 ∧
      (runOf (.off1 .r3 .r0 .r0) State.reset).phase ≠ .error := ⟨rfl, by decide, by decide, by decide⟩

theorem witness_CommandWordAcceptance :
    State.reset.resetHeld = false ∧ State.reset.phase = .idle ∧
      (State.reset.failed .aesFail 0).phase = .error ∧ (0x00000102 : Word).extractLsb' 0 8 = 0x02 ∧
      (0x00000000 : Word).extractLsb' 0 8 ≠ 0x01 ∧ (0x00000000 : Word).extractLsb' 0 8 ≠ 0x02 ∧
      (∃ v d, (busyWith 0x02 3).phase = .busy v d) := ⟨rfl, rfl, rfl, by decide, by decide, by decide, _, _, rfl⟩

theorem witness_BusyRefusesWritesAndWindowReads :
    (busyWith 0x70 1).resetHeld = false ∧ (busyWith 0x70 1).phase = .busy 0x70 1 ∧
      0x10000 ≤ (0x10000 : Addr).toNat ∧ (0x2FFFC : Addr).toNat < 0x30000 ∧ (0x000BC : Addr).toNat < 0x100 ∧
      locate 0x000BC = some (.bninfo .r3) := by decide

theorem witness_BadAddressesAreRefused :
    State.reset.resetHeld = false ∧ State.reset.phase.isBusy = false ∧ (0x00001 : Addr).toNat % 4 ≠ 0 ∧
      (0x100 ≤ (0x00100 : Addr).toNat ∧ (0x0FFFC : Addr).toNat < 0x10000) ∧ 0x30000 ≤ (0x30000 : Addr).toNat ∧
      (0x0000C : Addr) ∈ ([0x00, 0x0C, 0x10] : List Addr) := by decide

theorem witness_WindowsStoreOneElement :
    (withNsLen 4096 1).resetHeld = false ∧ (withNsLen 4096 1).phase.isBusy = false ∧ 4095 < 4096 ∧
      (0x1BFFC : Addr).toNat = 0x10000 + regIndex .r2 * 0x4000 + 4 * 4095 ∧
      (0x2BFFC : Addr).toNat = 0x20000 + regIndex .r2 * 0x4000 + 4 * 4095 ∧
      ((withNs [7] []).nsVal .r2)[0]? = some 7 ∧ ((withBs [7] []).bsVal .r2)[0]? = some 7 ∧
      (4096 : Word).toNat ≤ 4096 ∧ (0x88 : Addr).toNat = 0x80 + 4 * regIndex .r2 ∧
      (0x98 : Addr).toNat = 0x90 + 4 * regIndex .r2 := by decide

theorem witness_LengthAndPresenceRegisters :
    State.reset.resetHeld = false ∧ State.reset.phase.isBusy = false ∧ (0x8C : Addr).toNat = 0x80 + 4 * regIndex .r3 ∧
      (0x9C : Addr).toNat = 0x90 + 4 * regIndex .r3 ∧ (0xBC : Addr).toNat = 0xB0 + 4 * regIndex .r3 ∧
      (4096 : Word).toNat ≤ 4096 ∧ 4096 < (4097 : Word).toNat ∧ ((withBn 5 (-5)).bn.get .r3).present = true := by decide

theorem witness_ControlRegistersStoreWhatIsWritten :
    State.reset.resetHeld = false ∧ State.reset.phase.isBusy = false := by decide

theorem witness_StatusFieldsAndInterrupt : (State.reset.failed .nullKey 0).resetHeld = false := rfl

theorem witness_ResetFromEveryState : ((busyWith 0x70 5).input .resetAssert).resetHeld = true := rfl

/-- BUSY with FF1ENC, two steps left, the host about to write. -/
def busyHost : State := { busyWith 0x72 2 with host := [.write 0x20 1] }

theorem witness_BusyChangesNothingButProgress :
    busyHost.phase = .busy 0x72 (1 + 1) ∧
      (∀ ops, busyHost.host ≠ .resetAssert :: ops ∧ busyHost.host ≠ .resetRelease :: ops) ∧
      step busyHost = .next (busyHost.busyTick 0x72 1) ∧ busyHost.progressTotal 0x72 = some 10 ∧
      busyHost.rdone.toNat ≤ 10 ∧ busyHost.resetHeld = false ∧
      (busyWith 0x00 1).progressTotal 0x00 = none ∧ (busyWith 0x72 1).ctrl.getLsbD 2 = false ∧ (busyWith 0x72 1).host = [] ∧
      ({ busyWith 0x72 1 with host := [.read 0x0000C] } : State).host = .read 0x0000C :: [] ∧
      (0x0000C : Addr).toNat < 0x100 ∧ locate 0x0000C = some .status :=
  ⟨rfl, fun _ => ⟨by simp [busyHost], by simp [busyHost]⟩, rfl, by decide, by decide, rfl, by decide, by decide, rfl, rfl,
    by decide, by decide⟩

theorem witness_BusyEngineBecomesFree : busyHost.phase = .busy 0x72 2 := rfl

/-- A sound state that is not the reset state: an error is recorded, a register and a parameter are written. -/
def soundState : State :=
  { State.failed (withNs [1, 2] [3]) .modZero 0 with
    ctrl := 3
    params := ff3Params 10
    host := [.write 0x00008 0x02] }

theorem witness_StepKeepsTheInvariant :
    soundState.Inv ∧ step soundState = .next soundState.serveHost := by
  refine ⟨⟨by decide, ?_, ?_, ?_, by decide, by decide, by decide, ⟨.modZero, rfl, rfl, by decide⟩, by decide, ?_, ?_, ?_⟩,
    rfl⟩
  · intro r; cases r <;> decide
  · intro r; cases r <;> decide
  · intro r; cases r <;> exact Nat.pos_of_ne_zero (by positivity)
  · intro w d h; cases h
  · intro w d h; cases h
  · intro h; cases h

end Sys2Proof.Tests
end

section
/-!
SUPPORT. The proofs of the statements on the state (10): the reset state, the invariant, the frame of commands, the host
port's registers, and a BUSY engine.
-/

namespace Sys2Proof.Machine

-- Many declarations checked at once need more thread stacks than the memory limit of check.sh allows.
set_option Elab.async false

/-!
# Sizes

No string that a pure function answers is longer than `MAXLEN`, no integer exceeds the least capacity of a big-integer
register (R31, R33, R36), and the Feistel rounds keep the length of their input (R207 to R211).
-/

/-! ## Big integers -/

/-- The least capacity of R9 holds every value of at most 4096 digits in a legal radix. -/
theorem pow_lt_capacity (c : Config) {radix m : Nat} (hr : radix ≤ 65536) (hm : m ≤ 4096) :
    radix ^ m < 2 ^ c.bnbits := by
  calc radix ^ m ≤ 65536 ^ m := Nat.pow_le_pow_left hr m
    _ = 2 ^ (16 * m) := by rw [pow_mul]; norm_num
    _ < 2 ^ c.bnbits := Nat.pow_lt_pow_right (by omega) (by unfold Config.bnbits; omega)

theorem num_lt_capacity (c : Config) {X : List Byte} {v : Nat} (h : num X = .ok v) : v < 2 ^ c.bnbits := by
  simp only [num, except_bind_ok_iff, require_ok_iff, except_pure, Except.ok.injEq] at h
  obtain ⟨-, ⟨-, hl⟩, rfl⟩ := h
  have hlt : byteValue X < 256 ^ (X.map BitVec.toNat).length := valueOf_lt fun d hd => by
    obtain ⟨b, -, rfl⟩ := List.mem_map.mp hd
    exact b.isLt
  rw [List.length_map] at hlt
  exact hlt.trans (pow_lt_capacity c (by omega) hl)

theorem numRadix_lt_capacity (c : Config) {X : List Word} {radix v : Nat} (h : numRadix X radix = .ok v) :
    v < 2 ^ c.bnbits := by
  obtain ⟨⟨-, hr⟩, ⟨-, hl⟩, hX, rfl⟩ := numRadix_ok_iff.mp h
  exact (numeralSum_lt hX).trans (pow_lt_capacity c hr hl)

theorem modInt_natAbs_lt {x m r : Int} (h : modInt x m = .ok r) : r.natAbs < m.natAbs := by
  simp only [modInt, except_bind_ok_iff, require_ok_iff, except_pure, Except.ok.injEq] at h
  obtain ⟨-, hm, rfl⟩ := h
  have := Int.emod_nonneg x hm.ne'
  have := Int.emod_lt_of_pos x hm
  omega

theorem capacityCheck_natAbs_lt {n : Nat} {x z : Int} (h : capacityCheck n x = .ok z) : z.natAbs < 2 ^ n := by
  simp only [capacityCheck, except_bind_ok_iff, require_ok_iff, except_pure, Except.ok.injEq] at h
  obtain ⟨-, hlt, rfl⟩ := h
  exact hlt

/-! ## Byte strings -/

theorem bytestring_length_le {x : Int} {n : Nat} {Y : List Byte} (h : bytestring x n = .ok Y) : Y.length ≤ 4096 := by
  simp only [bytestring, except_bind_ok_iff, require_ok_iff, except_pure, Except.ok.injEq] at h
  obtain ⟨-, ⟨-, hn⟩, -, -, rfl⟩ := h
  rwa [length_bytesOf]

theorem bitstring_length_le {b n : Nat} {Y : List Byte} (h : bitstring b n = .ok Y) : Y.length ≤ 4096 := by
  simp only [bitstring, except_bind_ok_iff, require_ok_iff, except_pure, Except.ok.injEq] at h
  obtain ⟨-, ⟨-, -, hn⟩, -, -, rfl⟩ := h
  rwa [List.length_replicate]

theorem concatenate_length_le {α : Type} {X Y Z : List α} (h : concatenate X Y = .ok Z) : Z.length ≤ 4096 := by
  simp only [concatenate, except_bind_ok_iff, require_ok_iff, except_pure, Except.ok.injEq] at h
  obtain ⟨-, hl, rfl⟩ := h
  rwa [List.length_append]

theorem xorStrings_length {X Y Z : List Byte} (h : xorStrings X Y = .ok Z) : Z.length = X.length := by
  simp only [xorStrings, except_bind_ok_iff, require_ok_iff, except_pure, Except.ok.injEq] at h
  obtain ⟨-, hl, rfl⟩ := h
  rw [length_xorBytes, hl, min_self]

@[simp] theorem length_rev {α : Type} (X : List α) : (rev X).length = X.length := List.length_reverse

theorem aesEcb_length_le (E : BlockCipher) (K X : List Byte) : (aesEcb E K X).length ≤ X.length := by
  have hlen : (aesEcb E K X).length = X.length / 16 * 16 := by
    simp [aesEcb, List.length_flatMap, Function.comp_def, blocksOf]
  omega

theorem cbcChain_flatten_length (E : BlockCipher) (K c : List Byte) (Bs : List (List Byte)) :
    (cbcChain E K c Bs).flatten.length = 16 * Bs.length := by
  induction Bs generalizing c with
  | nil => rfl
  | cons B Bs ih =>
    rw [cbcChain, List.flatten_cons, List.length_append, length_encryptBlock, ih, List.length_cons]
    omega

theorem aesCbc0_length_le (E : BlockCipher) (K X : List Byte) : (aesCbc0 E K X).length ≤ X.length := by
  have hlen : (aesCbc0 E K X).length = 16 * (X.length / 16) := by
    rw [aesCbc0, cbcChain_flatten_length, blocksOf, List.length_map, List.length_range]
  omega

/-- The provider never answers more than it was given (R97). -/
theorem aesRequest_length_le {P : Provider} {q : AesRequest} {Y : List Byte} (h : aesRequest P q = .ok Y) :
    Y.length ≤ q.data.length := by
  rw [aesRequest_eq] at h
  split at h
  · cases h
  · cases h
    split
    · exact aesEcb_length_le ..
    · exact aesCbc0_length_le ..

theorem ciph_length_le {P : Provider} {K X Y : List Byte} (h : ciph P K X = .ok Y) : Y.length ≤ 4096 := by
  simp only [ciph, except_bind_ok_iff, validData, require_ok_iff] at h
  obtain ⟨-, -, -, ⟨-, hl, -⟩, hY⟩ := h
  exact (aesRequest_length_le hY).trans hl

theorem prf_length_le {P : Provider} {K X Y : List Byte} (h : prf P K X = .ok Y) : Y.length ≤ 4096 := by
  have hvalid := h
  simp only [prf, except_bind_ok_iff, validKey, validData, require_ok_iff] at hvalid
  obtain ⟨-, hK, -, hX, -⟩ := hvalid
  rw [prf_eq hK hX] at h
  split at h
  · cases h
  · cases h
    rw [length_macOf]
    omega

theorem prf2_length_le {P : Provider} {K X Y : List Byte} (h : prf2 P K X = .ok Y) : Y.length ≤ 4096 := by
  simp only [prf2, except_bind_ok_iff, validData, require_ok_iff, except_pure, Except.ok.injEq] at h
  obtain ⟨-, -, -, ⟨-, hl, -⟩, C, hC, rfl⟩ := h
  have hle : C.length ≤ X.length := aesRequest_length_le hC
  rw [List.length_drop]
  omega

theorem off2_length_le {P : Provider} {K T Y : List Byte} (h : off2 P K T = .ok Y) : Y.length ≤ 4096 := by
  simp only [off2, except_bind_ok_iff] at h
  obtain ⟨-, -, -, -, hY⟩ := h
  exact ciph_length_le hY

/-! ## Numeral strings -/

theorem strRadix_length_le {x : Int} {radix m : Nat} {Y : List Word} (h : strRadix x radix m = .ok Y) :
    Y.length ≤ 4096 := by
  obtain ⟨-, ⟨-, hm⟩, -, rfl⟩ := strRadix_ok_iff.mp h
  rwa [length_numeralsOf]

/-- Every round function ends by writing a numeral string (R235, R255, R275). -/
theorem fFF1_length_le {P : Provider} {radix n i : Nat} {K T : List Byte} {B Y : List Word}
    (h : fFF1 P radix K n T i B = .ok Y) : Y.length ≤ 4096 := by
  simp only [fFF1, except_bind_ok_iff] at h
  obtain ⟨_, -, _, -, _, -, _, -, _, -, hY⟩ := h
  exact strRadix_length_le hY

theorem fFF2_length_le {P : Provider} {radix tradix n i : Nat} {K T : List Byte} {B Y : List Word}
    (h : fFF2 P radix tradix K n T i B = .ok Y) : Y.length ≤ 4096 := by
  simp only [fFF2, except_bind_ok_iff] at h
  obtain ⟨_, -, _, -, _, -, _, -, _, -, _, -, _, -, hY⟩ := h
  exact strRadix_length_le hY

theorem fFF3_length_le {P : Provider} {radix n i : Nat} {K T : List Byte} {B Y : List Word}
    (h : fFF3 P radix K n T i B = .ok Y) : Y.length ≤ 4096 := by
  simp only [fFF3, except_bind_ok_iff] at h
  obtain ⟨_, -, _, -, _, -, _, -, hY⟩ := h
  exact strRadix_length_le hY

theorem State.ff1Round_length_le {s : State} {x : RoundInput} {Y : List Word} (h : s.ff1Round x = .ok Y) :
    Y.length ≤ 4096 := by
  simp only [State.ff1Round, except_bind_ok_iff] at h
  obtain ⟨-, -, -, -, -, -, hY⟩ := h
  exact fFF1_length_le hY

theorem State.ff2Round_length_le {s : State} {x : RoundInput} {Y : List Word} (h : s.ff2Round x = .ok Y) :
    Y.length ≤ 4096 := by
  simp only [State.ff2Round, except_bind_ok_iff] at h
  obtain ⟨-, -, -, -, -, -, hY⟩ := h
  exact fFF2_length_le hY

theorem State.ff3Round_length_le {s : State} {x : RoundInput} {Y : List Word} (h : s.ff3Round x = .ok Y) :
    Y.length ≤ 4096 := by
  simp only [State.ff3Round, except_bind_ok_iff] at h
  obtain ⟨-, -, -, -, -, -, hY⟩ := h
  exact fFF3_length_le hY

/-! ## The arithmetic function keeps the length of its first operand (R191, R194, R197) -/

theorem blockwise_length {op : Int → Int → Int} {radix : Nat} {A Y C : List Word}
    (h : blockwise op radix A Y = .ok C) : C.length = A.length := by
  obtain ⟨_, hchk, -⟩ := except_bind_ok_iff.mp h
  rw [blockwise_ok hchk] at h
  cases h
  exact length_numeralsOf ..

theorem reversedBlockwise_length {op : Int → Int → Int} {radix : Nat} {A Y C : List Word}
    (h : reversedBlockwise op radix A Y = .ok C) : C.length = A.length := by
  obtain ⟨_, hchk, -⟩ := except_bind_ok_iff.mp h
  rw [reversedBlockwise_ok hchk] at h
  cases h
  rw [List.length_reverse, length_numeralsOf]

theorem characterwise_length {op : Int → Int → Int} {radix : Nat} {A Y C : List Word}
    (h : characterwise op radix A Y = .ok C) : C.length = A.length := by
  obtain ⟨_, hchk, hC⟩ := except_bind_ok_iff.mp h
  obtain ⟨-, hlen, -⟩ := arithCheck_ok_iff.mp hchk
  cases hC
  rw [List.length_zipWith, ← hlen, min_self]

theorem addBy_length {arith radix : Nat} {A Y C : List Word} (h : addBy arith radix A Y = .ok C) :
    C.length = A.length := by
  unfold addBy at h
  split at h
  · exact blockwise_length h
  · exact reversedBlockwise_length h
  · exact characterwise_length h

theorem subBy_length {arith radix : Nat} {A Y C : List Word} (h : subBy arith radix A Y = .ok C) :
    C.length = A.length := by
  unfold subBy at h
  split at h
  · exact blockwise_length h
  · exact reversedBlockwise_length h
  · exact characterwise_length h

/-! ## The Feistel rounds keep the length of their input -/

/-- What every round keeps, the iteration keeps. -/
theorem iterate_ok_keeps {σ : Type} {f : Nat → σ → Except Raise σ} {Q : σ → Prop}
    (hf : ∀ k x y, Q x → f k x = .ok y → Q y) {count done : Nat} {x y : σ} (hx : Q x)
    (h : iterate f count done x = .ok y) : Q y := by
  obtain ⟨g, rfl, rfl, hg⟩ := (iterate_ok_iff f count done x y).mp h
  have hall : ∀ k, k ≤ count → Q (g k) := fun k => by
    induction k with
    | zero => exact fun _ => hx
    | succ k ih => exact fun hk => hf _ _ _ (ih (by omega)) (hg k hk)
  exact hall count le_rfl

/-- Both arithmetic functions of the network keep the length of their first operand. -/
def Network.KeepsLength (N : Network) : Prop :=
  (∀ A Y C, N.add A Y = .ok C → C.length = A.length) ∧ ∀ A Y C, N.sub A Y = .ok C → C.length = A.length

section

variable {N : Network} {X Z : List Word}

theorem iterate_halves_length {f : Nat → List Word × List Word → Except Raise (List Word × List Word)}
    (hf : ∀ k x y, f k x = .ok y → y.1.length + y.2.length = x.1.length + x.2.length) {count l : Nat}
    {x : List Word × List Word} (h : iterate f count 0 (X.take l, X.drop l) = .ok x) :
    (x.1 ++ x.2).length = X.length := by
  rw [List.length_append]
  refine iterate_ok_keeps (Q := fun x => x.1.length + x.2.length = X.length)
    (fun k x y hlen hy => (hf k x y hy).trans hlen) ?_ h
  rw [← List.length_append, List.take_append_drop]

theorem Network.twoEnc_length (hN : N.KeepsLength) (h : N.twoEnc X = .ok Z) : Z.length = X.length := by
  obtain ⟨x, hx, hZ⟩ := except_bind_ok_iff.mp h
  cases hZ
  refine iterate_halves_length (fun k x y hy => ?_) hx
  simp only [Network.twoEncRound, except_bind_ok_iff, except_pure, Except.ok.injEq] at hy
  obtain ⟨_, -, c, hc, rfl⟩ := hy
  rw [hN.1 _ _ _ hc, Nat.add_comm]

theorem Network.twoDec_length (hN : N.KeepsLength) (h : N.twoDec X = .ok Z) : Z.length = X.length := by
  obtain ⟨x, hx, hZ⟩ := except_bind_ok_iff.mp h
  cases hZ
  refine iterate_halves_length (fun k x y hy => ?_) hx
  simp only [Network.twoDecRound, except_bind_ok_iff, except_pure, Except.ok.injEq] at hy
  obtain ⟨_, -, a, ha, rfl⟩ := hy
  rw [hN.2 _ _ _ ha, Nat.add_comm]

theorem Network.oneEnc_length (hN : N.KeepsLength) (h : N.oneEnc X = .ok Z) : Z.length = X.length := by
  refine iterate_ok_keeps (Q := fun x => x.length = X.length) (fun k x y hlen hy => ?_) rfl h
  simp only [Network.oneEncRound, except_bind_ok_iff, except_pure, Except.ok.injEq] at hy
  obtain ⟨_, -, c, hc, rfl⟩ := hy
  rw [← hlen, List.length_append, hN.1 _ _ _ hc, Nat.add_comm, ← List.length_append, List.take_append_drop]

theorem Network.oneDec_length (hN : N.KeepsLength) (h : N.oneDec X = .ok Z) : Z.length = X.length := by
  refine iterate_ok_keeps (Q := fun x => x.length = X.length) (fun k x y hlen hy => ?_) rfl h
  simp only [Network.oneDecRound, except_bind_ok_iff, except_pure, Except.ok.injEq] at hy
  obtain ⟨_, -, a, ha, rfl⟩ := hy
  rw [← hlen, List.length_append, hN.2 _ _ _ ha, Nat.add_comm, ← List.length_append, List.take_append_drop]

theorem Network.encrypt_length {method : Nat} (hN : N.KeepsLength) (h : N.encrypt method X = .ok Z) :
    Z.length = X.length := by
  unfold Network.encrypt at h
  split at h
  · exact Network.oneEnc_length hN h
  · exact Network.twoEnc_length hN h

theorem Network.decrypt_length {method : Nat} (hN : N.KeepsLength) (h : N.decrypt method X = .ok Z) :
    Z.length = X.length := by
  unfold Network.decrypt at h
  split at h
  · exact Network.oneDec_length hN h
  · exact Network.twoDec_length hN h

/-! An error inside the rounds comes before the last of them is completed (R213). -/

theorem iterate_error_done_le {σ : Type} {f : Nat → σ → Except Raise σ} {count : Nat} {x : σ} {e : RoundError}
    (h : iterate f count 0 x = .error e) : e.done ≤ count := by
  have := iterate_error_done f count 0 x e h
  omega

theorem Network.twoEnc_error_done_le {f : RoundError} (h : N.twoEnc X = .error f) : f.done ≤ N.r := by
  rcases except_bind_error_iff.mp h with h | ⟨_, _, ⟨⟩⟩
  exact iterate_error_done_le h

theorem Network.twoDec_error_done_le {f : RoundError} (h : N.twoDec X = .error f) : f.done ≤ N.r := by
  rcases except_bind_error_iff.mp h with h | ⟨_, _, ⟨⟩⟩
  exact iterate_error_done_le h

theorem Network.encrypt_error_done_le {method : Nat} {f : RoundError} (h : N.encrypt method X = .error f) :
    f.done ≤ N.r := by
  unfold Network.encrypt at h
  split at h
  · exact iterate_error_done_le h
  · exact Network.twoEnc_error_done_le h

theorem Network.decrypt_error_done_le {method : Nat} {f : RoundError} (h : N.decrypt method X = .error f) :
    f.done ≤ N.r := by
  unfold Network.decrypt at h
  split at h
  · exact iterate_error_done_le h
  · exact Network.twoDec_error_done_le h

end

theorem Params.network_keepsLength (p : Params) (P : Provider) (K T : List Byte) (n : Nat) :
    (p.network P K T n).KeepsLength :=
  ⟨fun _ _ _ => addBy_length, fun _ _ _ => subBy_length⟩

theorem ff1Network_keepsLength (P : Provider) (radix : Nat) (K T : List Byte) (n : Nat) :
    (ff1Network P radix K T n).KeepsLength :=
  ⟨fun _ _ _ => blockwise_length, fun _ _ _ => blockwise_length⟩

theorem ff2Network_keepsLength (P : Provider) (radix tradix : Nat) (K T : List Byte) (n : Nat) :
    (ff2Network P radix tradix K T n).KeepsLength :=
  ⟨fun _ _ _ => blockwise_length, fun _ _ _ => blockwise_length⟩

/-- The rounds are begun only where `ROUNDS` is at most 255 (R204, R205). -/
theorem Params.precheck_rounds_le {p : Params} {x : CipherInput} {u : Unit} (h : p.precheck x = .ok u) :
    p.rounds.toNat ≤ 255 := by
  obtain ⟨_, hok, -⟩ := except_bind_ok_iff.mp h
  simp only [paramsOk, except_bind_ok_iff, require_ok_iff] at hok
  obtain ⟨-, -, -, -, -, -, -, -, -, hrounds, -⟩ := hok
  exact hrounds

/-!
# Commands

What a command can do, said once. `CommandEnd` lists the ends of a command as plain data; `exec_ends` finds the end of
every command in every state, which depends on no bit of CTRL (R41). The frame of the commands (R39), how they end (R60,
R63), the independence of CTRL and the command half of the invariant are read off from it.
-/

/-! ## The ends of a command as data -/

/-- What a command that completes writes, besides the record of its completion (R39). -/
inductive Effect where
  | nothing
  | ns (r : Reg) (v : List Word)
  | bs (r : Reg) (v : List Byte)
  | bn (r : Reg) (v : Int)
  | res0 (w : Word)
  | params (p : Params)

/-- The write itself. -/
def Effect.on (s : State) : Effect → State
  | .nothing => s
  | .ns r v => s.putNs r v
  | .bs r v => s.putBs r v
  | .bn r v => s.putBn r v
  | .res0 w => { s with res0 := w }
  | .params p => { s with params := p }

/-- How a command ends: completion (R63), error entry (R325), or the return to IDLE of CLR and WIPE (R297, R298). -/
inductive CommandEnd where
  | completes (f : Effect) (p : Progress)
  | fails (e : Raise) (p : Progress)
  | clears
  | wipes

/-- The state in which the command leaves `s`. -/
def CommandEnd.on (s : State) : CommandEnd → State
  | .completes f p => (f.on s).complete p
  | .fails e p => s.enterError e p
  | .clears => s.toIdle
  | .wipes => s.wiped.toIdle

/-- Every string register has a legal length (R31, R33). -/
def State.LengthsFit (s : State) : Prop := ∀ r, (s.ns.get r).len ≤ 4096 ∧ (s.bs.get r).len ≤ 4096

/-- Every big-integer register has a legal magnitude (R36). -/
def State.MagnitudesFit (s : State) : Prop := ∀ r, (s.bn.get r).value.natAbs < 2 ^ s.cfg.bnbits

/-- The writes that command `i` can make from `s`: its own destination (R39), and a value that fits there. -/
def Effect.Fits (i : Instr) (s : State) : Effect → Prop
  | .nothing => True
  | .ns r v => nsDest i = some r ∧ (s.LengthsFit → v.length ≤ 4096)
  | .bs r v => bsDest i = some r ∧ (s.LengthsFit → v.length ≤ 4096)
  | .bn r v => bnDest i = some r ∧ (s.MagnitudesFit → v.natAbs < 2 ^ s.cfg.bnbits)
  | .res0 _ => i = .split ∨ i = .rnds
  | .params p => (i = .ldff1 ∨ i = .ldff2 ∨ i = .ldff3) ∧ p.mode.toNat < 256

/-- A progress that eight bits can show (R46, R340). -/
def Progress.Fits (p : Progress) : Prop := p.done ≤ p.total ∧ p.total ≤ 255

/-- The ends that command `i` can have from `s`. -/
def CommandEnd.Fits (i : Instr) (s : State) : CommandEnd → Prop
  | .completes f p => (i ≠ .clr ∧ i ≠ .wipe) ∧ f.Fits i s ∧ p.Fits
  | .fails _ p => (i ≠ .clr ∧ i ≠ .wipe) ∧ p.Fits
  | .clears => i = .clr
  | .wipes => i = .wipe

/-- The same state with another CTRL. -/
def State.withCtrl (s : State) (c : Word) : State := { s with ctrl := c }

theorem Progress.fits_none : Progress.none.Fits := ⟨le_refl _, Nat.zero_le _⟩

/-! ## Sources -/

theorem State.srcNs_ok {s : State} {r : Reg} {c : Cause} {v : List Word} (h : s.srcNs r c = .ok v) : v = s.nsVal r := by
  unfold State.srcNs at h
  split at h <;> cases h
  rfl

theorem State.srcBs_ok {s : State} {r : Reg} {c : Cause} {v : List Byte} (h : s.srcBs r c = .ok v) : v = s.bsVal r := by
  unfold State.srcBs at h
  split at h <;> cases h
  rfl

theorem State.srcBn_ok {s : State} {r : Reg} {c : Cause} {v : Int} (h : s.srcBn r c = .ok v) :
    v = (s.bn.get r).value := by
  unfold State.srcBn at h
  split at h <;> cases h
  rfl

theorem State.cipherInput_X {s : State} {ra : Reg} {x : CipherInput} (h : s.cipherInput ra = .ok x) :
    x.X = s.nsVal ra := by
  simp only [State.cipherInput, except_bind_ok_iff, except_pure, Except.ok.injEq] at h
  obtain ⟨_, -, _, -, X, hX, rfl⟩ := h
  exact State.srcNs_ok hX

/-! ## Computations that do not read CTRL -/

/-- The computation `x` of a command gives, whatever CTRL holds, one error or one write of those `i` can make. -/
def Computes (i : Instr) (s : State) (x : State → Except Raise State) : Prop :=
  (∃ e, ∀ c, x (s.withCtrl c) = .error e) ∨ ∃ f : Effect, f.Fits i s ∧ ∀ c, x (s.withCtrl c) = .ok (f.on (s.withCtrl c))

section

variable {i : Instr} {s : State}

theorem Computes.write (f : Effect) (h : f.Fits i s) : Computes i s fun s' => pure (f.on s') :=
  .inr ⟨f, h, fun _ => except_pure _⟩

/-- A first step that does not read CTRL, then a computation of what it answered. -/
theorem Computes.bind {α : Type} {x : State → Except Raise α} {k : α → State → Except Raise State}
    (hk : ∀ a, x s = .ok a → Computes i s (k a)) (hx : ∀ c, x (s.withCtrl c) = x s := by intro _; rfl) :
    Computes i s fun s' => x s' >>= fun a => k a s' := by
  unfold Computes
  rcases h : x s with e | a
  · exact .inl ⟨e, fun c => by simp only [hx, h, except_error_bind]⟩
  · simp only [hx, h, except_ok_bind]
    exact hk a h

/-- A choice that does not read CTRL. -/
theorem Computes.ite {p : State → Prop} [∀ s', Decidable (p s')] {x y : State → Except Raise State}
    (hx : p s → Computes i s x) (hy : ¬ p s → Computes i s y) (hp : ∀ c, p (s.withCtrl c) = p s := by intro _; rfl) :
    Computes i s fun s' => if p s' then x s' else y s' := by
  unfold Computes
  by_cases h : p s
  · simp only [hp, h, if_true]
    exact hx h
  · simp only [hp, h, if_false]
    exact hy h

/-- How command `i` ends from `s` is data that does not depend on CTRL (R41). -/
def Ends (i : Instr) (s : State) : Prop :=
  ∃ o : CommandEnd, o.Fits i s ∧ ∀ c, exec i (s.withCtrl c) = .next (o.on (s.withCtrl c))

/-- A command that ends by `finish` (R63, R325). -/
theorem ends_of_finish {x : State → Except Raise State} (hexec : ∀ s', exec i s' = s'.finish (x s'))
    (hi : i ≠ .clr ∧ i ≠ .wipe) (h : Computes i s x) : Ends i s := by
  rcases h with ⟨e, he⟩ | ⟨f, hf, hx⟩
  · exact ⟨.fails e .none, ⟨hi, Progress.fits_none⟩, fun c => by rw [hexec, he]; rfl⟩
  · exact ⟨.completes f .none, ⟨hi, hf, Progress.fits_none⟩, fun c => by rw [hexec, hx]; rfl⟩

/-- A cipher command of `total` rounds: its operands, its checks, the rounds, which keep the length of the input. -/
theorem ends_of_rounds {rd ra : Reg} {total : Nat} {check : CipherInput → Except Raise Unit}
    {run : CipherInput → Except RoundError (List Word)}
    (hexec : ∀ c, exec i (s.withCtrl c) =
      (s.withCtrl c).finishCipher rd total do let x ← s.cipherInput ra; check x; pure (run x))
    (hi : i ≠ .clr ∧ i ≠ .wipe) (hd : nsDest i = some rd) (htotal : ∀ x u, check x = .ok u → total ≤ 255)
    (hrun : ∀ x, (∀ Y, run x = .ok Y → Y.length = x.X.length) ∧ ∀ f, run x = .error f → f.done ≤ total) : Ends i s := by
  rcases hx : s.cipherInput ra with e | x
  · exact ⟨.fails e .none, ⟨hi, Progress.fits_none⟩, fun c => by rw [hexec, hx]; rfl⟩
  rcases hc : check x with e | u
  · exact ⟨.fails e .none, ⟨hi, Progress.fits_none⟩, fun c => by rw [hexec, hx, except_ok_bind, hc]; rfl⟩
  rcases hr : run x with f | Y
  · exact ⟨.fails f.error ⟨total, f.done⟩, ⟨hi, (hrun x).2 f hr, htotal x u hc⟩,
      fun c => by rw [hexec, hx, except_ok_bind, hc, except_ok_bind, hr]; rfl⟩
  · refine ⟨.completes (.ns rd Y) ⟨total, total⟩, ⟨hi, ⟨hd, fun hfit => ?_⟩, le_refl _, htotal x u hc⟩,
      fun c => by rw [hexec, hx, except_ok_bind, hc, except_ok_bind, hr]; rfl⟩
    have hX : x.X = s.nsVal ra := s.cipherInput_X hx
    rw [(hrun x).1 Y hr, hX, State.length_nsVal]
    exact (hfit ra).1

end

/-! ## Every command -/

section

variable (rd ra rb : Reg) (s : State)

/-! ### System, parameter loads, SPLIT and RNDS (R200, R201, R238, R258, R278, R296 to R298) -/

theorem ends_nop : Ends .nop s := ends_of_finish (fun _ => rfl) ⟨nofun, nofun⟩ (.write .nothing trivial)

theorem ends_clr : Ends .clr s := ⟨.clears, rfl, fun _ => rfl⟩

theorem ends_wipe : Ends .wipe s := ⟨.wipes, rfl, fun _ => rfl⟩

theorem ends_split : Ends .split s :=
  ends_of_finish (fun _ => rfl) ⟨nofun, nofun⟩ <| .bind fun _ _ => .bind fun l _ =>
    .write (.res0 (BitVec.ofNat 32 l)) (.inl rfl)

theorem ends_rnds : Ends .rnds s :=
  ends_of_finish (fun _ => rfl) ⟨nofun, nofun⟩ <| .bind fun _ _ => .bind fun r _ =>
    .write (.res0 (BitVec.ofNat 32 r)) (.inr rfl)

theorem ends_ldff1 : Ends .ldff1 s :=
  ends_of_finish (fun _ => rfl) ⟨nofun, nofun⟩ <| .bind fun _ _ => .bind fun _ _ =>
    .write (.params (ff1Params s.arg0 s.arg1)) ⟨.inl rfl, (by decide : (0x56 : Word).toNat < 256)⟩

theorem ends_ldff2 : Ends .ldff2 s :=
  ends_of_finish (fun _ => rfl) ⟨nofun, nofun⟩ <| .bind fun _ _ => .bind fun _ _ =>
    .write (.params (ff2Params s.arg0 s.arg1)) ⟨.inr (.inl rfl), (by decide : (0x96 : Word).toNat < 256)⟩

theorem ends_ldff3 : Ends .ldff3 s :=
  ends_of_finish (fun _ => rfl) ⟨nofun, nofun⟩ <| .bind fun _ _ =>
    .write (.params (ff3Params s.arg0)) ⟨.inr (.inr rfl), (by decide : (0xEA : Word).toNat < 256)⟩

/-! ### Primitives that write a big integer (R131, R133, R154, R156 to R158) -/

theorem ends_num : Ends (.num rd ra) s :=
  ends_of_finish (fun _ => rfl) ⟨nofun, nofun⟩ <| .bind fun _ _ => .bind fun x hx =>
    .write (.bn rd x) ⟨rfl, fun _ => num_lt_capacity _ hx⟩

theorem ends_numr : Ends (.numr rd ra) s :=
  ends_of_finish (fun _ => rfl) ⟨nofun, nofun⟩ <| .bind fun _ _ => .bind fun x hx =>
    .write (.bn rd x) ⟨rfl, fun _ => numRadix_lt_capacity _ hx⟩

theorem ends_mod : Ends (.mod rd ra rb) s :=
  ends_of_finish (fun _ => rfl) ⟨nofun, nofun⟩ <| .bind fun _ _ => .bind fun m hm => .bind fun r hr =>
    .write (.bn rd r) ⟨rfl, fun hfit => (modInt_natAbs_lt hr).trans (State.srcBn_ok hm ▸ hfit rb)⟩

theorem ends_powr : Ends (.powr rd) s :=
  ends_of_finish (fun _ => rfl) ⟨nofun, nofun⟩ <| .bind fun _ hr => .bind fun _ hm =>
    .write (.bn rd (s.scalar0 ^ s.scalar1 : Nat))
      ⟨rfl, fun _ => pow_lt_capacity _ (require_ok_iff.mp hr).2 (require_ok_iff.mp hm)⟩

theorem ends_bnadd : Ends (.bnadd rd ra rb) s :=
  ends_of_finish (fun _ => rfl) ⟨nofun, nofun⟩ <| .bind fun _ _ => .bind fun _ _ => .bind fun z hz =>
    .write (.bn rd z) ⟨rfl, fun _ => capacityCheck_natAbs_lt hz⟩

theorem ends_bnsub : Ends (.bnsub rd ra rb) s :=
  ends_of_finish (fun _ => rfl) ⟨nofun, nofun⟩ <| .bind fun _ _ => .bind fun _ _ => .bind fun z hz =>
    .write (.bn rd z) ⟨rfl, fun _ => capacityCheck_natAbs_lt hz⟩

/-! ### Primitives and adapter commands that write a byte string (R140 to R151, R173 to R177, R291, R292) -/

theorem ends_bytestr : Ends (.bytestr rd ra) s :=
  ends_of_finish (fun _ => rfl) ⟨nofun, nofun⟩ <| .bind fun _ _ => .bind fun Y hY =>
    .write (.bs rd Y) ⟨rfl, fun _ => bytestring_length_le hY⟩

theorem ends_bytestri : Ends (.bytestri rd) s :=
  ends_of_finish (fun _ => rfl) ⟨nofun, nofun⟩ <| .bind fun Y hY =>
    .write (.bs rd Y) ⟨rfl, fun _ => bytestring_length_le hY⟩

theorem ends_bitstr : Ends (.bitstr rd) s :=
  ends_of_finish (fun _ => rfl) ⟨nofun, nofun⟩ <| .bind fun Y hY =>
    .write (.bs rd Y) ⟨rfl, fun _ => bitstring_length_le hY⟩

theorem ends_catb : Ends (.catb rd ra rb) s :=
  ends_of_finish (fun _ => rfl) ⟨nofun, nofun⟩ <| .bind fun _ _ => .bind fun _ _ => .bind fun Z hZ =>
    .write (.bs rd Z) ⟨rfl, fun _ => concatenate_length_le hZ⟩

theorem ends_xorb : Ends (.xorb rd ra rb) s :=
  ends_of_finish (fun _ => rfl) ⟨nofun, nofun⟩ <| .bind fun X hX => .bind fun _ _ => .bind fun Z hZ =>
    .write (.bs rd Z) ⟨rfl, fun hfit => by
      rw [xorStrings_length hZ, State.srcBs_ok hX, State.length_bsVal]
      exact (hfit ra).2⟩

theorem ends_revb : Ends (.revb rd ra) s :=
  ends_of_finish (fun _ => rfl) ⟨nofun, nofun⟩ <| .bind fun X hX =>
    .write (.bs rd (Machine.rev X)) ⟨rfl, fun hfit => by
      rw [length_rev, State.srcBs_ok hX, State.length_bsVal]
      exact (hfit ra).2⟩

theorem ends_ciph : Ends (.ciph rd ra rb) s :=
  ends_of_finish (fun _ => rfl) ⟨nofun, nofun⟩ <| .bind fun _ _ => .bind fun _ _ => .bind fun Y hY =>
    .write (.bs rd Y) ⟨rfl, fun _ => ciph_length_le hY⟩

theorem ends_prf : Ends (.prf rd ra rb) s :=
  ends_of_finish (fun _ => rfl) ⟨nofun, nofun⟩ <| .bind fun _ _ => .bind fun _ _ => .bind fun Y hY =>
    .write (.bs rd Y) ⟨rfl, fun _ => prf_length_le hY⟩

theorem ends_prf2 : Ends (.prf2 rd ra rb) s :=
  ends_of_finish (fun _ => rfl) ⟨nofun, nofun⟩ <| .bind fun _ _ => .bind fun _ _ => .bind fun Y hY =>
    .write (.bs rd Y) ⟨rfl, fun _ => prf2_length_le hY⟩

theorem ends_off1 : Ends (.off1 rd ra rb) s :=
  ends_of_finish (fun _ => rfl) ⟨nofun, nofun⟩ <|
    .write (.bs rd (zeros 16)) ⟨rfl, fun _ => by rw [length_zeros]; decide⟩

theorem ends_off2 : Ends (.off2 rd ra rb) s :=
  ends_of_finish (fun _ => rfl) ⟨nofun, nofun⟩ <| .bind fun _ _ => .bind fun _ _ => .bind fun Y hY =>
    .write (.bs rd Y) ⟨rfl, fun _ => off2_length_le hY⟩

/-! ### Primitives and arithmetic commands that write a numeral string (R136, R146, R150, R192 to R199) -/

theorem ends_str : Ends (.str rd ra) s :=
  ends_of_finish (fun _ => rfl) ⟨nofun, nofun⟩ <| .bind fun _ _ => .bind fun Y hY =>
    .write (.ns rd Y) ⟨rfl, fun _ => strRadix_length_le hY⟩

theorem ends_catn : Ends (.catn rd ra rb) s :=
  ends_of_finish (fun _ => rfl) ⟨nofun, nofun⟩ <| .bind fun _ _ => .bind fun _ _ => .bind fun Z hZ =>
    .write (.ns rd Z) ⟨rfl, fun _ => concatenate_length_le hZ⟩

theorem ends_rev : Ends (.rev rd ra) s :=
  ends_of_finish (fun _ => rfl) ⟨nofun, nofun⟩ <| .bind fun X hX =>
    .write (.ns rd (Machine.rev X)) ⟨rfl, fun hfit => by
      rw [length_rev, State.srcNs_ok hX, State.length_nsVal]
      exact (hfit ra).1⟩

variable {rd ra rb s} in
/-- The six arithmetic commands (R192), whose functions keep the length of the first operand. -/
theorem ends_of_arithmetic {i : Instr} {f : Nat → List Word → List Word → Except Raise (List Word)}
    (hexec : ∀ s', exec i s' = s'.arithmetic f rd ra rb) (hi : i ≠ .clr ∧ i ≠ .wipe) (hd : nsDest i = some rd)
    (hf : ∀ radix A Y C, f radix A Y = .ok C → C.length = A.length) : Ends i s :=
  ends_of_finish hexec hi <| .bind fun A hA => .bind fun _ _ => .bind fun C hC => .write (.ns rd C) ⟨hd, fun hfit => by
    rw [hf _ _ _ _ hC, State.srcNs_ok hA, State.length_nsVal]
    exact (hfit ra).1⟩

theorem ends_addblk : Ends (.addblk rd ra rb) s :=
  ends_of_arithmetic (fun _ => rfl) ⟨nofun, nofun⟩ rfl fun _ _ _ _ => blockwise_length

theorem ends_subblk : Ends (.subblk rd ra rb) s :=
  ends_of_arithmetic (fun _ => rfl) ⟨nofun, nofun⟩ rfl fun _ _ _ _ => blockwise_length

theorem ends_addrev : Ends (.addrev rd ra rb) s :=
  ends_of_arithmetic (fun _ => rfl) ⟨nofun, nofun⟩ rfl fun _ _ _ _ => reversedBlockwise_length

theorem ends_subrev : Ends (.subrev rd ra rb) s :=
  ends_of_arithmetic (fun _ => rfl) ⟨nofun, nofun⟩ rfl fun _ _ _ _ => reversedBlockwise_length

theorem ends_addchr : Ends (.addchr rd ra rb) s :=
  ends_of_arithmetic (fun _ => rfl) ⟨nofun, nofun⟩ rfl fun _ _ _ _ => characterwise_length

theorem ends_subchr : Ends (.subchr rd ra rb) s :=
  ends_of_arithmetic (fun _ => rfl) ⟨nofun, nofun⟩ rfl fun _ _ _ _ => characterwise_length

/-! ### Round-function commands (R203, R236, R256, R276) -/

theorem ends_frnd : Ends (.frnd rd ra) s :=
  ends_of_finish (fun _ => rfl) ⟨nofun, nofun⟩ <| .bind fun _ _ => .bind fun _ _ => .ite
    (fun _ => .bind fun Y hY => .write (.ns rd Y) ⟨rfl, fun _ => State.ff1Round_length_le hY⟩)
    fun _ => .ite
      (fun _ => .bind fun Y hY => .write (.ns rd Y) ⟨rfl, fun _ => State.ff2Round_length_le hY⟩)
      fun _ => .bind fun Y hY => .write (.ns rd Y) ⟨rfl, fun _ => State.ff3Round_length_le hY⟩

theorem ends_f1rnd : Ends (.f1rnd rd ra) s :=
  ends_of_finish (fun _ => rfl) ⟨nofun, nofun⟩ <| .bind fun _ _ => .bind fun Y hY =>
    .write (.ns rd Y) ⟨rfl, fun _ => State.ff1Round_length_le hY⟩

theorem ends_f2rnd : Ends (.f2rnd rd ra) s :=
  ends_of_finish (fun _ => rfl) ⟨nofun, nofun⟩ <| .bind fun _ _ => .bind fun Y hY =>
    .write (.ns rd Y) ⟨rfl, fun _ => State.ff2Round_length_le hY⟩

theorem ends_f3rnd : Ends (.f3rnd rd ra) s :=
  ends_of_finish (fun _ => rfl) ⟨nofun, nofun⟩ <| .bind fun _ _ => .bind fun Y hY =>
    .write (.ns rd Y) ⟨rfl, fun _ => State.ff3Round_length_le hY⟩

/-! ### Cipher commands (R210, R211, R240, R241, R260, R261) -/

theorem ends_enc : Ends (.enc rd ra) s :=
  ends_of_rounds (check := s.params.precheck) (total := s.params.rounds.toNat)
    (run := fun x => (s.params.network s.provider x.K x.T x.X.length).encrypt s.params.method x.X)
    (fun _ => rfl) ⟨nofun, nofun⟩ rfl (fun _ _ => Params.precheck_rounds_le) fun _ =>
    ⟨fun _ => Network.encrypt_length (Params.network_keepsLength ..), fun _ => Network.encrypt_error_done_le⟩

theorem ends_dec : Ends (.dec rd ra) s :=
  ends_of_rounds (check := s.params.precheck) (total := s.params.rounds.toNat)
    (run := fun x => (s.params.network s.provider x.K x.T x.X.length).decrypt s.params.method x.X)
    (fun _ => rfl) ⟨nofun, nofun⟩ rfl (fun _ _ => Params.precheck_rounds_le) fun _ =>
    ⟨fun _ => Network.decrypt_length (Params.network_keepsLength ..), fun _ => Network.decrypt_error_done_le⟩

theorem ends_ff1enc : Ends (.ff1enc rd ra) s :=
  ends_of_rounds (check := ff1Precheck s.params.radix.toNat s.params.maxtlen.toNat) (total := 10)
    (run := fun x => (ff1Network s.provider s.params.radix.toNat x.K x.T x.X.length).twoEnc x.X)
    (fun _ => rfl) ⟨nofun, nofun⟩ rfl (fun _ _ _ => by decide) fun _ =>
    ⟨fun _ => Network.twoEnc_length (ff1Network_keepsLength ..), fun _ => Network.twoEnc_error_done_le⟩

theorem ends_ff1dec : Ends (.ff1dec rd ra) s :=
  ends_of_rounds (check := ff1Precheck s.params.radix.toNat s.params.maxtlen.toNat) (total := 10)
    (run := fun x => (ff1Network s.provider s.params.radix.toNat x.K x.T x.X.length).twoDec x.X)
    (fun _ => rfl) ⟨nofun, nofun⟩ rfl (fun _ _ _ => by decide) fun _ =>
    ⟨fun _ => Network.twoDec_length (ff1Network_keepsLength ..), fun _ => Network.twoDec_error_done_le⟩

theorem ends_ff2enc : Ends (.ff2enc rd ra) s :=
  ends_of_rounds (check := ff2Precheck s.params.radix.toNat s.params.tweakRadix.toNat) (total := 10)
    (run := fun x =>
      (ff2Network s.provider s.params.radix.toNat s.params.tweakRadix.toNat x.K x.T x.X.length).twoEnc x.X)
    (fun _ => rfl) ⟨nofun, nofun⟩ rfl (fun _ _ _ => by decide) fun _ =>
    ⟨fun _ => Network.twoEnc_length (ff2Network_keepsLength ..), fun _ => Network.twoEnc_error_done_le⟩

theorem ends_ff2dec : Ends (.ff2dec rd ra) s :=
  ends_of_rounds (check := ff2Precheck s.params.radix.toNat s.params.tweakRadix.toNat) (total := 10)
    (run := fun x =>
      (ff2Network s.provider s.params.radix.toNat s.params.tweakRadix.toNat x.K x.T x.X.length).twoDec x.X)
    (fun _ => rfl) ⟨nofun, nofun⟩ rfl (fun _ _ _ => by decide) fun _ =>
    ⟨fun _ => Network.twoDec_length (ff2Network_keepsLength ..), fun _ => Network.twoDec_error_done_le⟩

end

/-- Every command ends, from every state, in a way that fits it and that no bit of CTRL changes. -/
theorem exec_ends : ∀ (i : Instr) (s : State), Ends i s
  | .nop, s => ends_nop s
  | .clr, s => ends_clr s
  | .wipe, s => ends_wipe s
  | .num rd ra, s => ends_num rd ra s
  | .numr rd ra, s => ends_numr rd ra s
  | .str rd ra, s => ends_str rd ra s
  | .bytestr rd ra, s => ends_bytestr rd ra s
  | .bytestri rd, s => ends_bytestri rd s
  | .bitstr rd, s => ends_bitstr rd s
  | .catb rd ra rb, s => ends_catb rd ra rb s
  | .catn rd ra rb, s => ends_catn rd ra rb s
  | .xorb rd ra rb, s => ends_xorb rd ra rb s
  | .rev rd ra, s => ends_rev rd ra s
  | .revb rd ra, s => ends_revb rd ra s
  | .mod rd ra rb, s => ends_mod rd ra rb s
  | .powr rd, s => ends_powr rd s
  | .bnadd rd ra rb, s => ends_bnadd rd ra rb s
  | .bnsub rd ra rb, s => ends_bnsub rd ra rb s
  | .ciph rd ra rb, s => ends_ciph rd ra rb s
  | .prf rd ra rb, s => ends_prf rd ra rb s
  | .prf2 rd ra rb, s => ends_prf2 rd ra rb s
  | .off1 rd ra rb, s => ends_off1 rd ra rb s
  | .off2 rd ra rb, s => ends_off2 rd ra rb s
  | .addblk rd ra rb, s => ends_addblk rd ra rb s
  | .subblk rd ra rb, s => ends_subblk rd ra rb s
  | .addrev rd ra rb, s => ends_addrev rd ra rb s
  | .subrev rd ra rb, s => ends_subrev rd ra rb s
  | .addchr rd ra rb, s => ends_addchr rd ra rb s
  | .subchr rd ra rb, s => ends_subchr rd ra rb s
  | .split, s => ends_split s
  | .rnds, s => ends_rnds s
  | .frnd rd ra, s => ends_frnd rd ra s
  | .f1rnd rd ra, s => ends_f1rnd rd ra s
  | .f2rnd rd ra, s => ends_f2rnd rd ra s
  | .f3rnd rd ra, s => ends_f3rnd rd ra s
  | .ldff1, s => ends_ldff1 s
  | .ldff2, s => ends_ldff2 s
  | .ldff3, s => ends_ldff3 s
  | .enc rd ra, s => ends_enc rd ra s
  | .dec rd ra, s => ends_dec rd ra s
  | .ff1enc rd ra, s => ends_ff1enc rd ra s
  | .ff1dec rd ra, s => ends_ff1dec rd ra s
  | .ff2enc rd ra, s => ends_ff2enc rd ra s
  | .ff2dec rd ra, s => ends_ff2dec rd ra s

/-- The end of a command from the state as it stands. -/
theorem exec_eq_end (i : Instr) (s : State) : ∃ o : CommandEnd, o.Fits i s ∧ exec i s = .next (o.on s) := by
  obtain ⟨o, hfit, hexec⟩ := exec_ends i s
  exact ⟨o, hfit, hexec s.ctrl⟩

/-! ## What a step can do -/

section

variable {s : State} {w : Word}

theorem step_of_decode_ok {i : Instr} (hw : s.phase = .busy w 0) (hi : decode w = .ok i) : step s = exec i s := by
  simp only [step, hw, hi]

theorem step_of_decode_error {e : DecodeError} (hw : s.phase = .busy w 0) (he : decode w = .error e) :
    step s = .next (s.enterError (decodeRaise e)) := by
  simp only [step, hw, he]

theorem step_of_delay {d : Nat} (hw : s.phase = .busy w (d + 1)) : step s = .next (s.busyTick w d) := by
  simp only [step, hw]

theorem step_of_not_busy (hb : s.phase.isBusy = false) : step s = .next s.serveHost := by
  unfold step
  split
  next hw => rw [hw] at hb; cases hb
  next hw => rw [hw] at hb; cases hb
  next => rfl

/-- Everything a step can do (R4, R60): perform the pending command, take the error of its word, let time pass, or serve
the host. -/
theorem step_cases (s : State) :
    (∃ w, s.phase = .busy w 0 ∧
      ((∃ i, step s = exec i s) ∨ ∃ e, step s = .next (s.enterError (decodeRaise e)))) ∨
    (∃ w d, s.phase = .busy w (d + 1) ∧ step s = .next (s.busyTick w d)) ∨
    (s.phase.isBusy = false ∧ step s = .next s.serveHost) := by
  rcases hp : s.phase with _ | ⟨w, _ | d⟩ | _ | _
  case busy.zero =>
    rcases hd : decode w with e | i
    · exact .inl ⟨w, rfl, .inr ⟨e, step_of_decode_error hp hd⟩⟩
    · exact .inl ⟨w, rfl, .inl ⟨i, step_of_decode_ok hp hd⟩⟩
  case busy.succ => exact .inr (.inl ⟨w, d, rfl, step_of_delay hp⟩)
  all_goals exact .inr (.inr ⟨rfl, step_of_not_busy (by rw [hp]; rfl)⟩)

end

/-- Settles O5, by the equation of `step` for a word that decodes. -/
theorem stepRunsTheDecodedCommand : Obligations.StepRunsTheDecodedCommand := fun _ _ _ => step_of_decode_ok

/-! ## What a command leaves unchanged -/

section

variable {i : Instr} {s : State} {f : Effect}

theorem Effect.on_ns_get (h : f.Fits i s) {r : Reg} (hr : nsDest i ≠ some r) : (f.on s).ns.get r = s.ns.get r := by
  cases f with
  | ns r' v =>
    have hne : r ≠ r' := fun e => hr (e ▸ h.1)
    simp only [Effect.on, State.putNs_ns, Quad.get_set, if_neg hne]
  | _ => rfl

theorem Effect.on_bs_get (h : f.Fits i s) {r : Reg} (hr : bsDest i ≠ some r) : (f.on s).bs.get r = s.bs.get r := by
  cases f with
  | bs r' v =>
    have hne : r ≠ r' := fun e => hr (e ▸ h.1)
    simp only [Effect.on, State.putBs_bs, Quad.get_set, if_neg hne]
  | _ => rfl

theorem Effect.on_bn_get (h : f.Fits i s) {r : Reg} (hr : bnDest i ≠ some r) : (f.on s).bn.get r = s.bn.get r := by
  cases f with
  | bn r' v =>
    have hne : r ≠ r' := fun e => hr (e ▸ h.1)
    simp only [Effect.on, State.putBn_bn, Quad.get_set, if_neg hne]
  | _ => rfl

theorem Effect.on_res0 (h : f.Fits i s) (hs : i ≠ .split) (hr : i ≠ .rnds) : (f.on s).res0 = s.res0 := by
  cases f with
  | res0 w => exact absurd h (by simp [Effect.Fits, hs, hr])
  | _ => rfl

theorem Effect.on_params (h : f.Fits i s) (h1 : i ≠ .ldff1) (h2 : i ≠ .ldff2) (h3 : i ≠ .ldff3) :
    (f.on s).params = s.params := by
  cases f with
  | params p => exact absurd h.1 (by simp [h1, h2, h3])
  | _ => rfl

variable (s f)

@[simp] theorem Effect.on_ctrl : (f.on s).ctrl = s.ctrl := by cases f <;> rfl
@[simp] theorem Effect.on_drop : (f.on s).drop = s.drop := by cases f <;> rfl
@[simp] theorem Effect.on_lastop : (f.on s).lastop = s.lastop := by cases f <;> rfl
@[simp] theorem Effect.on_errlog : (f.on s).errlog = s.errlog := by cases f <;> rfl
@[simp] theorem Effect.on_arg0 : (f.on s).arg0 = s.arg0 := by cases f <;> rfl
@[simp] theorem Effect.on_arg1 : (f.on s).arg1 = s.arg1 := by cases f <;> rfl
@[simp] theorem Effect.on_resetHeld : (f.on s).resetHeld = s.resetHeld := by cases f <;> rfl
@[simp] theorem Effect.on_cfg : (f.on s).cfg = s.cfg := by cases f <;> rfl
@[simp] theorem Effect.on_host : (f.on s).host = s.host := by cases f <;> rfl
@[simp] theorem Effect.on_answers : (f.on s).answers = s.answers := by cases f <;> rfl
@[simp] theorem Effect.on_delays : (f.on s).delays = s.delays := by cases f <;> rfl

end

/-- Settles O45, by the ends a command can have: a fitting write touches the destination alone, and the completion or
error record touches no register, scalar, parameter or control. -/
theorem commandsWriteOnlyTheirDestination : Obligations.CommandsWriteOnlyTheirDestination := by
  intro i s t hexec hwipe
  obtain ⟨o, hfit, ho⟩ := exec_eq_end i s
  obtain rfl : o.on s = t := by simpa only [ho, Host.Outcome.next.injEq] using hexec
  cases o with
  | completes f p =>
    obtain ⟨-, hf, -⟩ := hfit
    exact ⟨fun _ => Effect.on_ns_get hf, fun _ => Effect.on_bs_get hf, fun _ => Effect.on_bn_get hf,
      Effect.on_res0 hf, by simp [CommandEnd.on], by simp [CommandEnd.on], Effect.on_params hf,
      by simp [CommandEnd.on]⟩
  | fails e p => simp [CommandEnd.on]
  | clears => simp [CommandEnd.on, show i = .clr from hfit]
  | wipes => exact absurd hfit hwipe

/-- Settles O46, from the list of the ends of a command; `step` adds only total functions. -/
theorem everyCommandEnds : Obligations.EveryCommandEnds := by
  refine ⟨fun i s => ?_, fun s => ?_⟩
  · obtain ⟨o, hfit, ho⟩ := exec_eq_end i s
    refine ⟨o.on s, ho, ?_⟩
    cases o with
    | completes f p => simp [CommandEnd.on, Phase.isBusy, hfit.1.1, hfit.1.2]
    | fails e p => simp [CommandEnd.on, Phase.isBusy, hfit.1.1, hfit.1.2]
    | clears => simp [CommandEnd.on, Phase.isBusy, show i = .clr from hfit]
    | wipes => simp [CommandEnd.on, Phase.isBusy, show i = .wipe from hfit]
  · rcases step_cases s with ⟨w, -, ⟨i, hstep⟩ | ⟨e, hstep⟩⟩ | ⟨w, d, -, hstep⟩ | ⟨-, hstep⟩
    · obtain ⟨o, -, ho⟩ := exec_eq_end i s
      exact ⟨_, hstep.trans ho⟩
    all_goals exact ⟨_, hstep⟩

/-- An end reads CTRL only for what PROG shows (R340). -/
theorem CommandEnd.on_withCtrl (o : CommandEnd) (s : State) (c : Word) :
    (o.on (s.withCtrl c)).ctrl = c ∧
      { o.on (s.withCtrl c) with ctrl := s.ctrl, rtotal := (o.on s).rtotal, rdone := (o.on s).rdone } = o.on s := by
  cases o with
  | completes f p => cases f <;> exact ⟨rfl, rfl⟩
  | _ => exact ⟨rfl, rfl⟩

theorem CommandEnd.on_ctrl (o : CommandEnd) (s : State) : (o.on s).ctrl = s.ctrl := by
  cases o with
  | completes f p => exact f.on_ctrl s
  | _ => rfl

/-- Settles O47: the end of a command is found without CTRL. -/
theorem ctrlAffectsNoResult : Obligations.CtrlAffectsNoResult := by
  intro i s c
  obtain ⟨o, -, hexec⟩ := exec_ends i s
  obtain ⟨hctrl, hrest⟩ := o.on_withCtrl s c
  exact ⟨o.on s, o.on (s.withCtrl c), hexec s.ctrl, hexec c, hctrl, by rw [o.on_ctrl]; exact hrest⟩

/-!
# The invariant

`State.Contents` is the part of it that speaks of the registers alone, whatever the engine is doing; every write of a
command or of the host keeps it. `State.Inv` adds the error record, PROG, LASTOP and a reset that is held.
-/

/-! ## The registers -/

/-- A string register as the invariant has it: canonical storage, a legal length, empty where absent (R31, R33, R35). -/
structure StrReg.Sound {α : Type} (x : StrReg α) : Prop where
  wf : x.store.wf = true
  len : x.len ≤ 4096
  absentEmpty : x.present = false → x.len = 0

/-- What the invariant says of the registers alone. -/
structure State.Contents (s : State) : Prop where
  ns : ∀ r, (s.ns.get r).Sound
  bs : ∀ r, (s.bs.get r).Sound
  bn : s.MagnitudesFit
  ctrlBits : s.ctrl &&& ctrlMask s.cfg = s.ctrl
  modeBits : s.params.mode.toNat < 256
  errlogBits : s.errlog &&& 0x7E = s.errlog

theorem StrReg.sound_absent {α : Type} {st : Store α} (h : st.wf = true) : (StrReg.absent st).Sound :=
  ⟨h, Nat.zero_le _, fun _ => rfl⟩

theorem StrReg.sound_ofList {α : Type} {v : List α} (h : v.length ≤ 4096) : (StrReg.ofList v).Sound :=
  ⟨Store.wf_ofList v h, h, nofun⟩

theorem StrReg.Sound.setLen {α : Type} {x : StrReg α} (hx : x.Sound) {n : Nat} (hn : n ≤ 4096) : (x.setLen n).Sound :=
  ⟨hx.wf, hn, nofun⟩

theorem StrReg.Sound.setElement {α : Type} {x : StrReg α} (hx : x.Sound) {j : Nat} (hj : j < maxLen) (v : α) :
    (x.setElement j v).Sound :=
  ⟨StrReg.wf_setElement hx.wf j v hj, hx.len, hx.absentEmpty⟩

theorem Quad.forall_get_set {α : Type} {P : α → Prop} {q : Quad α} (hq : ∀ r, P (q.get r)) {a : α} (ha : P a)
    (r : Reg) : ∀ r', P ((q.set r a).get r') := by
  intro r'
  rw [Quad.get_set]
  split
  · exact ha
  · exact hq r'

section

variable {s : State}

theorem State.Inv.contents (h : s.Inv) : s.Contents where
  ns r := ⟨((Memory.wf_iff s).mp h.memory r).1, (h.lengths r).1, (h.absentEmpty r).1⟩
  bs r := ⟨((Memory.wf_iff s).mp h.memory r).2, (h.lengths r).2, (h.absentEmpty r).2⟩
  bn := h.magnitudes
  ctrlBits := h.ctrlBits
  modeBits := h.modeBits
  errlogBits := h.errlogBits

theorem State.Contents.lengthsFit (h : s.Contents) : s.LengthsFit := fun r => ⟨(h.ns r).len, (h.bs r).len⟩

theorem State.Contents.setNs (h : s.Contents) (r : Reg) {x : StrReg Word} (hx : x.Sound) :
    State.Contents { s with ns := s.ns.set r x } :=
  { h with ns := Quad.forall_get_set h.ns hx r }

theorem State.Contents.setBs (h : s.Contents) (r : Reg) {x : StrReg Byte} (hx : x.Sound) :
    State.Contents { s with bs := s.bs.set r x } :=
  { h with bs := Quad.forall_get_set h.bs hx r }

theorem State.Contents.putBn (h : s.Contents) (r : Reg) {v : Int} (hv : v.natAbs < 2 ^ s.cfg.bnbits) :
    (s.putBn r v).Contents :=
  { h with bn := Quad.forall_get_set (P := fun b : BnReg => b.value.natAbs < 2 ^ s.cfg.bnbits) h.bn hv r }

theorem State.Contents.setParams (h : s.Contents) {p : Params} (hp : p.mode.toNat < 256) :
    State.Contents { s with params := p } :=
  { h with modeBits := hp }

/-- Error entry sets one of the bits 1 to 6 of ERRLOG (R310, R325). -/
theorem Cause.errlog_bit (c : Cause) : (1#32 <<< c.errorClass.toNat) &&& 0x7E = 1#32 <<< c.errorClass.toNat := by
  cases c <;> decide

theorem State.Contents.enterError (h : s.Contents) (e : Raise) (p : Progress) : (s.enterError e p).Contents :=
  { h with
    errlogBits := by
      rw [State.enterError_errlog, BitVec.and_or_distrib_right, h.errlogBits, e.cause.errlog_bit] }

theorem State.Contents.wiped (h : s.Contents) : s.wiped.Contents :=
  { h with
    ns := fun r => by rw [State.wiped_ns, Quad.get_all]; exact StrReg.sound_absent Store.wf_zeros
    bs := fun r => by rw [State.wiped_bs, Quad.get_all]; exact StrReg.sound_absent Store.wf_zeros
    bn := fun r => by rw [State.wiped_bn, Quad.get_all]; exact Nat.two_pow_pos _ }

/-- A write that fits keeps the registers sound. -/
theorem Effect.on_contents {i : Instr} {f : Effect} (hf : f.Fits i s) (h : s.Contents) : (f.on s).Contents := by
  cases f with
  | nothing => exact h
  | ns r v => exact h.setNs r (StrReg.sound_ofList (hf.2 h.lengthsFit))
  | bs r v => exact h.setBs r (StrReg.sound_ofList (hf.2 h.lengthsFit))
  | bn r v => exact h.putBn r (hf.2 h.bn)
  | res0 w => exact { h with }
  | params p => exact h.setParams hf.2

/-! ## The rest of the invariant -/

/-- `RDONE <= RTOTAL`, and `PROG` is 0 without `DIAG` (R340). -/
def State.ProgressFits (s : State) : Prop := s.rdone.toNat ≤ s.rtotal.toNat ∧ (s.cfg.diag = false → s.rtotal = 0)

/-- What is left to show of a state that is not BUSY, reset not held. -/
theorem State.Contents.inv_of_not_busy (h : s.Contents) (hb : s.phase.isBusy = false) (hr : s.resetHeld = false)
    (he : s.ErrorRecord) (hp : s.ProgressFits) : s.Inv where
  memory := (Memory.wf_iff s).mpr fun r => ⟨(h.ns r).wf, (h.bs r).wf⟩
  lengths := h.lengthsFit
  absentEmpty r := ⟨(h.ns r).absentEmpty, (h.bs r).absentEmpty⟩
  magnitudes := h.bn
  ctrlBits := h.ctrlBits
  modeBits := h.modeBits
  errlogBits := h.errlogBits
  errorRecord := he
  progress := hp
  busyProgress w d hw := by rw [hw] at hb; cases hb
  lastOp w d hw := by rw [hw] at hb; cases hb
  heldReset hh := by rw [hr] at hh; cases hh

theorem State.EngineReset.phase_eq (h : s.EngineReset) : s.phase = .idle := congrArg State.phase h.2

/-- A BUSY engine is not held in reset: reset leaves it IDLE (R350). -/
theorem State.Inv.not_held_of_busy (h : s.Inv) (hb : s.phase.isBusy = true) : s.resetHeld = false := by
  by_contra hr
  rw [(h.heldReset (by simpa using hr)).phase_eq] at hb
  cases hb

theorem State.progressFits_of_zero (hd : s.rdone = 0) (ht : s.rtotal = 0) : s.ProgressFits := by
  simp [State.ProgressFits, hd, ht]

theorem State.showProgress_fits {p : Progress} (hp : p.Fits) : (s.showProgress p).ProgressFits := by
  obtain ⟨hle, hmax⟩ := hp
  unfold State.ProgressFits
  rw [State.showProgress_rdone, State.showProgress_rtotal, State.showProgress_cfg]
  cases hon : s.diagOn with
  | false => simp
  | true =>
    have hdiag : s.cfg.diag = true := ((Bool.and_eq_true _ _).mp hon).1
    simp only [if_true, BitVec.toNat_ofNat, hdiag]
    exact ⟨by omega, nofun⟩

theorem State.errorRecord_enterError (e : Raise) (p : Progress) : (s.enterError e p).ErrorRecord := by
  refine ⟨e.cause, rfl, rfl, ?_⟩
  rw [State.enterError_errlog, BitVec.getLsbD_or]
  have : (1#32 <<< e.cause.errorClass.toNat).getLsbD e.cause.errorClass.toNat = true := by
    cases e.cause <;> decide
  rw [this, Bool.or_true]

/-- Error entry from a sound state (R325). -/
theorem State.Contents.inv_enterError (h : s.Contents) (hr : s.resetHeld = false) (e : Raise) {p : Progress}
    (hp : p.Fits) : (s.enterError e p).Inv :=
  (h.enterError e p).inv_of_not_busy rfl hr (s.errorRecord_enterError e p) (State.showProgress_fits (s := s) hp)

/-- Whatever a command does, it leaves a sound state. -/
theorem CommandEnd.on_inv {i : Instr} {o : CommandEnd} (hfit : o.Fits i s) (h : s.Contents) (hr : s.resetHeld = false) :
    (o.on s).Inv := by
  cases o with
  | completes f p =>
    obtain ⟨-, hf, hp⟩ := hfit
    have hc := Effect.on_contents hf h
    have hc' : ((f.on s).complete p).Contents := { hc with }
    exact hc'.inv_of_not_busy rfl ((f.on_resetHeld s).trans hr) ⟨rfl, rfl, rfl⟩
      (State.showProgress_fits (s := f.on s) hp)
  | fails e p => exact h.inv_enterError hr e hfit.2
  | clears =>
    have hc : s.toIdle.Contents := { h with }
    exact hc.inv_of_not_busy rfl hr ⟨rfl, rfl, rfl⟩ (State.progressFits_of_zero rfl rfl)
  | wipes =>
    have hc : s.wiped.toIdle.Contents := { h.wiped with }
    exact hc.inv_of_not_busy rfl hr ⟨rfl, rfl, rfl⟩ (State.progressFits_of_zero rfl rfl)

end

/-! ## The host -/

/-- An element of a data window is one of the register's `MAXLEN` (R81, R85, R86). -/
def Location.InRange : Location → Prop
  | .nsElement _ j => j < maxLen
  | .bsElement _ j => j < maxLen
  | _ => True

theorem windowIndex_lt (a : Nat) : a % 0x4000 / 4 < maxLen := by
  unfold maxLen
  omega

theorem controlLocation_not_window {a : Nat} {l : Location} (h : controlLocation a = some l) : l.isWindow = false := by
  unfold controlLocation at h
  split at h <;> cases h <;> rfl

theorem Location.inRange_of_not_window {l : Location} (h : l.isWindow = false) : l.InRange := by
  cases l with
  | nsElement => cases h
  | bsElement => cases h
  | _ => trivial

theorem locate_inRange {a : Addr} {l : Location} (h : locate a = some l) : l.InRange := by
  simp only [locate] at h
  split at h
  · cases h
  split at h
  · exact Location.inRange_of_not_window (controlLocation_not_window h)
  split at h
  · cases h
    exact windowIndex_lt _
  split at h
  · cases h
    exact windowIndex_lt _
  · cases h

section

variable {s : State}

/-- The invariant does not speak of what belongs to the outside world, nor of the draws (logs 1, 2, 19). -/
theorem State.Inv.outside (h : s.Inv) (host : List BusOp) (answers : List Answer) (delays : List Nat) (draws : Nat) :
    State.Inv { s with host := host, answers := answers, delays := delays, draws := draws } :=
  { h with }

theorem State.Inv.drop (h : s.Inv) (hr : s.resetHeld = false) : State.Inv { s with drop := true } :=
  { h with heldReset := fun hh => by rw [show s.resetHeld = true from hh] at hr; cases hr }

theorem State.Inv.accept (h : s.Inv) (hr : s.resetHeld = false) (w : Word) (d : Nat) : (s.accept w d).Inv :=
  { h with
    errorRecord := ⟨rfl, rfl, rfl⟩
    progress := State.progressFits_of_zero rfl rfl
    busyProgress := fun _ _ _ => .inl ⟨rfl, rfl⟩
    lastOp := fun _ _ hw => by cases hw; rfl
    heldReset := fun hh => by rw [show s.resetHeld = true from hh] at hr; cases hr }

theorem State.Inv.writeCommand (h : s.Inv) (hr : s.resetHeld = false) (w : Word) : (s.writeCommand w).1.Inv := by
  unfold State.writeCommand
  split
  · exact (h.accept hr w s.nextDelay).outside s.host s.answers s.delays.tail s.draws
  · exact h.drop hr

theorem Params.mode_set_lt {p : Params} (h : p.mode.toNat < 256) (name : ParamName) (v : Word) :
    (p.set name v).mode.toNat < 256 := by
  cases name with
  | mode =>
    rw [show (p.set .mode v).mode = v &&& 0xFF from rfl, BitVec.toNat_and]
    exact Nat.lt_of_le_of_lt Nat.and_le_right (by decide)
  | _ => exact h

/-- A host write of a location keeps the invariant, the engine not BUSY (R40 to R56, R84 to R86). -/
theorem State.Inv.writeLocation (h : s.Inv) (hb : s.phase.isBusy = false) (hr : s.resetHeld = false) {l : Location}
    (hl : l.InRange) (v : Word) : (s.writeLocation l v).1.Inv := by
  have hc := h.contents
  cases l with
  | ctrl =>
    have hc' : State.Contents { s with ctrl := v &&& ctrlMask s.cfg } :=
      { hc with ctrlBits := by rw [BitVec.and_assoc, BitVec.and_self] }
    exact hc'.inv_of_not_busy hb hr h.errorRecord h.progress
  | cmd => exact h.writeCommand hr v
  | arg0 =>
    have hc' : State.Contents { s with arg0 := v } := { hc with }
    exact hc'.inv_of_not_busy hb hr h.errorRecord h.progress
  | arg1 =>
    have hc' : State.Contents { s with arg1 := v } := { hc with }
    exact hc'.inv_of_not_busy hb hr h.errorRecord h.progress
  | param name =>
    exact (hc.setParams (Params.mode_set_lt hc.modeBits name v)).inv_of_not_busy hb hr h.errorRecord h.progress
  | nslen r =>
    simp only [State.writeLocation]
    split
    · exact (hc.setNs r ((hc.ns r).setLen ‹_›)).inv_of_not_busy hb hr h.errorRecord h.progress
    · exact h
  | bslen r =>
    simp only [State.writeLocation]
    split
    · exact (hc.setBs r ((hc.bs r).setLen ‹_›)).inv_of_not_busy hb hr h.errorRecord h.progress
    · exact h
  | nsElement r j =>
    exact (hc.setNs r ((hc.ns r).setElement hl v)).inv_of_not_busy hb hr h.errorRecord h.progress
  | bsElement r j =>
    exact (hc.setBs r ((hc.bs r).setElement hl _)).inv_of_not_busy hb hr h.errorRecord h.progress
  | _ => exact h

theorem State.Inv.hostWrite (h : s.Inv) (a : Addr) (v : Word) : (s.hostWrite a v).1.Inv := by
  unfold State.hostWrite
  split
  · exact h
  · have hr : s.resetHeld = false := by simpa using ‹¬ s.resetHeld = true›
    split
    · exact h.drop hr
    · have hb : s.phase.isBusy = false := by simpa using ‹¬ s.phase.isBusy = true›
      split
      · exact h.writeLocation hb hr (locate_inRange ‹_›) v
      · exact h

/-- Reset leaves a sound state, from every state (R350, R351). -/
theorem State.inv_afterReset (s : State) (held : Bool) : (s.afterReset held).Inv where
  memory := Memory.wf_afterReset s held
  lengths r := by cases r <;> exact ⟨Nat.zero_le _, Nat.zero_le _⟩
  absentEmpty r := by cases r <;> exact ⟨fun _ => rfl, fun _ => rfl⟩
  magnitudes r := by cases r <;> exact Nat.two_pow_pos _
  ctrlBits := BitVec.zero_and
  modeBits := Nat.two_pow_pos 8
  errlogBits := BitVec.zero_and
  errorRecord := ⟨rfl, rfl, rfl⟩
  progress := State.progressFits_of_zero rfl rfl
  busyProgress := nofun
  lastOp := nofun
  heldReset _ := ⟨fun r => by cases r <;> rfl, rfl⟩

theorem State.Inv.input (h : s.Inv) (op : BusOp) : (s.input op).Inv := by
  cases op with
  | read a => exact h.outside s.host (s.readAnswer a :: s.answers) s.delays (s.draws + 1)
  | write a v => exact (h.hostWrite a v).outside _ _ _ _
  | resetAssert => exact s.inv_afterReset true
  | resetRelease => exact s.inv_afterReset false

theorem State.Inv.serveHost (h : s.Inv) : s.serveHost.Inv := by
  unfold State.serveHost
  split
  · exact h
  · exact (h.outside _ s.answers s.delays s.draws).input _

/-! ## Time passing while BUSY -/

/-- A running cipher command shows at most 255 rounds (R340, log 7). -/
theorem State.progressTotal_le {w : Word} {r : Nat} (h : s.progressTotal w = some r) : r ≤ 255 := by
  unfold State.progressTotal at h
  split at h
  case h_1 | h_2 =>
    obtain ⟨hle, ⟨⟩⟩ := Option.ite_none_right_eq_some.mp h
    exact hle
  case h_7 => cases h
  all_goals
    cases h
    decide

/-- Everything a step of delay can do to PROG (R340): nothing, or an advance within the round count of a cipher command
that reports progress. -/
theorem State.advanceProgress_cases (s : State) (w : Word) :
    ((s.advanceProgress w).rtotal = s.rtotal ∧ (s.advanceProgress w).rdone = s.rdone) ∨
      ∃ r k, s.progressTotal w = some r ∧ s.diagOn = true ∧ (s.advanceProgress w).rtotal.toNat = r ∧
        (s.advanceProgress w).rdone.toNat = min r (max s.rdone.toNat k) := by
  have hsame : s.progressed (s.progressTotal w) (Config.freeProgress s.draws) = ⟨s.rtotal.toNat, s.rdone.toNat⟩ →
      (s.advanceProgress w).rtotal = s.rtotal ∧ (s.advanceProgress w).rdone = s.rdone := fun h => by
    simp only [State.advanceProgress, h, BitVec.ofNat_toNat, BitVec.setWidth_eq, and_true]
  rcases htotal : s.progressTotal w with _ | r
  · exact .inl (hsame (by rw [htotal]; rfl))
  rcases hfree : Config.freeProgress s.draws with _ | k
  · exact .inl (hsame (by rw [htotal, hfree]; rfl))
  cases hon : s.diagOn with
  | false => exact .inl (hsame (by simp [State.progressed, htotal, hfree, hon]))
  | true =>
    have hr := State.progressTotal_le htotal
    refine .inr ⟨r, k, rfl, rfl, ?_, ?_⟩ <;>
      simp only [State.advanceProgress, State.progressed, htotal, hfree, hon, if_true, BitVec.toNat_ofNat] <;> omega

theorem State.Inv.advanceProgress (h : s.Inv) {w : Word} {d d' : Nat} (hw : s.phase = .busy w d') :
    State.Inv { s.advanceProgress w with phase := .busy w d } := by
  have hrecord : s.eclass = 0 ∧ s.ecause = 0 ∧ s.errinfo = 0 := by
    have := h.errorRecord
    rwa [State.ErrorRecord, hw] at this
  have hr := h.not_held_of_busy (by rw [hw]; rfl)
  have hprogress : (s.advanceProgress w).ProgressFits ∧
      (((s.advanceProgress w).rtotal = 0 ∧ (s.advanceProgress w).rdone = 0) ∨
        ∃ r, s.progressTotal w = some r ∧ s.cfg.diag = true ∧ s.ctrl.getLsbD 2 = true ∧
          (s.advanceProgress w).rtotal.toNat = r) := by
    rcases s.advanceProgress_cases w with ⟨ht, hd⟩ | ⟨r, k, htotal, hon, ht, hd⟩
    · rw [State.ProgressFits, ht, hd]
      exact ⟨h.progress, h.busyProgress w d' hw⟩
    · obtain ⟨hdiag, hen⟩ := (Bool.and_eq_true _ _).mp hon
      refine ⟨⟨?_, fun hoff => ?_⟩, .inr ⟨r, htotal, hdiag, hen, ht⟩⟩
      · rw [hd, ht]
        exact Nat.min_le_left _ _
      · rw [show s.cfg.diag = false from hoff] at hdiag
        cases hdiag
  obtain ⟨hfits, hbusy⟩ := hprogress
  exact
    { h with
      errorRecord := hrecord
      progress := hfits
      busyProgress := fun w' _ hw' => by cases hw'; exact hbusy
      lastOp := fun w' _ hw' => by cases hw'; exact h.lastOp w d' hw
      heldReset := fun hh => by rw [show s.resetHeld = true from hh] at hr; cases hr }

end

/-- Settles O59: the state after reset is what reset leaves. -/
theorem resetStateIsSound : Obligations.ResetStateIsSound := (State.reset.inv_afterReset false).outside [] [] [] 0

/-- Settles O60, by the cases of a step: a command keeps the registers and makes its own record, time passing keeps PROG
within its bounds, and the host writes legal values only. -/
theorem stepKeepsTheInvariant : Obligations.StepKeepsTheInvariant := by
  intro s t h hstep
  have hbusy : ∀ {w d}, s.phase = .busy w d → s.resetHeld = false := fun hw => h.not_held_of_busy (by rw [hw]; rfl)
  rcases step_cases s with ⟨w, hw, ⟨i, he⟩ | ⟨e, he⟩⟩ | ⟨w, d, hw, he⟩ | ⟨-, he⟩ <;> rw [he] at hstep
  · obtain ⟨o, hfit, ho⟩ := exec_eq_end i s
    obtain rfl : o.on s = t := by simpa only [ho, Host.Outcome.next.injEq] using hstep
    exact CommandEnd.on_inv hfit h.contents (hbusy hw)
  all_goals cases hstep
  · exact h.contents.inv_enterError (hbusy hw) _ Progress.fits_none
  · exact (h.advanceProgress hw).serveHost
  · exact h.serveHost

/-!
# The host port

What the control block reads as and what a write of it does (R40 to R56), acceptance of a command word
(R62), and a BUSY engine (R60, R90, R340).
-/

/-! ## Transactions on a mapped address -/

section

variable {s : State}

/-- A write to a mapped address, reset not held, the engine not BUSY. -/
theorem State.hostWrite_of_locate (hr : s.resetHeld = false) (hb : s.phase.isBusy = false) {a : Addr} {l : Location}
    (hl : locate a = some l) (v : Word) : s.hostWrite a v = s.writeLocation l v := by
  simp [State.hostWrite, hr, hb, hl]

/-- A read of the control block, reset not held: BUSY or not, the value that stands (R90). -/
theorem State.readAnswer_of_locate (hr : s.resetHeld = false) {a : Addr} {l : Location} (hl : locate a = some l)
    (hw : l.isWindow = false) : s.readAnswer a = ⟨.ok, some (s.readLocation l)⟩ := by
  simp [State.readAnswer, hr, hl, hw]

/-- From ERROR only the opcodes of CLR and WIPE are let in (R62). -/
theorem State.accepts_of_error (hp : s.phase = .error) (w : Word) :
    s.accepts w = decide (w.extractLsb' 0 8 = 0x01 ∨ w.extractLsb' 0 8 = 0x02) := by
  rw [State.accepts, hp, Bool.decide_or]
  rfl

theorem State.writeCommand_of_accepts {w : Word} (h : s.accepts w = true) :
    s.writeCommand w = ({ s.accept w s.nextDelay with delays := s.delays.tail }, .ok) := by
  rw [State.writeCommand, if_pos h]

theorem State.writeCommand_of_refused {w : Word} (h : s.accepts w = false) :
    s.writeCommand w = ({ s with drop := true }, .err) := by
  rw [State.writeCommand, if_neg (by rw [h]; exact Bool.false_ne_true)]

end

/-- Settles O48, by the four states of the engine (R62). -/
theorem commandWordAcceptance : Obligations.CommandWordAcceptance := by
  intro s w hr
  have hwrite : s.phase.isBusy = false → s.hostWrite 0x00008 w = s.writeCommand w := fun hb =>
    State.hostWrite_of_locate hr hb (l := .cmd) rfl w
  refine ⟨fun h => ?_, fun h => ?_⟩
  · have hacc : s.phase.isBusy = false ∧ s.accepts w = true := by
      rcases h with hp | hp | ⟨hp, hop⟩
      · rw [State.accepts, hp]
        exact ⟨rfl, rfl⟩
      · rw [State.accepts, hp]
        exact ⟨rfl, rfl⟩
      · rw [State.accepts_of_error hp, hp]
        exact ⟨rfl, decide_eq_true hop⟩
    rw [hwrite hacc.1, State.writeCommand_of_accepts hacc.2]
    rfl
  · rcases h with ⟨v, d, hp⟩ | ⟨hp, h1, h2⟩
    · exact State.hostWrite_busy hr (by rw [hp]; rfl) _ _
    · rw [hwrite (by rw [hp]; rfl), State.writeCommand_of_refused (by
        rw [State.accepts_of_error hp]
        exact decide_eq_false (not_or.mpr ⟨h1, h2⟩))]

/-- Settles O53: each address names its register (R40), which stores what is written and reads as its value. -/
theorem controlRegistersStoreWhatIsWritten : Obligations.ControlRegistersStoreWhatIsWritten := by
  intro s v hr hb
  have hwrite : ∀ (a : Addr) (l : Location), locate a = some l → s.hostWrite a v = s.writeLocation l v :=
    fun _ _ hl => State.hostWrite_of_locate hr hb hl v
  have hread : ∀ (a : Addr) (l : Location), locate a = some l → l.isWindow = false →
      s.readAnswer a = ⟨.ok, some (s.readLocation l)⟩ := fun _ _ => State.readAnswer_of_locate hr
  exact ⟨hwrite _ .ctrl rfl, hwrite _ .arg0 rfl, hwrite _ .arg1 rfl, hwrite _ (.param .radix) rfl,
    hwrite _ (.param .tweakRadix) rfl, hwrite _ (.param .minlen) rfl, hwrite _ (.param .maxlenP) rfl,
    hwrite _ (.param .mintlen) rfl, hwrite _ (.param .maxtlen) rfl, hwrite _ (.param .rounds) rfl,
    hwrite _ (.param .mode) rfl, hwrite _ (.param .splitK) rfl,
    hread _ .ctrl rfl rfl, hread _ .arg0 rfl rfl, hread _ .arg1 rfl rfl, hread _ (.param .radix) rfl rfl,
    hread _ (.param .tweakRadix) rfl rfl, hread _ (.param .minlen) rfl rfl, hread _ (.param .maxlenP) rfl rfl,
    hread _ (.param .mintlen) rfl rfl, hread _ (.param .maxtlen) rfl rfl, hread _ (.param .rounds) rfl rfl,
    hread _ (.param .mode) rfl rfl, hread _ (.param .splitK) rfl rfl⟩

/-- Settles O55: the table of R65, entry by entry. -/
theorem resetLeavesTheTableOfValues : Obligations.ResetLeavesTheTableOfValues := by
  refine ⟨fun r => ?_, rfl, rfl, rfl, rfl, rfl, rfl, rfl, rfl, rfl, rfl, rfl,
    rfl, rfl, rfl, rfl, rfl, rfl, rfl, rfl, rfl⟩
  cases r <;> exact ⟨rfl, rfl, rfl, rfl, rfl⟩

/-! ## STATUS, PROG and irq -/

theorem bit_getLsbD_zero (b : Bool) : (bit b).getLsbD 0 = b := by cases b <;> rfl

/-- The fields of STATUS (R43). -/
theorem State.statusWord_fields (s : State) :
    s.statusWord.extractLsb' 0 2 = s.phase.code ∧ s.statusWord.getLsbD 2 = s.drop ∧ s.statusWord.getLsbD 3 = false ∧
      s.statusWord.extractLsb' 4 4 = s.eclass ∧ s.statusWord.extractLsb' 8 8 = s.ecause ∧
      s.statusWord.extractLsb' 16 8 = s.lastop ∧ s.statusWord.extractLsb' 24 8 = 0 := by
  unfold State.statusWord
  refine ⟨BitVec.extractLsb'_append_eq_right, ?_, ?_, ?_, ?_, ?_, ?_⟩
  · simp only [BitVec.getLsbD_append]
    exact bit_getLsbD_zero s.drop
  · simp only [BitVec.getLsbD_append]
    rfl
  · repeat rw [BitVec.extractLsb'_append_eq_of_le (by omega)]
    exact BitVec.extractLsb'_append_eq_right
  · repeat rw [BitVec.extractLsb'_append_eq_of_le (by omega)]
    exact BitVec.extractLsb'_append_eq_right
  · repeat rw [BitVec.extractLsb'_append_eq_of_le (by omega)]
    exact BitVec.extractLsb'_append_eq_right
  · repeat rw [BitVec.extractLsb'_append_eq_of_le (by omega)]
    exact BitVec.extractLsb'_eq_self

/-- The fields of PROG (R46). -/
theorem State.progWord_fields (s : State) :
    s.progWord.extractLsb' 0 8 = s.rdone ∧ s.progWord.extractLsb' 8 8 = s.rtotal ∧
      s.progWord.extractLsb' 16 16 = 0 := by
  unfold State.progWord
  refine ⟨BitVec.extractLsb'_append_eq_right, ?_, ?_⟩
  · rw [BitVec.extractLsb'_append_eq_of_le (by omega)]
    exact BitVec.extractLsb'_append_eq_right
  · repeat rw [BitVec.extractLsb'_append_eq_of_le (by omega)]
    exact BitVec.extractLsb'_eq_self

theorem Phase.code_iff (p : Phase) :
    (p.code = 0 ↔ p = .idle) ∧ (p.code = 1 ↔ p.isBusy = true) ∧ (p.code = 2 ↔ p = .done) ∧
      (p.code = 3 ↔ p = .error) := by
  cases p <;> simp [Phase.code, Phase.isBusy]

/-- The interrupt output, reset not held (R330). -/
theorem State.irq_iff {s : State} (hr : s.resetHeld = false) :
    s.irq = true ↔ (s.phase = .done ∧ s.ctrl.getLsbD 0 = true) ∨ (s.phase = .error ∧ s.ctrl.getLsbD 1 = true) := by
  cases hp : s.phase <;> simp [State.irq, hr, hp]

/-- Settles O54, from the fields of STATUS and PROG as words, and the equation of `irq`. -/
theorem statusFieldsAndInterrupt : Obligations.StatusFieldsAndInterrupt := by
  intro s hr
  have hread : ∀ (a : Addr) (l : Location), locate a = some l → l.isWindow = false →
      s.readAnswer a = ⟨.ok, some (s.readLocation l)⟩ := fun _ _ => State.readAnswer_of_locate hr
  obtain ⟨hstate, hfields⟩ := s.statusWord_fields
  obtain ⟨hidle, hbusy, hdone, herror⟩ := s.phase.code_iff
  refine ⟨⟨s.statusWord, hread _ .status rfl rfl, ?_⟩, hread _ .errinfo rfl rfl, hread _ .errlog rfl rfl,
    hread _ .res0 rfl rfl, ⟨s.progWord, hread _ .prog rfl rfl, s.progWord_fields⟩, State.irq_iff hr⟩
  rw [hstate]
  exact ⟨hidle, hbusy, hdone, herror, hfields⟩

/-! ## The length registers, PRESENT and BNINFO -/

theorem locate_nslen {a : Addr} {r : Reg} (h : a.toNat = 0x80 + 4 * regIndex r) : locate a = some (.nslen r) := by
  cases r <;> simp [locate, h, regIndex, controlLocation]

theorem locate_bslen {a : Addr} {r : Reg} (h : a.toNat = 0x90 + 4 * regIndex r) : locate a = some (.bslen r) := by
  cases r <;> simp [locate, h, regIndex, controlLocation]

theorem locate_bninfo {a : Addr} {r : Reg} (h : a.toNat = 0xB0 + 4 * regIndex r) : locate a = some (.bninfo r) := by
  cases r <;> simp [locate, h, regIndex, controlLocation]

theorem presenceBits_getLsbD {α : Type} (present : α → Bool) (q : Quad α) (r : Reg) :
    (presenceBits present q).getLsbD (regIndex r) = present (q.get r) := by
  simp only [presenceBits, BitVec.getLsbD_append]
  cases r <;> exact bit_getLsbD_zero _

theorem regIndex_lt (r : Reg) : regIndex r < 4 := by cases r <;> decide

/-- The bits of PRESENT (R56). -/
theorem State.presentWord_bits (s : State) (r : Reg) :
    s.presentWord.getLsbD (regIndex r) = (s.ns.get r).present ∧
      s.presentWord.getLsbD (4 + regIndex r) = (s.bs.get r).present ∧
      s.presentWord.getLsbD (8 + regIndex r) = (s.bn.get r).present ∧
      ∀ k, 12 ≤ k → s.presentWord.getLsbD k = false := by
  have hlt := regIndex_lt r
  simp only [State.presentWord, BitVec.getLsbD_append, ← presenceBits_getLsbD]
  refine ⟨?_, ?_, ?_, fun k hk => ?_⟩
  · rw [if_pos hlt]
  · rw [if_neg (by omega), if_pos (by omega), Nat.add_sub_cancel_left]
  · rw [if_neg (by omega), if_neg (by omega), if_pos (by omega), show 8 + regIndex r - 4 - 4 = regIndex r by omega]
  · rw [if_neg (by omega), if_neg (by omega), if_neg (by omega)]
    exact BitVec.getLsbD_zero

/-- The bit length of R56 is the library's size. -/
theorem bitLength_eq_size (v : Nat) : bitLength v = v.size := by
  unfold bitLength
  split
  next h => rw [h, Nat.size_zero]
  next h =>
    refine le_antisymm ?_ (Nat.size_le.mpr ((Nat.log2_lt h).mp (Nat.lt_succ_self _)))
    exact Nat.lt_size.mpr ((Nat.le_log2 h).mp le_rfl)

/-- The fields of BNINFO of a present register (R56). -/
theorem BnReg.infoWord_fields {b : BnReg} (h : b.present = true) :
    (b.infoWord.getLsbD 31 = true ↔ b.value < 0) ∧ (∀ k, 17 ≤ k → k < 31 → b.infoWord.getLsbD k = false) ∧
      b.infoWord.extractLsb' 0 17 = bitLengthField (bitLength b.value.natAbs) := by
  rw [BnReg.infoWord, if_pos h]
  refine ⟨?_, fun k h17 h31 => ?_, ?_⟩
  · simp only [BitVec.getLsbD_append]
    exact (congrArg (· = true) (bit_getLsbD_zero _)).to_iff.trans decide_eq_true_iff
  · rw [BitVec.getLsbD_append, if_neg (by omega), BitVec.getLsbD_append, if_pos (by omega)]
    exact BitVec.getLsbD_zero
  · rw [BitVec.extractLsb'_append_eq_of_add_le (by omega), BitVec.extractLsb'_eq_self]

/-- Settles O52: what the three kinds of address name, and the bits of PRESENT and BNINFO. -/
theorem lengthAndPresenceRegisters : Obligations.LengthAndPresenceRegisters := by
  intro s r v a b c hr hb ha hb' hc
  have hla := locate_nslen ha
  have hlb := locate_bslen hb'
  have hlc := locate_bninfo hc
  have hwa := State.hostWrite_of_locate hr hb hla v
  have hwb := State.hostWrite_of_locate hr hb hlb v
  obtain ⟨hns, hbs, hbn, hrest⟩ := s.presentWord_bits r
  refine ⟨fun hle => ?_, fun hgt => ?_, State.readAnswer_of_locate hr hla rfl, State.readAnswer_of_locate hr hlb rfl,
    State.readAnswer_of_locate hr (l := .present) rfl rfl, hns, hbs, hbn, hrest, (s.bn.get r).infoWord,
    State.readAnswer_of_locate hr hlc rfl, fun habs => ?_, fun hpres => ?_⟩
  · rw [hwa, hwb]
    exact ⟨if_pos hle, if_pos hle⟩
  · rw [hwa, hwb]
    exact ⟨if_neg (Nat.not_le.mpr hgt), if_neg (Nat.not_le.mpr hgt)⟩
  · rw [BnReg.infoWord, if_neg (by rw [habs]; exact Bool.false_ne_true)]
  · obtain ⟨hsign, hzero, hfield⟩ := BnReg.infoWord_fields hpres
    refine ⟨hsign, hzero, fun hsize => ?_⟩
    rw [hfield, bitLength_eq_size, bitLengthField, if_pos hsize, BitVec.toNat_ofNat, Nat.mod_eq_of_lt hsize]

/-! ## While a command runs -/

/-- While reset is held a write is refused and changes nothing (R350). -/
theorem State.hostWrite_held {s : State} (hr : s.resetHeld = true) (a : Addr) (v : Word) :
    s.hostWrite a v = (s, .err) := by
  rw [State.hostWrite, if_pos hr]

theorem State.serveHost_nil {s : State} (h : s.host = []) : s.serveHost = s := by
  rw [State.serveHost, h]

theorem State.serveHost_cons {s : State} {op : BusOp} {ops : List BusOp} (h : s.host = op :: ops) :
    s.serveHost = State.input { s with host := ops } op := by
  rw [State.serveHost, h]

/-- The addresses below 0x100 are the control block (R81). -/
theorem locate_control_not_window {a : Addr} {l : Location} (ha : a.toNat < 0x100) (h : locate a = some l) :
    l.isWindow = false := by
  have hlt : a.toNat < 0x10000 := by omega
  simp only [locate, hlt, if_true] at h
  split at h
  · cases h
  · exact controlLocation_not_window h

/-- A control-block location reads the same whatever the outside world does (R89). -/
theorem State.readLocation_outside (s : State) (host : List BusOp) (answers : List Answer) (draws : Nat) {l : Location}
    (hl : l.isWindow = false) :
    State.readLocation { s with host := host, answers := answers, draws := draws } l = s.readLocation l := by
  cases l with
  | nsElement => cases hl
  | bsElement => cases hl
  | _ => rfl

/-- Everything the host's next input can do to a BUSY engine, no reset arriving: an answer, and DROP on a write (R90). -/
theorem State.serveHost_busy {u : State} (hb : u.phase.isBusy = true)
    (hreset : ∀ ops, u.host ≠ .resetAssert :: ops ∧ u.host ≠ .resetRelease :: ops) :
    ∃ drop answers draws,
      u.serveHost = { u with host := u.host.tail, drop := drop, answers := answers, draws := draws } ∧
      (u.drop = true → drop = true) ∧
      (u.host = [] → answers = u.answers ∧ drop = u.drop) ∧
      (∀ a ops, u.host = .read a :: ops → answers = u.readAnswer a :: u.answers ∧ drop = u.drop) ∧
      (∀ a v ops, u.host = .write a v :: ops → u.resetHeld = false →
        answers = ⟨.err, none⟩ :: u.answers ∧ drop = true) := by
  rcases hh : u.host with _ | ⟨a | ⟨a, v⟩ | _ | _, ops⟩
  case nil =>
    refine ⟨u.drop, u.answers, u.draws, ?_, id, fun _ => ⟨rfl, rfl⟩, nofun, nofun⟩
    rw [State.serveHost_nil hh, List.tail_nil, ← hh]
  case cons.read =>
    refine ⟨u.drop, u.readAnswer a :: u.answers, u.draws + 1, ?_, id, nofun, fun a' ops' h => ?_, nofun⟩
    · rw [State.serveHost_cons hh, State.input, State.readAnswer_host]
      rfl
    · cases h
      exact ⟨rfl, rfl⟩
  case cons.write =>
    by_cases hr : u.resetHeld = true
    · refine ⟨u.drop, ⟨.err, none⟩ :: u.answers, u.draws + 1, ?_, id, nofun, nofun, fun _ _ _ _ hr' => ?_⟩
      · rw [State.serveHost_cons hh, State.input, State.hostWrite_held (s := { u with host := ops }) hr]
        rfl
      · rw [hr] at hr'
        cases hr'
    · refine ⟨true, ⟨.err, none⟩ :: u.answers, u.draws + 1, ?_, fun _ => rfl, nofun, nofun,
        fun _ _ _ _ _ => ⟨rfl, rfl⟩⟩
      rw [State.serveHost_cons hh, State.input, State.hostWrite_busy (s := { u with host := ops }) (by simpa using hr) hb]
      rfl
  case cons.resetAssert => exact absurd hh (hreset ops).1
  case cons.resetRelease => exact absurd hh (hreset ops).2

/-- What a step of delay does to PROG, as bounds (R340). -/
theorem State.advanceProgress_bounds (s : State) (w : Word) :
    (s.progressTotal w = none ∨ s.cfg.diag = false ∨ s.ctrl.getLsbD 2 = false →
      (s.advanceProgress w).rtotal = s.rtotal ∧ (s.advanceProgress w).rdone = s.rdone) ∧
    (∀ r, s.progressTotal w = some r → s.rdone.toNat ≤ r →
      s.rdone.toNat ≤ (s.advanceProgress w).rdone.toNat ∧ (s.advanceProgress w).rdone.toNat ≤ r) ∧
    (((s.advanceProgress w).rtotal = s.rtotal ∧ (s.advanceProgress w).rdone = s.rdone) ∨
      ∃ r, s.progressTotal w = some r ∧ (s.advanceProgress w).rtotal.toNat = r) := by
  rcases s.advanceProgress_cases w with hsame | ⟨r, k, htotal, hon, ht, hd⟩
  · refine ⟨fun _ => hsame, fun r _ hle => ?_, .inl hsame⟩
    rw [hsame.2]
    exact ⟨le_rfl, hle⟩
  · refine ⟨fun hoff => ?_, fun r' hr' hle => ?_, .inr ⟨r, htotal, ht⟩⟩
    · obtain ⟨hdiag, hen⟩ := (Bool.and_eq_true _ _).mp hon
      rw [htotal, hdiag, hen] at hoff
      rcases hoff with h | h | h <;> cases h
    · obtain rfl : r = r' := by simpa [htotal] using hr'
      omega

/-- Settles O57: a step of delay is an advance of PROG, bounded by R340, and one answer to the host. -/
theorem busyChangesNothingButProgress : Obligations.BusyChangesNothingButProgress := by
  intro s t w d hw hreset hstep
  obtain rfl : s.busyTick w d = t := by simpa only [step_of_delay hw, Host.Outcome.next.injEq] using hstep
  obtain ⟨hsame, hbound, htotal⟩ := s.advanceProgress_bounds w
  obtain ⟨drop, answers, draws, ht, hdrop, hnone, hread, hwrite⟩ :=
    State.serveHost_busy (u := { s.advanceProgress w with phase := .busy w d }) rfl hreset
  rw [State.busyTick, ht]
  refine ⟨rfl, rfl, rfl, rfl, rfl, rfl, rfl, rfl, rfl, rfl, rfl, rfl, rfl, rfl, rfl, rfl, rfl, rfl, hdrop, hsame, hbound,
    htotal, hnone, fun a ops l hh hr ha hl => ?_, hwrite⟩
  have hwindow := locate_control_not_window ha hl
  obtain ⟨hans, hd⟩ := hread a ops hh
  subst hd
  rw [State.readAnswer_of_locate (by exact hr) hl hwindow] at hans
  rw [State.readLocation_outside _ _ _ _ hwindow]
  exact ⟨hans, rfl⟩

end Sys2Proof.Machine
end

section
/-!
SUPPORT. The proofs of the statements on the host port (20): a step that serves the host, bad addresses, a BUSY engine's
refusals, the data windows; and on the AES port: what a failing request does to a command.
-/

namespace Sys2Proof.Machine

-- Many declarations checked at once need more thread stacks than the memory limit of check.sh allows.
set_option Elab.async false

/-!
# The decoder undoes the encoder

What O6 needs of R113 and R114: the engine that accepted a command's word performs that command.
-/

/-- Every command's word carries the command's fields, and they pass the three checks of R113. -/
theorem encodingWellFormed : ∀ i : Instr, Laws.EncodingWellFormed.Statement i
  | .nop => Laws.EncodingWellFormed.nop
  | .clr => Laws.EncodingWellFormed.clr
  | .wipe => Laws.EncodingWellFormed.wipe
  | .num rd ra => Laws.EncodingWellFormed.num rd ra
  | .numr rd ra => Laws.EncodingWellFormed.numr rd ra
  | .str rd ra => Laws.EncodingWellFormed.str rd ra
  | .bytestr rd ra => Laws.EncodingWellFormed.bytestr rd ra
  | .bytestri rd => Laws.EncodingWellFormed.bytestri rd
  | .bitstr rd => Laws.EncodingWellFormed.bitstr rd
  | .catb rd ra rb => Laws.EncodingWellFormed.catb rd ra rb
  | .catn rd ra rb => Laws.EncodingWellFormed.catn rd ra rb
  | .xorb rd ra rb => Laws.EncodingWellFormed.xorb rd ra rb
  | .rev rd ra => Laws.EncodingWellFormed.rev rd ra
  | .revb rd ra => Laws.EncodingWellFormed.revb rd ra
  | .mod rd ra rb => Laws.EncodingWellFormed.mod rd ra rb
  | .powr rd => Laws.EncodingWellFormed.powr rd
  | .bnadd rd ra rb => Laws.EncodingWellFormed.bnadd rd ra rb
  | .bnsub rd ra rb => Laws.EncodingWellFormed.bnsub rd ra rb
  | .ciph rd ra rb => Laws.EncodingWellFormed.ciph rd ra rb
  | .prf rd ra rb => Laws.EncodingWellFormed.prf rd ra rb
  | .prf2 rd ra rb => Laws.EncodingWellFormed.prf2 rd ra rb
  | .off1 rd ra rb => Laws.EncodingWellFormed.off1 rd ra rb
  | .off2 rd ra rb => Laws.EncodingWellFormed.off2 rd ra rb
  | .addblk rd ra rb => Laws.EncodingWellFormed.addblk rd ra rb
  | .subblk rd ra rb => Laws.EncodingWellFormed.subblk rd ra rb
  | .addrev rd ra rb => Laws.EncodingWellFormed.addrev rd ra rb
  | .subrev rd ra rb => Laws.EncodingWellFormed.subrev rd ra rb
  | .addchr rd ra rb => Laws.EncodingWellFormed.addchr rd ra rb
  | .subchr rd ra rb => Laws.EncodingWellFormed.subchr rd ra rb
  | .split => Laws.EncodingWellFormed.split
  | .rnds => Laws.EncodingWellFormed.rnds
  | .frnd rd ra => Laws.EncodingWellFormed.frnd rd ra
  | .f1rnd rd ra => Laws.EncodingWellFormed.f1rnd rd ra
  | .f2rnd rd ra => Laws.EncodingWellFormed.f2rnd rd ra
  | .f3rnd rd ra => Laws.EncodingWellFormed.f3rnd rd ra
  | .ldff1 => Laws.EncodingWellFormed.ldff1
  | .ldff2 => Laws.EncodingWellFormed.ldff2
  | .ldff3 => Laws.EncodingWellFormed.ldff3
  | .enc rd ra => Laws.EncodingWellFormed.enc rd ra
  | .dec rd ra => Laws.EncodingWellFormed.dec rd ra
  | .ff1enc rd ra => Laws.EncodingWellFormed.ff1enc rd ra
  | .ff1dec rd ra => Laws.EncodingWellFormed.ff1dec rd ra
  | .ff2enc rd ra => Laws.EncodingWellFormed.ff2enc rd ra
  | .ff2dec rd ra => Laws.EncodingWellFormed.ff2dec rd ra
theorem fieldsOfWord_encode (i : Instr) : fieldsOfWord (encode i) = fieldsOf i := (encodingWellFormed i).1

@[simp] theorem regOfBits_bitsOfReg (r : Reg) : regOfBits (bitsOfReg r) = r := by cases r <;> rfl

/-- The opcode map R115 finds the command of a row again from the row's fields. -/
theorem commandOf_fieldsOf (i : Instr) :
    commandOf (fieldsOf i).opcode (regOfBits (fieldsOf i).rd) (regOfBits (fieldsOf i).ra) (regOfBits (fieldsOf i).rb) =
      some i := by
  cases i <;> simp only [fieldsOf, fieldsNone, fieldsRd, fieldsRdRa, fieldsRdRaRb, regOfBits_bitsOfReg] <;> rfl

theorem decode_encode (i : Instr) : decode (encode i) = .ok i := by
  obtain ⟨hfields, hwf⟩ := encodingWellFormed i
  simp only [Fields.wellFormed, Bool.and_eq_true] at hwf
  obtain ⟨⟨hzero, -⟩, hunused⟩ := hwf
  simp only [decode, hfields, hzero, commandOf_fieldsOf, hunused, Bool.true_eq_false, if_false, if_true]

/-- The opcode byte of a command's word is the command's opcode (R110). -/
theorem extractLsb'_encode (i : Instr) : (encode i).extractLsb' 0 8 = (fieldsOf i).opcode :=
  congrArg Fields.opcode (fieldsOfWord_encode i)

/-!
# The host port

An engine that is not BUSY serves one host input in a step; what an address names, and what a write of a window
element does to the register it belongs to.
-/

/-! ## A step that serves the host (R80, R89, R343) -/

section

variable {s : State} {ops : List BusOp}

theorem step_of_nothing_to_come (hb : s.phase.isBusy = false) (h : s.host = []) : step s = .next s := by
  rw [step_of_not_busy hb, State.serveHost_nil h]

theorem step_of_input {op : BusOp} (hb : s.phase.isBusy = false) (h : s.host = op :: ops) :
    step s = .next (State.input { s with host := ops } op) := by
  rw [step_of_not_busy hb, State.serveHost_cons h]

theorem State.input_read (s : State) (ops : List BusOp) (a : Addr) :
    State.input { s with host := ops } (.read a) =
      { s with host := ops, answers := s.readAnswer a :: s.answers, draws := s.draws + 1 } := by
  rw [State.input, State.readAnswer_host, State.answer]

theorem State.input_write (s : State) (ops : List BusOp) (a : Addr) (v : Word) :
    State.input { s with host := ops } (.write a v) =
      { (s.hostWrite a v).1 with
        host := ops
        answers := ⟨(s.hostWrite a v).2, none⟩ :: s.answers
        draws := s.draws + 1 } := by
  obtain ⟨hanswers, hdraws, -⟩ := s.hostWrite_frame a v
  rw [State.input, State.hostWrite_host, State.answer]
  simp only [hanswers, hdraws]

end

/-- Settles O6: one step serves one input; the write of a command's word is accepted (R62), and the word decodes to the
command. -/
theorem stepServesTheHost : Obligations.StepServesTheHost := by
  refine ⟨fun s hb => ⟨step_of_nothing_to_come hb, fun a ops h => ?_, fun a v ops h => ?_, fun _ => step_of_input hb,
    fun _ => step_of_input hb⟩, fun s i ops hr hp hhost hdelay => ?_⟩
  · rw [step_of_input hb h, State.input_read]
  · rw [step_of_input hb h, State.input_write]
  · have hb : s.phase.isBusy = false := by rcases hp with hp | hp <;> rw [hp] <;> rfl
    have haccept := (commandWordAcceptance s (encode i) hr).1 (by tauto)
    refine ⟨_, step_of_input hb hhost, ?_⟩
    rw [State.input_write, haccept, hdelay]
    exact ⟨rfl, extractLsb'_encode i, rfl, rfl, rfl, rfl, rfl, rfl, rfl, rfl, step_of_decode_ok rfl (decode_encode i)⟩

/-! ## What an address names (R40, R81 to R83) -/

/-- The offsets of the control block are word-aligned and lie in its four runs (R40). -/
theorem controlLocation_offset {a : Nat} {l : Location} (h : controlLocation a = some l) :
    a % 4 = 0 ∧ (a < 0x28 ∨ (0x40 ≤ a ∧ a < 0x64) ∨ (0x80 ≤ a ∧ a < 0xA4) ∨ (0xB0 ≤ a ∧ a < 0xC0)) := by
  unfold controlLocation at h
  split at h <;> cases h <;> decide

/-- A misaligned address and an address in a gap of the map name nothing (R81 to R83). -/
theorem locate_eq_none {a : Addr}
    (h : a.toNat % 4 ≠ 0 ∨ (0x100 ≤ a.toNat ∧ a.toNat < 0x10000) ∨ 0x30000 ≤ a.toNat ∨
      (0x28 ≤ a.toNat ∧ a.toNat < 0x40) ∨ (0x64 ≤ a.toNat ∧ a.toNat < 0x80) ∨ (0xA4 ≤ a.toNat ∧ a.toNat < 0xB0) ∨
      (0xC0 ≤ a.toNat ∧ a.toNat < 0x100)) : locate a = none := by
  by_cases halign : a.toNat % 4 = 0
  · by_cases hlow : a.toNat < 0x10000
    · rcases hl : controlLocation a.toNat with _ | l
      · simp [locate, halign, hlow, hl]
      · have := controlLocation_offset hl
        omega
    · have hhigh : 0x30000 ≤ a.toNat := by omega
      simp [locate, show ¬ a.toNat < 0x20000 by omega, hlow, Nat.not_lt.mpr hhigh]
  · simp [locate, halign]

/-- The addresses from 0x10000 up are the two data windows (R81). -/
theorem locate_isWindow {a : Addr} {l : Location} (ha : 0x10000 ≤ a.toNat) (h : locate a = some l) :
    l.isWindow = true := by
  simp only [locate, Nat.not_lt.mpr ha, if_false] at h
  split at h
  · cases h
  split at h
  · cases h
    rfl
  split at h <;> cases h
  rfl

theorem regOfNat_regIndex (r : Reg) : regOfNat (regIndex r) = r := by cases r <;> rfl

/-- Element `j` of `ns[r]` (R81, R85). -/
theorem locate_nsElement {a : Addr} {r : Reg} {j : Nat} (hj : j < 4096)
    (h : a.toNat = 0x10000 + regIndex r * 0x4000 + 4 * j) : locate a = some (.nsElement r j) := by
  have hr := regIndex_lt r
  have halign : a.toNat % 4 = 0 := by omega
  have hquot : (a.toNat - 0x10000) / 0x4000 = regIndex r := by omega
  have hrem : (a.toNat - 0x10000) % 0x4000 / 4 = j := by omega
  rw [locate, if_neg (not_not.mpr halign), if_neg (by omega), if_pos (by omega), hquot, hrem, regOfNat_regIndex]

/-- Element `j` of `bs[r]` (R81, R86). -/
theorem locate_bsElement {a : Addr} {r : Reg} {j : Nat} (hj : j < 4096)
    (h : a.toNat = 0x20000 + regIndex r * 0x4000 + 4 * j) : locate a = some (.bsElement r j) := by
  have hr := regIndex_lt r
  have halign : a.toNat % 4 = 0 := by omega
  have hquot : (a.toNat - 0x20000) / 0x4000 = regIndex r := by omega
  have hrem : (a.toNat - 0x20000) % 0x4000 / 4 = j := by omega
  rw [locate, if_neg (not_not.mpr halign), if_neg (by omega), if_neg (by omega), if_pos (by omega), hquot, hrem,
    regOfNat_regIndex]

/-! ## Transactions that are refused -/

section

variable {s : State} {a : Addr}

theorem State.readAnswer_unmapped (h : locate a = none) : (s.readAnswer a).resp = .err := by
  rw [State.readAnswer, h]

theorem State.hostWrite_unmapped (hr : s.resetHeld = false) (hb : s.phase.isBusy = false) (h : locate a = none)
    (v : Word) : s.hostWrite a v = (s, .err) := by
  simp only [State.hostWrite, hr, hb, h, Bool.false_eq_true, if_false]

/-- While BUSY no address at or above 0x10000 can be read (R90). -/
theorem State.readAnswer_window_busy (hb : s.phase.isBusy = true) (ha : 0x10000 ≤ a.toNat) :
    (s.readAnswer a).resp = .err := by
  rcases hl : locate a with _ | l
  · exact State.readAnswer_unmapped hl
  · simp only [State.readAnswer, hl, hb, locate_isWindow ha hl, Bool.and_self, Bool.or_true, if_true]

end

/-- Settles O49, from what BUSY does to a write, to a read of a window and to a read of the control block. -/
theorem busyRefusesWritesAndWindowReads : Obligations.BusyRefusesWritesAndWindowReads := by
  intro s w d hr hp
  have hb : s.phase.isBusy = true := by rw [hp]; rfl
  exact ⟨State.hostWrite_busy hr hb, fun _ ha _ => State.readAnswer_window_busy hb ha,
    fun _ _ ha hl => State.readAnswer_of_locate hr hl (locate_control_not_window ha hl)⟩

/-- Settles O50: a bad address names nothing, and each read-only address names a location that takes no write. -/
theorem badAddressesAreRefused : Obligations.BadAddressesAreRefused := by
  intro s hr hb
  refine ⟨fun a v ha => ?_, fun a v ha => ?_, State.readAnswer_of_locate hr (l := .id) rfl rfl,
    State.readAnswer_of_locate hr (l := .cmd) rfl rfl⟩
  · have hl := locate_eq_none ha
    exact ⟨State.hostWrite_unmapped hr hb hl v, State.readAnswer_unmapped hl⟩
  · have hwrite : ∀ (a : Addr) (l : Location), locate a = some l → s.hostWrite a v = s.writeLocation l v :=
      fun _ _ hl => State.hostWrite_of_locate hr hb hl v
    simp only [List.mem_cons, List.not_mem_nil, or_false] at ha
    rcases ha with rfl | rfl | rfl | rfl | rfl | rfl | rfl | rfl | rfl | rfl | rfl
    · exact hwrite _ .id rfl
    · exact hwrite _ .status rfl
    · exact hwrite _ .errinfo rfl
    · exact hwrite _ .errlog rfl
    · exact hwrite _ .prog rfl
    · exact hwrite _ .res0 rfl
    · exact hwrite _ .present rfl
    · exact hwrite _ (.bninfo .r0) rfl
    · exact hwrite _ (.bninfo .r1) rfl
    · exact hwrite _ (.bninfo .r2) rfl
    · exact hwrite _ (.bninfo .r3) rfl

/-! ## One element of a register (R31, R33, R85, R86) -/

section

variable {α : Type} (zero : α) (free : Nat → α) (x : StrReg α)

theorem StrReg.getElem?_value (k : Nat) :
    (x.value zero free)[k]? = if k < x.len then some (x.store.element zero (free k) k) else none := by
  simp only [StrReg.value, List.getElem?_map]
  split <;> simp_all

/-- What the window shows below the length is what commands read (R85). -/
theorem StrReg.windowElement_of_getElem? {k : Nat} {v : α} (h : (x.value zero free)[k]? = some v) :
    x.windowElement zero free k = v := by
  rw [StrReg.getElem?_value] at h
  obtain ⟨hk, hv⟩ := Option.ite_none_right_eq_some.mp h
  rw [StrReg.windowElement, if_pos hk]
  exact Option.some.inj hv

/-- A write of one element changes that element of the value, if the length covers it, and no other. -/
theorem StrReg.getElem?_value_setElement (j : Nat) (v : α) (k : Nat) :
    ((x.setElement j v).value zero free)[k]? =
      if k = j ∧ j < x.len then some v else (x.value zero free)[k]? := by
  rw [StrReg.getElem?_value, StrReg.getElem?_value, show (x.setElement j v).len = x.len from rfl]
  by_cases hkj : k = j
  · subst hkj
    rw [show (x.setElement k v).store.element zero (free k) k = v from Store.element_write_same ..]
    by_cases hlt : k < x.len <;> simp [hlt]
  · rw [show (x.setElement j v).store.element zero (free k) k = x.store.element zero (free k) k from
      Store.element_write_ne _ _ _ _ _ _ hkj, if_neg (c := k = j ∧ j < x.len) (fun h => hkj h.1)]

/-- A length write keeps an element stored before it, covered or not (R56). -/
theorem StrReg.setLen_setElement (j : Nat) (v : α) (n : Nat) :
    (x.setElement j v).setLen n = (x.setLen n).setElement j v := rfl

end

theorem State.nsVal_setNs (s : State) (r : Reg) (x : StrReg Word) :
    State.nsVal { s with ns := s.ns.set r x } r = x.value 0 (Config.freeNumeral s.draws (regIndex r)) := by
  simp only [State.nsVal, Quad.get_set_same]

theorem State.bsVal_setBs (s : State) (r : Reg) (x : StrReg Byte) :
    State.bsVal { s with bs := s.bs.set r x } r = x.value 0 (Config.freeByte s.draws (regIndex r)) := by
  simp only [State.bsVal, Quad.get_set_same]

section

variable {s : State} {r : Reg} {a : Addr} {j : Nat}

/-- Any mapped address can be read while the engine is not BUSY (R80, R85, R86). -/
theorem State.readAnswer_of_not_busy (hr : s.resetHeld = false) (hb : s.phase.isBusy = false) {l : Location}
    (hl : locate a = some l) : s.readAnswer a = ⟨.ok, some (s.readLocation l)⟩ := by
  simp only [State.readAnswer, hl, hr, hb, Bool.false_and, Bool.or_self, Bool.false_eq_true, if_false]

/-- The window of `ns[r]` shows the elements of its value (R85). -/
theorem State.readAnswer_nsElement (hr : s.resetHeld = false) (hb : s.phase.isBusy = false)
    (hl : locate a = some (.nsElement r j)) {x : Word} (hx : (s.nsVal r)[j]? = some x) :
    s.readAnswer a = ⟨.ok, some x⟩ := by
  rw [State.readAnswer_of_not_busy hr hb hl, State.readLocation, StrReg.windowElement_of_getElem? _ _ _ hx]

/-- The window of `bs[r]` shows the elements of its value, in bits 7..0 (R86). -/
theorem State.readAnswer_bsElement (hr : s.resetHeld = false) (hb : s.phase.isBusy = false)
    (hl : locate a = some (.bsElement r j)) {x : Byte} (hx : (s.bsVal r)[j]? = some x) :
    s.readAnswer a = ⟨.ok, some (x.setWidth 32)⟩ := by
  rw [State.readAnswer_of_not_busy hr hb hl, State.readLocation, StrReg.windowElement_of_getElem? _ _ _ hx]

/-- A write of element `j` of `ns[r]` (R85). -/
theorem State.hostWrite_nsElement (hr : s.resetHeld = false) (hb : s.phase.isBusy = false)
    (hl : locate a = some (.nsElement r j)) (v : Word) :
    s.hostWrite a v = ({ s with ns := s.ns.set r ((s.ns.get r).setElement j v) }, .ok) :=
  State.hostWrite_of_locate hr hb hl v

/-- A write of element `j` of `bs[r]`: the low byte of the word (R86). -/
theorem State.hostWrite_bsElement (hr : s.resetHeld = false) (hb : s.phase.isBusy = false)
    (hl : locate a = some (.bsElement r j)) (v : Word) :
    s.hostWrite a v = ({ s with bs := s.bs.set r ((s.bs.get r).setElement j (v.setWidth 8)) }, .ok) :=
  State.hostWrite_of_locate hr hb hl v

/-- A write of at most `MAXLEN` to the length of `ns[r]` (R56). -/
theorem State.hostWrite_nslen (hr : s.resetHeld = false) (hb : s.phase.isBusy = false)
    (ha : a.toNat = 0x80 + 4 * regIndex r) {n : Word} (hn : n.toNat ≤ 4096) :
    s.hostWrite a n = ({ s with ns := s.ns.set r ((s.ns.get r).setLen n.toNat) }, .ok) :=
  (State.hostWrite_of_locate hr hb (locate_nslen ha) n).trans (if_pos hn)

/-- A write of at most `MAXLEN` to the length of `bs[r]` (R56). -/
theorem State.hostWrite_bslen (hr : s.resetHeld = false) (hb : s.phase.isBusy = false)
    (ha : a.toNat = 0x90 + 4 * regIndex r) {n : Word} (hn : n.toNat ≤ 4096) :
    s.hostWrite a n = ({ s with bs := s.bs.set r ((s.bs.get r).setLen n.toNat) }, .ok) :=
  (State.hostWrite_of_locate hr hb (locate_bslen ha) n).trans (if_pos hn)

/-- An element of `ns[r]` that the host stored is part of the value once a length write covers it (R56, R121). -/
theorem State.nsVal_after_length (hr : s.resetHeld = false) (hb : s.phase.isBusy = false)
    (hl : locate a = some (.nsElement r j)) {c : Addr} (hc : c.toNat = 0x80 + 4 * regIndex r) {n : Word}
    (hn : n.toNat ≤ 4096) (v : Word) (k : Nat) :
    (((s.hostWrite a v).1.hostWrite c n).1.nsVal r)[k]? =
      if k = j ∧ j < n.toNat then some v else ((s.hostWrite c n).1.nsVal r)[k]? := by
  rw [State.hostWrite_nsElement hr hb hl, State.hostWrite_nslen (by exact hr) (by exact hb) hc hn,
    State.hostWrite_nslen hr hb hc hn, State.nsVal_setNs, State.nsVal_setNs, Quad.get_set_same,
    StrReg.setLen_setElement, StrReg.getElem?_value_setElement]
  rfl

/-- The same for `bs[r]`. -/
theorem State.bsVal_after_length (hr : s.resetHeld = false) (hb : s.phase.isBusy = false)
    (hl : locate a = some (.bsElement r j)) {c : Addr} (hc : c.toNat = 0x90 + 4 * regIndex r) {n : Word}
    (hn : n.toNat ≤ 4096) (v : Word) (k : Nat) :
    (((s.hostWrite a v).1.hostWrite c n).1.bsVal r)[k]? =
      if k = j ∧ j < n.toNat then some (v.setWidth 8) else ((s.hostWrite c n).1.bsVal r)[k]? := by
  rw [State.hostWrite_bsElement hr hb hl, State.hostWrite_bslen (by exact hr) (by exact hb) hc hn,
    State.hostWrite_bslen hr hb hc hn, State.bsVal_setBs, State.bsVal_setBs, Quad.get_set_same,
    StrReg.setLen_setElement, StrReg.getElem?_value_setElement]
  rfl

end

/-- The low byte of a word, as a byte window returns it (R86). -/
theorem setWidth_setWidth_byte (v : Word) : (v.setWidth 8).setWidth 32 = v &&& 0xFF := by
  refine BitVec.eq_of_toNat_eq ?_
  have hmask : (v &&& 0xFF).toNat = v.toNat % 2 ^ 8 := Nat.and_two_pow_sub_one_eq_mod v.toNat 8
  rw [hmask, BitVec.toNat_setWidth, BitVec.toNat_setWidth]
  omega

/-- Settles O51: the write is one `setElement`, whose effect on the value `getElem?_value_setElement` gives, before a
length write and after it. -/
theorem windowsStoreOneElement : Obligations.WindowsStoreOneElement := by
  intro s r j v a b hr hb hj ha hb'
  have hla := locate_nsElement hj ha
  have hlb := locate_bsElement hj hb'
  have hns : ∀ k, (State.nsVal { s with ns := s.ns.set r ((s.ns.get r).setElement j v) } r)[k]? =
      if k = j ∧ j < (s.ns.get r).len then some v else (s.nsVal r)[k]? := fun k => by
    rw [State.nsVal_setNs, StrReg.getElem?_value_setElement]
    rfl
  have hbs : ∀ k, (State.bsVal { s with bs := s.bs.set r ((s.bs.get r).setElement j (v.setWidth 8)) } r)[k]? =
      if k = j ∧ j < (s.bs.get r).len then some (v.setWidth 8) else (s.bsVal r)[k]? := fun k => by
    rw [State.bsVal_setBs, StrReg.getElem?_value_setElement]
    rfl
  refine ⟨⟨(s.ns.get r).setElement j v, State.hostWrite_nsElement hr hb hla v, rfl, rfl, hns, fun hlt => ?_⟩,
    ⟨(s.bs.get r).setElement j (v.setWidth 8), State.hostWrite_bsElement hr hb hlb v, rfl, rfl, hbs, fun hlt => ?_⟩,
    fun x hx => State.readAnswer_nsElement hr hb hla hx, fun x hx => State.readAnswer_bsElement hr hb hlb hx,
    fun n c d hn hc hd =>
      ⟨State.nsVal_after_length hr hb hla hc hn v, State.bsVal_after_length hr hb hlb hd hn v⟩⟩
  · exact State.readAnswer_nsElement (by exact hr) (by exact hb) hla ((hns j).trans (if_pos ⟨rfl, hlt⟩))
  · rw [← setWidth_setWidth_byte]
    exact State.readAnswer_bsElement (by exact hr) (by exact hb) hlb ((hbs j).trans (if_pos ⟨rfl, hlt⟩))

/-!
# A failing AES provider (R98, R170, R213)

A request that the provider fails is the error AES_FAIL of the function that makes it; inside the rounds of a cipher
command the error carries the rounds completed before it.
-/

/-! ## Ends and checks -/

theorem State.finish_error (s : State) (c : Cause) (info : Nat) :
    s.finish (.error ⟨c, info⟩) = .next (s.failed c info) := by
  rw [State.finish, State.enterError_eq_failed]

/-- An error inside the rounds, as a cipher command ends with it (R213, R340). -/
theorem State.finishCipher_roundError (s : State) (rd : Reg) (total done : Nat) (c : Cause) (info : Nat) :
    s.finishCipher rd total (.ok (.error ⟨done, ⟨c, info⟩⟩)) = .next (s.failedInRounds c info total done) := by
  simp only [State.finishCipher, State.enterError, State.showProgress, State.failedInRounds, State.failed,
    State.progField, State.diagOn, Bool.and_eq_true]

theorem allHold_append {cs ds : List Check} : AllHold (cs ++ ds) ↔ AllHold cs ∧ AllHold ds := by
  induction cs with
  | nil => simp only [List.nil_append, AllHold, true_and]
  | cons c cs ih => exact (and_congr_right' ih).trans and_assoc.symm

section

variable {s : State} {ra : Reg}

theorem State.roundInput_of_present (h : AllHold (s.presenceChecks ra)) :
    s.roundInput ra = .ok ⟨s.bsVal .r0, s.bsVal .r1, s.nsVal ra⟩ := by
  obtain ⟨hK, hT, hX, -⟩ := h
  simp only [State.roundInput, State.key, State.tweak, State.srcBs_present hK, State.srcBs_present hT,
    State.srcNs_present hX, except_ok_bind, except_pure]

theorem State.roundArgCheck_ok (h : s.roundArgs.ok) : s.roundArgCheck = .ok () := require_of h _ _

theorem State.ff2RadixCheck_ok (h : s.ff2Radices.ok) :
    ff2RadixCheck s.params.radix.toNat s.params.tweakRadix.toNat = .ok () := require_of h _ _

theorem State.cipherInput_of_present (h : AllHold (s.presenceChecks ra)) :
    s.cipherInput ra = .ok ⟨s.bsVal .r0, s.bsVal .r1, s.nsVal ra⟩ := by
  obtain ⟨hK, hT, hX, -⟩ := h
  simp only [State.cipherInput, State.key, State.tweak, State.srcBs_present hK, State.srcBs_present hT,
    State.srcNs_present hX, except_ok_bind, except_pure]

end

/-! ## The adapter (R173 to R177, R292) -/

/-- `PRF2` on a legal key and legal data, its one request failing. -/
theorem prf2_fails {P : Provider} {K X : List Byte} (hK : K.length = 16 ∨ K.length = 24 ∨ K.length = 32)
    (hX : 1 ≤ X.length ∧ X.length ≤ 4096 ∧ X.length % 16 = 0) (h : P.fails ⟨.cbc0, K, X⟩ = true) :
    prf2 P K X = .error ⟨.aesFail, 0⟩ := by
  simp only [prf2, validKey_ok hK, validData_ok hX, aesRequest_eq, h, if_true, except_ok_bind, except_error_bind]

/-- `OFF2` on a legal key and one block, its one request failing. -/
theorem off2_fails {P : Provider} {K T : List Byte} (hK : K.length = 16 ∨ K.length = 24 ∨ K.length = 32)
    (hT : T.length = 16) (h : P.fails ⟨.ecb, K, T⟩ = true) : off2 P K T = .error ⟨.aesFail, 0⟩ := by
  simp only [off2, validKey_ok hK, require_of hT, except_ok_bind, ciph_block_eq hK hT, h, if_true]

section

variable {s : State} {rd ra rb : Reg}

/-- A command that applies `f` to two byte strings, both present, and `f` raises an error. -/
theorem State.finish_bytes_error {absentA absentB c : Cause} {info : Nat}
    {f : List Byte → List Byte → Except Raise (List Byte)} (ha : (s.bs.get ra).present = true)
    (hb : (s.bs.get rb).present = true) (hf : f (s.bsVal ra) (s.bsVal rb) = .error ⟨c, info⟩) :
    s.finish (do
      let K ← s.srcBs ra absentA
      let X ← s.srcBs rb absentB
      let Y ← f K X
      pure (s.putBs rd Y)) = .next (s.failed c info) := by
  rw [State.srcBs_present ha, except_ok_bind, State.srcBs_present hb, except_ok_bind, hf, except_error_bind,
    State.finish_error]

/-- What the checks of CIPH, PRF and PRF2 say of the two operands. -/
theorem State.adapterChecks_operands (h : AllHold (s.adapterChecks ra rb)) :
    ((s.bs.get ra).present = true ∧ (s.bs.get rb).present = true) ∧
      ((s.bsVal ra).length = 16 ∨ (s.bsVal ra).length = 24 ∨ (s.bsVal ra).length = 32) ∧
      1 ≤ (s.bsVal rb).length ∧ (s.bsVal rb).length ≤ 4096 ∧ (s.bsVal rb).length % 16 = 0 := by
  obtain ⟨ha, hb, hK, hX, -⟩ := h
  simp only [State.length_bsVal]
  exact ⟨⟨ha, hb⟩, hK, hX⟩

theorem exec_ciph_fails (h : AllHold (s.adapterChecks ra rb))
    (hfail : s.provider.fails ⟨.ecb, s.bsVal ra, s.bsVal rb⟩ = true) :
    exec (.ciph rd ra rb) s = .next (s.failed .aesFail 0) := by
  obtain ⟨⟨ha, hb⟩, hK, hX⟩ := State.adapterChecks_operands h
  exact State.finish_bytes_error (f := ciph s.provider) ha hb (by rw [ciph_eq hK hX, if_pos hfail])

theorem exec_prf2_fails (h : AllHold (s.adapterChecks ra rb))
    (hfail : s.provider.fails ⟨.cbc0, s.bsVal ra, s.bsVal rb⟩ = true) :
    exec (.prf2 rd ra rb) s = .next (s.failed .aesFail 0) := by
  obtain ⟨⟨ha, hb⟩, hK, hX⟩ := State.adapterChecks_operands h
  exact State.finish_bytes_error (f := prf2 s.provider) ha hb (prf2_fails hK hX hfail)

theorem exec_prf_fails (h : AllHold (s.adapterChecks ra rb))
    (hfail : ∃ q ∈ macRequests s.provider.E (s.bsVal ra) (s.bsVal rb), s.provider.fails q = true) :
    exec (.prf rd ra rb) s = .next (s.failed .aesFail 0) := by
  obtain ⟨⟨ha, hb⟩, hK, hX⟩ := State.adapterChecks_operands h
  exact State.finish_bytes_error (f := prf s.provider) ha hb
    (by rw [prf_eq hK hX, if_pos (List.any_eq_true.mpr hfail)])

theorem exec_off2_fails (h : AllHold (s.off2Checks ra rb))
    (hfail : s.provider.fails ⟨.ecb, s.bsVal ra, s.bsVal rb⟩ = true) :
    exec (.off2 rd ra rb) s = .next (s.failed .aesFail 0) := by
  obtain ⟨ha, hb, hK, hT, -⟩ := h
  simp only [keySized, ← State.length_bsVal] at hK hT
  exact State.finish_bytes_error (f := off2 s.provider) ha hb (off2_fails hK hT hfail)

end

/-! ## The round-function commands (R203, R236, R256, R276) -/

section

variable {s : State} {ra : Reg}

/-- `F1RND` after its presence checks, every other check passed (R236, R235). -/
theorem State.ff1Round_eq (hT : (s.bs.get .r1).len ≤ 4096) (h : AllHold (s.f1Checks ra)) :
    s.ff1Round ⟨s.bsVal .r0, s.bsVal .r1, s.nsVal ra⟩ =
      if (ff1Requests s.provider.E s.params.radix.toNat (s.bsVal .r0) s.arg0.toNat (s.bsVal .r1) s.arg1.toNat
        (numeralSum s.params.radix.toNat (s.nsVal ra))).any s.provider.fails = true then .error ⟨.aesFail, 0⟩
      else .ok (numeralsOf s.params.radix.toNat (halfLen (s.arg0.toNat / 2) s.arg0.toNat s.arg1.toNat)
        (ff1Y s.provider.E s.params.radix.toNat (s.bsVal .r0) s.arg0.toNat (s.bsVal .r1) s.arg1.toNat
          (numeralSum s.params.radix.toNat (s.nsVal ra)) %
            s.params.radix.toNat ^ halfLen (s.arg0.toNat / 2) s.arg0.toNat s.arg1.toNat)) := by
  obtain ⟨-, -, -, hr, hK, hargs, hl, hB, hx, hfit, -⟩ := h
  simp only [keySized, lengthIn, ← State.length_bsVal, ← State.length_nsVal] at hK hl hT hfit
  simp only [State.ff1Round, radixCheck_ok hr, validKey_ok hK, State.roundArgCheck_ok hargs, except_ok_bind]
  exact (fFF1_eq hr hK hargs.1 hargs.2 hT hl hB hx).trans (if_pos hfit)

/-- `F2RND` as far as the request for `J`, which fails (R253, R256). -/
theorem State.ff2Round_subkey_fails (h : AllHold (s.f2HeaderChecks ra)) (hJ : ¬ s.f2SubkeyAnswered.ok) :
    s.ff2Round ⟨s.bsVal .r0, s.bsVal .r1, s.nsVal ra⟩ = .error ⟨.aesFail, 0⟩ := by
  obtain ⟨-, -, -, hr, hK, hargs, hr', ht, hn, hT, hw, -⟩ := h
  simp only [keySized, ← State.length_bsVal] at hK ht
  simp only [State.ff2Round, State.ff2RadixCheck_ok hr, validKey_ok hK, State.roundArgCheck_ok hargs, except_ok_bind]
  exact fFF2_subkey_fails hr' hr.2 hK hn ht hT hw (Bool.eq_true_of_not_eq_false hJ)

/-- `F2RND` after its presence checks, every other check passed (R255, R256). -/
theorem State.ff2Round_eq (h : AllHold (s.f2Checks ra)) :
    s.ff2Round ⟨s.bsVal .r0, s.bsVal .r1, s.nsVal ra⟩ =
      if (ff2Requests s.provider.E s.params.radix.toNat s.params.tweakRadix.toNat (s.bsVal .r0) s.arg0.toNat
        (s.bsVal .r1) s.arg1.toNat (numeralSum s.params.radix.toNat (s.nsVal ra))).any s.provider.fails = true
      then .error ⟨.aesFail, 0⟩
      else .ok (numeralsOf s.params.radix.toNat (halfLen (s.arg0.toNat / 2) s.arg0.toNat s.arg1.toNat)
        (ff2Y s.provider.E s.params.radix.toNat s.params.tweakRadix.toNat (s.bsVal .r0) s.arg0.toNat (s.bsVal .r1)
          s.arg1.toNat (numeralSum s.params.radix.toNat (s.nsVal ra)) %
            s.params.radix.toNat ^ halfLen (s.arg0.toNat / 2) s.arg0.toNat s.arg1.toNat)) := by
  obtain ⟨⟨-, -, -, hr, hK, hargs, hr', ht, hn, hT, hw, -⟩, hl, hB, hx, -⟩ := allHold_append.mp h
  simp only [keySized, lengthIn, ← State.length_bsVal, ← State.length_nsVal] at hK hl ht
  simp only [State.ff2Round, State.ff2RadixCheck_ok hr, validKey_ok hK, State.roundArgCheck_ok hargs, except_ok_bind]
  exact fFF2_eq ⟨hr.1.1, hr'⟩ hr.2 hK ⟨hargs.1.1, hn⟩ hargs.2 ht hT hw hl hB hx

/-- `F3RND` after its presence checks, every other check passed (R275, R276). -/
theorem State.ff3Round_eq (h : AllHold (s.f3Checks ra)) :
    s.ff3Round ⟨s.bsVal .r0, s.bsVal .r1, s.nsVal ra⟩ =
      if (ff3Requests (s.bsVal .r0) (s.bsVal .r1) s.arg1.toNat
        (numeralSum s.params.radix.toNat (s.nsVal ra).reverse)).any s.provider.fails = true then .error ⟨.aesFail, 0⟩
      else .ok (numeralsOf s.params.radix.toNat (halfLen ((s.arg0.toNat + 1) / 2) s.arg0.toNat s.arg1.toNat)
        (ff3Y s.provider.E (s.bsVal .r0) (s.bsVal .r1) s.arg1.toNat
          (numeralSum s.params.radix.toNat (s.nsVal ra).reverse) %
            s.params.radix.toNat ^ halfLen ((s.arg0.toNat + 1) / 2) s.arg0.toNat s.arg1.toNat)) := by
  obtain ⟨-, -, -, hr, hK, hargs, hT, hl, hB, hx, -⟩ := h
  simp only [keySized, lengthIn, ← State.length_bsVal, ← State.length_nsVal] at hK hl hT
  simp only [State.ff3Round, radixCheck_ok hr, validKey_ok hK, State.roundArgCheck_ok hargs, except_ok_bind]
  exact fFF3_eq hr hK hargs.1 hargs.2 hT hl (by simpa using Numerals.reverse hB) hx

end

section

variable {s : State} {rd ra : Reg}

/-- FRND is the command of the round function that MODE.RF selects (R203). -/
theorem exec_frnd_of_rf_one (h : s.params.rf = 1) : exec (.frnd rd ra) s = exec (.f1rnd rd ra) s := by
  simp only [exec, execFrnd, execF1rnd, require_of (show s.params.rf = 1 ∨ s.params.rf = 2 ∨ s.params.rf = 3 by omega),
    except_ok_bind, if_pos h]

theorem exec_frnd_of_rf_two (h : s.params.rf = 2) : exec (.frnd rd ra) s = exec (.f2rnd rd ra) s := by
  simp only [exec, execFrnd, execF2rnd, require_of (show s.params.rf = 1 ∨ s.params.rf = 2 ∨ s.params.rf = 3 by omega),
    except_ok_bind, if_neg (show ¬ s.params.rf = 1 by omega), if_pos h]

theorem exec_frnd_of_rf_three (h : s.params.rf = 3) : exec (.frnd rd ra) s = exec (.f3rnd rd ra) s := by
  simp only [exec, execFrnd, execF3rnd, require_of (show s.params.rf = 1 ∨ s.params.rf = 2 ∨ s.params.rf = 3 by omega),
    except_ok_bind, if_neg (show ¬ s.params.rf = 1 by omega), if_neg (show ¬ s.params.rf = 2 by omega)]

/-- A command that applies the round function `f` to its three operands, all present, and `f` raises an error. -/
theorem State.finish_round_error {c : Cause} {info : Nat} {f : RoundInput → Except Raise (List Word)}
    (hp : AllHold (s.presenceChecks ra)) (hf : f ⟨s.bsVal .r0, s.bsVal .r1, s.nsVal ra⟩ = .error ⟨c, info⟩) :
    s.finish (do
      let x ← s.roundInput ra
      let Y ← f x
      pure (s.putNs rd Y)) = .next (s.failed c info) := by
  rw [State.roundInput_of_present hp, except_ok_bind, hf, except_error_bind, State.finish_error]

theorem exec_f1rnd_fails (hT : (s.bs.get .r1).len ≤ 4096) (h : AllHold (s.f1Checks ra))
    (hfail : ∃ q ∈ ff1Requests s.provider.E s.params.radix.toNat (s.bsVal .r0) s.arg0.toNat (s.bsVal .r1) s.arg1.toNat
      (numeralSum s.params.radix.toNat (s.nsVal ra)), s.provider.fails q = true) :
    exec (.f1rnd rd ra) s = .next (s.failed .aesFail 0) :=
  State.finish_round_error (f := s.ff1Round) (allHold_append.mp h).1
    (by rw [State.ff1Round_eq hT h, if_pos (List.any_eq_true.mpr hfail)])

theorem exec_f2rnd_subkey_fails (h : AllHold (s.f2HeaderChecks ra)) (hJ : ¬ s.f2SubkeyAnswered.ok) :
    exec (.f2rnd rd ra) s = .next (s.failed .aesFail 0) :=
  State.finish_round_error (f := s.ff2Round) (allHold_append.mp h).1 (State.ff2Round_subkey_fails h hJ)

theorem exec_f2rnd_fails (h : AllHold (s.f2Checks ra))
    (hfail : ∃ q ∈ ff2Requests s.provider.E s.params.radix.toNat s.params.tweakRadix.toNat (s.bsVal .r0) s.arg0.toNat
      (s.bsVal .r1) s.arg1.toNat (numeralSum s.params.radix.toNat (s.nsVal ra)), s.provider.fails q = true) :
    exec (.f2rnd rd ra) s = .next (s.failed .aesFail 0) :=
  State.finish_round_error (f := s.ff2Round) (allHold_append.mp (allHold_append.mp h).1).1
    (by rw [State.ff2Round_eq h, if_pos (List.any_eq_true.mpr hfail)])

theorem exec_f3rnd_fails (h : AllHold (s.f3Checks ra))
    (hfail : ∃ q ∈ ff3Requests (s.bsVal .r0) (s.bsVal .r1) s.arg1.toNat
      (numeralSum s.params.radix.toNat (s.nsVal ra).reverse), s.provider.fails q = true) :
    exec (.f3rnd rd ra) s = .next (s.failed .aesFail 0) :=
  State.finish_round_error (f := s.ff3Round) (allHold_append.mp h).1
    (by rw [State.ff3Round_eq h, if_pos (List.any_eq_true.mpr hfail)])

end

/-! ## Feistel rounds that make a failing request (R213) -/

/-- The iteration, when `k` rounds succeed and the next one raises an error. -/
theorem iterate_error_of_chain {σ : Type} {f : Nat → σ → Except Raise σ} {k count : Nat} (hk : k < count) (done : Nat)
    {g : Nat → σ} {e : Raise} (hok : ∀ j, j < k → f (done + j) (g j) = .ok (g (j + 1)))
    (herror : f (done + k) (g k) = .error e) : iterate f count done (g 0) = .error ⟨done + k, e⟩ := by
  induction k generalizing count done g with
  | zero =>
    obtain ⟨c, rfl⟩ := Nat.exists_eq_succ_of_ne_zero (by omega : count ≠ 0)
    rw [Nat.add_zero] at herror
    simp only [iterate, herror, Nat.add_zero]
  | succ k ih =>
    obtain ⟨c, rfl⟩ := Nat.exists_eq_succ_of_ne_zero (by omega : count ≠ 0)
    have hfirst : f done (g 0) = .ok (g 1) := hok 0 k.succ_pos
    rw [iterate, hfirst, show done + (k + 1) = done + 1 + k by omega]
    refine ih (by omega) (done + 1) (g := fun j => g (j + 1)) (fun j hj => ?_) ?_
    · rw [show done + 1 + j = done + (j + 1) by omega]
      exact hok (j + 1) (by omega)
    · rw [show done + 1 + k = done + (k + 1) by omega]
      exact herror

/-- The lengths of the halves alternate, round after round (R207). -/
theorem halfLen_congr (l n : Nat) {i j : Nat} (h : i % 2 = j % 2) : halfLen l n i = halfLen l n j := by
  rw [halfLen, halfLen, h]

/-- `A` has the length of the half that round `i` replaces, and numerals in range. -/
def IsHalf (radix l n i : Nat) (A : List Word) : Prop := A.length = halfLen l n i ∧ Numerals radix A

theorem IsHalf.congr {radix l n i j : Nat} {A : List Word} (hA : IsHalf radix l n i A) (h : i % 2 = j % 2) :
    IsHalf radix l n j A :=
  ⟨hA.1.trans (halfLen_congr l n h), hA.2⟩

theorem isHalf_take {radix l n : Nat} {X : List Word} (hX : Numerals radix X) (hn : X.length = n) (hl : l ≤ n) :
    IsHalf radix l n 0 (X.take l) :=
  ⟨by rw [List.length_take, hn, Nat.min_eq_left hl]; rfl, fun d hd => hX d (List.mem_of_mem_take hd)⟩

theorem isHalf_drop {radix l n : Nat} {X : List Word} (hX : Numerals radix X) (hn : X.length = n) :
    IsHalf radix l n 1 (X.drop l) :=
  ⟨by rw [List.length_drop, hn]; rfl, fun d hd => hX d (List.mem_of_mem_drop hd)⟩

/-- A half of a string cut in the middle is neither empty nor longer than the longer half. -/
theorem IsHalf.length_bounds {radix l n i : Nat} {A : List Word} (hA : IsHalf radix l n i A) (hn : 2 ≤ n)
    (hl : l = n / 2 ∨ l = (n + 1) / 2) : 1 ≤ A.length ∧ A.length ≤ n - n / 2 := by
  rw [hA.1]
  unfold halfLen
  split <;> omega

/-- The value of a half, read in either direction, is below that of the longer half's bound. -/
theorem IsHalf.numeralSum_lt {radix l n i : Nat} {A : List Word} (hA : IsHalf radix l n i A) (hr : 2 ≤ radix)
    (hn : 2 ≤ n) (hl : l = n / 2 ∨ l = (n + 1) / 2) :
    numeralSum radix A < radix ^ (n - n / 2) ∧ numeralSum radix A.reverse < radix ^ (n - n / 2) := by
  have hpow : radix ^ A.length ≤ radix ^ (n - n / 2) := Nat.pow_le_pow_right (by omega) (hA.length_bounds hn hl).2
  have hreverse := Machine.numeralSum_lt hA.2.reverse
  rw [List.length_reverse] at hreverse
  exact ⟨(Machine.numeralSum_lt hA.2).trans_le hpow, hreverse.trans_le hpow⟩

/-- A network that computes the rounds `round` and makes the requests `requests` on the AES port: where one of them
fails the round function raises AES_FAIL; where none does, `A` and `B` give the half `C` of `round`, and `C` and `B`
give `A` back. -/
structure Network.Performs (N : Network) (P : Provider) (radix : Nat) (round : (i : Nat) → (A B C : List Word) → Prop)
    (requests : (i : Nat) → (B : List Word) → List AesRequest) : Prop where
  fails : ∀ i B, i < N.r → IsHalf radix N.l N.n (i + 1) B → (∃ q ∈ requests i B, P.fails q = true) →
    N.F i B = .error ⟨.aesFail, 0⟩
  adds : ∀ i A B C, i < N.r → IsHalf radix N.l N.n i A → IsHalf radix N.l N.n (i + 1) B → round i A B C →
    (∀ q ∈ requests i B, P.fails q = false) →
    (N.F i B >>= fun y => N.add A y) = .ok C ∧ IsHalf radix N.l N.n i C
  subs : ∀ i A B C, i < N.r → Numerals radix A → IsHalf radix N.l N.n (i + 1) B → IsHalf radix N.l N.n i C →
    round i A B C → (∀ q ∈ requests i B, P.fails q = false) →
    (N.F i B >>= fun y => N.sub C y) = .ok A ∧ IsHalf radix N.l N.n i A

section

variable {N : Network} {P : Provider} {radix k : Nat} {round : (i : Nat) → (A B C : List Word) → Prop}
  {requests : (i : Nat) → (B : List Word) → List AesRequest} {X : List Word}

theorem Network.twoEncRound_ok {i : Nat} {A B C : List Word} (h : (N.F i B >>= fun y => N.add A y) = .ok C) :
    N.twoEncRound i (A, B) = .ok (B, C) := by
  obtain ⟨y, hy, hC⟩ := except_bind_ok_iff.mp h
  simp only [Network.twoEncRound, hy, hC, except_ok_bind, except_pure]

theorem Network.twoDecRound_ok {i : Nat} {A B C : List Word} (h : (N.F i B >>= fun y => N.sub C y) = .ok A) :
    N.twoDecRound i (B, C) = .ok (A, B) := by
  obtain ⟨y, hy, hA⟩ := except_bind_ok_iff.mp h
  simp only [Network.twoDecRound, hy, hA, except_ok_bind, except_pure]

/-- Method TWO, encrypting: the error of the first failing request, with the rounds completed before it. -/
theorem Network.twoEnc_fails (hN : N.Performs P radix round requests) (hX : Numerals radix X) (hn : X.length = N.n)
    {l r : Nat} (hNl : N.l = l) (hNr : N.r = r) (hl : l ≤ N.n) (h : EncryptFailsIn P round requests l r k X) :
    N.twoEnc X = .error ⟨k, ⟨.aesFail, 0⟩⟩ := by
  subst hNl hNr
  obtain ⟨L, h0, h1, hk, hrounds, hfail⟩ := h
  have hhalves : ∀ j, j ≤ k → IsHalf radix N.l N.n j (L j) ∧ IsHalf radix N.l N.n (j + 1) (L (j + 1)) := fun j => by
    induction j with
    | zero => exact fun _ => ⟨h0 ▸ isHalf_take hX hn hl, h1 ▸ isHalf_drop hX hn⟩
    | succ j ih =>
      intro hj
      obtain ⟨hA, hB⟩ := ih (by omega)
      obtain ⟨hround, hanswers⟩ := hrounds j (by omega)
      exact ⟨hB, (hN.adds j _ _ _ (by omega) hA hB hround hanswers).2.congr (by omega)⟩
  have hrun := iterate_error_of_chain (f := N.twoEncRound) hk 0 (g := fun j => (L j, L (j + 1)))
    (e := ⟨.aesFail, 0⟩) (fun j hj => ?_) ?_
  · rw [Network.twoEnc, ← h0, ← h1, hrun, except_error_bind, Nat.zero_add]
  · obtain ⟨hA, hB⟩ := hhalves j hj.le
    obtain ⟨hround, hanswers⟩ := hrounds j hj
    rw [Nat.zero_add]
    exact Network.twoEncRound_ok (hN.adds j _ _ _ (by omega) hA hB hround hanswers).1
  · simp only [Nat.zero_add, Network.twoEncRound, hN.fails k _ hk (hhalves k le_rfl).2 hfail, except_error_bind]

/-- Method TWO, decrypting an even number of rounds: the same from the last round down. -/
theorem Network.twoDec_fails (hN : N.Performs P radix round requests) (hX : Numerals radix X) (hn : X.length = N.n)
    {l r : Nat} (hNl : N.l = l) (hNr : N.r = r) (hl : l ≤ N.n) (hr : r % 2 = 0)
    (h : DecryptFailsIn P radix round requests l r k X) : N.twoDec X = .error ⟨k, ⟨.aesFail, 0⟩⟩ := by
  subst hNl hNr
  obtain ⟨L, h0, h1, hk, hnum, hrounds, hfail⟩ := h
  have hundo : ∀ j, j < k → IsHalf radix N.l N.n (N.r - 1 - j + 1) (L (N.r - j)) →
      IsHalf radix N.l N.n (N.r - 1 - j) (L (N.r - j + 1)) →
      (N.F (N.r - 1 - j) (L (N.r - j)) >>= fun y => N.sub (L (N.r - j + 1)) y) = .ok (L (N.r - (j + 1))) ∧
        IsHalf radix N.l N.n (N.r - 1 - j) (L (N.r - (j + 1))) := fun j hj hB hC => by
    obtain ⟨hround, hanswers⟩ := hrounds (N.r - 1 - j) (by omega) (by omega)
    rw [show N.r - 1 - j + 1 = N.r - j by omega, show N.r - 1 - j + 2 = N.r - j + 1 by omega] at hround
    rw [show N.r - 1 - j + 1 = N.r - j by omega] at hanswers
    rw [show N.r - (j + 1) = N.r - 1 - j by omega]
    exact hN.subs _ _ _ _ (by omega) (hnum _) hB hC hround hanswers
  have hhalves : ∀ j, j ≤ k → IsHalf radix N.l N.n (N.r - j) (L (N.r - j)) ∧
      IsHalf radix N.l N.n (N.r - j + 1) (L (N.r - j + 1)) := fun j => by
    induction j with
    | zero =>
      intro _
      rw [Nat.sub_zero, h0, h1]
      exact ⟨(isHalf_take hX hn hl).congr (by omega), (isHalf_drop hX hn).congr (by omega)⟩
    | succ j ih =>
      intro hj
      obtain ⟨hB, hC⟩ := ih (by omega)
      have hA := (hundo j (by omega) (hB.congr (by omega)) (hC.congr (by omega))).2
      rw [show N.r - (j + 1) + 1 = N.r - j by omega]
      exact ⟨hA.congr (by omega), hB⟩
  have hrun := iterate_error_of_chain (f := fun j => N.twoDecRound (N.r - 1 - j)) hk 0
    (g := fun j => (L (N.r - j), L (N.r - j + 1))) (e := ⟨.aesFail, 0⟩) (fun j hj => ?_) ?_
  · rw [Nat.sub_zero] at hrun
    rw [Network.twoDec, Network.decCut, if_pos hr, ← h0, ← h1, hrun, except_error_bind, Nat.zero_add]
  · obtain ⟨hB, hC⟩ := hhalves j hj.le
    have hA := (hundo j hj (hB.congr (by omega)) (hC.congr (by omega))).1
    simp only [Nat.zero_add, show N.r - (j + 1) + 1 = N.r - j by omega]
    exact Network.twoDecRound_ok hA
  · have hB := (hhalves k le_rfl).1
    simp only [Nat.zero_add, Network.twoDecRound,
      hN.fails (N.r - 1 - k) _ (by omega) (hB.congr (by omega)) hfail, except_error_bind]

end

/-! ### The rounds of addition in blocks and in reversed blocks (R191, R194) -/

section

variable {p : Params} {y : (i : Nat) → (B : List Word) → Nat} {i : Nat} {A A' B C C' : List Word}

/-- The new half of a round is one string. -/
theorem Params.Round.new_unique (har : p.arith = 1 ∨ p.arith = 2) (h : p.Round y i A B C) (h' : p.Round y i A B C') :
    C = C' := by
  unfold Params.Round at h h'
  rcases har with har | har
  · simp only [har, if_true] at h h'
    exact isNumerals_unique h h'
  · simp only [har, OfNat.ofNat_ne_one, if_false, if_true] at h h'
    exact List.reverse_injective (isNumerals_unique h h')

/-- A numeral string is determined by its length and the residue of its value after an addition. -/
theorem eq_of_numeralSum_add_mod {radix v : Nat} (hlen : A.length = A'.length) (hA : Numerals radix A)
    (hA' : Numerals radix A')
    (h : (numeralSum radix A + v) % radix ^ A.length = (numeralSum radix A' + v) % radix ^ A'.length) : A = A' := by
  have hlt := numeralSum_lt hA
  have hlt' := numeralSum_lt hA'
  rw [← hlen] at h hlt'
  have hmod : numeralSum radix A ≡ numeralSum radix A' [MOD radix ^ A.length] := Nat.ModEq.add_right_cancel' v h
  have hsum : numeralSum radix A = numeralSum radix A' := hmod.eq_of_lt_of_lt hlt hlt'
  exact isNumerals_unique ⟨rfl, hA, rfl⟩ ⟨hlen.symm, hA', hsum.symm⟩

theorem Params.Round.length_eq (har : p.arith = 1 ∨ p.arith = 2) (h : p.Round y i A B C) : C.length = A.length := by
  unfold Params.Round at h
  rcases har with har | har
  · simp only [har, if_true] at h
    exact h.1
  · simp only [har, OfNat.ofNat_ne_one, if_false, if_true] at h
    exact List.length_reverse.symm.trans h.1

/-- The old half of a round is one string of numerals. -/
theorem Params.Round.old_unique (har : p.arith = 1 ∨ p.arith = 2) (hA : Numerals p.radix.toNat A)
    (hA' : Numerals p.radix.toNat A') (h : p.Round y i A B C) (h' : p.Round y i A' B C) : A = A' := by
  have hlen : A.length = A'.length := (h.length_eq har).symm.trans (h'.length_eq har)
  unfold Params.Round at h h'
  rcases har with har | har
  · simp only [har, if_true] at h h'
    exact eq_of_numeralSum_add_mod hlen hA hA' (h.2.2.symm.trans h'.2.2)
  · simp only [har, OfNat.ofNat_ne_one, if_false, if_true, ← List.length_reverse (as := A),
      ← List.length_reverse (as := A')] at h h'
    exact List.reverse_injective
      (eq_of_numeralSum_add_mod (by simpa using hlen) hA.reverse hA'.reverse (h.2.2.symm.trans h'.2.2))

theorem Params.round_of_arith_one {radix : Word} (h : p.arith = 1) (hr : p.radix = radix) (y : (i x : Nat) → Nat) :
    p.Round (fun i B => y i (numeralSum radix.toNat B)) = BlockwiseRound radix.toNat y := by
  funext i A B C
  simp only [Params.Round, h, hr, if_true, BlockwiseRound]

theorem Params.round_of_arith_two {radix : Word} (h : p.arith = 2) (hr : p.radix = radix) (y : (i x : Nat) → Nat) :
    p.Round (fun i B => y i (numeralSum radix.toNat B.reverse)) = ReversedRound radix.toNat y := by
  funext i A B C
  simp only [Params.Round, h, hr, OfNat.ofNat_ne_one, if_false, if_true, ReversedRound]

/-- A network whose arithmetic is the parameters' own and whose round function answers with `y`, or AES_FAIL where a
request fails, performs the rounds of the parameters. -/
theorem Params.performs {N : Network} {P : Provider} {requests : (i : Nat) → (B : List Word) → List AesRequest}
    (har : p.arith = 1 ∨ p.arith = 2) (hr : 2 ≤ p.radix.toNat ∧ p.radix.toNat ≤ 65536) (hn : 2 ≤ N.n ∧ N.n ≤ 4096)
    (hl : N.l = N.n / 2 ∨ N.l = (N.n + 1) / 2) (hadd : N.add = addBy p.arith p.radix.toNat)
    (hsub : N.sub = subBy p.arith p.radix.toNat)
    (hF : ∀ i B, i < N.r → IsHalf p.radix.toNat N.l N.n (i + 1) B →
      N.F i B = if (requests i B).any P.fails = true then .error ⟨.aesFail, 0⟩
        else .ok (numeralsOf p.radix.toNat (halfLen N.l N.n i) (y i B % p.radix.toNat ^ halfLen N.l N.n i))) :
    N.Performs P p.radix.toNat (p.Round y) requests := by
  have har' : p.arith = 1 ∨ p.arith = 2 ∨ p.arith = 3 := by omega
  have hanswer : ∀ i B, i < N.r → IsHalf p.radix.toNat N.l N.n (i + 1) B → (∀ q ∈ requests i B, P.fails q = false) →
      N.F i B = .ok (numeralsOf p.radix.toNat (halfLen N.l N.n i) (y i B % p.radix.toNat ^ halfLen N.l N.n i)) :=
    fun i B hi hB hq => by
      rw [hF i B hi hB, if_neg]
      simpa using hq
  refine ⟨fun i B hi hB hq => ?_, fun i A B C hi hA hB hround hq => ?_, fun i A B C hi hA hB hC hround hq => ?_⟩
  · rw [hF i B hi hB, if_pos (List.any_eq_true.mpr hq)]
  · have hm := halfLen_bounds (i := i) hn.1 hl
    obtain ⟨D, hD, hround', hlen, hnum⟩ := addBy_ok (y := y) (i := i) (B := B) har' hr hA.2 (by rw [hA.1]; omega)
    obtain rfl : C = D := hround.new_unique har hround'
    rw [hanswer i B hi hB hq, except_ok_bind, hadd, ← hA.1]
    exact ⟨hD, hlen.trans hA.1, hnum⟩
  · have hm := halfLen_bounds (i := i) hn.1 hl
    obtain ⟨D, hD, hround', hlen, hnum⟩ := subBy_ok (y := y) (i := i) (B := B) har' hr hC.2 (by rw [hC.1]; omega)
    obtain rfl : A = D := hround.old_unique har hA hnum hround'
    rw [hanswer i B hi hB hq, except_ok_bind, hsub, ← hC.1]
    exact ⟨hD, hlen.trans hC.1, hnum⟩

end

/-! ## The cipher commands (R210, R211, R240, R241, R260, R261) -/

/-! ### FF1 -/

theorem ff1Params_arith (radix maxTlen : Word) : (ff1Params radix maxTlen).arith = 1 :=
  (by decide : ((0x56 : Word).extractLsb' 2 2).toNat = 1)

theorem ff1Network_performs {P : Provider} {radix : Word} {K T : List Byte} {n : Nat}
    (hr : 2 ≤ radix.toNat ∧ radix.toNat ≤ 65536) (hK : K.length = 16 ∨ K.length = 24 ∨ K.length = 32)
    (hn : 2 ≤ n ∧ n ≤ 4096) (hfit : T.length + ff1Bytes radix.toNat n ≤ 4079) :
    (ff1Network P radix.toNat K T n).Performs P radix.toNat
      (BlockwiseRound radix.toNat fun i x => ff1Y P.E radix.toNat K n T i x)
      (fun i B => ff1Requests P.E radix.toNat K n T i (numeralSum radix.toNat B)) := by
  have harith : (ff1Params radix 0).arith = 1 := ff1Params_arith _ _
  rw [← Params.round_of_arith_one (radix := radix) harith rfl]
  refine Params.performs (.inl harith) hr hn (.inl rfl) (by rw [harith]; rfl) (by rw [harith]; rfl) fun i B hi hB => ?_
  have hB : IsHalf radix.toNat (n / 2) n (i + 1) B := hB
  have hi' : i ≤ 255 := (show i < 10 from hi).le.trans (by norm_num)
  obtain ⟨hpos, hle⟩ := hB.length_bounds hn.1 (.inl rfl)
  have hx := lt_ff1Bytes (hB.numeralSum_lt hr.1 hn.1 (.inl rfl)).1
  exact (fFF1_eq hr hK hn hi' (by omega) ⟨hpos, hle.trans (by omega)⟩ hB.2 hx).trans (if_pos hfit)

section

variable {s : State} {rd ra : Reg}

theorem ff1Precheck_ok (h : AllHold (s.ff1CipherChecks ra)) :
    ff1Precheck s.params.radix.toNat s.params.maxtlen.toNat ⟨s.bsVal .r0, s.bsVal .r1, s.nsVal ra⟩ = .ok () := by
  obtain ⟨-, -, -, hr, hK, hT, hX, hentropy, hnum, -⟩ := h
  simp only [keySized, enoughEntropy, ← State.length_bsVal, ← State.length_nsVal] at hK hT hX hentropy
  simp only [ff1Precheck, radixCheck_ok hr, validKey_ok hK, require_of hT, require_of hX, entropyCheck,
    require_of hentropy, numeralCheck_ok hnum, except_ok_bind]

theorem exec_ff1enc_eq (h : AllHold (s.ff1CipherChecks ra)) :
    exec (.ff1enc rd ra) s = s.finishCipher rd 10
      (.ok ((ff1Network s.provider s.params.radix.toNat (s.bsVal .r0) (s.bsVal .r1) (s.nsVal ra).length).twoEnc
        (s.nsVal ra))) := by
  simp only [exec, execFf1enc, State.cipherInput_of_present (allHold_append.mp h).1, ff1Precheck_ok h, except_ok_bind,
    except_pure]

theorem exec_ff1dec_eq (h : AllHold (s.ff1CipherChecks ra)) :
    exec (.ff1dec rd ra) s = s.finishCipher rd 10
      (.ok ((ff1Network s.provider s.params.radix.toNat (s.bsVal .r0) (s.bsVal .r1) (s.nsVal ra).length).twoDec
        (s.nsVal ra))) := by
  simp only [exec, execFf1dec, State.cipherInput_of_present (allHold_append.mp h).1, ff1Precheck_ok h, except_ok_bind,
    except_pure]

end

/-- FF1ENC and FF1DEC, the checks passed and no check inside the rounds failing: the first failing request ends them. -/
theorem ff1Commands_fail (rd ra : Reg) (s : State) (k : Nat) (hX : (s.ns.get ra).len ≤ 4096)
    (h : AllHold (s.ff1CipherChecks ra))
    (hfit : (s.bsVal .r1).length + ff1Bytes s.params.radix.toNat (s.ns.get ra).len ≤ 4079) :
    let n := (s.ns.get ra).len
    let radix := s.params.radix.toNat
    let round := BlockwiseRound radix fun i x => ff1Y s.provider.E radix (s.bsVal .r0) n (s.bsVal .r1) i x
    let requests := fun i B =>
      ff1Requests s.provider.E radix (s.bsVal .r0) n (s.bsVal .r1) i (numeralSum radix B)
    (EncryptFailsIn s.provider round requests (n / 2) 10 k (s.nsVal ra) →
      exec (.ff1enc rd ra) s = .next (s.failedInRounds .aesFail 0 10 k)) ∧
    (DecryptFailsIn s.provider radix round requests (n / 2) 10 k (s.nsVal ra) →
      exec (.ff1dec rd ra) s = .next (s.failedInRounds .aesFail 0 10 k)) := by
  have ⟨_, _, _, hr, hK, _, hn, _, hnum, _⟩ := h
  have hN := ff1Network_performs (P := s.provider) hr ((s.length_bsVal .r0).symm ▸ hK) ⟨hn, hX⟩ hfit
  have hcut : (s.ns.get ra).len / 2 ≤ (s.ns.get ra).len := Nat.div_le_self ..
  refine ⟨fun hfail => ?_, fun hfail => ?_⟩
  · rw [exec_ff1enc_eq h, State.length_nsVal, Network.twoEnc_fails hN hnum (s.length_nsVal ra) rfl rfl hcut hfail,
      State.finishCipher_roundError]
  · rw [exec_ff1dec_eq h, State.length_nsVal,
      Network.twoDec_fails hN hnum (s.length_nsVal ra) rfl (r := 10) rfl hcut (by decide) hfail,
      State.finishCipher_roundError]

/-! ### FF2 -/

theorem ff2Maxlen_eq {radix : Nat} (hr : 2 ≤ radix) : ff2Maxlen radix = ff2LongestInput radix := by
  simp only [ff2Maxlen, ff2LongestInput, Nat.log2_eq_log_two, cap_eq_log hr]

theorem ff2MaxTlen_eq {tradix : Nat} (hr : 2 ≤ tradix) : ff2MaxTlen tradix = ff2LongestTweak tradix := by
  rw [ff2MaxTlen, ff2LongestTweak, cap_eq_log hr]

theorem log_two_pow_le {radix : Nat} (hr : 2 ≤ radix) (c : Nat) : Nat.log radix (2 ^ c) ≤ c :=
  (Nat.log_anti_left (by norm_num) hr).trans (Nat.log_pow (by norm_num) c).le

/-- Half of at most `2 log_radix(2^c)` numerals has a value below `2^c`. -/
theorem pow_half_le {radix c n : Nat} (hr : 2 ≤ radix) (hn : n ≤ 2 * Nat.log radix (2 ^ c)) :
    radix ^ (n - n / 2) ≤ 2 ^ c :=
  (Nat.pow_le_pow_right (by omega) (by omega)).trans (Nat.pow_log_le_self radix (Nat.two_pow_pos c).ne')

/-- A legal FF2 input (R257) has fewer than 256 numerals, and each half fits 15 bytes (R252, R254). -/
theorem ff2LongestInput_fits {radix n : Nat} (hr : 2 ≤ radix ∧ radix ≤ 256) (hn : n ≤ ff2LongestInput radix) :
    n < 256 ∧ radix ^ (n - n / 2) ≤ 256 ^ 15 := by
  have hlog := log_two_pow_le hr.1 120
  have hlog' := log_two_pow_le hr.1 98
  have hfield : (256 : Nat) ^ 15 = 2 ^ 120 := by norm_num
  rw [hfield]
  unfold ff2LongestInput at hn
  split at hn
  · refine ⟨by omega, ?_⟩
    rcases le_max_iff.mp hn with hle | hle
    · calc radix ^ (n - n / 2) ≤ radix ^ 1 := Nat.pow_le_pow_right (by omega) (by omega)
        _ ≤ 2 ^ 120 := by rw [pow_one]; exact hr.2.trans (by norm_num)
    · exact pow_half_le hr.1 hle
  · exact ⟨by omega, (pow_half_le hr.1 hn).trans (Nat.pow_le_pow_right (by norm_num) (by norm_num))⟩

/-- A legal FF2 tweak (R257) has fewer than 256 digits, and its value fits 13 bytes (R252). -/
theorem ff2LongestTweak_fits {tradix : Nat} {T : List Byte} (hr : 2 ≤ tradix) (hT : T.length ≤ ff2LongestTweak tradix)
    (hdigits : ∀ d ∈ T, d.toNat < tradix) :
    T.length < 256 ∧ digitSum tradix (T.map BitVec.toNat) < 256 ^ 13 := by
  have hlog := log_two_pow_le hr 104
  have hfield : (256 : Nat) ^ 13 = 2 ^ 104 := by norm_num
  unfold ff2LongestTweak at hT
  refine ⟨by omega, ?_⟩
  rw [← valueOf_eq_digitSum, hfield]
  calc valueOf tradix (T.map BitVec.toNat) < tradix ^ (T.map BitVec.toNat).length := valueOf_lt (by simpa using hdigits)
    _ ≤ tradix ^ Nat.log tradix (2 ^ 104) := Nat.pow_le_pow_right (by omega) (by rw [List.length_map]; omega)
    _ ≤ 2 ^ 104 := Nat.pow_log_le_self tradix (Nat.two_pow_pos 104).ne'

theorem ff2Params_arith (radix tradix : Word) : (ff2Params radix tradix).arith = 1 :=
  (by decide : ((0x96 : Word).extractLsb' 2 2).toNat = 1)

theorem ff2Network_performs {P : Provider} {radix : Word} {tradix : Nat} {K T : List Byte} {n : Nat}
    (hr : 2 ≤ radix.toNat ∧ radix.toNat < 256) (htr : 2 ≤ tradix ∧ tradix ≤ 256)
    (hK : K.length = 16 ∨ K.length = 24 ∨ K.length = 32) (hn : 2 ≤ n ∧ n ≤ ff2LongestInput radix.toNat)
    (hT : T.length ≤ ff2LongestTweak tradix) (hdigits : ∀ d ∈ T, d.toNat < tradix) :
    (ff2Network P radix.toNat tradix K T n).Performs P radix.toNat
      (BlockwiseRound radix.toNat fun i x => ff2Y P.E radix.toNat tradix K n T i x)
      (fun i B => ff2Requests P.E radix.toNat tradix K n T i (numeralSum radix.toNat B)) := by
  obtain ⟨hn', hfit⟩ := ff2LongestInput_fits ⟨hr.1, hr.2.le⟩ hn.2
  obtain ⟨ht, hw⟩ := ff2LongestTweak_fits htr.1 hT hdigits
  have harith : (ff2Params radix 0).arith = 1 := ff2Params_arith _ _
  rw [← Params.round_of_arith_one (radix := radix) harith rfl]
  refine Params.performs (.inl harith) (p := ff2Params radix 0) ⟨hr.1, hr.2.le.trans (by norm_num)⟩
    (N := ff2Network P radix.toNat tradix K T n) ⟨hn.1, hn'.le.trans (by norm_num)⟩ (.inl rfl)
    (by rw [harith]; rfl) (by rw [harith]; rfl) fun i B hi hB => ?_
  have hB : IsHalf radix.toNat (n / 2) n (i + 1) B := hB
  have hi' : i ≤ 255 := (show i < 10 from hi).le.trans (by norm_num)
  obtain ⟨hpos, hle⟩ := hB.length_bounds hn.1 (.inl rfl)
  have hx := (hB.numeralSum_lt hr.1 hn.1 (.inl rfl)).1.trans_le hfit
  exact fFF2_eq hr htr hK ⟨hn.1, hn'⟩ hi' ht hdigits hw ⟨hpos, hle.trans (by omega)⟩ hB.2 hx

section

variable {s : State} {rd ra : Reg}

theorem ff2Precheck_ok (h : AllHold (s.ff2CipherChecks ra)) :
    ff2Precheck s.params.radix.toNat s.params.tweakRadix.toNat ⟨s.bsVal .r0, s.bsVal .r1, s.nsVal ra⟩ = .ok () := by
  obtain ⟨-, -, -, hr, hK, hT, hX, hentropy, hnum, -⟩ := h
  rw [← ff2MaxTlen_eq hr.2.1] at hT
  rw [← ff2Maxlen_eq hr.1.1] at hX
  simp only [keySized, enoughEntropy, ← State.length_bsVal, ← State.length_nsVal] at hK hT hX hentropy
  simp only [ff2Precheck, State.ff2RadixCheck_ok hr, validKey_ok hK, require_of hT, require_of hX, entropyCheck,
    require_of hentropy, numeralCheck_ok hnum, except_ok_bind]

theorem exec_ff2enc_eq (h : AllHold (s.ff2CipherChecks ra)) :
    exec (.ff2enc rd ra) s = s.finishCipher rd 10
      (.ok ((ff2Network s.provider s.params.radix.toNat s.params.tweakRadix.toNat (s.bsVal .r0) (s.bsVal .r1)
        (s.nsVal ra).length).twoEnc (s.nsVal ra))) := by
  simp only [exec, execFf2enc, State.cipherInput_of_present (allHold_append.mp h).1, ff2Precheck_ok h, except_ok_bind,
    except_pure]

theorem exec_ff2dec_eq (h : AllHold (s.ff2CipherChecks ra)) :
    exec (.ff2dec rd ra) s = s.finishCipher rd 10
      (.ok ((ff2Network s.provider s.params.radix.toNat s.params.tweakRadix.toNat (s.bsVal .r0) (s.bsVal .r1)
        (s.nsVal ra).length).twoDec (s.nsVal ra))) := by
  simp only [exec, execFf2dec, State.cipherInput_of_present (allHold_append.mp h).1, ff2Precheck_ok h, except_ok_bind,
    except_pure]

end

/-- FF2ENC and FF2DEC, the checks passed and no check inside the rounds failing: the first failing request ends them. -/
theorem ff2Commands_fail (rd ra : Reg) (s : State) (k : Nat) (h : AllHold (s.ff2CipherChecks ra))
    (hr256 : s.params.radix.toNat ≠ 256) (hdigits : (tweakDigitsIn s.params.tweakRadix.toNat (s.bsVal .r1)).ok) :
    let n := (s.ns.get ra).len
    let radix := s.params.radix.toNat
    let tradix := s.params.tweakRadix.toNat
    let round := BlockwiseRound radix fun i x => ff2Y s.provider.E radix tradix (s.bsVal .r0) n (s.bsVal .r1) i x
    let requests := fun i B =>
      ff2Requests s.provider.E radix tradix (s.bsVal .r0) n (s.bsVal .r1) i (numeralSum radix B)
    (EncryptFailsIn s.provider round requests (n / 2) 10 k (s.nsVal ra) →
      exec (.ff2enc rd ra) s = .next (s.failedInRounds .aesFail 0 10 k)) ∧
    (DecryptFailsIn s.provider radix round requests (n / 2) 10 k (s.nsVal ra) →
      exec (.ff2dec rd ra) s = .next (s.failedInRounds .aesFail 0 10 k)) := by
  have ⟨_, _, _, hr, hK, hT, hn, _, hnum, _⟩ := h
  have hN := ff2Network_performs (P := s.provider) ⟨hr.1.1, lt_of_le_of_ne hr.1.2 hr256⟩ hr.2
    ((s.length_bsVal .r0).symm ▸ hK) hn ((s.length_bsVal .r1).symm ▸ hT) hdigits
  have hcut : (s.ns.get ra).len / 2 ≤ (s.ns.get ra).len := Nat.div_le_self ..
  refine ⟨fun hfail => ?_, fun hfail => ?_⟩
  · rw [exec_ff2enc_eq h, State.length_nsVal, Network.twoEnc_fails hN hnum (s.length_nsVal ra) rfl rfl hcut hfail,
      State.finishCipher_roundError]
  · rw [exec_ff2dec_eq h, State.length_nsVal,
      Network.twoDec_fails hN hnum (s.length_nsVal ra) rfl (r := 10) rfl hcut (by decide) hfail,
      State.finishCipher_roundError]

/-! ### The generic engine -/

theorem paramsOk_ok {p : Params} (h : AllHold p.usable) : paramsOk p = .ok () := by
  obtain ⟨hmethod, harith, hrf, hsplit, hrounds, hr, hff2, -⟩ := h
  simp only [paramsOk, require_of hmethod, require_of harith, require_of hrf, require_of hsplit, require_of hrounds,
    radixCheck_ok hr, except_ok_bind]
  split
  · exact require_of ⟨⟨hr.1, (hff2 ‹_›).1⟩, (hff2 ‹_›).2⟩ _ _
  · rfl

theorem roundsFloor_ok {p : Params} {n : Nat} (h : p.EnoughRounds n) :
    roundsFloor p.method p.rounds.toNat (p.leftLen n) n = .ok () := by
  unfold Params.EnoughRounds at h
  unfold roundsFloor
  split at h
  · rw [if_pos ‹_›, require_of h]
  · rw [if_neg ‹_›, require_of h]

section

variable {s : State} {rd ra : Reg}

theorem Params.precheck_ok (h : AllHold (s.cipherChecks ra)) :
    s.params.precheck ⟨s.bsVal .r0, s.bsVal .r1, s.nsVal ra⟩ = .ok () := by
  obtain ⟨hfirst, hK, hT, hX, hentropy, hnum, hsplit, hfloor, -⟩ := allHold_append.mp h
  simp only [keySized, enoughEntropy, ← State.length_bsVal, ← State.length_nsVal] at hK hT hX hentropy hsplit hfloor
  simp only [Params.precheck, paramsOk_ok (allHold_append.mp hfirst).2, validKey_ok hK, require_of hT, require_of hX,
    entropyCheck, require_of hentropy, numeralCheck_ok hnum, Params.splitAt_eq_leftLen, splitCheck, require_of hsplit,
    roundsFloor_ok hfloor, except_ok_bind]

theorem exec_enc_eq (h : AllHold (s.cipherChecks ra)) :
    exec (.enc rd ra) s = s.finishCipher rd s.params.rounds.toNat
      (.ok ((s.params.network s.provider (s.bsVal .r0) (s.bsVal .r1) (s.nsVal ra).length).encrypt s.params.method
        (s.nsVal ra))) := by
  simp only [exec, execEnc, State.cipherInput_of_present (allHold_append.mp (allHold_append.mp h).1).1,
    Params.precheck_ok h, except_ok_bind, except_pure]

theorem exec_dec_eq (h : AllHold (s.cipherChecks ra)) :
    exec (.dec rd ra) s = s.finishCipher rd s.params.rounds.toNat
      (.ok ((s.params.network s.provider (s.bsVal .r0) (s.bsVal .r1) (s.nsVal ra).length).decrypt s.params.method
        (s.nsVal ra))) := by
  simp only [exec, execDec, State.cipherInput_of_present (allHold_append.mp (allHold_append.mp h).1).1,
    Params.precheck_ok h, except_ok_bind, except_pure]

end

/-! ### FF3 (R278, R279) -/

/-- A legal FF3 input (R277) has at most 192 numerals, and each half fits 12 bytes (R272). -/
theorem ff3Maxlen_fits {radix n : Nat} (hr : 2 ≤ radix) (hn : n ≤ ff3Maxlen radix) :
    n ≤ 192 ∧ radix ^ (n - n / 2) ≤ 256 ^ 12 := by
  have hlog := log_two_pow_le hr 96
  have hfield : (256 : Nat) ^ 12 = 2 ^ 96 := by norm_num
  rw [ff3Maxlen, cap_eq_log hr] at hn
  rw [hfield]
  exact ⟨by omega, pow_half_le hr hn⟩

/-- What MODE and ROUNDS say of FF3's parameters (R54, R278). -/
theorem ff3Params_fields (radix : Word) :
    (ff3Params radix).method = 2 ∧ (ff3Params radix).arith = 2 ∧ (ff3Params radix).rounds.toNat = 8 :=
  ⟨(by decide : ((0xEA : Word).extractLsb' 0 2).toNat = 2), (by decide : ((0xEA : Word).extractLsb' 2 2).toNat = 2),
    rfl⟩

theorem ff3Params_splitAt (radix : Word) (n : Nat) : (ff3Params radix).splitAt n = (n + 1) / 2 := by
  have hsplit : (ff3Params radix).split = 2 := (by decide : ((0xEA : Word).extractLsb' 4 2).toNat = 2)
  rw [Params.splitAt, hsplit]
  rfl

theorem ff3Network_F (P : Provider) (radix : Word) (K T : List Byte) (n : Nat) :
    ((ff3Params radix).network P K T n).F = fFF3 P radix.toNat K n T := by
  have hrf : (ff3Params radix).rf = 3 := (by decide : ((0xEA : Word).extractLsb' 6 2).toNat = 3)
  simp only [Params.network, hrf]
  rfl

theorem ff3Network_performs {P : Provider} {radix : Word} {K T : List Byte} {n : Nat}
    (hr : 2 ≤ radix.toNat ∧ radix.toNat ≤ 65536) (hK : K.length = 16 ∨ K.length = 24 ∨ K.length = 32)
    (hT : T.length = 8) (hn : 2 ≤ n ∧ n ≤ ff3Maxlen radix.toNat) :
    ((ff3Params radix).network P K T n).Performs P radix.toNat
      (ReversedRound radix.toNat fun i x => ff3Y P.E K T i x)
      (fun i B => ff3Requests K T i (numeralSum radix.toNat B.reverse)) := by
  obtain ⟨hn', hfit⟩ := ff3Maxlen_fits hr.1 hn.2
  have hsize : 2 ≤ n ∧ n ≤ 4096 := ⟨hn.1, hn'.trans (by norm_num)⟩
  have harith : (ff3Params radix).arith = 2 := (ff3Params_fields radix).2.1
  rw [← Params.round_of_arith_two (radix := radix) harith rfl]
  refine Params.performs (.inr harith) hr hsize (.inr (ff3Params_splitAt radix n)) rfl rfl fun i B hi hB => ?_
  have hB : IsHalf radix.toNat ((ff3Params radix).splitAt n) n (i + 1) B := hB
  have hi' : i ≤ 255 := (show i < 8 from hi).le.trans (by norm_num)
  obtain ⟨hpos, hle⟩ := hB.length_bounds hn.1 (.inr (ff3Params_splitAt radix n))
  have hx := (hB.numeralSum_lt hr.1 hn.1 (.inr (ff3Params_splitAt radix n))).2.trans_le hfit
  have hhalf := fFF3_eq (P := P) (n := n) hr hK hsize hi' hT ⟨hpos, hle.trans (by omega)⟩ hB.2 hx
  rw [← ff3Params_splitAt radix n] at hhalf
  rw [ff3Network_F]
  exact hhalf

/-- ENC and DEC with the parameters of FF3, the checks passed: the first failing request ends them. -/
theorem ff3Commands_fail (rd ra : Reg) (s : State) (k : Nat) (hp : s.params = ff3Params s.params.radix)
    (h : AllHold (s.cipherChecks ra)) :
    let n := (s.ns.get ra).len
    let radix := s.params.radix.toNat
    let round := ReversedRound radix fun i x => ff3Y s.provider.E (s.bsVal .r0) (s.bsVal .r1) i x
    let requests := fun i (B : List Word) =>
      ff3Requests (s.bsVal .r0) (s.bsVal .r1) i (numeralSum radix B.reverse)
    (EncryptFailsIn s.provider round requests ((n + 1) / 2) 8 k (s.nsVal ra) →
      exec (.enc rd ra) s = .next (s.failedInRounds .aesFail 0 8 k)) ∧
    (DecryptFailsIn s.provider radix round requests ((n + 1) / 2) 8 k (s.nsVal ra) →
      exec (.dec rd ra) s = .next (s.failedInRounds .aesFail 0 8 k)) := by
  obtain ⟨hfirst, hK, hT, hn, -, hnum, -⟩ := allHold_append.mp h
  obtain ⟨-, -, -, -, -, hr, -⟩ := (allHold_append.mp hfirst).2
  have hmethod : s.params.method = 2 := (congrArg Params.method hp).trans (ff3Params_fields _).1
  have hrounds : s.params.rounds.toNat = 8 :=
    (congrArg (fun p => p.rounds.toNat) hp).trans (ff3Params_fields _).2.2
  have hsplit : s.params.splitAt (s.ns.get ra).len = ((s.ns.get ra).len + 1) / 2 :=
    (congrArg (fun p => p.splitAt (s.ns.get ra).len) hp).trans (ff3Params_splitAt _ _)
  have hT8 : (s.bsVal .r1).length = 8 := by
    rw [State.length_bsVal]
    rw [hp] at hT
    exact le_antisymm hT.2 hT.1
  have hn' : 2 ≤ (s.ns.get ra).len ∧ (s.ns.get ra).len ≤ ff3Maxlen s.params.radix.toNat := by
    rw [hp] at hn
    exact ⟨hn.2, hn.1.2.trans (Nat.mod_le _ _)⟩
  have hN := ff3Network_performs (P := s.provider) hr ((s.length_bsVal .r0).symm ▸ hK) hT8 hn'
  have hcut : ((s.ns.get ra).len + 1) / 2 ≤ (s.ns.get ra).len := by omega
  rw [← hp] at hN
  refine ⟨fun hfail => ?_, fun hfail => ?_⟩
  · rw [exec_enc_eq h, State.length_nsVal, Network.encrypt, hmethod, if_neg (by decide),
      Network.twoEnc_fails hN hnum (s.length_nsVal ra) hsplit hrounds hcut hfail, hrounds,
      State.finishCipher_roundError]
  · rw [exec_dec_eq h, State.length_nsVal, Network.decrypt, hmethod, if_neg (by decide),
      Network.twoDec_fails hN hnum (s.length_nsVal ra) hsplit hrounds hcut (by decide) hfail, hrounds,
      State.finishCipher_roundError]

/-- Settles O20, command by command: the adapter's, the round functions', the cipher commands'. -/
theorem failingProviderRaisesAesFail : Obligations.FailingProviderRaisesAesFail := by
  refine ⟨fun rd ra rb s => ⟨exec_ciph_fails, exec_prf2_fails, exec_prf_fails, exec_off2_fails⟩,
    fun rd ra s i => ⟨?_, ?_, ?_, ?_⟩, fun rd ra s k hT hX =>
    ⟨ff1Commands_fail rd ra s k hX, ff2Commands_fail rd ra s k, ff3Commands_fail rd ra s k⟩⟩
  · rintro (rfl | ⟨rfl, hrf⟩) hT h hfail
    · exact exec_f1rnd_fails hT h hfail
    · exact (exec_frnd_of_rf_one hrf).trans (exec_f1rnd_fails hT h hfail)
  · rintro (rfl | ⟨rfl, hrf⟩) h hJ
    · exact exec_f2rnd_subkey_fails h hJ
    · exact (exec_frnd_of_rf_two hrf).trans (exec_f2rnd_subkey_fails h hJ)
  · rintro (rfl | ⟨rfl, hrf⟩) h hfail
    · exact exec_f2rnd_fails h hfail
    · exact (exec_frnd_of_rf_two hrf).trans (exec_f2rnd_fails h hfail)
  · rintro (rfl | ⟨rfl, hrf⟩) h hfail
    · exact exec_f3rnd_fails h hfail
    · exact (exec_frnd_of_rf_three hrf).trans (exec_f3rnd_fails h hfail)

end Sys2Proof.Machine
end

section
/-!
SUPPORT. The proofs of the statements on the encoding (30): the decoder accepts the encodings and nothing else, each row
(match, mask) of R114 stands for one opcode, and the engine treats the pending word in the order of R113.
-/

namespace Sys2Proof

open Sys2Proof.Machine

-- Many declarations checked at once need more thread stacks than the memory limit of check.sh allows.
set_option Elab.async false

/-! ## A word and its fields (R110) -/

theorem wordOfFields_fieldsOfWord (w : Word) : wordOfFields (fieldsOfWord w) = w := by
  simp only [wordOfFields, fieldsOfWord]
  repeat rw [BitVec.extractLsb'_append_extractLsb'_eq_extractLsb' (by omega)]
  exact BitVec.extractLsb'_eq_self

theorem fieldsOfWord_inj {v w : Word} : fieldsOfWord v = fieldsOfWord w ↔ v = w :=
  (Function.LeftInverse.injective wordOfFields_fieldsOfWord).eq_iff

theorem eq_encode_of_fieldsOfWord {w : Word} {i : Instr} (h : fieldsOfWord w = fieldsOf i) : w = encode i := by
  rw [encode, ← h, wordOfFields_fieldsOfWord]

/-- The `match` word of R114, an opcode zero-extended, has every other field 0. -/
theorem fieldsOfWord_setWidth (op : BitVec 8) : fieldsOfWord (op.setWidth 32) = fieldsNone op := by
  have hopcode : (op.setWidth 32).extractLsb' 0 8 = op := by
    rw [BitVec.extractLsb'_setWidth_of_le (by omega), BitVec.extractLsb'_eq_self]
  have habove (start len : Nat) (h8 : 8 ≤ start) (h32 : start + len ≤ 32) :
      (op.setWidth 32).extractLsb' start len = 0 := by
    rw [BitVec.extractLsb'_setWidth_of_le h32]
    ext i hi
    simp only [BitVec.getElem_extractLsb', BitVec.getLsbD_of_ge op (start + i) (by omega), BitVec.ofNat_eq_ofNat,
      BitVec.getElem_zero]
  rw [fieldsOfWord, hopcode, habove 8 2, habove 10 2, habove 12 2, habove 14 18, fieldsNone] <;> omega

@[simp] theorem bitsOfReg_regOfBits (b : BitVec 2) : bitsOfReg (regOfBits b) = b := by
  revert b
  decide

/-! ## The fields a shape uses (R111, R114) -/

/-- `f` with every field that a command of the given shape does not use set to 0 (R111). -/
def Fields.usedBy (f : Fields) : Shape → Fields
  | .none => ⟨f.opcode, 0, 0, 0, 0⟩
  | .rd => ⟨f.opcode, f.rd, 0, 0, 0⟩
  | .rdra => ⟨f.opcode, f.rd, f.ra, 0, 0⟩
  | .rdrarb => ⟨f.opcode, f.rd, f.ra, f.rb, 0⟩

/-- Checks (1) and (3) of R113, the opcode listed: no field is nonzero that the opcode's shape does not use. -/
theorem Fields.eq_usedBy_iff {f : Fields} {sh : Shape} (hsh : shapeOf f.opcode = some sh) :
    f = f.usedBy sh ↔ f.zeroOk = true ∧ f.unusedOk = true := by
  obtain ⟨op, rd, ra, rb, zero⟩ := f
  simp only [Fields.zeroOk, Fields.unusedOk, hsh]
  cases sh <;>
    simp only [Fields.usedBy, Fields.mk.injEq, beq_iff_eq, Bool.and_eq_true, true_and, and_true]
  all_goals tauto

/-- The row test of R114 on the fields: the word has the row's opcode and no bit outside the shape's fields. -/
theorem and_shapeMask_eq_iff (w : Word) (op : BitVec 8) (sh : Shape) :
    w &&& shapeMask sh = op.setWidth 32 ↔
      (fieldsOfWord w).opcode = op ∧ fieldsOfWord w = (fieldsOfWord w).usedBy sh := by
  rw [← fieldsOfWord_inj, fieldsOfWord_setWidth]
  have h8 (x : BitVec 8) : x &&& 255#8 = x := BitVec.and_allOnes
  have h2 (x : BitVec 2) : x &&& 3#2 = x := BitVec.and_allOnes
  have h18 (x : BitVec 18) : x &&& 262143#18 = x := BitVec.and_allOnes
  cases sh <;>
    simp only [fieldsOfWord, shapeMask, fieldsNone, Fields.usedBy, Fields.mk.injEq, BitVec.ofNat_eq_ofNat,
      BitVec.extractLsb'_and, BitVec.reduceExtractLsb', BitVec.and_zero, h8, h2, h18, true_and]

/-- R115, its shapes and its opcode map: a listed opcode selects a command that has the fields the shape uses. -/
theorem exists_commandOf {f : Fields} {sh : Shape} (hsh : shapeOf f.opcode = some sh) :
    ∃ i, commandOf f.opcode (regOfBits f.rd) (regOfBits f.ra) (regOfBits f.rb) = some i ∧ fieldsOf i = f.usedBy sh := by
  obtain ⟨op, rd, ra, rb, zero⟩ := f
  have hop : op = BitVec.ofNat 8 op.toNat := by rw [BitVec.ofNat_toNat, BitVec.setWidth_eq]
  simp only [shapeOf] at hsh
  generalize op.toNat = n at hop hsh
  subst hop
  split at hsh <;> cases hsh
  all_goals
    refine ⟨_, rfl, ?_⟩
    simp only [fieldsOf, fieldsNone, fieldsRd, fieldsRdRa, fieldsRdRaRb, Fields.usedBy, bitsOfReg_regOfBits]
    rfl

/-- R116: an opcode without a row selects no command, whatever the register fields. -/
theorem commandOf_eq_none {op : BitVec 8} (hsh : shapeOf op = none) (rd ra rb : Reg) : commandOf op rd ra rb = none := by
  have hop : op = BitVec.ofNat 8 op.toNat := by rw [BitVec.ofNat_toNat, BitVec.setWidth_eq]
  simp only [commandOf]
  generalize op.toNat = n at hop ⊢
  subst hop
  split
  case h_45 => rfl
  all_goals cases hsh

/-! ## The decoder, check by check (R113) -/

section

variable {w : Word} {sh : Shape}

theorem decode_of_zero_field_ne (hz : w.extractLsb' 14 18 ≠ 0) : decode w = .error .reservedBits := by
  have hzero : (fieldsOfWord w).zeroOk = false := beq_false_of_ne hz
  simp only [decode, hzero, if_true]

theorem decode_of_opcode_not_listed (hz : w.extractLsb' 14 18 = 0) (hsh : shapeOf (w.extractLsb' 0 8) = none) :
    decode w = .error (.illegalOpcode (w.extractLsb' 0 8)) := by
  have hzero : (fieldsOfWord w).zeroOk = true := beq_of_eq hz
  have hcmd := commandOf_eq_none (op := (fieldsOfWord w).opcode) hsh (regOfBits (fieldsOfWord w).rd)
    (regOfBits (fieldsOfWord w).ra) (regOfBits (fieldsOfWord w).rb)
  simp only [decode, hzero, hcmd, Bool.true_eq_false, if_false]
  rfl

theorem decode_of_row_missed (hz : w.extractLsb' 14 18 = 0) (hsh : shapeOf (w.extractLsb' 0 8) = some sh)
    (hrow : w &&& shapeMask sh ≠ (w.extractLsb' 0 8).setWidth 32) : decode w = .error .reservedBits := by
  have hzero : (fieldsOfWord w).zeroOk = true := beq_of_eq hz
  have hunused : (fieldsOfWord w).unusedOk = false := by
    rw [← Bool.not_eq_true]
    exact fun h => hrow ((and_shapeMask_eq_iff w _ sh).mpr ⟨rfl, (Fields.eq_usedBy_iff hsh).mpr ⟨hzero, h⟩⟩)
  obtain ⟨i, hcmd, -⟩ := exists_commandOf (f := fieldsOfWord w) hsh
  simp only [decode, hzero, hcmd, hunused, Bool.true_eq_false, Bool.false_eq_true, if_false]

/-- A word that meets its row is the encoding of a command, and so decodes to it. -/
theorem eq_encode_of_row {op : BitVec 8} (hsh : shapeOf op = some sh) (hrow : w &&& shapeMask sh = op.setWidth 32) :
    ∃ i, w = encode i ∧ (fieldsOf i).opcode = op := by
  obtain ⟨rfl, hused⟩ := (and_shapeMask_eq_iff w op sh).mp hrow
  obtain ⟨i, -, hi⟩ := exists_commandOf hsh
  have hfields : fieldsOfWord w = fieldsOf i := hused.trans hi.symm
  exact ⟨i, eq_encode_of_fieldsOfWord hfields, congrArg Fields.opcode hfields.symm⟩

/-- A word decodes only if it passes the three checks, and then it meets its row. -/
theorem row_of_decode_ok {i : Instr} (h : decode w = .ok i) :
    ∃ sh, shapeOf (w.extractLsb' 0 8) = some sh ∧ w &&& shapeMask sh = (w.extractLsb' 0 8).setWidth 32 := by
  have hz : w.extractLsb' 14 18 = 0 := by
    by_contra hz
    cases (decode_of_zero_field_ne hz).symm.trans h
  cases hsh : shapeOf (w.extractLsb' 0 8) with
  | none => cases (decode_of_opcode_not_listed hz hsh).symm.trans h
  | some sh =>
    refine ⟨sh, rfl, ?_⟩
    by_contra hrow
    cases (decode_of_row_missed hz hsh hrow).symm.trans h

theorem decode_eq_ok_iff {i : Instr} : decode w = .ok i ↔ w = encode i := by
  refine ⟨fun h => ?_, fun h => h ▸ decode_encode i⟩
  obtain ⟨sh, hsh, hrow⟩ := row_of_decode_ok h
  obtain ⟨j, rfl, -⟩ := eq_encode_of_row hsh hrow
  cases (decode_encode j).symm.trans h
  rfl

end

/-- Settles O1: a word that decodes meets its row, hence is an encoding, and the decoder undoes the encoder. -/
theorem decodeExactlyTheEncodings : Obligations.DecodeExactlyTheEncodings := fun _ _ => decode_eq_ok_iff

/-- Settles O2: the row test fixes the opcode byte, so no word meets two rows. -/
theorem matchMaskSelectsTheCommand : Obligations.MatchMaskSelectsTheCommand := by
  refine fun w op sh hsh => ⟨⟨?_, fun hrow => ?_⟩, fun op' sh' _ hne hrow hrow' => hne ?_⟩
  · rintro ⟨i, hi, rfl⟩
    obtain ⟨sh', hsh', hrow⟩ := row_of_decode_ok hi
    obtain rfl := decode_eq_ok_iff.mp hi
    rw [extractLsb'_encode] at hsh' hrow
    obtain rfl : sh = sh' := Option.some.inj (hsh.symm.trans hsh')
    exact hrow
  · obtain ⟨i, rfl, hop⟩ := eq_encode_of_row hsh hrow
    exact ⟨i, decode_encode i, hop⟩
  · exact ((and_shapeMask_eq_iff w op' sh').mp hrow').1.symm.trans ((and_shapeMask_eq_iff w op sh).mp hrow).1

/-- Settles O3: the decoder's answer to each of the four cases of R113, and what a step makes of it. -/
theorem pendingWordIsDecodedInOrder : Obligations.PendingWordIsDecodedInOrder := by
  refine fun s w hw => ⟨fun hz => ?_, fun hz hsh => ?_, fun sh hz hsh hrow => ?_, fun sh _ hsh hrow => ?_⟩
  · rw [step_of_decode_error hw (decode_of_zero_field_ne hz), decodeRaise, State.enterError_eq_failed]
  · rw [step_of_decode_error hw (decode_of_opcode_not_listed hz hsh), decodeRaise, State.enterError_eq_failed]
  · rw [step_of_decode_error hw (decode_of_row_missed hz hsh hrow), decodeRaise, State.enterError_eq_failed]
  · obtain ⟨i, rfl, -⟩ := eq_encode_of_row hsh hrow
    exact ⟨i, rfl, step_of_decode_ok hw (decode_encode i)⟩

/-- Settles O4: each word is the encoding of its command. -/
theorem writtenWordsDecode : Obligations.WrittenWordsDecode := by
  simp only [Obligations.WrittenWordsDecode, decode_eq_ok_iff]
  decide

end Sys2Proof
end

section
/-!
SUPPORT. The proofs of the statements on the primitives (40). A command of this family is a chain of checked steps: each
step answers a value known in advance or raises the error of its check. `Checked` says so of one computation, `cons` and
`map` chain such facts along the command, and `Checked.command` reads the two ends off: the first failing check is the
error entered (R16, R325), and with every check passed the destination is written and the command completes (R63).
-/

namespace Sys2Proof.Machine

/-! ## Computations that check and then answer -/

/-- `x` makes the checks `cs` in their order: the first that fails is the error it raises, and when all hold it answers
`v`. -/
structure Checked {α : Type} (cs : List Check) (x : Except Raise α) (v : α) : Prop where
  error : ∀ c, FirstFailing cs c → x = .error ⟨c.cause, c.info⟩
  ok    : AllHold cs → x = .ok v

section

variable {α β : Type} {c : Check} {cs : List Check} {x : Except Raise α} {v : α}

/-- A computation that makes one check. -/
theorem Checked.one (herr : ¬ c.ok → x = .error ⟨c.cause, c.info⟩) (hok : c.ok → x = .ok v) : Checked [c] x v where
  error := by
    rintro d (⟨hc, rfl⟩ | ⟨-, hd⟩)
    · exact herr hc
    · exact hd.elim
  ok h := hok h.1

/-- One check, then a computation that makes the others. -/
theorem Checked.cons {f : α → Except Raise β} {w : β} (hx : Checked [c] x v) (hf : Checked cs (f v) w) :
    Checked (c :: cs) (x >>= f) w where
  error := by
    rintro d (⟨hc, rfl⟩ | ⟨hc, hd⟩)
    · rw [hx.error d (.inl ⟨hc, rfl⟩), except_error_bind]
    · rw [hx.ok ⟨hc, trivial⟩, except_ok_bind, hf.error d hd]
  ok h := by rw [hx.ok ⟨h.1, trivial⟩, except_ok_bind, hf.ok h.2]

/-- The answer is put to use without a further check. -/
theorem Checked.map {f : α → β} (hx : Checked cs x v) : Checked cs (x >>= fun a => pure (f a)) (f v) where
  error d hd := by rw [hx.error d hd, except_error_bind]
  ok h := by rw [hx.ok h, except_ok_bind, except_pure]

end

/-- Command `i` enters ERROR at the first failing check of `cs`, and with all of them passed completes in state `t`. -/
def ChecksThenCompletes (i : Instr) (s : State) (cs : List Check) (t : State) : Prop :=
  RaisesFirst i s cs ∧ (AllHold cs → exec i s = .next t.completed)

/-- A command that ends with a checked computation of its next state. -/
theorem Checked.command {i : Instr} {s t : State} {cs : List Check} {x : Except Raise State}
    (hi : exec i s = s.finish x) (hx : Checked cs x t) : ChecksThenCompletes i s cs t :=
  ⟨fun c hc => by rw [hi, hx.error c hc, State.finish_error],
    fun h => by rw [hi, hx.ok h, State.finish, State.complete_eq_completed]⟩

/-! ## Operands and single checks -/

theorem checked_require {p : Prop} {inst : Decidable p} (cause : Cause) (info : Nat) :
    Checked [⟨p, cause, info⟩] (require p cause info) () :=
  .one (fun h => require_of_not h cause info) fun h => require_of h cause info

theorem checked_numeralCheck (radix : Nat) (X : List Word) :
    Checked [numeralsIn radix X] (numeralCheck X radix) () :=
  .one numeralCheck_error numeralCheck_ok

section

variable (s : State) (r : Reg) (c : Cause)

theorem State.checked_srcNs : Checked [s.nsThere r c] (s.srcNs r c) (s.nsVal r) :=
  .one (fun h => State.srcNs_absent (Bool.eq_false_of_not_eq_true h) c) fun h => State.srcNs_present h c

theorem State.checked_srcBs : Checked [s.bsThere r c] (s.srcBs r c) (s.bsVal r) :=
  .one (fun h => State.srcBs_absent (Bool.eq_false_of_not_eq_true h) c) fun h => State.srcBs_present h c

theorem State.checked_srcBn : Checked [s.bnThere r c] (s.srcBn r c) (s.bn.get r).value :=
  .one (fun h => State.srcBn_absent (Bool.eq_false_of_not_eq_true h) c) fun h => State.srcBn_present h c

end

/-! ## The functions of the primitives -/

theorem checked_num (X : List Byte) : Checked [lengthIn X.length] (num X) (byteSum X) := by
  rw [← byteValue_eq_byteSum]
  exact (checked_require _ _).map

theorem checked_numRadix (radix : Nat) (X : List Word) :
    Checked [radixIn radix, lengthIn X.length, numeralsIn radix X] (numRadix X radix) (numeralSum radix X) := by
  rw [← numeralValue_eq_numeralSum]
  exact (checked_require _ _).cons <| (checked_require _ _).cons (checked_numeralCheck radix X).map

theorem checked_strRadix (x : Int) (radix m : Nat) :
    Checked [radixIn radix, ⟨1 ≤ m ∧ m ≤ 4096, .argRange, 0⟩, ⟨0 ≤ x, .valueRange, 0⟩] (strRadix x radix m)
      (numeralsOf radix m x.toNat) :=
  (checked_require _ _).cons <| (checked_require _ _).cons (checked_require _ _).map

theorem checked_bytestring (x : Int) (m : Nat) :
    Checked (bytestringChecks x m) (bytestring x m) (bytesOf m x.toNat) :=
  (checked_require _ _).cons (checked_require _ _).map

theorem checked_bitstring (b n : Nat) :
    Checked [⟨0 < n ∧ n % 8 = 0 ∧ n / 8 ≤ 4096, .argRange, 0⟩, ⟨b = 0 ∨ b = 1, .argRange, 0⟩] (bitstring b n)
      (List.replicate (n / 8) (if b = 0 then 0x00 else 0xFF)) :=
  (checked_require _ _).cons (checked_require _ _).map

theorem checked_concatenate {α : Type} (X Y : List α) :
    Checked [⟨X.length + Y.length ≤ 4096, .operandLen, 0⟩] (concatenate X Y) (X ++ Y) :=
  (checked_require _ _).map

theorem checked_xorStrings (X Y : List Byte) :
    Checked [⟨X.length = Y.length, .operandLen, 0⟩] (xorStrings X Y) (xorBytes X Y) :=
  (checked_require _ _).map

theorem checked_modInt (x m : Int) : Checked [⟨0 < m, .modZero, 0⟩] (modInt x m) (x % m) :=
  (checked_require _ _).map

theorem checked_capacityCheck (bnbits : Nat) (x : Int) :
    Checked [⟨x.natAbs < 2 ^ bnbits, .bnOverflow, 0⟩] (capacityCheck bnbits x) x :=
  (checked_require _ _).map

/-! ## What the results are -/

/-- The bytes that `bytestring` answers, when its checks hold. -/
theorem isBytes_of_bytestringChecks {x : Int} {m : Nat} (h : AllHold (bytestringChecks x m)) :
    IsBytes m x.toNat (bytesOf m x.toNat) := by
  obtain ⟨-, ⟨hx, hlt⟩, -⟩ := h
  exact isBytes_bytesOf (by omega)

theorem getElem?_xorBytes {X Y : List Byte} {j : Nat} {x y : Byte} (hx : X[j]? = some x) (hy : Y[j]? = some y) :
    (xorBytes X Y)[j]? = some (x ^^^ y) := by
  rw [xorBytes, List.getElem?_zipWith, hx, hy]

theorem getElem?_rev {α : Type} (X : List α) {j : Nat} (hj : j < (rev X).length) :
    (rev X)[j]? = X[(rev X).length - 1 - j]? := by
  rw [length_rev] at hj ⊢
  exact List.getElem?_reverse hj

/-! ## The commands -/

section

variable (rd ra rb : Reg) (s : State)

theorem exec_num : ChecksThenCompletes (.num rd ra) s [s.bsThere ra, lengthIn (s.bs.get ra).len]
    (s.putBn rd (byteSum (s.bsVal ra))) := by
  rw [← State.length_bsVal]
  exact Checked.command rfl <| (s.checked_srcBs ra _).cons (checked_num _).map

theorem exec_numr : ChecksThenCompletes (.numr rd ra) s (s.numrChecks ra)
    (s.putBn rd (numeralSum s.arg0.toNat (s.nsVal ra))) := by
  rw [State.numrChecks, ← State.length_nsVal]
  exact Checked.command rfl <| (s.checked_srcNs ra _).cons (checked_numRadix _ _).map

theorem exec_str : ChecksThenCompletes (.str rd ra) s (s.strChecks ra)
    (s.putNs rd (numeralsOf s.arg0.toNat s.arg1.toNat (s.bn.get ra).value.toNat)) :=
  Checked.command rfl <| (s.checked_srcBn ra _).cons (checked_strRadix _ _ _).map

theorem exec_bytestr :
    ChecksThenCompletes (.bytestr rd ra) s (s.bnThere ra :: bytestringChecks (s.bn.get ra).value s.arg0.toNat)
      (s.putBs rd (bytesOf s.arg0.toNat (s.bn.get ra).value.toNat)) :=
  Checked.command rfl <| (s.checked_srcBn ra _).cons (checked_bytestring _ _).map

theorem exec_bytestri : ChecksThenCompletes (.bytestri rd) s (bytestringChecks s.arg1.toNat s.arg0.toNat)
    (s.putBs rd (bytesOf s.arg0.toNat s.arg1.toNat)) :=
  Checked.command rfl (checked_bytestring _ _).map

theorem exec_bitstr : ChecksThenCompletes (.bitstr rd) s s.bitstrChecks
    (s.putBs rd (List.replicate (s.arg0.toNat / 8) (if s.arg1.toNat = 0 then 0x00 else 0xFF))) :=
  Checked.command rfl (checked_bitstring _ _).map

theorem exec_catb : ChecksThenCompletes (.catb rd ra rb) s
    [s.bsThere ra, s.bsThere rb, ⟨(s.bs.get ra).len + (s.bs.get rb).len ≤ 4096, .operandLen, 0⟩]
    (s.putBs rd (s.bsVal ra ++ s.bsVal rb)) := by
  simp only [← State.length_bsVal]
  exact Checked.command rfl <| (s.checked_srcBs ra _).cons <| (s.checked_srcBs rb _).cons (checked_concatenate _ _).map

theorem exec_catn : ChecksThenCompletes (.catn rd ra rb) s
    [s.nsThere ra, s.nsThere rb, ⟨(s.ns.get ra).len + (s.ns.get rb).len ≤ 4096, .operandLen, 0⟩]
    (s.putNs rd (s.nsVal ra ++ s.nsVal rb)) := by
  simp only [← State.length_nsVal]
  exact Checked.command rfl <| (s.checked_srcNs ra _).cons <| (s.checked_srcNs rb _).cons (checked_concatenate _ _).map

theorem exec_xorb : ChecksThenCompletes (.xorb rd ra rb) s
    [s.bsThere ra, s.bsThere rb, ⟨(s.bs.get ra).len = (s.bs.get rb).len, .operandLen, 0⟩]
    (s.putBs rd (xorBytes (s.bsVal ra) (s.bsVal rb))) := by
  simp only [← State.length_bsVal]
  exact Checked.command rfl <| (s.checked_srcBs ra _).cons <| (s.checked_srcBs rb _).cons (checked_xorStrings _ _).map

theorem exec_rev : ChecksThenCompletes (.rev rd ra) s [s.nsThere ra] (s.putNs rd (rev (s.nsVal ra))) :=
  Checked.command rfl (s.checked_srcNs ra _).map

theorem exec_revb : ChecksThenCompletes (.revb rd ra) s [s.bsThere ra] (s.putBs rd (rev (s.bsVal ra))) :=
  Checked.command rfl (s.checked_srcBs ra _).map

theorem exec_mod :
    ChecksThenCompletes (.mod rd ra rb) s [s.bnThere ra, s.bnThere rb, ⟨0 < (s.bn.get rb).value, .modZero, 0⟩]
      (s.putBn rd ((s.bn.get ra).value % (s.bn.get rb).value)) :=
  Checked.command rfl <| (s.checked_srcBn ra _).cons <| (s.checked_srcBn rb _).cons (checked_modInt _ _).map

theorem exec_powr :
    ChecksThenCompletes (.powr rd) s [radixIn s.arg0.toNat, ⟨s.arg1.toNat ≤ 4096, .argRange, 0⟩]
      (s.putBn rd ((s.arg0.toNat : Int) ^ s.arg1.toNat)) := by
  rw [← Nat.cast_pow]
  exact Checked.command rfl <| (checked_require _ _).cons (checked_require _ _).map

theorem exec_bnadd : ChecksThenCompletes (.bnadd rd ra rb) s
    [s.bnThere ra, s.bnThere rb,
      ⟨((s.bn.get ra).value + (s.bn.get rb).value).natAbs < 2 ^ s.cfg.bnbits, .bnOverflow, 0⟩]
    (s.putBn rd ((s.bn.get ra).value + (s.bn.get rb).value)) :=
  Checked.command rfl <| (s.checked_srcBn ra _).cons <| (s.checked_srcBn rb _).cons (checked_capacityCheck _ _).map

theorem exec_bnsub : ChecksThenCompletes (.bnsub rd ra rb) s
    [s.bnThere ra, s.bnThere rb,
      ⟨((s.bn.get ra).value - (s.bn.get rb).value).natAbs < 2 ^ s.cfg.bnbits, .bnOverflow, 0⟩]
    (s.putBn rd ((s.bn.get ra).value - (s.bn.get rb).value)) :=
  Checked.command rfl <| (s.checked_srcBn ra _).cons <| (s.checked_srcBn rb _).cons (checked_capacityCheck _ _).map

end

/-! ## The statements -/

/-- Settles O7, by the checks and the value of `num`. -/
theorem numValuesAByteString : Obligations.NumValuesAByteString := exec_num

/-- Settles O8, by the checks and the value of `numRadix`. -/
theorem numrValuesANumeralString : Obligations.NumrValuesANumeralString := exec_numr

/-- Settles O9: the radix check makes the digits of R135 numerals, and their value is `x mod radix^m`. -/
theorem strWritesTheLowNumerals : Obligations.StrWritesTheLowNumerals := by
  intro rd ra s
  obtain ⟨hraises, hcompletes⟩ := exec_str rd ra s
  refine ⟨hraises, fun h => ⟨_, ?_, hcompletes h⟩⟩
  obtain ⟨-, ⟨hlow, hhigh⟩, -⟩ := h
  exact isNumerals_numeralsOf (by omega) (by omega) _ _

/-- Settles O10: the value check bounds `x` by `256^s`, so its `s` bytes have the value `x`. -/
theorem bytestrWritesTheBytes : Obligations.BytestrWritesTheBytes := by
  intro rd ra s
  obtain ⟨hraises, hcompletes⟩ := exec_bytestr rd ra s
  obtain ⟨hraises', hcompletes'⟩ := exec_bytestri rd s
  exact ⟨⟨hraises, fun h => ⟨_, isBytes_of_bytestringChecks h.2, hcompletes h⟩⟩,
    hraises', fun h => ⟨_, isBytes_of_bytestringChecks h, hcompletes' h⟩⟩

/-- Settles O11, by the checks and the value of `bitstring`. -/
theorem bitstrRepeatsTheBit : Obligations.BitstrRepeatsTheBit := exec_bitstr

/-- Settles O12: CATB and CATN by `concatenate`; XORB by the elements of `xorBytes`, as long as its equal operands. -/
theorem stringsAreJoinedAndXored : Obligations.StringsAreJoinedAndXored := by
  intro rd ra rb s
  obtain ⟨hraises, hcompletes⟩ := exec_xorb rd ra rb s
  refine ⟨exec_catb rd ra rb s, exec_catn rd ra rb s, hraises,
    fun h => ⟨_, ?_, fun _ _ _ hx hy => getElem?_xorBytes hx hy, hcompletes h⟩⟩
  obtain ⟨-, -, hlen, -⟩ := h
  rw [length_xorBytes, State.length_bsVal, State.length_bsVal, ← hlen, min_self]

/-- Settles O13, by the length and the elements of `rev`. -/
theorem stringsAreReversed : Obligations.StringsAreReversed := by
  intro rd ra s
  obtain ⟨hraises, hcompletes⟩ := exec_rev rd ra s
  obtain ⟨hraises', hcompletes'⟩ := exec_revb rd ra s
  exact ⟨⟨hraises, fun h =>
      ⟨_, by rw [length_rev, State.length_nsVal], fun _ hj => getElem?_rev _ hj, hcompletes h⟩⟩,
    hraises', fun h =>
      ⟨_, by rw [length_rev, State.length_bsVal], fun _ hj => getElem?_rev _ hj, hcompletes' h⟩⟩

/-- Settles O14: with a positive modulus the remainder that `modInt` answers is the floored one. -/
theorem modGivesTheFlooredRemainder : Obligations.ModGivesTheFlooredRemainder := by
  intro rd ra rb s
  obtain ⟨hraises, hcompletes⟩ := exec_mod rd ra rb s
  refine ⟨hraises, fun h => ?_⟩
  have hnext := hcompletes h
  obtain ⟨-, -, hm, -⟩ := h
  exact ⟨_, Int.emod_nonneg _ hm.ne', Int.emod_lt_of_pos _ hm, Int.dvd_self_sub_emod, hnext⟩

/-- Settles O15: POWR by its two checks, BNADD and BNSUB by `capacityCheck`, which answers what it is given. -/
theorem bigIntegersAreExact : Obligations.BigIntegersAreExact := fun rd ra rb s =>
  ⟨exec_powr rd s, exec_bnadd rd ra rb s, exec_bnsub rd ra rb s⟩

end Sys2Proof.Machine
end

section
/-!
SUPPORT. The proofs of the statements on the block-cipher adapter (41). CIPH, PRF and PRF2 check the key, then the data,
then make requests on the AES port. That the provider answers the requests is one more check, the last (R98, R170), so
each of the three functions is a `Checked` computation with no assumption on the provider. Two of them that make the
same checks and answer the same value are equal, errors included: that is R178, once CBC's last block is seen to be PRF's.
-/

namespace Sys2Proof.Machine

/-! ## Checked computations, continued -/

theorem FirstFailing.append {cs : List Check} {d : Check} (h : FirstFailing cs d) (ds : List Check) :
    FirstFailing (cs ++ ds) d := by
  induction cs with
  | nil => exact h.elim
  | cons c cs ih => exact h.imp id fun ⟨hc, hd⟩ => ⟨hc, ih hd⟩

theorem allHold_or_firstFailing (cs : List Check) : AllHold cs ∨ ∃ c, FirstFailing cs c := by
  induction cs with
  | nil => exact .inl trivial
  | cons c cs ih =>
    by_cases hc : c.ok
    · exact ih.imp (⟨hc, ·⟩) fun ⟨d, hd⟩ => ⟨d, .inr ⟨hc, hd⟩⟩
    · exact .inr ⟨c, .inl ⟨hc, rfl⟩⟩

theorem RaisesFirst.of_append {i : Instr} {s : State} {cs ds : List Check} (h : RaisesFirst i s (cs ++ ds)) :
    RaisesFirst i s cs :=
  fun c hc => h c (hc.append ds)

section

variable {α β : Type} {c : Check} {cs ds : List Check} {v : α}

/-- The checks and the value determine the computation. -/
theorem Checked.unique {x y : Except Raise α} (hx : Checked cs x v) (hy : Checked cs y v) : x = y := by
  obtain h | ⟨c, hc⟩ := allHold_or_firstFailing cs
  · rw [hx.ok h, hy.ok h]
  · rw [hx.error c hc, hy.error c hc]

/-- Last checks that are known to pass need not be named. -/
theorem Checked.of_append {x : Except Raise α} (hx : Checked (cs ++ ds) x v) (hds : AllHold ds) : Checked cs x v where
  error c hc := hx.error c (hc.append ds)
  ok h := hx.ok (allHold_append.mpr ⟨h, hds⟩)

/-- One check, then a computation that is known to make the others only where that check passes. -/
theorem Checked.cons_of_ok {x : Except Raise α} {f : α → Except Raise β} {w : β} (hx : Checked [c] x v)
    (hf : c.ok → Checked cs (f v) w) : Checked (c :: cs) (x >>= f) w := by
  by_cases hc : c.ok
  · exact hx.cons (hf hc)
  · refine ⟨?_, fun h => absurd h.1 hc⟩
    rintro d (⟨-, rfl⟩ | ⟨hc', -⟩)
    · rw [hx.error _ (.inl ⟨hc, rfl⟩), except_error_bind]
    · exact absurd hc' hc

end

/-! ## The AES port (R95, R98) -/

/-- The provider answers every one of the requests `qs`. -/
def answersAll (P : Provider) (qs : List AesRequest) : Check := ⟨∀ q ∈ qs, P.fails q = false, .aesFail, 0⟩

theorem checked_of_requests {α : Type} {P : Provider} {qs : List AesRequest} {x : Except Raise α} {v : α}
    (hx : x = if qs.any P.fails = true then .error ⟨.aesFail, 0⟩ else .ok v) : Checked [answersAll P qs] x v := by
  have hany : qs.any P.fails = true ↔ ¬ (answersAll P qs).ok := by simp [answersAll]
  exact .one (fun h => hx.trans (if_pos (hany.mpr h))) fun h => hx.trans (if_neg fun hfail => hany.mp hfail h)

section

variable (P : Provider) (K X : List Byte)

theorem checked_ecbRequest : Checked [answersAll P [⟨.ecb, K, X⟩]] (aesRequest P ⟨.ecb, K, X⟩) (aesEcb P.E K X) :=
  checked_of_requests (by simp [aesRequest_eq])

theorem checked_cbc0Request : Checked [answersAll P [⟨.cbc0, K, X⟩]] (aesRequest P ⟨.cbc0, K, X⟩) (aesCbc0 P.E K X) :=
  checked_of_requests (by simp [aesRequest_eq])

end

/-! ## ECB block by block (R97) -/

/-- Strings of 16 bytes, joined, are the blocks of the result. -/
theorem blockAt_flatMap {α : Type} {f : α → List Byte} (hf : ∀ a, (f a).length = 16) {as : List α} {j : Nat} {a : α}
    (ha : as[j]? = some a) : blockAt (as.flatMap f) j = f a := by
  induction as generalizing j with
  | nil => cases ha
  | cons b as ih =>
    cases j with
    | zero =>
      obtain rfl : b = a := by simpa using ha
      exact List.take_left' (hf b)
    | succ j =>
      have htail : blockAt (f b ++ as.flatMap f) (j + 1) = blockAt (as.flatMap f) j := by
        rw [blockAt, blockAt, Nat.mul_succ, Nat.add_comm, ← List.drop_drop, List.drop_left' (hf b)]
      exact htail.trans (ih ha)

theorem blockAt_aesEcb (E : BlockCipher) (K : List Byte) {X : List Byte} {j : Nat} (hj : j < X.length / 16) :
    blockAt (aesEcb E K X) j = encryptBlock E K (blockAt X j) :=
  blockAt_flatMap (length_encryptBlock E K) (by simp [blocksOf, hj])

theorem length_aesEcb (E : BlockCipher) (K : List Byte) {X : List Byte} (h : X.length % 16 = 0) :
    (aesEcb E K X).length = X.length := by
  have hblocks : (aesEcb E K X).length = 16 * (X.length / 16) := by
    simp [aesEcb, blocksOf, List.length_flatMap, Function.comp_def, Nat.mul_comm]
  omega

/-! ## The last block of CBC (R97, R174) -/

/-- The last of the chained blocks is the last `Y_j` of R174. -/
theorem drop_flatten_cbcChain (E : BlockCipher) (K c B : List Byte) (Bs : List (List Byte)) :
    (cbcChain E K c (B :: Bs)).flatten.drop (16 * Bs.length) =
      (B :: Bs).foldl (fun Y B => encryptBlock E K (xorBytes Y B)) c := by
  induction Bs generalizing c B with
  | nil => exact List.append_nil _
  | cons B' Bs ih =>
    rw [cbcChain, List.flatten_cons, List.length_cons, Nat.mul_succ, Nat.add_comm, ← List.drop_drop,
      List.drop_left' (length_encryptBlock ..)]
    exact ih _ _

theorem drop_aesCbc0 (E : BlockCipher) (K : List Byte) {X : List Byte} (hX : 1 ≤ X.length) (hmod : X.length % 16 = 0) :
    (aesCbc0 E K X).drop (X.length - 16) = macOf E K X := by
  have hlen : (blocksOf X).length = X.length / 16 := by simp [blocksOf]
  rw [aesCbc0, macOf]
  match hBs : blocksOf X with
  | [] =>
    rw [hBs, List.length_nil] at hlen
    omega
  | B :: Bs =>
    rw [hBs, List.length_cons] at hlen
    rw [show X.length - 16 = 16 * Bs.length by omega]
    exact drop_flatten_cbcChain E K _ B Bs

/-! ## The functions (R171 to R176) -/

/-- `validData(X)` for a string of `n` bytes (R172). -/
def dataSized (n : Nat) : Check := ⟨1 ≤ n ∧ n ≤ 4096 ∧ n % 16 = 0, .operandLen, 0⟩

section

variable (P : Provider) (K X : List Byte)

/-- The common form of the three functions: the two checks, then the requests, whose answers have the value `Y` for a
legal key and legal data. -/
theorem checked_adapter {x : Except Raise (List Byte)} {Y : List Byte} {qs : List AesRequest}
    (hx : (keySized K.length).ok → (dataSized X.length).ok → Checked [answersAll P qs] x Y) :
    Checked [keySized K.length, dataSized X.length, answersAll P qs] (do validKey K; validData X; x) Y :=
  (checked_require _ _).cons_of_ok fun hK => (checked_require _ _).cons_of_ok fun hX => hx hK hX

theorem checked_ciph :
    Checked [keySized K.length, dataSized X.length, answersAll P [⟨.ecb, K, X⟩]] (ciph P K X) (aesEcb P.E K X) :=
  checked_adapter P K X fun _ _ => checked_ecbRequest P K X

theorem checked_prf :
    Checked [keySized K.length, dataSized X.length, answersAll P (macRequests P.E K X)] (prf P K X) (macOf P.E K X) :=
  checked_adapter P K X fun hK _ =>
    checked_of_requests (prfChain_eq hK _ _ (length_zeros 16) fun _ hB => length_blocksOf hB)

theorem checked_prf2 :
    Checked [keySized K.length, dataSized X.length, answersAll P [⟨.cbc0, K, X⟩]] (prf2 P K X) (macOf P.E K X) :=
  checked_adapter P K X fun _ ⟨hX, _, hmod⟩ => by
    rw [← drop_aesCbc0 P.E K hX hmod]
    exact (checked_cbc0Request P K X).map

end

theorem prf_eq_prf2 {P : Provider} (hP : ∀ q, P.fails q = false) (K X : List Byte) : prf P K X = prf2 P K X :=
  have hanswers (qs : List AesRequest) : AllHold [answersAll P qs] := ⟨fun q _ => hP q, trivial⟩
  Checked.unique ((checked_prf P K X).of_append (cs := [_, _]) (hanswers _))
    ((checked_prf2 P K X).of_append (cs := [_, _]) (hanswers _))

/-! ## The commands (R173, R175, R177) -/

section

variable (rd ra rb : Reg) (s : State)

/-- A command that applies a function of the adapter to a key and data: the checks of the presence come first. -/
theorem exec_adapter {i : Instr} {f : List Byte → List Byte → Except Raise (List Byte)} {Y : List Byte} {c : Check}
    (hi : exec i s = s.finish (do
      let K ← s.srcBs ra .nullKey
      let X ← s.srcBs rb
      let Y ← f K X
      pure (s.putBs rd Y)))
    (hf : Checked [keySized (s.bsVal ra).length, dataSized (s.bsVal rb).length, c] (f (s.bsVal ra) (s.bsVal rb)) Y) :
    ChecksThenCompletes i s (s.adapterChecks ra rb ++ [c]) (s.putBs rd Y) := by
  rw [State.adapterChecks, ← State.length_bsVal, ← State.length_bsVal]
  exact Checked.command hi <| (s.checked_srcBs ra _).cons <| (s.checked_srcBs rb _).cons hf.map

theorem exec_ciph : ChecksThenCompletes (.ciph rd ra rb) s
    (s.adapterChecks ra rb ++ [answersAll s.provider [⟨.ecb, s.bsVal ra, s.bsVal rb⟩]])
    (s.putBs rd (aesEcb s.provider.E (s.bsVal ra) (s.bsVal rb))) :=
  exec_adapter rd ra rb s rfl (checked_ciph ..)

theorem exec_prf : ChecksThenCompletes (.prf rd ra rb) s
    (s.adapterChecks ra rb ++ [answersAll s.provider (macRequests s.provider.E (s.bsVal ra) (s.bsVal rb))])
    (s.putBs rd (macOf s.provider.E (s.bsVal ra) (s.bsVal rb))) :=
  exec_adapter rd ra rb s rfl (checked_prf ..)

theorem exec_prf2 : ChecksThenCompletes (.prf2 rd ra rb) s
    (s.adapterChecks ra rb ++ [answersAll s.provider [⟨.cbc0, s.bsVal ra, s.bsVal rb⟩]])
    (s.putBs rd (macOf s.provider.E (s.bsVal ra) (s.bsVal rb))) :=
  exec_adapter rd ra rb s rfl (checked_prf2 ..)

end

/-- With a provider that answers, the command's own checks are all there are. -/
theorem ChecksThenCompletes.of_answers {i : Instr} {s t : State} {cs : List Check} {qs : List AesRequest}
    (h : ChecksThenCompletes i s (cs ++ [answersAll s.provider qs]) t) :
    RaisesFirst i s cs ∧ (AllHold cs → s.providerAnswers → exec i s = .next t.completed) := by
  obtain ⟨hraises, hcompletes⟩ := h
  exact ⟨hraises.of_append, fun hcs hP => hcompletes (allHold_append.mpr ⟨hcs, fun q _ => hP q, trivial⟩)⟩

/-! ## The statements -/

/-- Settles O16, by the length and the blocks of an ECB answer. -/
theorem ciphEncryptsEachBlock : Obligations.CiphEncryptsEachBlock := by
  refine ⟨fun P K X hP hK ⟨hlow, hhigh, hmod⟩ => ⟨_, ciph_ok hP hK ⟨hlow, hhigh, hmod⟩, length_aesEcb _ _ hmod,
    fun _ hj => blockAt_aesEcb _ _ hj⟩, fun rd ra rb s => ?_⟩
  obtain ⟨hraises, hcompletes⟩ := (exec_ciph rd ra rb s).of_answers
  refine ⟨hraises, fun h hP => ⟨_, ?_, fun j hj => ?_, hcompletes h hP⟩⟩
  · obtain ⟨-, -, -, -, hmod⟩ := State.adapterChecks_operands h
    rw [length_aesEcb _ _ hmod, State.length_bsVal]
  · rw [← State.length_bsVal] at hj
    exact blockAt_aesEcb _ _ hj

/-- Settles O17: PRF by its chain, PRF2 by the last block of CBC. -/
theorem prfAndPrf2WriteTheLastChainBlock : Obligations.PrfAndPrf2WriteTheLastChainBlock := by
  intro rd ra rb s i hi
  obtain ⟨hraises, hcompletes⟩ : RaisesFirst i s (s.adapterChecks ra rb) ∧
      (AllHold (s.adapterChecks ra rb) → s.providerAnswers →
        exec i s = .next (s.putBs rd (macOf s.provider.E (s.bsVal ra) (s.bsVal rb))).completed) := by
    simp only [List.mem_cons, List.not_mem_nil, or_false] at hi
    obtain rfl | rfl := hi
    · exact (exec_prf rd ra rb s).of_answers
    · exact (exec_prf2 rd ra rb s).of_answers
  exact ⟨hraises, fun h hP => ⟨length_macOf .., hcompletes h hP⟩⟩

/-- Settles O18: the two functions make the same checks and answer the same value, and the two commands differ only in
the function. -/
theorem prfEqualsPrf2 : Obligations.PrfEqualsPrf2 :=
  ⟨fun _ K X hP => prf_eq_prf2 hP K X,
    fun rd ra rb s hP => by simp only [exec, execPrf, execPrf2, prf_eq_prf2 hP]⟩

end Sys2Proof.Machine
end

section
/-!
SUPPORT. The proofs of the statements on the arithmetic functions, SPLIT, RNDS and FRND (42, sections 1 to 3). The six
arithmetic functions make the checks of R190 and then answer; so each is a `Checked` computation, and a subtraction
gives back the operand of its addition because adding and taking away a value cancel modulo `radix^m`, or modulo `radix`.
-/

namespace Sys2Proof.Machine

/-! ## Chains of checks -/

section

variable {α β : Type} {cs ds : List Check} {x : Except Raise α} {v : α} {f : α → Except Raise β} {w : β}

/-- The first failing check of two lists is in the first of them, or that one holds and it is in the second. -/
theorem firstFailing_append {d : Check} :
    FirstFailing (cs ++ ds) d ↔ FirstFailing cs d ∨ AllHold cs ∧ FirstFailing ds d := by
  induction cs with
  | nil => simp only [List.nil_append, FirstFailing, AllHold, true_and, false_or]
  | cons c cs ih =>
    simp only [List.cons_append, FirstFailing, AllHold, ih]
    tauto

/-- Several checks, then a computation that makes the others. -/
theorem Checked.append (hx : Checked cs x v) (hf : Checked ds (f v) w) : Checked (cs ++ ds) (x >>= f) w where
  error d hd := by
    obtain hd | ⟨hcs, hd⟩ := firstFailing_append.mp hd
    · rw [hx.error d hd, except_error_bind]
    · rw [hx.ok hcs, except_ok_bind, hf.error d hd]
  ok h := by
    obtain ⟨hcs, hds⟩ := allHold_append.mp h
    rw [hx.ok hcs, except_ok_bind, hf.ok hds]

/-- What follows the checks cannot fail once they hold. -/
theorem Checked.bind_ok (hx : Checked cs x v) (hf : AllHold cs → f v = .ok w) : Checked cs (x >>= f) w where
  error d hd := by rw [hx.error d hd, except_error_bind]
  ok h := by rw [hx.ok h, except_ok_bind, hf h]

/-- A checked computation succeeds only where all its checks hold. -/
theorem Checked.of_ok {a : α} (hx : Checked cs x v) (h : x = .ok a) : AllHold cs ∧ a = v := by
  obtain hcs | ⟨c, hc⟩ := allHold_or_firstFailing cs
  · exact ⟨hcs, Except.ok.inj (h.symm.trans (hx.ok hcs))⟩
  · exact nomatch h.symm.trans (hx.error c hc)

end

/-! ## The checks of the arithmetic functions (R190) -/

/-- The checks of `arith_check(A, Y, radix)` (R190). -/
def arithChecks (radix : Nat) (A Y : List Word) : List Check :=
  [radixIn radix, ⟨A.length = Y.length, .operandLen, 0⟩, lengthIn A.length, numeralsIn radix A, numeralsIn radix Y]

theorem checked_arithCheck (radix : Nat) (A Y : List Word) :
    Checked (arithChecks radix A Y) (arithCheck A Y radix) () :=
  (checked_require _ _).cons <| (checked_require _ _).cons <| (checked_require _ _).cons <|
    (checked_numeralCheck radix A).cons (checked_numeralCheck radix Y)

/-- Whatever follows `arith_check` and repeats its checks makes no check of its own. -/
theorem checked_of_arithCheck {radix : Nat} {A Y C : List Word} {f : Unit → Except Raise (List Word)}
    (hf : arithCheck A Y radix = .ok () → (arithCheck A Y radix >>= f) = .ok C) :
    Checked (arithChecks radix A Y) (arithCheck A Y radix >>= f) C :=
  (checked_arithCheck radix A Y).bind_ok fun h => by
    have hchk := (checked_arithCheck radix A Y).ok h
    rw [← hf hchk, hchk, except_ok_bind]

/-! ## What the arithmetic functions answer (R191, R194, R197) -/

section

variable (op : Int → Int → Int) (radix : Nat) (A Y : List Word)

/-- The `m` numerals of `op` of the two values, modulo `radix^m` (R191). -/
def blockNumerals : List Word :=
  numeralsOf radix A.length (op (numeralSum radix A) (numeralSum radix Y) % (radix ^ A.length : Nat)).toNat

/-- Numeral by numeral `op`, modulo the radix (R197). -/
def charNumerals : List Word :=
  List.zipWith (fun a y : Word => BitVec.ofNat 32 (op a.toNat y.toNat % radix).toNat) A Y

theorem checked_blockwise : Checked (arithChecks radix A Y) (blockwise op radix A Y) (blockNumerals op radix A Y) :=
  checked_of_arithCheck blockwise_ok

/-- R194 is R191 of the reversed first operand, reversed. -/
theorem checked_reversedBlockwise :
    Checked (arithChecks radix A Y) (reversedBlockwise op radix A Y) (blockNumerals op radix A.reverse Y).reverse :=
  checked_of_arithCheck fun h => (reversedBlockwise_ok h).trans (by rw [blockNumerals, List.length_reverse])

theorem checked_characterwise :
    Checked (arithChecks radix A Y) (characterwise op radix A Y) (charNumerals op radix A Y) :=
  checked_of_arithCheck fun h => by rw [h, except_ok_bind, except_pure, charNumerals]

end

section

variable {op : Int → Int → Int} {radix : Nat} {A Y : List Word}

/-- A remainder modulo `radix^m` is written in full by `m` numerals. -/
theorem isNumerals_blockNumerals (hr : 2 ≤ radix ∧ radix ≤ 65536) :
    IsNumerals radix A.length (op (numeralSum radix A) (numeralSum radix Y) % (radix ^ A.length : Nat)).toNat
      (blockNumerals op radix A Y) := by
  have hpos : (0 : Int) < (radix ^ A.length : Nat) := by exact_mod_cast Nat.pow_pos (by omega : 0 < radix)
  have hlt := Int.emod_lt_of_pos (op (numeralSum radix A) (numeralSum radix Y)) hpos
  have h := isNumerals_numeralsOf (by omega : 0 < radix) (by omega) A.length
    (op (numeralSum radix A) (numeralSum radix Y) % (radix ^ A.length : Nat)).toNat
  rwa [Nat.mod_eq_of_lt (by omega)] at h

/-- A remainder modulo the radix is one numeral. -/
theorem toNat_ofNat_emod (hr : 2 ≤ radix ∧ radix ≤ 65536) (z : Int) :
    ((BitVec.ofNat 32 (z % radix).toNat).toNat : Int) = z % radix := by
  have hnonneg := Int.emod_nonneg z (by omega : (radix : Int) ≠ 0)
  have hlt := Int.emod_lt_of_pos z (by omega : (0 : Int) < radix)
  rw [BitVec.toNat_ofNat, Nat.mod_eq_of_lt (by omega), Int.toNat_of_nonneg hnonneg]

theorem length_charNumerals (h : A.length = Y.length) : (charNumerals op radix A Y).length = A.length := by
  rw [charNumerals, List.length_zipWith, ← h, min_self]

theorem getElem?_charNumerals {j : Nat} {a y : Word} (ha : A[j]? = some a) (hy : Y[j]? = some y) :
    (charNumerals op radix A Y)[j]? = some (BitVec.ofNat 32 (op a.toNat y.toNat % radix).toNat) := by
  rw [charNumerals, List.getElem?_zipWith, ha, hy]

theorem numerals_charNumerals (hr : 2 ≤ radix ∧ radix ≤ 65536) : Numerals radix (charNumerals op radix A Y) := by
  intro d hd
  rw [charNumerals, ← List.map_uncurry_zip_eq_zipWith] at hd
  obtain ⟨⟨a, y⟩, -, rfl⟩ := List.mem_map.mp hd
  have hlt := Int.emod_lt_of_pos (op a.toNat y.toNat) (by omega : (0 : Int) < radix)
  rw [← toNat_ofNat_emod hr] at hlt
  exact_mod_cast hlt

end

/-! ## Subtraction undoes addition -/

theorem add_emod_sub_emod {a M : Int} (ha : 0 ≤ a) (hlt : a < M) (y : Int) : ((a + y) % M - y) % M = a := by
  rw [Int.emod_sub_emod, add_sub_cancel_right, Int.emod_eq_of_lt ha hlt]

section

variable {radix : Nat} {A Y C : List Word}

theorem blockNumerals_sub_add (hr : 2 ≤ radix ∧ radix ≤ 65536) (hA : Numerals radix A) :
    blockNumerals (fun a y => a - y) radix (blockNumerals (fun a y => a + y) radix A Y) Y = A := by
  obtain ⟨hlen, -, hsum⟩ := isNumerals_blockNumerals (op := fun a y => a + y) (A := A) (Y := Y) hr
  have hpos : (0 : Int) < (radix ^ A.length : Nat) := by exact_mod_cast Nat.pow_pos (by omega : 0 < radix)
  have hlt : (numeralSum radix A : Int) < (radix ^ A.length : Nat) := by exact_mod_cast numeralSum_lt hA
  rw [blockNumerals, hlen, hsum, Int.toNat_of_nonneg (Int.emod_nonneg _ hpos.ne'),
    add_emod_sub_emod (Int.natCast_nonneg _) hlt, Int.toNat_natCast, numeralsOf_numeralSum hA]

theorem charNumerals_sub_add (hr : 2 ≤ radix ∧ radix ≤ 65536) (hlen : A.length = Y.length) (hA : Numerals radix A) :
    charNumerals (fun a y => a - y) radix (charNumerals (fun a y => a + y) radix A Y) Y = A := by
  have hlenC := length_charNumerals (op := fun a y => a + y) (radix := radix) hlen
  refine List.ext_getElem (by rw [length_charNumerals (hlenC.trans hlen), hlenC]) fun j _ hj => ?_
  have ha := List.getElem?_eq_getElem hj
  have hy := List.getElem?_eq_getElem (hlen ▸ hj)
  have hlt : ((A[j].toNat : Nat) : Int) < radix := by exact_mod_cast hA _ (List.getElem_mem hj)
  have h := getElem?_charNumerals (op := fun a y => a - y) (radix := radix)
    (getElem?_charNumerals (op := fun a y => a + y) (radix := radix) ha hy) hy
  rw [toNat_ofNat_emod hr, add_emod_sub_emod (Int.natCast_nonneg _) hlt, Int.toNat_natCast, BitVec.ofNat_toNat,
    BitVec.setWidth_eq] at h
  exact (List.getElem?_eq_some_iff.mp h).2

/-- The sum has the form that R190 asks of a first operand. -/
theorem arithChecks_of_result (h : AllHold (arithChecks radix A Y)) (hlen : C.length = A.length)
    (hC : Numerals radix C) : AllHold (arithChecks radix C Y) := by
  obtain ⟨hr, hAY, hm, -, hY, -⟩ := h
  exact ⟨hr, hlen.trans hAY, hlen.symm ▸ hm, hC, hY, trivial⟩

theorem subBlk_of_addBlk (h : addBlk radix A Y = .ok C) : subBlk radix C Y = .ok A := by
  obtain ⟨hchk, rfl⟩ := (checked_blockwise _ radix A Y).of_ok h
  have ⟨hr, _, _, hA, _⟩ := hchk
  obtain ⟨hlen, hnum, -⟩ := isNumerals_blockNumerals (op := fun a y => a + y) (A := A) (Y := Y) hr
  rw [subBlk, (checked_blockwise _ radix _ Y).ok (arithChecks_of_result hchk hlen hnum), blockNumerals_sub_add hr hA]

theorem subRev_of_addRev (h : addRev radix A Y = .ok C) : subRev radix C Y = .ok A := by
  obtain ⟨hchk, rfl⟩ := (checked_reversedBlockwise _ radix A Y).of_ok h
  have ⟨hr, _, _, hA, _⟩ := hchk
  obtain ⟨hlen, hnum, -⟩ := isNumerals_blockNumerals (op := fun a y => a + y) (A := A.reverse) (Y := Y) hr
  rw [subRev, (checked_reversedBlockwise _ radix _ Y).ok
    (arithChecks_of_result hchk (by simpa using hlen) (Numerals.reverse hnum)), List.reverse_reverse,
    blockNumerals_sub_add hr (Numerals.reverse hA), List.reverse_reverse]

theorem subChr_of_addChr (h : addChr radix A Y = .ok C) : subChr radix C Y = .ok A := by
  obtain ⟨hchk, rfl⟩ := (checked_characterwise _ radix A Y).of_ok h
  have ⟨hr, hlen, _, hA, _⟩ := hchk
  rw [subChr, (checked_characterwise _ radix _ Y).ok
    (arithChecks_of_result hchk (length_charNumerals hlen) (numerals_charNumerals hr)),
    charNumerals_sub_add hr hlen hA]

end

/-! ## The arithmetic commands (R192 to R199) -/

section

variable (rd ra rb : Reg) (s : State)

/-- A command that applies an arithmetic function to two numeral strings. -/
theorem exec_arithmetic {i : Instr} {f : Nat → List Word → List Word → Except Raise (List Word)} {C : List Word}
    (hi : exec i s = s.arithmetic f rd ra rb)
    (hf : Checked (arithChecks s.params.radix.toNat (s.nsVal ra) (s.nsVal rb))
      (f s.params.radix.toNat (s.nsVal ra) (s.nsVal rb)) C) :
    ChecksThenCompletes i s (s.arithmeticChecks ra rb) (s.putNs rd C) := by
  simp only [State.arithmeticChecks, ← State.length_nsVal]
  exact Checked.command hi <| (s.checked_srcNs ra _).cons <| (s.checked_srcNs rb _).cons hf.map

theorem exec_addblk : ChecksThenCompletes (.addblk rd ra rb) s (s.arithmeticChecks ra rb)
    (s.putNs rd (blockNumerals (fun a y => a + y) s.params.radix.toNat (s.nsVal ra) (s.nsVal rb))) :=
  exec_arithmetic rd ra rb s rfl (checked_blockwise ..)

theorem exec_subblk : ChecksThenCompletes (.subblk rd ra rb) s (s.arithmeticChecks ra rb)
    (s.putNs rd (blockNumerals (fun a y => a - y) s.params.radix.toNat (s.nsVal ra) (s.nsVal rb))) :=
  exec_arithmetic rd ra rb s rfl (checked_blockwise ..)

theorem exec_addrev : ChecksThenCompletes (.addrev rd ra rb) s (s.arithmeticChecks ra rb)
    (s.putNs rd (blockNumerals (fun a y => a + y) s.params.radix.toNat (s.nsVal ra).reverse (s.nsVal rb)).reverse) :=
  exec_arithmetic rd ra rb s rfl (checked_reversedBlockwise ..)

theorem exec_subrev : ChecksThenCompletes (.subrev rd ra rb) s (s.arithmeticChecks ra rb)
    (s.putNs rd (blockNumerals (fun a y => a - y) s.params.radix.toNat (s.nsVal ra).reverse (s.nsVal rb)).reverse) :=
  exec_arithmetic rd ra rb s rfl (checked_reversedBlockwise ..)

theorem exec_addchr : ChecksThenCompletes (.addchr rd ra rb) s (s.arithmeticChecks ra rb)
    (s.putNs rd (charNumerals (fun a y => a + y) s.params.radix.toNat (s.nsVal ra) (s.nsVal rb))) :=
  exec_arithmetic rd ra rb s rfl (checked_characterwise ..)

theorem exec_subchr : ChecksThenCompletes (.subchr rd ra rb) s (s.arithmeticChecks ra rb)
    (s.putNs rd (charNumerals (fun a y => a - y) s.params.radix.toNat (s.nsVal ra) (s.nsVal rb))) :=
  exec_arithmetic rd ra rb s rfl (checked_characterwise ..)

end

/-! ## SPLIT and RNDS (R200, R201) -/

theorem checked_splitOf (p : Params) (n : Nat) :
    Checked [⟨p.split = 1 ∨ p.split = 2 ∨ p.split = 3, .paramInvalid, 3⟩,
      ⟨1 ≤ p.leftLen n ∧ p.leftLen n ≤ n - 1, .paramInvalid, 5⟩] (splitOf p n) (p.leftLen n) := by
  rw [← Params.splitAt_eq_leftLen]
  exact (checked_require _ _).cons (checked_require _ _).map

theorem exec_split (s : State) : ChecksThenCompletes .split s
    [⟨2 ≤ s.arg0.toNat ∧ s.arg0.toNat ≤ 4096, .argRange, 0⟩,
      ⟨s.params.split = 1 ∨ s.params.split = 2 ∨ s.params.split = 3, .paramInvalid, 3⟩,
      ⟨1 ≤ s.params.leftLen s.arg0.toNat ∧ s.params.leftLen s.arg0.toNat ≤ s.arg0.toNat - 1, .paramInvalid, 5⟩]
    { s with res0 := BitVec.ofNat 32 (s.params.leftLen s.arg0.toNat) } :=
  Checked.command rfl <| (checked_require _ _).cons (checked_splitOf s.params s.arg0.toNat).map

theorem exec_rnds (s : State) : ChecksThenCompletes .rnds s
    [⟨2 ≤ s.arg0.toNat ∧ s.arg0.toNat ≤ 4096, .argRange, 0⟩, ⟨s.params.rounds.toNat ≤ 255, .paramInvalid, 4⟩]
    { s with res0 := BitVec.ofNat 32 s.params.rounds.toNat } :=
  Checked.command rfl <| (checked_require _ _).cons (checked_require _ _).map.map

/-! ## FRND (R203) -/

section

variable (s : State) (ra : Reg)

theorem State.checked_roundInput :
    Checked (s.presenceChecks ra) (s.roundInput ra) ⟨s.bsVal .r0, s.bsVal .r1, s.nsVal ra⟩ :=
  (s.checked_srcBs .r0 _).cons <| (s.checked_srcBs .r1 _).cons (s.checked_srcNs ra _).map

end

/-- FRND makes its presence checks, then asks for a legal selection, before it does what the selection says. -/
theorem exec_frnd_raises (rd ra : Reg) (s : State) : RaisesFirst (.frnd rd ra) s
    (s.presenceChecks ra ++ [⟨s.params.rf = 1 ∨ s.params.rf = 2 ∨ s.params.rf = 3, .paramInvalid, 2⟩]) := by
  intro c hc
  have hinput := s.checked_roundInput ra
  simp only [exec, execFrnd]
  obtain hc | ⟨hpresent, hc⟩ := firstFailing_append.mp hc
  · rw [hinput.error c hc, except_error_bind, State.finish_error]
  · rw [hinput.ok hpresent, except_ok_bind, (checked_require _ _).error c hc, except_error_bind, State.finish_error]

/-- A command that applies the round function `f` to its three operands, all present, and `f` answers. -/
theorem State.finish_round_ok {s : State} {rd ra : Reg} {f : RoundInput → Except Raise (List Word)} {Y : List Word}
    (hp : AllHold (s.presenceChecks ra)) (hf : f ⟨s.bsVal .r0, s.bsVal .r1, s.nsVal ra⟩ = .ok Y) :
    s.finish (do
      let x ← s.roundInput ra
      let Y ← f x
      pure (s.putNs rd Y)) = .next (s.putNs rd Y).completed := by
  rw [State.roundInput_of_present hp, except_ok_bind, hf, except_ok_bind, except_pure, State.finish,
    State.complete_eq_completed]

/-- F3RND with every check passed, the provider answering (R275, R276). -/
theorem exec_f3rnd_completes (rd : Reg) {ra : Reg} {s : State} (hP : s.providerAnswers) (h : AllHold (s.f3Checks ra)) :
    ∃ Y : List Word, Y.length = halfLen ((s.arg0.toNat + 1) / 2) s.arg0.toNat s.arg1.toNat ∧
      exec (.f3rnd rd ra) s = .next (s.putNs rd Y).completed := by
  have hround := State.ff3Round_eq h
  rw [if_neg (by simp [hP _])] at hround
  exact ⟨_, length_numeralsOf .., State.finish_round_ok (f := s.ff3Round) (allHold_append.mp h).1 hround⟩

/-! ## The statements -/

/-- Settles O21: each of the six commands is two presence checks and the checks of its arithmetic function. -/
theorem arithmeticChecksInOrder : Obligations.ArithmeticChecksInOrder := by
  intro rd ra rb s i hi
  simp only [List.mem_cons, List.not_mem_nil, or_false] at hi
  obtain rfl | rfl | rfl | rfl | rfl | rfl := hi
  · exact (exec_addblk rd ra rb s).1
  · exact (exec_subblk rd ra rb s).1
  · exact (exec_addrev rd ra rb s).1
  · exact (exec_subrev rd ra rb s).1
  · exact (exec_addchr rd ra rb s).1
  · exact (exec_subchr rd ra rb s).1

/-- Settles O22: the remainder modulo `radix^m` is written in full by the `m` numerals of the result. -/
theorem blockwiseCommandsWorkModuloThePower : Obligations.BlockwiseCommandsWorkModuloThePower := by
  intro rd ra rb s h
  have ⟨_, _, hr, _⟩ := h
  have hnumerals (op : Int → Int → Int) := isNumerals_blockNumerals (op := op) (A := s.nsVal ra) (Y := s.nsVal rb) hr
  rw [State.length_nsVal] at hnumerals
  exact ⟨⟨_, hnumerals fun a y => a + y, (exec_addblk rd ra rb s).2 h⟩,
    _, hnumerals fun a y => a - y, (exec_subblk rd ra rb s).2 h⟩

/-- Settles O23: the same of the reversed first operand, and the result reversed again is the written one. -/
theorem reversedCommandsReverseOperandAndResult : Obligations.ReversedCommandsReverseOperandAndResult := by
  intro rd ra rb s h
  have ⟨_, _, hr, _⟩ := h
  have hnumerals (op : Int → Int → Int) :=
    isNumerals_blockNumerals (op := op) (A := (s.nsVal ra).reverse) (Y := s.nsVal rb) hr
  simp only [List.length_reverse, State.length_nsVal] at hnumerals
  refine ⟨⟨_, ?_, (exec_addrev rd ra rb s).2 h⟩, _, ?_, (exec_subrev rd ra rb s).2 h⟩
  · rw [List.reverse_reverse]
    exact hnumerals fun a y => a + y
  · rw [List.reverse_reverse]
    exact hnumerals fun a y => a - y

/-- Settles O24, by the length and the elements of the result. -/
theorem characterwiseCommandsWorkPerNumeral : Obligations.CharacterwiseCommandsWorkPerNumeral := by
  intro rd ra rb s h
  have ⟨_, _, hr, hlen, _⟩ := h
  simp only [← State.length_nsVal] at hlen ⊢
  refine ⟨⟨_, length_charNumerals hlen, numerals_charNumerals hr,
      fun j a y ha hy => ⟨_, getElem?_charNumerals ha hy, ?_⟩, (exec_addchr rd ra rb s).2 h⟩,
    _, length_charNumerals hlen, numerals_charNumerals hr,
      fun j a y ha hy => ⟨_, getElem?_charNumerals ha hy, ?_⟩, (exec_subchr rd ra rb s).2 h⟩
  · exact_mod_cast toNat_ofNat_emod hr ((a.toNat : Int) + y.toNat)
  · exact toNat_ofNat_emod hr _

/-- Settles O25, form by form. -/
theorem subtractionUndoesAddition : Obligations.SubtractionUndoesAddition :=
  fun _ _ _ _ => ⟨subBlk_of_addBlk, subRev_of_addRev, subChr_of_addChr⟩

/-- Settles O26: the split, below the checked `ARG0`, and ROUNDS, a register, both fit RES0. -/
theorem splitAndRndsWriteRes0 : Obligations.SplitAndRndsWriteRes0 := by
  intro s
  obtain ⟨hraises, hcompletes⟩ := exec_split s
  refine ⟨⟨hraises, fun h => ⟨_, ?_, hcompletes h⟩⟩, ?_⟩
  · obtain ⟨⟨-, hn⟩, -, ⟨-, hl⟩, -⟩ := h
    exact BitVec.toNat_ofNat _ _ |>.trans (Nat.mod_eq_of_lt (by omega))
  · have hrnds := exec_rnds s
    rwa [BitVec.ofNat_toNat, BitVec.setWidth_eq] at hrnds

/-- Settles O30: with a legal selection FRND is the selected command, whose completion is known for FF3. -/
theorem frndIsTheSelectedRound : Obligations.FrndIsTheSelectedRound := by
  refine fun rd ra s => ⟨exec_frnd_raises rd ra s, exec_frnd_of_rf_one, exec_frnd_of_rf_two, exec_frnd_of_rf_three,
    fun hrf hP h => ?_⟩
  rw [exec_frnd_of_rf_three hrf]
  exact exec_f3rnd_completes rd hP h

end Sys2Proof.Machine
end

section
/-!
SUPPORT. The proofs of the statements on the generic engine (42, sections 4 to 6): ENC and DEC. Three facts about any
Feistel network carry them. Where every round completes, its iteration is the run of R207 or R209, encrypting and
decrypting (`Network.Completes`). Where subtraction undoes addition, the decrypting rounds undo the encrypting ones,
whatever the round function does (`Network.decrypt_encrypt`). Where the arithmetic answers numerals, so does the run.
-/

namespace Sys2Proof.Machine

/-! ## Chains of rounds -/

section

variable {σ : Type} {f f' : Nat → σ → Except Raise σ} {Q : Nat → σ → Prop} {R : Nat → σ → σ → Prop} {count : Nat}
  {x y : σ}

/-- Rounds that each succeed where `Q` holds, and establish it anew, succeed together. -/
theorem exists_rounds (hx : Q 0 x)
    (hround : ∀ k x, k < count → Q k x → ∃ y, f k x = .ok y ∧ R k x y ∧ Q (k + 1) y) :
    ∃ g : Nat → σ, g 0 = x ∧ iterate f count 0 x = .ok (g count) ∧ Q count (g count) ∧
      ∀ k, k < count → R k (g k) (g (k + 1)) := by
  have hnext : ∀ k x, ∃ y, k < count → Q k x → f k x = .ok y ∧ R k x y ∧ Q (k + 1) y := fun k x => by
    by_cases h : k < count ∧ Q k x
    · exact (hround k x h.1 h.2).imp fun _ hy _ _ => hy
    · exact ⟨x, fun hk hQ => absurd ⟨hk, hQ⟩ h⟩
  choose next hnext using hnext
  obtain ⟨g, h0, hsucc⟩ : ∃ g : Nat → σ, g 0 = x ∧ ∀ k, g (k + 1) = next k (g k) := ⟨Nat.rec x next, rfl, fun _ => rfl⟩
  have hQ : ∀ k, k ≤ count → Q k (g k) := fun k => by
    induction k with
    | zero => exact fun _ => h0 ▸ hx
    | succ k ih =>
      intro hk
      rw [hsucc]
      exact (hnext k _ hk (ih (by omega))).2.2
  refine ⟨g, h0, (iterate_ok_iff ..).mpr ⟨g, h0, rfl, fun k hk => ?_⟩, hQ count le_rfl, fun k hk => ?_⟩
  · rw [Nat.zero_add, hsucc]
    exact (hnext k _ hk (hQ k hk.le)).1
  · rw [hsucc]
    exact (hnext k _ hk (hQ k hk.le)).2.1

/-- The same from the last round down: `g k` is what stands before round `k`. -/
theorem exists_rounds_down (hx : Q count x)
    (hround : ∀ k y, k < count → Q (k + 1) y → ∃ x, f k y = .ok x ∧ R k x y ∧ Q k x) :
    ∃ g : Nat → σ, g count = x ∧ iterate (fun k => f (count - 1 - k)) count 0 x = .ok (g 0) ∧ Q 0 (g 0) ∧
      ∀ k, k < count → R k (g k) (g (k + 1)) := by
  obtain ⟨g, h0, hrun, hend, hg⟩ := exists_rounds (f := fun k => f (count - 1 - k)) (count := count)
    (Q := fun k x => Q (count - k) x) (R := fun k x y => R (count - 1 - k) y x) hx fun k y hk hy => by
      rw [show count - k = count - 1 - k + 1 by omega] at hy
      rw [show count - (k + 1) = count - 1 - k by omega]
      exact hround _ y (by omega) hy
  rw [Nat.sub_self] at hend
  refine ⟨fun k => g (count - k), by simp only [Nat.sub_self, h0], hrun, hend, fun k hk => ?_⟩
  have hk' := hg (count - 1 - k) (by omega)
  rwa [show count - 1 - (count - 1 - k) = k by omega, show count - 1 - k + 1 = count - k by omega,
    show count - 1 - k = count - (k + 1) by omega] at hk'

/-- Rounds that are undone one by one are undone together, from the last one down. -/
theorem iterate_undone (hkeeps : ∀ k x y, Q k x → f k x = .ok y → Q (k + 1) y)
    (hundo : ∀ k x y, Q k x → f k x = .ok y → f' k y = .ok x) (hx : Q 0 x) (h : iterate f count 0 x = .ok y) :
    iterate (fun k => f' (count - 1 - k)) count 0 y = .ok x ∧ Q count y := by
  obtain ⟨g, rfl, rfl, hg⟩ := (iterate_ok_iff f count 0 x y).mp h
  simp only [Nat.zero_add] at hg
  have hQ : ∀ k, k ≤ count → Q k (g k) := fun k => by
    induction k with
    | zero => exact fun _ => hx
    | succ k ih => exact fun hk => hkeeps k _ _ (ih (by omega)) (hg k hk)
  refine ⟨(iterate_ok_iff ..).mpr ⟨fun k => g (count - k), rfl, by simp only [Nat.sub_self], fun k hk => ?_⟩,
    hQ count le_rfl⟩
  simp only [Nat.zero_add, show count - k = count - 1 - k + 1 by omega,
    show count - (k + 1) = count - 1 - k by omega]
  exact hundo _ _ _ (hQ _ (by omega)) (hg _ (by omega))

end

/-! ## Decryption undoes encryption (R212) -/

section

variable {N : Network} {i : Nat} {X Y : List Word} (hundo : ∀ A Y C, N.add A Y = .ok C → N.sub C Y = .ok A)

include hundo

theorem Network.twoDecRound_twoEncRound {x y : List Word × List Word} (h : N.twoEncRound i x = .ok y) :
    N.twoDecRound i y = .ok x := by
  obtain ⟨A, B⟩ := x
  simp only [Network.twoEncRound, except_bind_ok_iff, except_pure, Except.ok.injEq] at h
  obtain ⟨Y, hY, C, hC, rfl⟩ := h
  exact Network.twoDecRound_ok (by rw [hY, except_ok_bind, hundo _ _ _ hC])

theorem Network.oneDecRound_oneEncRound (hX : X.length = N.n) (h : N.oneEncRound i X = .ok Y) :
    N.oneDecRound i Y = .ok X := by
  simp only [Network.oneEncRound, except_bind_ok_iff, except_pure, Except.ok.injEq] at h
  obtain ⟨y, hy, C, hC, rfl⟩ := h
  have hcut : (X.drop N.l).length = N.n - N.l := by rw [List.length_drop, hX]
  rw [Network.oneDecRound, List.take_left' hcut, List.drop_left' hcut, hy, except_ok_bind, hundo _ _ _ hC,
    except_ok_bind, except_pure, List.take_append_drop]

end

section

variable {N : Network} {i : Nat} {X Y : List Word} (hN : N.KeepsLength) (hX : X.length = N.n)

include hN in
theorem Network.oneEncRound_length (h : N.oneEncRound i X = .ok Y) : Y.length = X.length := by
  simp only [Network.oneEncRound, except_bind_ok_iff, except_pure, Except.ok.injEq] at h
  obtain ⟨_, -, C, hC, rfl⟩ := h
  rw [List.length_append, hN.1 _ _ _ hC, Nat.add_comm, ← List.length_append, List.take_append_drop]

/-- The halves after `k` rounds of Method TWO on `n` numerals cut at `l`, which may lie beyond their end. -/
def HalvesAfter (l n k : Nat) (x : List Word × List Word) : Prop :=
  x.1.length = min (halfLen l n k) n ∧ x.1.length + x.2.length = n

include hN in
theorem Network.twoEncRound_halves {k : Nat} {x y : List Word × List Word} (hx : HalvesAfter N.l N.n k x)
    (h : N.twoEncRound k x = .ok y) : HalvesAfter N.l N.n (k + 1) y := by
  simp only [Network.twoEncRound, except_bind_ok_iff, except_pure, Except.ok.injEq] at h
  obtain ⟨_, -, C, hC, rfl⟩ := h
  have hlen := hN.1 _ _ _ hC
  obtain ⟨hfirst, hsum⟩ := hx
  have hswap : min (halfLen N.l N.n (k + 1)) N.n = N.n - min (halfLen N.l N.n k) N.n := by
    unfold halfLen
    split <;> split <;> omega
  simp only [HalvesAfter, hswap]
  omega

/-- Where decryption cuts, encryption has joined (R208). -/
theorem HalvesAfter.cut {l n k : Nat} {x : List Word × List Word} (hx : HalvesAfter l n k x) :
    (x.1 ++ x.2).take (halfLen l n k) = x.1 ∧ (x.1 ++ x.2).drop (halfLen l n k) = x.2 := by
  obtain ⟨hfirst, hsum⟩ := hx
  obtain hle | hlt := le_or_gt (halfLen l n k) n
  · rw [min_eq_left hle] at hfirst
    exact ⟨List.take_left' hfirst, List.drop_left' hfirst⟩
  · have hempty : x.2 = [] := List.eq_nil_of_length_eq_zero (by omega)
    rw [hempty, List.append_nil]
    exact ⟨List.take_of_length_le (by omega), List.drop_of_length_le (by omega)⟩

variable (hundo : ∀ A Y C, N.add A Y = .ok C → N.sub C Y = .ok A)

include hN hX hundo

theorem Network.oneDec_oneEnc (h : N.oneEnc X = .ok Y) : N.oneDec Y = .ok X :=
  (iterate_undone (f := N.oneEncRound) (Q := fun _ X => X.length = N.n)
    (fun _ _ _ hX h => (Network.oneEncRound_length hN h).trans hX)
    (fun _ _ _ hX h => Network.oneDecRound_oneEncRound hundo hX h) hX h).1

theorem Network.twoDec_twoEnc (h : N.twoEnc X = .ok Y) : N.twoDec Y = .ok X := by
  obtain ⟨x, hx, hY⟩ := except_bind_ok_iff.mp h
  cases hY
  have hstart : HalvesAfter N.l N.n 0 (X.take N.l, X.drop N.l) :=
    ⟨by rw [List.length_take, hX]; rfl, by rw [← List.length_append, List.take_append_drop, hX]⟩
  obtain ⟨hrun, hend⟩ := iterate_undone (fun _ _ _ hQ h => Network.twoEncRound_halves hN hQ h)
    (fun _ _ _ _ h => Network.twoDecRound_twoEncRound hundo h) hstart hx
  have hcut : N.decCut = halfLen N.l N.n N.r := rfl
  rw [Network.twoDec, hcut, hend.cut.1, hend.cut.2, hrun, except_ok_bind, except_pure, List.take_append_drop]

/-- Whatever the round function does: it is asked the same in both directions. -/
theorem Network.decrypt_encrypt {method : Nat} (h : N.encrypt method X = .ok Y) : N.decrypt method Y = .ok X := by
  unfold Network.encrypt at h
  unfold Network.decrypt
  split at h
  · rw [if_pos ‹_›, Network.oneDec_oneEnc hN hX hundo h]
  · rw [if_neg ‹_›, Network.twoDec_twoEnc hN hX hundo h]

end

theorem subBy_of_addBy {arith radix : Nat} {A Y C : List Word} (h : addBy arith radix A Y = .ok C) :
    subBy arith radix C Y = .ok A := by
  unfold addBy at h
  unfold subBy
  split at h
  · exact subBlk_of_addBlk h
  · exact subRev_of_addRev h
  · exact subChr_of_addChr h

theorem Params.decrypt_encrypt {p : Params} {P : Provider} {K T : List Byte} {X Y : List Word}
    (h : (p.network P K T X.length).encrypt p.method X = .ok Y) :
    (p.network P K T X.length).decrypt p.method Y = .ok X :=
  Network.decrypt_encrypt (p.network_keepsLength P K T _) rfl (fun _ _ _ => subBy_of_addBy) h

/-! ## Every numeral stays below the radix (R190, R212) -/

section

variable {radix : Nat} {X Y : List Word}

theorem numerals_append : Numerals radix (X ++ Y) ↔ Numerals radix X ∧ Numerals radix Y := List.forall_mem_append

theorem Numerals.take (h : Numerals radix X) (l : Nat) : Numerals radix (X.take l) :=
  fun d hd => h d (List.mem_of_mem_take hd)

theorem Numerals.drop (h : Numerals radix X) (l : Nat) : Numerals radix (X.drop l) :=
  fun d hd => h d (List.mem_of_mem_drop hd)

end

section

variable {op : Int → Int → Int} {arith radix : Nat} {A Y C : List Word}

theorem blockwise_numerals (h : blockwise op radix A Y = .ok C) : Numerals radix C := by
  obtain ⟨⟨hr, -⟩, rfl⟩ := (checked_blockwise op radix A Y).of_ok h
  exact (isNumerals_blockNumerals hr).2.1

theorem reversedBlockwise_numerals (h : reversedBlockwise op radix A Y = .ok C) : Numerals radix C := by
  obtain ⟨⟨hr, -⟩, rfl⟩ := (checked_reversedBlockwise op radix A Y).of_ok h
  exact (isNumerals_blockNumerals hr).2.1.reverse

theorem characterwise_numerals (h : characterwise op radix A Y = .ok C) : Numerals radix C := by
  obtain ⟨⟨hr, -⟩, rfl⟩ := (checked_characterwise op radix A Y).of_ok h
  exact numerals_charNumerals hr

theorem addBy_numerals (h : addBy arith radix A Y = .ok C) : Numerals radix C := by
  unfold addBy at h
  split at h
  · exact blockwise_numerals h
  · exact reversedBlockwise_numerals h
  · exact characterwise_numerals h

theorem subBy_numerals (h : subBy arith radix A Y = .ok C) : Numerals radix C := by
  unfold subBy at h
  split at h
  · exact blockwise_numerals h
  · exact reversedBlockwise_numerals h
  · exact characterwise_numerals h

end

/-- Both arithmetic functions of the network answer numerals. -/
def Network.AnswersNumerals (N : Network) (radix : Nat) : Prop :=
  (∀ A Y C, N.add A Y = .ok C → Numerals radix C) ∧ ∀ A Y C, N.sub A Y = .ok C → Numerals radix C

section

variable {N : Network} {radix method : Nat} {X Z : List Word} (hN : N.AnswersNumerals radix) (hX : Numerals radix X)

include hN hX

theorem Network.oneEnc_numerals (h : N.oneEnc X = .ok Z) : Numerals radix Z := by
  refine iterate_ok_keeps (Q := Numerals radix) (fun k X Y hX hY => ?_) hX h
  simp only [Network.oneEncRound, except_bind_ok_iff, except_pure, Except.ok.injEq] at hY
  obtain ⟨_, -, C, hC, rfl⟩ := hY
  exact numerals_append.mpr ⟨hX.drop _, hN.1 _ _ _ hC⟩

theorem Network.oneDec_numerals (h : N.oneDec X = .ok Z) : Numerals radix Z := by
  refine iterate_ok_keeps (Q := Numerals radix) (fun k X Y hX hY => ?_) hX h
  simp only [Network.oneDecRound, except_bind_ok_iff, except_pure, Except.ok.injEq] at hY
  obtain ⟨_, -, A, hA, rfl⟩ := hY
  exact numerals_append.mpr ⟨hN.2 _ _ _ hA, hX.take _⟩

theorem Network.twoEnc_numerals (h : N.twoEnc X = .ok Z) : Numerals radix Z := by
  obtain ⟨x, hx, hZ⟩ := except_bind_ok_iff.mp h
  cases hZ
  refine numerals_append.mpr <| iterate_ok_keeps (Q := fun x => Numerals radix x.1 ∧ Numerals radix x.2)
    (fun k x y hx hy => ?_) ⟨hX.take _, hX.drop _⟩ hx
  simp only [Network.twoEncRound, except_bind_ok_iff, except_pure, Except.ok.injEq] at hy
  obtain ⟨_, -, C, hC, rfl⟩ := hy
  exact ⟨hx.2, hN.1 _ _ _ hC⟩

theorem Network.twoDec_numerals (h : N.twoDec X = .ok Z) : Numerals radix Z := by
  obtain ⟨x, hx, hZ⟩ := except_bind_ok_iff.mp h
  cases hZ
  refine numerals_append.mpr <| iterate_ok_keeps (Q := fun x => Numerals radix x.1 ∧ Numerals radix x.2)
    (fun k x y hx hy => ?_) ⟨hX.take _, hX.drop _⟩ hx
  simp only [Network.twoDecRound, except_bind_ok_iff, except_pure, Except.ok.injEq] at hy
  obtain ⟨_, -, A, hA, rfl⟩ := hy
  exact ⟨hN.2 _ _ _ hA, hx.1⟩

theorem Network.encrypt_numerals (h : N.encrypt method X = .ok Z) : Numerals radix Z := by
  unfold Network.encrypt at h
  split at h
  · exact Network.oneEnc_numerals hN hX h
  · exact Network.twoEnc_numerals hN hX h

theorem Network.decrypt_numerals (h : N.decrypt method X = .ok Z) : Numerals radix Z := by
  unfold Network.decrypt at h
  split at h
  · exact Network.oneDec_numerals hN hX h
  · exact Network.twoDec_numerals hN hX h

end

theorem Params.network_answersNumerals (p : Params) (P : Provider) (K T : List Byte) (n : Nat) :
    (p.network P K T n).AnswersNumerals p.radix.toNat :=
  ⟨fun _ _ _ => addBy_numerals, fun _ _ _ => subBy_numerals⟩

theorem ff1Network_answersNumerals (P : Provider) (radix : Nat) (K T : List Byte) (n : Nat) :
    (ff1Network P radix K T n).AnswersNumerals radix :=
  ⟨fun _ _ _ => blockwise_numerals, fun _ _ _ => blockwise_numerals⟩

theorem ff2Network_answersNumerals (P : Provider) (radix tradix : Nat) (K T : List Byte) (n : Nat) :
    (ff2Network P radix tradix K T n).AnswersNumerals radix :=
  ⟨fun _ _ _ => blockwise_numerals, fun _ _ _ => blockwise_numerals⟩

/-! ## Networks whose rounds all complete (R207 to R209) -/

/-- A network whose rounds are those of `round` and never fail: from the half `A` it makes the new half `C`, and from
`C` it makes `A`. -/
structure Network.Completes (N : Network) (radix : Nat) (round : (i : Nat) → (A B C : List Word) → Prop) : Prop where
  adds : ∀ i A B, i < N.r → IsHalf radix N.l N.n i A → IsHalf radix N.l N.n (i + 1) B →
    ∃ C, (N.F i B >>= fun y => N.add A y) = .ok C ∧ round i A B C ∧ IsHalf radix N.l N.n i C
  subs : ∀ i B C, i < N.r → IsHalf radix N.l N.n (i + 1) B → IsHalf radix N.l N.n i C →
    ∃ A, (N.F i B >>= fun y => N.sub C y) = .ok A ∧ round i A B C ∧ IsHalf radix N.l N.n i A

theorem halfLen_succ {l n : Nat} (hl : l ≤ n) (i : Nat) : halfLen l n (i + 1) = n - halfLen l n i := by
  unfold halfLen
  split <;> split <;> omega

/-- A string cut where the halves of round `i` meet. -/
theorem isHalf_cut {radix l n : Nat} {X : List Word} (i : Nat) (hX : Numerals radix X) (hn : X.length = n)
    (hl : l ≤ n) :
    IsHalf radix l n i (X.take (halfLen l n i)) ∧ IsHalf radix l n (i + 1) (X.drop (halfLen l n i)) := by
  have hcut : halfLen l n i ≤ n := by
    unfold halfLen
    split <;> omega
  exact ⟨⟨by rw [List.length_take, hn, min_eq_left hcut], hX.take _⟩,
    by rw [List.length_drop, hn, halfLen_succ hl], hX.drop _⟩

/-! ### Method TWO (R207, R208) -/

/-- The halves before round `k`. -/
def AreHalves (radix l n k : Nat) (x : List Word × List Word) : Prop :=
  IsHalf radix l n k x.1 ∧ IsHalf radix l n (k + 1) x.2

/-- Round `k` takes the halves `x` to the halves `y`. -/
def PairRound (round : (i : Nat) → (A B C : List Word) → Prop) (k : Nat) (x y : List Word × List Word) : Prop :=
  y.1 = x.2 ∧ round k x.1 x.2 y.2

/-- The halves of R207 in one sequence. -/
def halfSequence (g : Nat → List Word × List Word) : Nat → List Word
  | 0 => (g 0).1
  | k + 1 => (g k).2

section

variable {round : (i : Nat) → (A B C : List Word) → Prop} {l r radix k : Nat} {X : List Word} {N : Network}

theorem feistelRun_of_pairs {g : Nat → List Word × List Word} (h0 : g 0 = (X.take l, X.drop l))
    (hg : ∀ k, k < r → PairRound round k (g k) (g (k + 1))) : FeistelRun round l r X ((g r).1 ++ (g r).2) := by
  have hfirst : ∀ k, k ≤ r → halfSequence g k = (g k).1 := fun k hk => by
    cases k with
    | zero => rfl
    | succ k => exact (hg k hk).1.symm
  refine ⟨halfSequence g, congrArg Prod.fst h0, congrArg Prod.snd h0, fun k hk => ?_, ?_⟩
  · rw [hfirst k hk.le]
    exact (hg k hk).2
  · rw [hfirst r le_rfl]
    rfl

variable (hN : N.Completes radix round)

include hN

theorem Network.Completes.twoEncRound {x : List Word × List Word} (hk : k < N.r) (hx : AreHalves radix N.l N.n k x) :
    ∃ y, N.twoEncRound k x = .ok y ∧ PairRound round k x y ∧ AreHalves radix N.l N.n (k + 1) y := by
  obtain ⟨A, B⟩ := x
  obtain ⟨hA, hB⟩ := hx
  obtain ⟨C, hC, hround, hhalf⟩ := hN.adds k A B hk hA hB
  exact ⟨(B, C), Network.twoEncRound_ok hC, ⟨rfl, hround⟩, hB, hhalf.congr (by omega)⟩

theorem Network.Completes.twoDecRound {y : List Word × List Word} (hk : k < N.r)
    (hy : AreHalves radix N.l N.n (k + 1) y) :
    ∃ x, N.twoDecRound k y = .ok x ∧ PairRound round k x y ∧ AreHalves radix N.l N.n k x := by
  obtain ⟨B, C⟩ := y
  obtain ⟨hB, hC⟩ := hy
  obtain ⟨A, hA, hround, hhalf⟩ := hN.subs k B C hk hB (hC.congr (by omega))
  exact ⟨(A, B), Network.twoDecRound_ok hA, ⟨rfl, hround⟩, hhalf, hB⟩

variable (hX : Numerals radix X) (hn : X.length = N.n) (hl : N.l ≤ N.n)

include hX hn hl

theorem Network.twoEnc_run : ∃ Z, N.twoEnc X = .ok Z ∧ FeistelRun round N.l N.r X Z := by
  obtain ⟨g, h0, hrun, -, hg⟩ := exists_rounds (x := (X.take N.l, X.drop N.l)) (isHalf_cut 0 hX hn hl)
    fun k x hk hx => hN.twoEncRound hk hx
  refine ⟨_, ?_, feistelRun_of_pairs h0 hg⟩
  rw [Network.twoEnc, hrun, except_ok_bind, except_pure]

theorem Network.twoDec_run : ∃ Z, N.twoDec X = .ok Z ∧ FeistelRun round N.l N.r Z X := by
  obtain ⟨g, hend, hrun, ⟨hA, -⟩, hg⟩ := exists_rounds_down (Q := AreHalves radix N.l N.n)
    (x := (X.take N.decCut, X.drop N.decCut)) (isHalf_cut N.r hX hn hl) fun k y hk hy => hN.twoDecRound hk hy
  refine ⟨(g 0).1 ++ (g 0).2, by rw [Network.twoDec, hrun, except_ok_bind, except_pure], ?_⟩
  have hlen : (g 0).1.length = N.l := hA.1
  have hback := feistelRun_of_pairs (l := N.l) (X := (g 0).1 ++ (g 0).2)
    (by rw [List.take_left' hlen, List.drop_left' hlen]) hg
  rwa [hend, List.take_append_drop] at hback

end

/-! ### Method ONE with equal halves (R209): the string is cut in the same place before and after a round -/

/-- Round `k` takes the string `X`, cut at `l`, to the string `Y`. -/
def ResplitRound (round : (i : Nat) → (A B C : List Word) → Prop) (l k : Nat) (X Y : List Word) : Prop :=
  ∃ C, round k (X.take l) (X.drop l) C ∧ Y = X.drop l ++ C

section

variable {round : (i : Nat) → (A B C : List Word) → Prop} {radix k : Nat} {X Y : List Word} {N : Network}
  (hN : N.Completes radix round) (hl : N.n = N.l + N.l)

include hl in
theorem Network.halfLen_of_equal_halves (i : Nat) : halfLen N.l N.n i = N.l := by
  unfold halfLen
  split <;> omega

include hN hl

theorem Network.Completes.oneEncRound (hk : k < N.r) (hX : X.length = N.n ∧ Numerals radix X) :
    ∃ Y, N.oneEncRound k X = .ok Y ∧ ResplitRound round N.l k X Y ∧ Y.length = N.n ∧ Numerals radix Y := by
  have hcut := Network.halfLen_of_equal_halves hl
  obtain ⟨hA, hB⟩ := isHalf_cut k hX.2 hX.1 (by omega : N.l ≤ N.n)
  rw [hcut] at hA hB
  obtain ⟨C, hC, hround, hhalf⟩ := hN.adds k _ _ hk hA hB
  obtain ⟨y, hy, hC⟩ := except_bind_ok_iff.mp hC
  refine ⟨X.drop N.l ++ C, ?_, ⟨C, hround, rfl⟩, ?_, numerals_append.mpr ⟨hB.2, hhalf.2⟩⟩
  · simp only [Network.oneEncRound, hy, hC, except_ok_bind, except_pure]
  · rw [List.length_append, hB.1, hhalf.1, hcut, hcut, hl]

theorem Network.Completes.oneDecRound (hk : k < N.r) (hY : Y.length = N.n ∧ Numerals radix Y) :
    ∃ X, N.oneDecRound k Y = .ok X ∧ ResplitRound round N.l k X Y ∧ X.length = N.n ∧ Numerals radix X := by
  have hcut := Network.halfLen_of_equal_halves hl
  obtain ⟨hB, hC⟩ := isHalf_cut (k + 1) hY.2 hY.1 (by omega : N.l ≤ N.n)
  rw [hcut] at hB hC
  obtain ⟨A, hA, hround, hhalf⟩ := hN.subs k _ _ hk hB (hC.congr (by omega))
  obtain ⟨y, hy, hA⟩ := except_bind_ok_iff.mp hA
  have hlenA : A.length = N.l := hhalf.1.trans (hcut _)
  refine ⟨A ++ Y.take N.l, ?_, ⟨Y.drop N.l, ?_, ?_⟩, ?_, numerals_append.mpr ⟨hhalf.2, hB.2⟩⟩
  · simp only [Network.oneDecRound, show N.n - N.l = N.l by omega, hy, hA, except_ok_bind, except_pure]
  · rw [List.take_left' hlenA, List.drop_left' hlenA]
    exact hround
  · rw [List.drop_left' hlenA, List.take_append_drop]
  · rw [List.length_append, hlenA, hB.1, hcut, hl]

variable (hX : Numerals radix X) (hn : X.length = N.n)

include hX hn

theorem Network.oneEnc_run : ∃ Z, N.oneEnc X = .ok Z ∧ ResplitRun round N.l N.r X Z := by
  obtain ⟨g, h0, hrun, -, hg⟩ := exists_rounds (Q := fun _ X => X.length = N.n ∧ Numerals radix X) ⟨hn, hX⟩
    fun k X hk hX => hN.oneEncRound hl hk hX
  exact ⟨_, hrun, g, h0, rfl, hg⟩

theorem Network.oneDec_run : ∃ Z, N.oneDec X = .ok Z ∧ ResplitRun round N.l N.r Z X := by
  obtain ⟨g, hend, hrun, -, hg⟩ := exists_rounds_down (Q := fun _ X => X.length = N.n ∧ Numerals radix X) ⟨hn, hX⟩
    fun k Y hk hY => hN.oneDecRound hl hk hY
  exact ⟨_, hrun, g, rfl, hend.symm, hg⟩

end

/-! ## The network of the parameters (R202 to R211) -/

section

variable {p : Params} {P : Provider} {K T : List Byte} {n : Nat} {X : List Word} (hP : ∀ q, P.fails q = false)
  (hu : AllHold p.usable) (hK : K.length = 16 ∨ K.length = 24 ∨ K.length = 32) (hT : T.length ≤ 4096)

include hP hu hK hT

/-- With a provider that answers, and where no check inside the rounds can fail, every round completes. -/
theorem Params.network_completes (hn : 2 ≤ n ∧ n ≤ 4096) (hf : p.RoundsFit n T) :
    (p.network P K T n).Completes p.radix.toNat (p.Round (p.roundValue P.E K n T)) := by
  have hl : (p.network P K T n).l = p.leftLen n := p.splitAt_eq_leftLen n
  have hcut : p.leftLen n ≤ n := by have := hf.split; omega
  have ⟨_, _, _, _, hrounds, _⟩ := hu
  refine ⟨fun i A B hi hA hB => ?_, fun i B C hi hB hC => ?_⟩
  · rw [hl] at hA hB ⊢
    obtain ⟨C, hC, hround, hlen, hnum⟩ := p.encryptRound_ok hP hu hK hT hn hf (hi.le.trans hrounds) hA.1
      (hB.1.trans (halfLen_succ hcut i)) hA.2 hB.2
    exact ⟨C, hC, hround, hlen.trans hA.1, hnum⟩
  · rw [hl] at hB hC ⊢
    obtain ⟨A, hA, hround, hlen, hnum⟩ := p.decryptRound_ok hP hu hK hT hn hf (hi.le.trans hrounds) hC.1
      (hB.1.trans (halfLen_succ hcut i)) hC.2 hB.2
    exact ⟨A, hA, hround, hlen.trans hC.1, hnum⟩

variable (hn : 2 ≤ X.length ∧ X.length ≤ 4096) (hf : p.RoundsFit X.length T) (hX : Numerals p.radix.toNat X)

include hn hf hX

theorem Params.encrypt_run : ∃ Z, p.Run P.E K T X Z ∧ Z.length = X.length ∧ Numerals p.radix.toNat Z ∧
    (p.network P K T X.length).encrypt p.method X = .ok Z := by
  have hN := p.network_completes hP hu hK hT hn hf
  have hsplit := hf.split
  rw [← Params.splitAt_eq_leftLen] at hsplit
  obtain ⟨Z, hZ, hrun⟩ : ∃ Z, (p.network P K T X.length).encrypt p.method X = .ok Z ∧ p.Run P.E K T X Z := by
    simp only [Params.Run, ← Params.splitAt_eq_leftLen]
    rcases hu.1 with hm | hm
    · have heven := hf.2.1 hm
      simp only [Network.encrypt, hm, if_true]
      exact Network.oneEnc_run hN (by simp only [Params.network]; omega) hX rfl
    · simp only [Network.encrypt, hm, OfNat.ofNat_ne_one, if_false]
      exact Network.twoEnc_run hN hX rfl (by simp only [Params.network]; omega)
  exact ⟨Z, hrun, Network.encrypt_length (p.network_keepsLength P K T _) hZ,
    Network.encrypt_numerals (p.network_answersNumerals P K T _) hX hZ, hZ⟩

theorem Params.decrypt_run : ∃ Z, p.Run P.E K T Z X ∧ Z.length = X.length ∧ Numerals p.radix.toNat Z ∧
    (p.network P K T X.length).decrypt p.method X = .ok Z := by
  have hN := p.network_completes hP hu hK hT hn hf
  have hsplit := hf.split
  rw [← Params.splitAt_eq_leftLen] at hsplit
  obtain ⟨Z, hZ, hrun⟩ : ∃ Z, (p.network P K T X.length).decrypt p.method X = .ok Z ∧
      (Z.length = X.length → p.Run P.E K T Z X) := by
    simp only [Params.Run, ← Params.splitAt_eq_leftLen]
    rcases hu.1 with hm | hm
    · have heven := hf.2.1 hm
      simp only [Network.decrypt, hm, if_true]
      obtain ⟨Z, hZ, hrun⟩ := Network.oneDec_run hN (by simp only [Params.network]; omega) hX rfl
      exact ⟨Z, hZ, fun hlen => by rw [hlen]; exact hrun⟩
    · simp only [Network.decrypt, hm, OfNat.ofNat_ne_one, if_false]
      obtain ⟨Z, hZ, hrun⟩ := Network.twoDec_run hN hX rfl (by simp only [Params.network]; omega)
      exact ⟨Z, hZ, fun hlen => by rw [hlen]; exact hrun⟩
  have hlen := Network.decrypt_length (p.network_keepsLength P K T _) hZ
  exact ⟨Z, hrun hlen, hlen, Network.decrypt_numerals (p.network_answersNumerals P K T _) hX hZ, hZ⟩

end

/-! ## The checks of ENC and DEC (R204 to R206) -/

theorem checked_paramsOk (p : Params) : Checked p.usable (paramsOk p) () :=
  (checked_require _ _).cons <| (checked_require _ _).cons <| (checked_require _ _).cons <|
    (checked_require _ _).cons <| (checked_require _ _).cons <| (checked_require _ _).cons_of_ok fun hr =>
      .one (fun hff2 => by
        obtain ⟨hrf, hradices⟩ := Classical.not_imp.mp hff2
        rw [if_pos hrf]
        exact require_of_not (fun h => hradices ⟨h.1.2, h.2⟩) _ _) fun hff2 => by
        split
        · exact require_of ⟨⟨hr.1, (hff2 ‹_›).1⟩, (hff2 ‹_›).2⟩ _ _
        · rfl

theorem checked_roundsFloor (p : Params) (n : Nat) :
    Checked [⟨p.EnoughRounds n, .roundsFloor, 0⟩] (roundsFloor p.method p.rounds.toNat (p.leftLen n) n) () := by
  unfold Params.EnoughRounds roundsFloor
  split
  · exact checked_require _ _
  · exact checked_require _ _

/-- Items 2 to 9 of R205, as checks. -/
def Params.inputChecks (p : Params) (x : CipherInput) : List Check :=
  p.usable ++
    [keySized x.K.length, ⟨p.mintlen.toNat ≤ x.T.length ∧ x.T.length ≤ p.maxtlen.toNat, .tweakLen, 0⟩,
      ⟨(p.minlen.toNat ≤ x.X.length ∧ x.X.length ≤ p.maxlenP.toNat) ∧ 2 ≤ x.X.length, .inputLen, 0⟩,
      enoughEntropy p.radix.toNat x.X.length, numeralsIn p.radix.toNat x.X,
      ⟨1 ≤ p.leftLen x.X.length ∧ p.leftLen x.X.length ≤ x.X.length - 1, .paramInvalid, 5⟩,
      ⟨p.EnoughRounds x.X.length, .roundsFloor, 0⟩]

theorem Params.checked_precheck (p : Params) (x : CipherInput) : Checked (p.inputChecks x) (p.precheck x) () := by
  simp only [Params.precheck, Params.splitAt_eq_leftLen]
  exact (checked_paramsOk p).append <| (checked_require _ _).cons <| (checked_require _ _).cons <|
    (checked_require _ _).cons <| (checked_require _ _).cons <| (checked_numeralCheck _ _).cons <|
      (checked_require _ _).cons (checked_roundsFloor p x.X.length)

theorem State.cipherChecks_eq (s : State) (ra : Reg) : s.cipherChecks ra =
    s.presenceChecks ra ++ s.params.inputChecks ⟨s.bsVal .r0, s.bsVal .r1, s.nsVal ra⟩ := by
  simp only [State.cipherChecks, Params.inputChecks, State.length_bsVal, State.length_nsVal, List.append_assoc]

theorem State.checked_cipherInput (s : State) (ra : Reg) :
    Checked (s.presenceChecks ra) (s.cipherInput ra) ⟨s.bsVal .r0, s.bsVal .r1, s.nsVal ra⟩ :=
  (s.checked_srcBs .r0 _).cons <| (s.checked_srcBs .r1 _).cons (s.checked_srcNs ra _).map

/-! ## The cipher commands -/

/-- The end of a cipher command whose rounds complete (R63, R340). -/
theorem State.finishCipher_ok (s : State) (rd : Reg) (total : Nat) (Y : List Word) :
    s.finishCipher rd total (.ok (.ok Y)) = .next ((s.putNs rd Y).completedRounds total) := by
  rw [State.finishCipher, State.complete_eq_completedRounds]

/-- Command `i` enters ERROR at the first failing check of `cs`, and with all of them passed ends with what the `total`
rounds gave: `job`. -/
def ChecksThenRuns (i : Instr) (s : State) (rd : Reg) (total : Nat) (cs : List Check)
    (job : Except RoundError (List Word)) : Prop :=
  RaisesFirst i s cs ∧ (AllHold cs → exec i s = s.finishCipher rd total (.ok job))

theorem Checked.cipherCommand {i : Instr} {s : State} {rd : Reg} {total : Nat} {cs : List Check}
    {x : Except Raise (Except RoundError (List Word))} {job : Except RoundError (List Word)}
    (hi : exec i s = s.finishCipher rd total x) (hx : Checked cs x job) : ChecksThenRuns i s rd total cs job :=
  ⟨fun c hc => by rw [hi, hx.error c hc, State.finishCipher, State.enterError_eq_failed],
    fun h => by rw [hi, hx.ok h]⟩

/-- What the two ways out of the rounds make of the state (R213, R340). -/
theorem ChecksThenRuns.ends {i : Instr} {s : State} {rd : Reg} {total : Nat} {cs : List Check}
    {job : Except RoundError (List Word)} (h : ChecksThenRuns i s rd total cs job) :
    RaisesFirst i s cs ∧ (AllHold cs →
      (∀ Y, job = .ok Y → exec i s = .next ((s.putNs rd Y).completedRounds total)) ∧
      ∀ f, job = .error f → exec i s = .next (s.failedInRounds f.error.cause f.error.info total f.done)) := by
  refine ⟨h.1, fun hcs => ⟨?_, ?_⟩⟩
  · rintro Y rfl
    rw [h.2 hcs, State.finishCipher_ok]
  · rintro f rfl
    exact (h.2 hcs).trans (State.finishCipher_roundError ..)

section

variable (rd ra : Reg) (s : State)

theorem exec_enc : ChecksThenRuns (.enc rd ra) s rd s.params.rounds.toNat (s.cipherChecks ra)
    ((s.params.network s.provider (s.bsVal .r0) (s.bsVal .r1) (s.nsVal ra).length).encrypt s.params.method
      (s.nsVal ra)) := by
  rw [State.cipherChecks_eq]
  exact Checked.cipherCommand rfl <| (s.checked_cipherInput ra).append (s.params.checked_precheck _).map

theorem exec_dec : ChecksThenRuns (.dec rd ra) s rd s.params.rounds.toNat (s.cipherChecks ra)
    ((s.params.network s.provider (s.bsVal .r0) (s.bsVal .r1) (s.nsVal ra).length).decrypt s.params.method
      (s.nsVal ra)) := by
  rw [State.cipherChecks_eq]
  exact Checked.cipherCommand rfl <| (s.checked_cipherInput ra).append (s.params.checked_precheck _).map

end

/-! ## Commands that complete (R212) -/

/-- A cipher command that completes has read its operands, passed its checks and written what the rounds gave. -/
theorem State.finishCipher_done {s t : State} {rd ra : Reg} {total : Nat} {check : CipherInput → Except Raise Unit}
    {run : CipherInput → Except RoundError (List Word)}
    (h : s.finishCipher rd total (do let x ← s.cipherInput ra; check x; pure (run x)) = .next t)
    (hdone : t.phase = .done) :
    ∃ Y, check ⟨s.bsVal .r0, s.bsVal .r1, s.nsVal ra⟩ = .ok () ∧ run ⟨s.bsVal .r0, s.bsVal .r1, s.nsVal ra⟩ = .ok Y ∧
      (t.ns.get rd) = StrReg.ofList Y := by
  obtain ⟨e, -, rfl⟩ | ⟨f, -, rfl⟩ | ⟨Y, hjob, rfl⟩ := State.finishCipher_next_iff.mp h
  · exact nomatch hdone
  · exact nomatch hdone
  · simp only [except_bind_ok_iff, except_pure, Except.ok.injEq] at hjob
    obtain ⟨x, hx, u, hcheck, hrun⟩ := hjob
    obtain ⟨-, rfl⟩ := (s.checked_cipherInput ra).of_ok hx
    exact ⟨Y, hcheck, hrun, by rw [State.complete_ns, State.putNs_ns, Quad.get_set_same]⟩

theorem State.nsVal_of_ofList {s : State} {r : Reg} {Y : List Word} (h : s.ns.get r = StrReg.ofList Y) :
    s.nsVal r = Y := by
  rw [State.nsVal, h, StrReg.value_ofList]

/-- A cipher command that completes keeps the format, where its checks look at the numerals and its rounds keep it. -/
theorem State.finishCipher_format {s t : State} {rd ra : Reg} {total radix : Nat}
    {check : CipherInput → Except Raise Unit} {run : CipherInput → Except RoundError (List Word)}
    (h : s.finishCipher rd total (do let x ← s.cipherInput ra; check x; pure (run x)) = .next t)
    (hdone : t.phase = .done) (hcheck : ∀ x, check x = .ok () → Numerals radix x.X)
    (hrun : ∀ x Y, Numerals radix x.X → run x = .ok Y → Y.length = x.X.length ∧ Numerals radix Y) :
    (t.ns.get rd).present = true ∧ (t.ns.get rd).len = (s.ns.get ra).len ∧ Numerals radix (t.nsVal rd) := by
  obtain ⟨Y, hok, hY, hns⟩ := State.finishCipher_done h hdone
  obtain ⟨hlen, hnum⟩ := hrun _ Y (hcheck _ hok) hY
  rw [State.nsVal_of_ofList hns, hns, ← State.length_nsVal]
  exact ⟨rfl, hlen, hnum⟩

theorem Params.numerals_of_precheck {p : Params} {x : CipherInput} (h : p.precheck x = .ok ()) :
    Numerals p.radix.toNat x.X := by
  obtain ⟨hcs, -⟩ := (p.checked_precheck x).of_ok h
  obtain ⟨-, -, -, -, -, hnum, -⟩ := allHold_append.mp hcs
  exact hnum

theorem ff1Precheck_numerals {radix maxTlen : Nat} {x : CipherInput} (h : ff1Precheck radix maxTlen x = .ok ()) :
    Numerals radix x.X := by
  simp only [ff1Precheck, except_bind_ok_iff, numeralCheck_ok_iff] at h
  obtain ⟨-, -, -, -, -, -, -, -, -, -, hnum⟩ := h
  exact hnum

theorem ff2Precheck_numerals {radix tradix : Nat} {x : CipherInput} (h : ff2Precheck radix tradix x = .ok ()) :
    Numerals radix x.X := by
  simp only [ff2Precheck, except_bind_ok_iff, numeralCheck_ok_iff] at h
  obtain ⟨-, -, -, -, -, -, -, -, -, -, hnum⟩ := h
  exact hnum

/-- The checks of R205 look at the input's length and at its numerals' range. -/
theorem Params.precheck_of_same_format {p : Params} {K T : List Byte} {X Y : List Word}
    (h : p.precheck ⟨K, T, X⟩ = .ok ()) (hlen : Y.length = X.length) (hY : Numerals p.radix.toNat Y) :
    p.precheck ⟨K, T, Y⟩ = .ok () := by
  have hX := p.numerals_of_precheck h
  rw [← h]
  simp only [Params.precheck, hlen, numeralCheck_ok hX, numeralCheck_ok hY]

theorem State.provider_congr {s u : State} (h : u.cfg = s.cfg) : u.provider = s.provider := by
  simp only [State.provider, h]

/-! ## The statements -/

/-- Settles O36: the checks of R205 in a chain, then the rounds; where no round fails the network completes. -/
theorem encAndDecCheckThenRunTheRounds : Obligations.EncAndDecCheckThenRunTheRounds := by
  refine ⟨?_, fun rd ra s hP hT hlen h hf => ?_, fun p P K T X hP hu hK hT hn hX hf =>
    ⟨p.encrypt_run hP hu hK hT hn hf hX, p.decrypt_run hP hu hK hT hn hf hX⟩⟩
  · rintro rd ra s i job (⟨rfl, rfl⟩ | ⟨rfl, rfl⟩)
    · rw [← State.length_nsVal]
      exact (exec_enc rd ra s).ends
    · rw [← State.length_nsVal]
      exact (exec_dec rd ra s).ends
  · have hcs := h
    rw [State.cipherChecks_eq] at hcs
    obtain ⟨hu, hK, -, ⟨-, hn⟩, -, hnum, -⟩ := allHold_append.mp (allHold_append.mp hcs).2
    simp only [← State.length_nsVal, ← State.length_bsVal] at hT hlen hf ⊢
    obtain ⟨Z, hrun, hZlen, hZnum, hZ⟩ := s.params.encrypt_run hP hu hK hT ⟨hn, hlen⟩ hf hnum
    obtain ⟨W, hback, hWlen, hWnum, hW⟩ := s.params.decrypt_run hP hu hK hT ⟨hn, hlen⟩ hf hnum
    exact ⟨⟨Z, hrun, hZlen, hZnum, ((exec_enc rd ra s).ends.2 h).1 Z hZ⟩,
      W, hback, hWlen, hWnum, ((exec_dec rd ra s).ends.2 h).1 W hW⟩

/-- Settles O42: the ciphertext has the plaintext's format, so it passes the same checks, and the rounds are undone. -/
theorem decUndoesEnc : Obligations.DecUndoesEnc := by
  refine ⟨fun s t u d a e henc hdone hparams hcfg hns hK0 hK hT0 hT => ?_, fun p P K T X Y h => p.decrypt_encrypt h⟩
  obtain ⟨Y, hcheck, hrun, hY⟩ := State.finishCipher_done henc hdone
  rw [hY] at hns
  have hlen := Network.encrypt_length (s.params.network_keepsLength ..) hrun
  have hnum := Network.encrypt_numerals (s.params.network_answersNumerals ..)
    (s.params.numerals_of_precheck hcheck) hrun
  have hcs : AllHold (u.cipherChecks d) := by
    rw [State.cipherChecks_eq, hparams, hK, hT, State.nsVal_of_ofList hns]
    exact allHold_append.mpr ⟨⟨hK0, hT0, congrArg StrReg.present hns, trivial⟩,
      ((s.params.checked_precheck _).of_ok (s.params.precheck_of_same_format hcheck hlen hnum)).1⟩
  have hback := ((exec_dec e d u).ends.2 hcs).1 (s.nsVal a) (by
    rw [hparams, State.provider_congr hcfg, hK, hT, State.nsVal_of_ofList hns, hlen]
    exact s.params.decrypt_encrypt hrun)
  exact ⟨_, hback, rfl, State.nsVal_of_ofList (Quad.get_set_same ..)⟩

/-- Settles O43: each command checks its input's numerals, and its network keeps length and range. -/
theorem ciphersPreserveTheFormat : Obligations.CiphersPreserveTheFormat := by
  intro s t rd ra i hi hexec hdone
  simp only [List.mem_cons, List.not_mem_nil, or_false] at hi
  obtain rfl | rfl | rfl | rfl | rfl | rfl := hi
  · exact State.finishCipher_format hexec hdone (fun _ => Params.numerals_of_precheck) fun _ _ hX hY =>
      ⟨Network.encrypt_length (Params.network_keepsLength ..) hY,
        Network.encrypt_numerals (Params.network_answersNumerals ..) hX hY⟩
  · exact State.finishCipher_format hexec hdone (fun _ => Params.numerals_of_precheck) fun _ _ hX hY =>
      ⟨Network.decrypt_length (Params.network_keepsLength ..) hY,
        Network.decrypt_numerals (Params.network_answersNumerals ..) hX hY⟩
  · exact State.finishCipher_format hexec hdone (fun _ => ff1Precheck_numerals) fun _ _ hX hY =>
      ⟨Network.twoEnc_length (ff1Network_keepsLength ..) hY,
        Network.twoEnc_numerals (ff1Network_answersNumerals ..) hX hY⟩
  · exact State.finishCipher_format hexec hdone (fun _ => ff1Precheck_numerals) fun _ _ hX hY =>
      ⟨Network.twoDec_length (ff1Network_keepsLength ..) hY,
        Network.twoDec_numerals (ff1Network_answersNumerals ..) hX hY⟩
  · exact State.finishCipher_format hexec hdone (fun _ => ff2Precheck_numerals) fun _ _ hX hY =>
      ⟨Network.twoEnc_length (ff2Network_keepsLength ..) hY,
        Network.twoEnc_numerals (ff2Network_answersNumerals ..) hX hY⟩
  · exact State.finishCipher_format hexec hdone (fun _ => ff2Precheck_numerals) fun _ _ hX hY =>
      ⟨Network.twoDec_length (ff2Network_keepsLength ..) hY,
        Network.twoDec_numerals (ff2Network_answersNumerals ..) hX hY⟩

end Sys2Proof.Machine
end

section
/-!
SUPPORT. The proofs of the statements on FF1 (43). The round function makes all its checks before its first request, so
F1RND is a `Checked` command whose last check is that the provider answers (R98). FF1ENC and FF1DEC make the checks of
R240 and run the network that ENC and DEC run with the parameters of LDFF1 (R242): what is known of the generic rounds is
known of theirs. Where `P || Q` is too long the round function refuses every half alike, so it does in the first round
(R244).
-/

namespace Sys2Proof.Machine

/-! ## Checked computations, continued -/

section

variable {α : Type} {c : Check} {cs ds : List Check} {x : Except Raise α} {v : α}

/-- Checks whose errors are known, then others that are known to be made only where the first hold. -/
theorem Checked.guard (herror : ∀ c, FirstFailing cs c → x = .error ⟨c.cause, c.info⟩)
    (hx : AllHold cs → Checked ds x v) : Checked (cs ++ ds) x v where
  error c hc := by
    obtain hc | ⟨hcs, hc⟩ := firstFailing_append.mp hc
    · exact herror c hc
    · exact (hx hcs).error c hc
  ok h := by
    obtain ⟨hcs, hds⟩ := allHold_append.mp h
    exact (hx hcs).ok hds

/-- A first check that is known to pass need not be named. -/
theorem Checked.of_cons (hc : c.ok) (hx : Checked (c :: cs) x v) : Checked cs x v where
  error d hd := hx.error d (.inr ⟨hc, hd⟩)
  ok h := hx.ok ⟨hc, h⟩

end

/-! ## LDFF1 (R238) -/

theorem exec_ldff1 (s : State) : ChecksThenCompletes .ldff1 s
    [radixIn s.arg0.toNat, ⟨s.arg1.toNat ≤ 4096, .argRange, 0⟩] { s with params := ff1Params s.arg0 s.arg1 } :=
  Checked.command rfl <| (checked_require _ _).cons (checked_require _ _).map

/-! ## The round function (R231 to R235) -/

section

variable {P : Provider} {radix n i b : Nat} {K T : List Byte} {B : List Word}

/-- Steps (a) and (b) of R233: the half as a number of `b` bytes. -/
theorem checked_ff1Half (hr : 2 ≤ radix ∧ radix ≤ 65536) (hb : 1 ≤ b ∧ b ≤ 4096) :
    Checked [lengthIn B.length, numeralsIn radix B, ⟨numeralSum radix B < 256 ^ b, .valueRange, 0⟩]
      (numRadix B radix >>= fun x => bytestring x b) (bytesOf b (numeralSum radix B)) :=
  .of_cons (c := radixIn radix) hr <| (checked_numRadix radix B).append <|
    .one (bytestring_nat_error hb) (bytestring_nat_ok hb)

theorem ff1Q_error {e : Raise} (h : (numRadix B radix >>= fun x => bytestring x b) = .error e) :
    ff1Q radix b T i B = .error e := by
  obtain hx | ⟨x, hx, hbytes⟩ := except_bind_error_iff.mp h
  · rw [ff1Q, hx, except_error_bind]
  · rw [ff1Q, hx, except_ok_bind, hbytes, except_error_bind]

/-- `F_FF1` (R235), its lengths in range: the checks of R233 on the half, the length of `P || Q` (R234, R244), then the
requests. -/
theorem checked_fFF1 (hr : 2 ≤ radix ∧ radix ≤ 65536) (hK : K.length = 16 ∨ K.length = 24 ∨ K.length = 32)
    (hn : 2 ≤ n ∧ n ≤ 4096) (hi : i ≤ 255) (hT : T.length ≤ 4096) :
    Checked [lengthIn B.length, numeralsIn radix B, ⟨numeralSum radix B < 256 ^ ff1Bytes radix n, .valueRange, 0⟩,
        ⟨T.length + ff1Bytes radix n ≤ 4079, .operandLen, 0⟩,
        answersAll P (ff1Requests P.E radix K n T i (numeralSum radix B))]
      (fFF1 P radix K n T i B)
      (numeralsOf radix (halfLen (n / 2) n i)
        (ff1Y P.E radix K n T i (numeralSum radix B) % radix ^ halfLen (n / 2) n i)) := by
  refine .guard (cs := [_, _, _]) (ds := [_, _]) (fun c hc => ?_) fun ⟨hl, hB, hx, _⟩ => ?_
  · have hhalf := (checked_ff1Half hr ⟨ff1Bytes_pos hr.1 hn.1, ff1Bytes_le hr.2 hn.2⟩).error c hc
    rw [fFF1, ff1P_ok hr.2 hn.2 hT, except_ok_bind, ff1B_eq, ff1Q_error hhalf, except_error_bind]
  · have heq := fFF1_eq (P := P) hr hK hn hi hT hl hB hx
    refine .guard (cs := [_]) (ds := [_]) (fun c hc => ?_) fun ⟨hfit, _⟩ => ?_
    · obtain ⟨hfit, rfl⟩ | ⟨-, hc⟩ := hc
      · exact heq.trans (if_neg hfit)
      · exact hc.elim
    · exact checked_of_requests (heq.trans (if_pos hfit))

end

/-! ## F1RND (R236) -/

theorem exec_f1rnd (rd ra : Reg) (s : State) (hT : (s.bs.get .r1).len ≤ 4096) :
    ChecksThenCompletes (.f1rnd rd ra) s
      (s.f1Checks ra ++ [answersAll s.provider (ff1Requests s.provider.E s.params.radix.toNat (s.bsVal .r0)
        s.arg0.toNat (s.bsVal .r1) s.arg1.toNat (numeralSum s.params.radix.toNat (s.nsVal ra)))])
      (s.putNs rd (numeralsOf s.params.radix.toNat (halfLen (s.arg0.toNat / 2) s.arg0.toNat s.arg1.toNat)
        (ff1Y s.provider.E s.params.radix.toNat (s.bsVal .r0) s.arg0.toNat (s.bsVal .r1) s.arg1.toNat
          (numeralSum s.params.radix.toNat (s.nsVal ra)) %
            s.params.radix.toNat ^ halfLen (s.arg0.toNat / 2) s.arg0.toNat s.arg1.toNat))) := by
  rw [State.f1Checks, List.append_assoc]
  simp only [← State.length_bsVal, ← State.length_nsVal] at hT ⊢
  exact Checked.command rfl <| (s.checked_roundInput ra).append <| Checked.map <|
    (checked_require _ _).cons_of_ok fun hr => (checked_require _ _).cons_of_ok fun hK =>
      (checked_require _ _).cons_of_ok fun hargs => checked_fFF1 hr hK hargs.1 hargs.2 hT

/-! ## The parameters that LDFF1 loads (R237, R238) -/

section

variable (radix maxTlen : Word)

theorem ff1Params_method : (ff1Params radix maxTlen).method = 2 :=
  (by decide : ((0x56 : Word).extractLsb' 0 2).toNat = 2)

theorem ff1Params_split : (ff1Params radix maxTlen).split = 1 :=
  (by decide : ((0x56 : Word).extractLsb' 4 2).toNat = 1)

theorem ff1Params_rf : (ff1Params radix maxTlen).rf = 1 :=
  (by decide : ((0x56 : Word).extractLsb' 6 2).toNat = 1)

theorem ff1Params_rounds : (ff1Params radix maxTlen).rounds.toNat = 10 := rfl

theorem ff1Params_leftLen (n : Nat) : (ff1Params radix maxTlen).leftLen n = n / 2 :=
  if_pos (ff1Params_split radix maxTlen)

theorem ff1Params_enoughRounds (n : Nat) : (ff1Params radix maxTlen).EnoughRounds n := by
  rw [Params.EnoughRounds, if_pos (.inl (ff1Params_method radix maxTlen)), ff1Params_rounds]
  decide

/-- Of `params_ok` (R204) only the radix check can fail. -/
theorem checked_paramsOk_ff1Params : Checked [radixIn radix.toNat] (paramsOk (ff1Params radix maxTlen)) () :=
  (checked_paramsOk _).of_cons (Or.inr (ff1Params_method ..)) |>.of_cons (Or.inl (ff1Params_arith ..))
    |>.of_cons (Or.inl (ff1Params_rf ..)) |>.of_cons (Or.inl (ff1Params_split ..)) |>.of_cons (by decide : 10 ≤ 255)
    |>.of_append (cs := [_]) (ds := [_])
      ⟨fun hrf => absurd ((ff1Params_rf radix maxTlen).symm.trans hrf) (by decide), trivial⟩

theorem ff1Params_usable (hr : (radixIn radix.toNat).ok) : AllHold (ff1Params radix maxTlen).usable :=
  ((checked_paramsOk _).of_ok ((checked_paramsOk_ff1Params radix maxTlen).ok ⟨hr, trivial⟩)).1

/-- Of the conditions under which no round fails (R213) only the length of `P || Q` is left (R244). -/
theorem ff1Params_roundsFit {n : Nat} {T : List Byte} (hfit : T.length + ff1Bytes radix.toNat n ≤ 4079) :
    (ff1Params radix maxTlen).RoundsFit n T := by
  simp only [Params.RoundsFit, ff1Params_leftLen, ff1Params_rf, ff1Params_method]
  exact ⟨rfl, nofun, fun _ => hfit, nofun, nofun⟩

variable (P : Provider) (K T : List Byte) (n : Nat)

/-- The network of the direct entry points is the generic one (R242). -/
theorem ff1Params_network : (ff1Params radix maxTlen).network P K T n = ff1Network P radix.toNat K T n := by
  simp only [Params.network, Params.splitAt_eq_leftLen, ff1Params_leftLen, ff1Params_rounds, ff1Params_arith,
    ff1Params_rf]
  rfl

variable (X : List Word)

theorem ff1Params_encrypt :
    ((ff1Params radix maxTlen).network P K T n).encrypt (ff1Params radix maxTlen).method X =
      (ff1Network P radix.toNat K T n).twoEnc X := by
  rw [ff1Params_network, ff1Params_method]
  rfl

theorem ff1Params_decrypt :
    ((ff1Params radix maxTlen).network P K T n).decrypt (ff1Params radix maxTlen).method X =
      (ff1Network P radix.toNat K T n).twoDec X := by
  rw [ff1Params_network, ff1Params_method]
  rfl

/-- The generic rounds with these parameters, written out (R239). -/
theorem ff1Params_run (E : BlockCipher) (Z : List Word) : (ff1Params radix maxTlen).Run E K T X Z =
    FeistelRun (BlockwiseRound radix.toNat fun i x => ff1Y E radix.toNat K X.length T i x) (X.length / 2) 10 X Z := by
  have hvalue : (ff1Params radix maxTlen).roundValue E K X.length T =
      fun i B => ff1Y E radix.toNat K X.length T i (numeralSum radix.toNat B) := by
    funext i B
    exact if_pos (ff1Params_rf radix maxTlen)
  simp only [Params.Run, ff1Params_method, OfNat.ofNat_ne_one, if_false, ff1Params_leftLen, ff1Params_rounds, hvalue]
  rw [Params.round_of_arith_one (radix := radix) (ff1Params_arith ..) rfl]

end

/-! ## The checks of FF1ENC and FF1DEC (R240, R242) -/

/-- The checks of R240 after presence. -/
def ff1InputChecks (radix maxTlen : Nat) (x : CipherInput) : List Check :=
  [radixIn radix, keySized x.K.length, ⟨x.T.length ≤ maxTlen, .tweakLen, 0⟩, ⟨2 ≤ x.X.length, .inputLen, 0⟩,
    enoughEntropy radix x.X.length, numeralsIn radix x.X]

theorem checked_ff1Precheck (radix maxTlen : Nat) (x : CipherInput) :
    Checked (ff1InputChecks radix maxTlen x) (ff1Precheck radix maxTlen x) () :=
  (checked_require _ _).cons <| (checked_require _ _).cons <| (checked_require _ _).cons <|
    (checked_require _ _).cons <| (checked_require _ _).cons (checked_numeralCheck _ _)

theorem State.ff1CipherChecks_eq (s : State) (ra : Reg) : s.ff1CipherChecks ra =
    s.presenceChecks ra ++
      ff1InputChecks s.params.radix.toNat s.params.maxtlen.toNat ⟨s.bsVal .r0, s.bsVal .r1, s.nsVal ra⟩ := by
  simp only [State.ff1CipherChecks, ff1InputChecks, State.length_bsVal, State.length_nsVal]

/-- What the checks of R240 say of the radix and the operands. -/
theorem State.ff1CipherChecks_operands {s : State} {ra : Reg} (h : AllHold (s.ff1CipherChecks ra)) :
    (2 ≤ s.params.radix.toNat ∧ s.params.radix.toNat ≤ 65536) ∧
      ((s.bsVal .r0).length = 16 ∨ (s.bsVal .r0).length = 24 ∨ (s.bsVal .r0).length = 32) ∧
      2 ≤ (s.nsVal ra).length ∧ Numerals s.params.radix.toNat (s.nsVal ra) := by
  rw [State.ff1CipherChecks_eq] at h
  obtain ⟨hr, hK, -, hn, -, hnum, -⟩ := (allHold_append.mp h).2
  exact ⟨hr, hK, hn, hnum⟩

theorem checked_require_of_iff {p q : Prop} {inst : Decidable q} (h : p ↔ q) (cause : Cause) (info : Nat) :
    Checked [⟨p, cause, info⟩] (require q cause info) () :=
  .one (fun hp => require_of_not (mt h.mpr hp) cause info) fun hp => require_of (h.mp hp) cause info

/-- Items 2 to 9 of R205 with these parameters: those that can fail are the checks of R240 (R242). -/
theorem checked_precheck_ff1Params (radix maxTlen : Word) {x : CipherInput} (hX : x.X.length ≤ 4096) :
    Checked (ff1InputChecks radix.toNat maxTlen.toNat x) ((ff1Params radix maxTlen).precheck x) () := by
  simp only [Params.precheck, Params.splitAt_eq_leftLen]
  refine (checked_paramsOk_ff1Params radix maxTlen).cons <| (checked_require _ _).cons <|
    (checked_require_of_iff ?_ _ _).cons <| (checked_require_of_iff ?_ _ _).cons_of_ok fun hn =>
      (checked_require _ _).cons <| (checked_numeralCheck _ _).bind_ok fun _ => ?_
  · exact ⟨fun hT => ⟨Nat.zero_le _, hT⟩, And.right⟩
  · exact ⟨fun hn => ⟨⟨hn, hX⟩, hn⟩, And.right⟩
  · rw [splitCheck, ff1Params_leftLen, require_of (by omega), except_ok_bind, ← ff1Params_leftLen radix maxTlen]
    exact (checked_roundsFloor _ _).ok ⟨ff1Params_enoughRounds .., trivial⟩

/-! ## The rounds (R239, R244) -/

section

variable {N : Network} {X : List Word} {e : Raise}

theorem Network.twoEnc_first_round_error (hr : 0 < N.r) (h : N.F 0 (X.drop N.l) = .error e) :
    N.twoEnc X = .error ⟨0, e⟩ := by
  rw [Network.twoEnc, iterate_error_of_chain hr 0 (g := fun _ => (X.take N.l, X.drop N.l)) (e := e) nofun
    (by simp only [Network.twoEncRound, Nat.add_zero, h, except_error_bind]), except_error_bind]

theorem Network.twoDec_first_round_error (hr : 0 < N.r) (h : N.F (N.r - 1) (X.take N.decCut) = .error e) :
    N.twoDec X = .error ⟨0, e⟩ := by
  rw [Network.twoDec, iterate_error_of_chain hr 0 (g := fun _ => (X.take N.decCut, X.drop N.decCut)) (e := e)
    nofun
    (by simp only [Network.twoDecRound, Nat.add_zero, Nat.sub_zero, h, except_error_bind]), except_error_bind]

end

section

variable {P : Provider} {radix : Word} {K T : List Byte} {X : List Word}
  (hr : 2 ≤ radix.toNat ∧ radix.toNat ≤ 65536) (hK : K.length = 16 ∨ K.length = 24 ∨ K.length = 32)
  (hT : T.length ≤ 4096) (hn : 2 ≤ X.length ∧ X.length ≤ 4096) (hX : Numerals radix.toNat X)

include hr hK hT hn hX

/-- With a provider that answers, and `P || Q` in 4096 bytes, the ten rounds complete. -/
theorem ff1Network_run (hP : ∀ q, P.fails q = false) (hfit : T.length + ff1Bytes radix.toNat X.length ≤ 4079) :
    (∃ Z, FeistelRun (BlockwiseRound radix.toNat fun i x => ff1Y P.E radix.toNat K X.length T i x) (X.length / 2) 10
        X Z ∧ Z.length = X.length ∧ Numerals radix.toNat Z ∧
        (ff1Network P radix.toNat K T X.length).twoEnc X = .ok Z) ∧
      ∃ Z, FeistelRun (BlockwiseRound radix.toNat fun i x => ff1Y P.E radix.toNat K X.length T i x) (X.length / 2) 10
        Z X ∧ Z.length = X.length ∧ Numerals radix.toNat Z ∧
        (ff1Network P radix.toNat K T X.length).twoDec X = .ok Z := by
  have hu := ff1Params_usable radix 0 hr
  have hf := ff1Params_roundsFit radix 0 hfit
  obtain ⟨Z, hrun, hlen, hnum, hZ⟩ := Params.encrypt_run hP hu hK hT hn hf hX
  obtain ⟨W, hback, hlen', hnum', hW⟩ := Params.decrypt_run hP hu hK hT hn hf hX
  rw [ff1Params_run] at hrun hback
  rw [ff1Params_encrypt] at hZ
  rw [ff1Params_decrypt] at hW
  rw [hlen'] at hback
  exact ⟨⟨Z, hrun, hlen, hnum, hZ⟩, W, hback, hlen', hnum', hW⟩

/-- Where `P || Q` exceeds 4096 bytes the round function refuses every half, so it does in the round that comes first:
round 0 encrypting, round 9 decrypting. -/
theorem ff1Network_refuses (hlong : 4079 < T.length + ff1Bytes radix.toNat X.length) :
    (ff1Network P radix.toNat K T X.length).twoEnc X = .error ⟨0, ⟨.operandLen, 0⟩⟩ ∧
      (ff1Network P radix.toNat K T X.length).twoDec X = .error ⟨0, ⟨.operandLen, 0⟩⟩ := by
  have hround : ∀ i B, i ≤ 255 → IsHalf radix.toNat (X.length / 2) X.length (i + 1) B →
      fFF1 P radix.toNat K X.length T i B = .error ⟨.operandLen, 0⟩ := fun i B hi hB => by
    obtain ⟨hpos, hle⟩ := hB.length_bounds hn.1 (.inl rfl)
    have hx := lt_ff1Bytes (hB.numeralSum_lt hr.1 hn.1 (.inl rfl)).1
    exact (fFF1_eq hr hK hn hi hT ⟨hpos, by omega⟩ hB.2 hx).trans (if_neg hlong.not_ge)
  have hcut : X.length / 2 ≤ X.length := Nat.div_le_self ..
  exact ⟨Network.twoEnc_first_round_error (by decide : 0 < 10)
      (hround 0 _ (by decide) (isHalf_cut 0 hX rfl hcut).2),
    Network.twoDec_first_round_error (by decide : 0 < 10)
      (hround 9 _ (by decide) (isHalf_cut 10 hX rfl hcut).1)⟩

end

/-! ## FF1ENC and FF1DEC (R240, R241) -/

section

variable (rd ra : Reg) (s : State)

theorem exec_ff1enc : ChecksThenRuns (.ff1enc rd ra) s rd 10 (s.ff1CipherChecks ra)
    ((ff1Network s.provider s.params.radix.toNat (s.bsVal .r0) (s.bsVal .r1) (s.nsVal ra).length).twoEnc
      (s.nsVal ra)) := by
  rw [State.ff1CipherChecks_eq]
  exact Checked.cipherCommand rfl <| (s.checked_cipherInput ra).append (checked_ff1Precheck ..).map

theorem exec_ff1dec : ChecksThenRuns (.ff1dec rd ra) s rd 10 (s.ff1CipherChecks ra)
    ((ff1Network s.provider s.params.radix.toNat (s.bsVal .r0) (s.bsVal .r1) (s.nsVal ra).length).twoDec
      (s.nsVal ra)) := by
  rw [State.ff1CipherChecks_eq]
  exact Checked.cipherCommand rfl <| (s.checked_cipherInput ra).append (checked_ff1Precheck ..).map

end

/-! ## The direct and the generic entry points (R242) -/

/-- The end of a cipher command does not read the parameter registers, and keeps them. -/
theorem State.finishCipher_withParams (s : State) (p : Params) (rd : Reg) (total : Nat)
    (job : Except Raise (Except RoundError (List Word))) :
    ∃ t, s.finishCipher rd total job = .next t ∧
      State.finishCipher { s with params := p } rd total job = .next { t with params := p } := by
  rcases job with e | (f | Y)
  · exact ⟨_, rfl, rfl⟩
  · exact ⟨_, rfl, rfl⟩
  · exact ⟨_, rfl, rfl⟩

/-- A direct command `i` and a generic command `j` with the FF1 parameters `p` end alike: the first makes the checks of
R240, the second those of R205, and their rounds are the same. -/
theorem ff1_direct_eq_generic {i j : Instr} {rd ra : Reg} {s : State}
    {run run' : CipherInput → Except RoundError (List Word)} {p : Params}
    (hp : p = ff1Params s.params.radix s.params.maxtlen) (hX : (s.ns.get ra).len ≤ 4096) (hrun : ∀ x, run' x = run x)
    (hi : exec i s = s.finishCipher rd 10 (do
      let x ← s.cipherInput ra
      ff1Precheck s.params.radix.toNat s.params.maxtlen.toNat x
      pure (run x)))
    (hj : exec j { s with params := p } = State.finishCipher { s with params := p } rd 10 (do
      let x ← s.cipherInput ra
      p.precheck x
      pure (run' x))) :
    ∃ t, exec i s = .next t ∧ exec j { s with params := p } = .next { t with params := p } := by
  have hX' : (s.nsVal ra).length ≤ 4096 := s.length_nsVal ra ▸ hX
  have hjob : (s.cipherInput ra >>= fun x => p.precheck x >>= fun _ => pure (run' x)) =
      (s.cipherInput ra >>= fun x =>
        ff1Precheck s.params.radix.toNat s.params.maxtlen.toNat x >>= fun _ => pure (run x)) := by
    rw [funext hrun]
    exact Checked.unique ((s.checked_cipherInput ra).append (hp ▸ checked_precheck_ff1Params _ _ hX').map)
      ((s.checked_cipherInput ra).append (checked_ff1Precheck ..).map)
  rw [hi, hj, hjob]
  exact s.finishCipher_withParams p rd 10 _

/-! ## The statements -/

/-- Settles O31, by the two checks of LDFF1. -/
theorem ldff1LoadsTheFf1Parameters : Obligations.Ldff1LoadsTheFf1Parameters := exec_ldff1

/-- Settles O27: the remainder modulo `radix^m` is written in full by the `m` numerals of the result. -/
theorem f1rndComputesTheFf1Round : Obligations.F1rndComputesTheFf1Round := by
  intro rd ra s hT
  obtain ⟨hraises, hcompletes⟩ := (exec_f1rnd rd ra s hT).of_answers
  refine ⟨hraises, fun h hP => ⟨_, ?_, hcompletes h hP⟩⟩
  obtain ⟨-, -, -, hr, -⟩ := h
  exact isNumerals_mod hr _ _

/-- Settles O37: the checks of R240 in a chain; then all ten rounds complete, or the first of them refuses the length. -/
theorem ff1CommandsRunTenRounds : Obligations.Ff1CommandsRunTenRounds := by
  intro rd ra s hT hX
  have henc := (exec_ff1enc rd ra s).ends
  have hdec := (exec_ff1dec rd ra s).ends
  simp only [← State.length_bsVal, ← State.length_nsVal] at hT hX ⊢
  refine ⟨⟨henc.1, hdec.1⟩, fun h hfit hP => ?_, fun h hlong => ?_⟩
  · obtain ⟨hr, hK, hn, hnum⟩ := State.ff1CipherChecks_operands h
    obtain ⟨⟨Z, hrun, hlen, hZnum, hZ⟩, W, hback, hlen', hWnum, hW⟩ :=
      ff1Network_run hr hK hT ⟨hn, hX⟩ hnum hP hfit
    exact ⟨⟨Z, hrun, hlen, hZnum, (henc.2 h).1 Z hZ⟩, W, hback, hlen', hWnum, (hdec.2 h).1 W hW⟩
  · obtain ⟨hr, hK, hn, hnum⟩ := State.ff1CipherChecks_operands h
    obtain ⟨hE, hD⟩ := ff1Network_refuses (P := s.provider) hr hK hT ⟨hn, hX⟩ hnum hlong
    exact ⟨(henc.2 h).2 _ hE, (hdec.2 h).2 _ hD⟩

/-- Settles O40: with the FF1 parameters the generic commands make the checks and run the network of the direct ones. -/
theorem ff1DirectEqualsGeneric : Obligations.Ff1DirectEqualsGeneric := fun _ _ s hX =>
  ⟨ff1_direct_eq_generic rfl hX
      (fun x => ff1Params_encrypt s.params.radix s.params.maxtlen s.provider x.K x.T x.X.length x.X) rfl rfl,
    ff1_direct_eq_generic rfl hX
      (fun x => ff1Params_decrypt s.params.radix s.params.maxtlen s.provider x.K x.T x.X.length x.X) rfl rfl⟩

end Sys2Proof.Machine
end

section
/-!
SUPPORT. The proofs of the statements on FF2 (44). The round function makes its checks in two parts, those of `P`
before the request for `J` and those on the half after it (R252 to R255), so F2RND is a `Checked` command with that
request among its checks. FF2ENC and FF2DEC make the checks of R260, which are those that can fail of R205 with the
parameters of LDFF2, and run the network that ENC and DEC run with these (R263): what is known of the generic rounds
is known of theirs. `P` is the same in every round, so where it cannot be formed the first round fails (R262).
-/

namespace Sys2Proof.Machine

/-! ## Checked computations, continued -/

/-- What succeeds at once makes no check. -/
theorem Checked.after_ok {α β : Type} {cs : List Check} {x : Except Raise α} {v : α} {f : α → Except Raise β} {w : β}
    (hx : x = .ok v) (hf : Checked cs (f v) w) : Checked cs (x >>= f) w := by
  rwa [hx, except_ok_bind]

theorem checked_bytestring_nat {m : Nat} (hm : 1 ≤ m ∧ m ≤ 4096) (x : Nat) :
    Checked [⟨x < 256 ^ m, .valueRange, 0⟩] (bytestring x m) (bytesOf m x) :=
  .one (bytestring_nat_error hm) (bytestring_nat_ok hm)

theorem checked_oneByte (x : Nat) : Checked [⟨x < 256, .valueRange, 0⟩] (bytestring x 1) (bytesOf 1 x) :=
  checked_bytestring_nat (m := 1) (by decide) x

/-- The provider answers the request `q`. -/
def answers (P : Provider) (q : AesRequest) : Check := ⟨P.fails q = false, .aesFail, 0⟩

theorem checked_ciph_block {P : Provider} {K X : List Byte}
    (hK : K.length = 16 ∨ K.length = 24 ∨ K.length = 32) (hX : X.length = 16) :
    Checked [answers P ⟨.ecb, K, X⟩] (ciph P K X) (encryptBlock P.E K X) :=
  .one (fun hfail => (ciph_block_eq hK hX).trans (if_pos (Bool.eq_true_of_not_eq_false hfail)))
    fun hok => (ciph_block_eq hK hX).trans (if_neg (ne_true_of_eq_false hok))

/-! ## The round function (R251 to R255) -/

theorem checked_tweakDigitCheck (tradix : Nat) (T : List Byte) :
    Checked [tweakDigitsIn tradix T] (tweakDigitCheck T tradix) () :=
  .one tweakDigitCheck_error tweakDigitCheck_ok

/-- The checks of R252 on the operands of `P`, in its order: the three one-byte fields, then the tweak's. -/
def ff2FieldChecks (radix tradix n : Nat) (T : List Byte) : List Check :=
  [⟨radix < 256, .valueRange, 0⟩, ⟨T.length < 256, .valueRange, 0⟩, ⟨n < 256, .valueRange, 0⟩, tweakDigitsIn tradix T,
    ⟨digitSum tradix (T.map BitVec.toNat) < 256 ^ 13, .valueRange, 0⟩]

section

variable {P : Provider} {radix tradix n i : Nat} {K T : List Byte} {B : List Word} (htr : 2 ≤ tradix ∧ tradix ≤ 256)

include htr

theorem checked_numTweak (hT : 1 ≤ T.length ∧ T.length ≤ 4096) :
    Checked [tweakDigitsIn tradix T] (numTweak T tradix) (digitSum tradix (T.map BitVec.toNat)) := by
  rw [← valueOf_eq_digitSum]
  exact .after_ok (radixCheck_ok ⟨htr.1, htr.2.trans (by decide)⟩) <| .after_ok (require_of hT _ _)
    (checked_tweakDigitCheck tradix T).map

/-- The empty tweak's field is zero bytes, which is its value in 13 bytes: its two checks cannot fail. -/
theorem checked_ff2TweakField (hT : T.length < 256) :
    Checked [tweakDigitsIn tradix T, ⟨digitSum tradix (T.map BitVec.toNat) < 256 ^ 13, .valueRange, 0⟩]
      (ff2TweakField tradix T) (bytesOf 13 (digitSum tradix (T.map BitVec.toNat))) := by
  rw [ff2TweakField]
  split
  · obtain rfl : T = [] := List.eq_nil_of_length_eq_zero ‹_›
    have hzero : digitSum tradix (([] : List Byte).map BitVec.toNat) = 0 := rfl
    rw [hzero]
    refine ⟨?_, fun _ => congrArg Except.ok (by decide)⟩
    rintro c (⟨hdigits, -⟩ | ⟨-, ⟨hvalue, -⟩ | ⟨-, hc⟩⟩)
    · exact absurd nofun hdigits
    · exact absurd (by decide : 0 < 256 ^ 13) hvalue
    · exact hc.elim
  · exact (checked_numTweak htr (by omega)).cons (checked_bytestring_nat (by decide) _)

theorem checked_ff2P : Checked (ff2FieldChecks radix tradix n T) (ff2P radix tradix n T) (ff2Header radix tradix n T) :=
  (checked_oneByte _).cons <| (checked_oneByte _).cons_of_ok fun hT => (checked_oneByte _).cons
    (checked_ff2TweakField htr hT).map

/-- `F_FF2` (R255): the checks of `P`, the request for `J`, the checks on the half, the round's request. -/
theorem checked_fFF2 (hr : 2 ≤ radix ∧ radix ≤ 256) (hK : K.length = 16 ∨ K.length = 24 ∨ K.length = 32)
    (hn : 2 ≤ n ∧ n ≤ 4096) (hi : i ≤ 255) :
    Checked (ff2FieldChecks radix tradix n T ++ answers P ⟨.ecb, K, ff2Header radix tradix n T⟩ ::
        [lengthIn B.length, numeralsIn radix B, ⟨numeralSum radix B < 256 ^ 15, .valueRange, 0⟩,
          answers P ⟨.ecb, encryptBlock P.E K (ff2Header radix tradix n T),
            bytesOf 1 i ++ bytesOf 15 (numeralSum radix B)⟩])
      (fFF2 P radix tradix K n T i B)
      (numeralsOf radix (halfLen (n / 2) n i)
        (ff2Y P.E radix tradix K n T i (numeralSum radix B) % radix ^ halfLen (n / 2) n i)) := by
  have hr' : 2 ≤ radix ∧ radix ≤ 65536 := by omega
  have hm : 1 ≤ halfLen (n / 2) n i ∧ halfLen (n / 2) n i ≤ 4096 := by unfold halfLen; split <;> omega
  refine (checked_ff2P htr).append <| (checked_ciph_block hK (length_ff2Header ..)).cons <|
    ((checked_numRadix radix B).of_cons hr').append (ds := [_, _]) <|
      (checked_bytestring_nat (by decide) _).cons <| .after_ok (bytestring_nat_ok (by decide) (by omega)) <|
        (checked_ciph_block (.inl (length_encryptBlock ..)) (by simp)).bind_ok fun _ => ?_
  rw [num_ok (by simp), except_ok_bind, strRadix_ok hr' hm (Int.natCast_nonneg _), Int.toNat_natCast, ff2Y]

end

/-! ## F2RND (R256) -/

theorem exec_f2rnd (rd ra : Reg) (s : State) :
    ChecksThenCompletes (.f2rnd rd ra) s
      ((s.f2HeaderChecks ra ++ s.f2SubkeyAnswered :: s.f2HalfChecks ra) ++
        [answers s.provider ⟨.ecb, encryptBlock s.provider.E (s.bsVal .r0)
            (ff2Header s.params.radix.toNat s.params.tweakRadix.toNat s.arg0.toNat (s.bsVal .r1)),
          bytesOf 1 s.arg1.toNat ++ bytesOf 15 (numeralSum s.params.radix.toNat (s.nsVal ra))⟩])
      (s.putNs rd (numeralsOf s.params.radix.toNat (halfLen (s.arg0.toNat / 2) s.arg0.toNat s.arg1.toNat)
        (ff2Y s.provider.E s.params.radix.toNat s.params.tweakRadix.toNat (s.bsVal .r0) s.arg0.toNat (s.bsVal .r1)
          s.arg1.toNat (numeralSum s.params.radix.toNat (s.nsVal ra)) %
            s.params.radix.toNat ^ halfLen (s.arg0.toNat / 2) s.arg0.toNat s.arg1.toNat))) := by
  rw [State.f2HeaderChecks, State.f2HalfChecks, List.append_assoc, List.append_assoc]
  simp only [← State.length_bsVal, ← State.length_nsVal]
  exact Checked.command rfl <| (s.checked_roundInput ra).append <| Checked.map <|
    (checked_require _ _).cons_of_ok fun hr => (checked_require _ _).cons_of_ok fun hK =>
      (checked_require _ _).cons_of_ok fun hargs => checked_fFF2 hr.2 hr.1 hK hargs.1 hargs.2

/-! ## The parameters that LDFF2 loads (R257, R258) -/

theorem ff2LongestTweak_lt {tradix : Nat} (hr : 2 ≤ tradix) : ff2LongestTweak tradix < 256 := by
  have hlog := log_two_pow_le hr 104
  unfold ff2LongestTweak
  omega

theorem toNat_ff2Maxlen {radix : Nat} (hr : 2 ≤ radix ∧ radix ≤ 256) :
    (BitVec.ofNat 32 (ff2Maxlen radix)).toNat = ff2LongestInput radix := by
  have hlt := (ff2LongestInput_fits hr le_rfl).1
  rw [ff2Maxlen_eq hr.1, BitVec.toNat_ofNat, Nat.mod_eq_of_lt (by omega)]

theorem toNat_ff2MaxTlen {tradix : Nat} (hr : 2 ≤ tradix) :
    (BitVec.ofNat 32 (ff2MaxTlen tradix)).toNat = ff2LongestTweak tradix := by
  have hlt := ff2LongestTweak_lt hr
  rw [ff2MaxTlen_eq hr, BitVec.toNat_ofNat, Nat.mod_eq_of_lt (by omega)]

theorem exec_ldff2 (s : State) : ChecksThenCompletes .ldff2 s
    [⟨2 ≤ s.arg0.toNat ∧ s.arg0.toNat ≤ 256, .radixRange, 0⟩, ⟨2 ≤ s.arg1.toNat ∧ s.arg1.toNat ≤ 256, .radixRange, 0⟩]
    { s with params := ff2Params s.arg0 s.arg1 } :=
  Checked.command rfl <| (checked_require _ _).cons (checked_require _ _).map

section

variable (radix tradix : Word)

theorem ff2Params_method : (ff2Params radix tradix).method = 2 :=
  (by decide : ((0x96 : Word).extractLsb' 0 2).toNat = 2)

theorem ff2Params_split : (ff2Params radix tradix).split = 1 :=
  (by decide : ((0x96 : Word).extractLsb' 4 2).toNat = 1)

theorem ff2Params_rf : (ff2Params radix tradix).rf = 2 :=
  (by decide : ((0x96 : Word).extractLsb' 6 2).toNat = 2)

theorem ff2Params_rounds : (ff2Params radix tradix).rounds.toNat = 10 := rfl

theorem ff2Params_leftLen (n : Nat) : (ff2Params radix tradix).leftLen n = n / 2 :=
  if_pos (ff2Params_split radix tradix)

theorem ff2Params_enoughRounds (n : Nat) : (ff2Params radix tradix).EnoughRounds n := by
  rw [Params.EnoughRounds, if_pos (.inl (ff2Params_method radix tradix)), ff2Params_rounds]
  decide

variable (P : Provider) (K T : List Byte) (n : Nat) (X : List Word)

/-- The network of the direct entry points is the generic one (R263). -/
theorem ff2Params_network :
    (ff2Params radix tradix).network P K T n = ff2Network P radix.toNat tradix.toNat K T n := by
  simp only [Params.network, Params.splitAt_eq_leftLen, ff2Params_leftLen, ff2Params_rounds, ff2Params_arith,
    ff2Params_rf]
  rfl

theorem ff2Params_encrypt :
    ((ff2Params radix tradix).network P K T n).encrypt (ff2Params radix tradix).method X =
      (ff2Network P radix.toNat tradix.toNat K T n).twoEnc X := by
  rw [ff2Params_network, ff2Params_method]
  rfl

theorem ff2Params_decrypt :
    ((ff2Params radix tradix).network P K T n).decrypt (ff2Params radix tradix).method X =
      (ff2Network P radix.toNat tradix.toNat K T n).twoDec X := by
  rw [ff2Params_network, ff2Params_method]
  rfl

/-- The generic rounds with these parameters, written out (R259). -/
theorem ff2Params_run (E : BlockCipher) (Z : List Word) : (ff2Params radix tradix).Run E K T X Z =
    FeistelRun (BlockwiseRound radix.toNat fun i x => ff2Y E radix.toNat tradix.toNat K X.length T i x)
      (X.length / 2) 10 X Z := by
  have hvalue : (ff2Params radix tradix).roundValue E K X.length T =
      fun i B => ff2Y E radix.toNat tradix.toNat K X.length T i (numeralSum radix.toNat B) := by
    funext i B
    rw [Params.roundValue, if_neg (by rw [ff2Params_rf]; decide), if_pos (ff2Params_rf radix tradix)]
    rfl
  simp only [Params.Run, ff2Params_method, OfNat.ofNat_ne_one, if_false, ff2Params_leftLen, ff2Params_rounds, hvalue]
  rw [Params.round_of_arith_one (radix := radix) (ff2Params_arith ..) rfl]

end

section

variable {radix tradix : Word} (hr : 2 ≤ radix.toNat ∧ radix.toNat ≤ 256)
  (htr : 2 ≤ tradix.toNat ∧ tradix.toNat ≤ 256)

include hr htr

/-- `params_ok` (R204) accepts them. -/
theorem ff2Params_usable : AllHold (ff2Params radix tradix).usable :=
  ⟨.inr (ff2Params_method ..), .inl (ff2Params_arith ..), .inr (.inl (ff2Params_rf ..)), .inl (ff2Params_split ..),
    (by decide : 10 ≤ 255), ⟨hr.1, hr.2.trans (by decide)⟩, fun _ => ⟨hr.2, htr⟩, trivial⟩

/-- A legal input and a legal tweak of digits in range fit the fields of the rounds (R213, R262). -/
theorem ff2Params_roundsFit {n : Nat} {T : List Byte} (hr256 : radix.toNat ≠ 256)
    (hn : n ≤ ff2LongestInput radix.toNat) (hT : T.length ≤ ff2LongestTweak tradix.toNat)
    (hdigits : ∀ d ∈ T, d.toNat < tradix.toNat) : (ff2Params radix tradix).RoundsFit n T := by
  obtain ⟨hn', hhalf⟩ := ff2LongestInput_fits hr hn
  obtain ⟨ht, hw⟩ := ff2LongestTweak_fits htr.1 hT hdigits
  simp only [Params.RoundsFit, ff2Params_leftLen, ff2Params_rf, ff2Params_method]
  exact ⟨rfl, nofun, nofun, fun _ => ⟨lt_of_le_of_ne hr.2 hr256, hn', ht, hdigits, hw, hhalf⟩, nofun⟩

end

/-! ## The checks of FF2ENC and FF2DEC (R260, R263) -/

/-- The checks of R260 after presence and the radices. -/
def ff2InputChecks (radix tradix : Nat) (x : CipherInput) : List Check :=
  [keySized x.K.length, ⟨x.T.length ≤ ff2LongestTweak tradix, .tweakLen, 0⟩,
    ⟨2 ≤ x.X.length ∧ x.X.length ≤ ff2LongestInput radix, .inputLen, 0⟩, enoughEntropy radix x.X.length,
    numeralsIn radix x.X]

theorem checked_ff2Precheck (radix tradix : Nat) (x : CipherInput) :
    Checked (⟨(2 ≤ radix ∧ radix ≤ 256) ∧ 2 ≤ tradix ∧ tradix ≤ 256, .radixRange, 0⟩ :: ff2InputChecks radix tradix x)
      (ff2Precheck radix tradix x) () :=
  (checked_require _ _).cons_of_ok fun hr => (checked_require _ _).cons <|
    (checked_require_of_iff (by rw [ff2MaxTlen_eq hr.2.1]) _ _).cons <|
      (checked_require_of_iff (by rw [ff2Maxlen_eq hr.1.1]) _ _).cons <| (checked_require _ _).cons
        (checked_numeralCheck _ _)

theorem State.ff2CipherChecks_eq (s : State) (ra : Reg) : s.ff2CipherChecks ra =
    s.presenceChecks ra ++ s.ff2Radices ::
      ff2InputChecks s.params.radix.toNat s.params.tweakRadix.toNat ⟨s.bsVal .r0, s.bsVal .r1, s.nsVal ra⟩ := by
  simp only [State.ff2CipherChecks, ff2InputChecks, State.length_bsVal, State.length_nsVal]

/-- Items 2 to 9 of R205 with these parameters: those that can fail are the checks of R260 (R263). -/
theorem checked_precheck_ff2Params {radix tradix : Word} (hr : 2 ≤ radix.toNat ∧ radix.toNat ≤ 256)
    (htr : 2 ≤ tradix.toNat ∧ tradix.toNat ≤ 256) (x : CipherInput) :
    Checked (ff2InputChecks radix.toNat tradix.toNat x) ((ff2Params radix tradix).precheck x) () := by
  simp only [Params.precheck, Params.splitAt_eq_leftLen]
  refine .after_ok ((checked_paramsOk _).ok (ff2Params_usable hr htr)) <| (checked_require _ _).cons <|
    (checked_require_of_iff ?_ _ _).cons <| (checked_require_of_iff ?_ _ _).cons_of_ok fun hn =>
      (checked_require _ _).cons <| (checked_numeralCheck _ _).bind_ok fun _ => ?_
  · rw [← toNat_ff2MaxTlen htr.1]
    exact ⟨fun hT => ⟨Nat.zero_le _, hT⟩, And.right⟩
  · rw [← toNat_ff2Maxlen hr]
    exact ⟨fun hn => ⟨hn, hn.1⟩, And.left⟩
  · rw [splitCheck, ff2Params_leftLen, require_of (by omega), except_ok_bind, ← ff2Params_leftLen radix tradix]
    exact (checked_roundsFloor _ _).ok ⟨ff2Params_enoughRounds .., trivial⟩

theorem ff2Params_precheck {radix tradix : Word} (hr : 2 ≤ radix.toNat ∧ radix.toNat ≤ 256)
    (htr : 2 ≤ tradix.toNat ∧ tradix.toNat ≤ 256) (x : CipherInput) :
    (ff2Params radix tradix).precheck x = ff2Precheck radix.toNat tradix.toNat x :=
  (checked_precheck_ff2Params hr htr x).unique <|
    .of_cons (c := ⟨_ ∧ _, .radixRange, 0⟩) ⟨hr, htr⟩ (checked_ff2Precheck ..)

/-! ## The rounds (R259, R262) -/

section

variable {P : Provider} {radix tradix : Word} {K T : List Byte} {X : List Word}

/-- With a provider that answers, and radix and tweak digits that the fields of `P` take, the ten rounds complete. -/
theorem ff2Network_run (hr : 2 ≤ radix.toNat ∧ radix.toNat ≤ 256) (htr : 2 ≤ tradix.toNat ∧ tradix.toNat ≤ 256)
    (hcs : AllHold (ff2InputChecks radix.toNat tradix.toNat ⟨K, T, X⟩)) (hr256 : radix.toNat ≠ 256)
    (hdigits : ∀ d ∈ T, d.toNat < tradix.toNat) (hP : ∀ q, P.fails q = false) :
    (∃ Z, FeistelRun (BlockwiseRound radix.toNat fun i x => ff2Y P.E radix.toNat tradix.toNat K X.length T i x)
        (X.length / 2) 10 X Z ∧ Z.length = X.length ∧ Numerals radix.toNat Z ∧
        (ff2Network P radix.toNat tradix.toNat K T X.length).twoEnc X = .ok Z) ∧
      ∃ Z, FeistelRun (BlockwiseRound radix.toNat fun i x => ff2Y P.E radix.toNat tradix.toNat K X.length T i x)
        (X.length / 2) 10 Z X ∧ Z.length = X.length ∧ Numerals radix.toNat Z ∧
        (ff2Network P radix.toNat tradix.toNat K T X.length).twoDec X = .ok Z := by
  obtain ⟨hK, hT, ⟨hn, hlong⟩, -, hX, -⟩ := hcs
  have hu := ff2Params_usable hr htr
  have hf := ff2Params_roundsFit hr htr hr256 hlong hT hdigits
  have hT' : T.length ≤ 4096 := hT.trans ((ff2LongestTweak_lt htr.1).le.trans (by decide))
  have hn' : 2 ≤ X.length ∧ X.length ≤ 4096 := ⟨hn, (ff2LongestInput_fits hr hlong).1.le.trans (by decide)⟩
  obtain ⟨Z, hrun, hlen, hnum, hZ⟩ := Params.encrypt_run hP hu hK hT' hn' hf hX
  obtain ⟨W, hback, hlen', hnum', hW⟩ := Params.decrypt_run hP hu hK hT' hn' hf hX
  rw [ff2Params_run] at hrun hback
  rw [ff2Params_encrypt] at hZ
  rw [ff2Params_decrypt] at hW
  rw [hlen'] at hback
  exact ⟨⟨Z, hrun, hlen, hnum, hZ⟩, W, hback, hlen', hnum', hW⟩

end

/-- Where `P` cannot be formed every round fails, so the round that comes first does, encrypting and decrypting. -/
theorem ff2Network_refuses {P : Provider} {radix tradix n : Nat} {K T : List Byte} {c : Check}
    (htr : 2 ≤ tradix ∧ tradix ≤ 256) (hc : FirstFailing (ff2FieldChecks radix tradix n T) c) (X : List Word) :
    (ff2Network P radix tradix K T n).twoEnc X = .error ⟨0, ⟨c.cause, c.info⟩⟩ ∧
      (ff2Network P radix tradix K T n).twoDec X = .error ⟨0, ⟨c.cause, c.info⟩⟩ := by
  have hround : ∀ i B, fFF2 P radix tradix K n T i B = .error ⟨c.cause, c.info⟩ := fun i B => by
    rw [fFF2, (checked_ff2P htr).error c hc, except_error_bind]
  exact ⟨Network.twoEnc_first_round_error (by decide : 0 < 10) (hround 0 _),
    Network.twoDec_first_round_error (by decide : 0 < 10) (hround 9 _)⟩

/-! ## FF2ENC and FF2DEC (R260, R261) -/

section

variable (rd ra : Reg) (s : State)

theorem exec_ff2enc : ChecksThenRuns (.ff2enc rd ra) s rd 10 (s.ff2CipherChecks ra)
    ((ff2Network s.provider s.params.radix.toNat s.params.tweakRadix.toNat (s.bsVal .r0) (s.bsVal .r1)
      (s.nsVal ra).length).twoEnc (s.nsVal ra)) := by
  rw [State.ff2CipherChecks_eq]
  exact Checked.cipherCommand rfl <| (s.checked_cipherInput ra).append (checked_ff2Precheck ..).map

theorem exec_ff2dec : ChecksThenRuns (.ff2dec rd ra) s rd 10 (s.ff2CipherChecks ra)
    ((ff2Network s.provider s.params.radix.toNat s.params.tweakRadix.toNat (s.bsVal .r0) (s.bsVal .r1)
      (s.nsVal ra).length).twoDec (s.nsVal ra)) := by
  rw [State.ff2CipherChecks_eq]
  exact Checked.cipherCommand rfl <| (s.checked_cipherInput ra).append (checked_ff2Precheck ..).map

/-- The checks passed, a field of `P` that the operands do not fit ends both commands in the first round. -/
theorem ff2Commands_refuse {c : Check} (h : AllHold (s.ff2CipherChecks ra))
    (hc : FirstFailing (ff2FieldChecks s.params.radix.toNat s.params.tweakRadix.toNat (s.nsVal ra).length (s.bsVal .r1))
      c) :
    exec (.ff2enc rd ra) s = .next (s.failedInRounds c.cause c.info 10 0) ∧
      exec (.ff2dec rd ra) s = .next (s.failedInRounds c.cause c.info 10 0) := by
  have ⟨_, _, _, ⟨_, htr⟩, _⟩ := h
  obtain ⟨hE, hD⟩ := ff2Network_refuses (P := s.provider) (K := s.bsVal .r0) htr hc (s.nsVal ra)
  exact ⟨((exec_ff2enc rd ra s).ends.2 h).2 _ hE, ((exec_ff2dec rd ra s).ends.2 h).2 _ hD⟩

end

/-! ## The direct and the generic entry points (R263) -/

/-- Two cipher commands that make the same checks and run the same rounds end alike but for the parameter registers. -/
theorem direct_eq_generic {i j : Instr} {rd ra : Reg} {s : State} {p : Params} {total : Nat}
    {check check' : CipherInput → Except Raise Unit} {run run' : CipherInput → Except RoundError (List Word)}
    (hcheck : ∀ x, check' x = check x) (hrun : ∀ x, run' x = run x)
    (hi : exec i s = s.finishCipher rd total (do
      let x ← s.cipherInput ra
      check x
      pure (run x)))
    (hj : exec j { s with params := p } = State.finishCipher { s with params := p } rd total (do
      let x ← s.cipherInput ra
      check' x
      pure (run' x))) :
    ∃ t, exec i s = .next t ∧ exec j { s with params := p } = .next { t with params := p } := by
  obtain rfl : check' = check := funext hcheck
  obtain rfl : run' = run := funext hrun
  rw [hi, hj]
  exact s.finishCipher_withParams p rd total _

/-! ## The statements -/

/-- Settles O28: the remainder modulo `radix^m` is written in full by the `m` numerals of the result. -/
theorem f2rndComputesTheFf2Round : Obligations.F2rndComputesTheFf2Round := by
  intro rd ra s
  obtain ⟨hraises, hcompletes⟩ := exec_f2rnd rd ra s
  refine ⟨hraises.of_append, fun h hP => ⟨_, ?_, hcompletes ?_⟩⟩
  · obtain ⟨-, -, -, ⟨hr, -⟩, -⟩ := h
    exact isNumerals_mod ⟨hr.1, hr.2.trans (by decide)⟩ _ _
  · obtain ⟨hheader, hhalf⟩ := allHold_append.mp h
    exact allHold_append.mpr ⟨allHold_append.mpr ⟨hheader, hP _, hhalf⟩, hP _, trivial⟩

/-- Settles O32, by the two checks of LDFF2 and the bounds of its two lengths. -/
theorem ldff2LoadsTheFf2Parameters : Obligations.Ldff2LoadsTheFf2Parameters := by
  intro s
  obtain ⟨hraises, hcompletes⟩ := exec_ldff2 s
  refine ⟨hraises, fun h => ?_⟩
  have ⟨hr, htr, _⟩ := h
  exact ⟨_, _, toNat_ff2Maxlen hr, toNat_ff2MaxTlen htr.1, hcompletes h⟩

/-- Settles O38: the checks of R260 in a chain; then all ten rounds complete, or the first of them cannot form `P`. -/
theorem ff2CommandsRunTenRounds : Obligations.Ff2CommandsRunTenRounds := by
  intro rd ra s
  have henc := (exec_ff2enc rd ra s).ends
  have hdec := (exec_ff2dec rd ra s).ends
  simp only [← State.length_nsVal]
  refine ⟨⟨henc.1, hdec.1⟩, fun h hr256 hdigits hP => ?_, fun h hr256 => ?_, fun h hr256 hdigits => ?_⟩
  · have hcs := h
    rw [State.ff2CipherChecks_eq] at hcs
    obtain ⟨hr, hin⟩ := (allHold_append.mp hcs).2
    obtain ⟨⟨Z, hrun, hlen, hZnum, hZ⟩, W, hback, hlen', hWnum, hW⟩ :=
      ff2Network_run hr.1 hr.2 hin hr256 hdigits hP
    exact ⟨⟨Z, hrun, hlen, hZnum, (henc.2 h).1 Z hZ⟩, W, hback, hlen', hWnum, (hdec.2 h).1 W hW⟩
  · exact ff2Commands_refuse rd ra s h (.inl ⟨by omega, rfl⟩)
  · have ⟨_, _, _, hr, _, hT, hX, _⟩ := h
    rw [← State.length_bsVal] at hT
    rw [← State.length_nsVal] at hX
    exact ff2Commands_refuse rd ra s h <| .inr ⟨lt_of_le_of_ne hr.1.2 hr256, .inr
      ⟨hT.trans_lt (ff2LongestTweak_lt hr.2.1), .inr ⟨(ff2LongestInput_fits hr.1 hX.2).1, .inl ⟨hdigits, rfl⟩⟩⟩⟩

/-- Settles O41: with the FF2 parameters the generic commands make the checks and run the network of the direct ones. -/
theorem ff2DirectEqualsGeneric : Obligations.Ff2DirectEqualsGeneric := fun _ _ s hr htr =>
  ⟨direct_eq_generic (ff2Params_precheck hr htr)
      (fun x => ff2Params_encrypt s.params.radix s.params.tweakRadix s.provider x.K x.T x.X.length x.X) rfl rfl,
    direct_eq_generic (ff2Params_precheck hr htr)
      (fun x => ff2Params_decrypt s.params.radix s.params.tweakRadix s.provider x.K x.T x.X.length x.X) rfl rfl⟩

end Sys2Proof.Machine
end

section
/-!
SUPPORT. The proofs of the statements on FF3 (45). The round function makes all its checks before its one request, so
F3RND is a `Checked` command whose last check is that the provider answers (R98). FF3 has no command of its own: with the
parameters of LDFF3 the preconditions of ENC and DEC fix the tweak's length and bound the input's, so no check inside the
rounds can fail, and what is known of the generic rounds is known of these (R279).
-/

namespace Sys2Proof.Machine

/-! ## The round function (R271 to R275) -/

theorem length_ff3Block {T : List Byte} (hT : T.length = 8) (i x : Nat) : (ff3Block T i x).length = 16 := by
  have hblock : ff3Block T i x = xorBytes (ff3W T i) (bytesOf 4 i) ++ bytesOf 12 x := rfl
  rw [hblock, List.length_append, length_xorBytes, length_ff3W hT, length_bytesOf, length_bytesOf, min_self]

section

variable {P : Provider} {radix n i : Nat} {K T : List Byte} {B : List Word} (hr : 2 ≤ radix ∧ radix ≤ 65536)
  (hi : i ≤ 255)

include hr hi

/-- FF3's `P` (R272): the checks on the reversed half; the tweak half and the round number always fit. -/
theorem checked_ff3P (hT : T.length = 8) :
    Checked [lengthIn B.length, numeralsIn radix B.reverse, ⟨numeralSum radix B.reverse < 256 ^ 12, .valueRange, 0⟩]
      (ff3P radix T i B) (ff3Block T i (numeralSum radix B.reverse)) := by
  have hhalf : (ff3W T i).length = (bytesOf 4 i).length := by rw [length_ff3W hT, length_bytesOf]
  have hx := (checked_numRadix radix (rev B)).of_cons hr
  rw [length_rev] at hx
  refine hx.append (ds := [_]) <| (checked_bytestring_nat (m := 12) (by decide) _).bind_ok fun _ => ?_
  rw [bytestring_nat_ok (by decide) (by omega), except_ok_bind, xorStrings_ok hhalf, except_ok_bind, except_pure]
  rfl

/-- `F_FF3` (R275): the tweak's length, the checks of `P`, the request. -/
theorem checked_fFF3 (hK : K.length = 16 ∨ K.length = 24 ∨ K.length = 32) (hn : 2 ≤ n ∧ n ≤ 4096) :
    Checked [⟨T.length = 8, .tweakLen, 0⟩, lengthIn B.length, numeralsIn radix B.reverse,
        ⟨numeralSum radix B.reverse < 256 ^ 12, .valueRange, 0⟩,
        answers P ⟨.ecb, K.reverse, (ff3Block T i (numeralSum radix B.reverse)).reverse⟩]
      (fFF3 P radix K n T i B)
      (numeralsOf radix (halfLen ((n + 1) / 2) n i)
        (ff3Y P.E K T i (numeralSum radix B.reverse) % radix ^ halfLen ((n + 1) / 2) n i)) := by
  obtain ⟨hpos, hlt⟩ := halfLen_bounds (l := (n + 1) / 2) (i := i) hn.1 (.inr rfl)
  refine (checked_require _ _).cons_of_ok fun hT => (checked_ff3P hr hi hT).append (ds := [_]) <|
    (checked_ciph_block (by rwa [List.length_reverse]) ?_).bind_ok fun _ => ?_
  · rw [List.length_reverse, length_ff3Block hT]
  · rw [num_ok (by simp), except_ok_bind, strRadix_ok hr ⟨hpos, by omega⟩ (Int.natCast_nonneg _), Int.toNat_natCast]
    rfl

end

/-! ## F3RND (R276) -/

theorem exec_f3rnd (rd ra : Reg) (s : State) :
    ChecksThenCompletes (.f3rnd rd ra) s
      (s.f3Checks ra ++ [answers s.provider ⟨.ecb, (s.bsVal .r0).reverse,
        (ff3Block (s.bsVal .r1) s.arg1.toNat (numeralSum s.params.radix.toNat (s.nsVal ra).reverse)).reverse⟩])
      (s.putNs rd (numeralsOf s.params.radix.toNat (halfLen ((s.arg0.toNat + 1) / 2) s.arg0.toNat s.arg1.toNat)
        (ff3Y s.provider.E (s.bsVal .r0) (s.bsVal .r1) s.arg1.toNat
          (numeralSum s.params.radix.toNat (s.nsVal ra).reverse) %
            s.params.radix.toNat ^ halfLen ((s.arg0.toNat + 1) / 2) s.arg0.toNat s.arg1.toNat))) := by
  rw [State.f3Checks, List.append_assoc]
  simp only [← State.length_bsVal, ← State.length_nsVal]
  exact Checked.command rfl <| (s.checked_roundInput ra).append <| Checked.map <|
    (checked_require _ _).cons_of_ok fun hr => (checked_require _ _).cons_of_ok fun hK =>
      (checked_require _ _).cons_of_ok fun hargs => checked_fFF3 hr hargs.2 hK hargs.1

/-! ## The parameters that LDFF3 loads (R277, R278) -/

/-- `minlen` of R277: seven numerals suffice in every radix, so the model's search finds the least length. -/
theorem ff3Minlen_isLeast {radix : Nat} (hr : 2 ≤ radix) :
    IsLeast {L | 2 ≤ L ∧ 100 ≤ radix ^ L} (ff3Minlen radix) ∧ ff3Minlen radix ≤ 7 := by
  have hseven : 100 ≤ radix ^ 7 := (by decide : 100 ≤ 2 ^ 7).trans (Nat.pow_le_pow_left hr 7)
  obtain ⟨L, hL⟩ : ∃ L, (List.range 8).find? (fun L => decide (2 ≤ L) && decide (100 ≤ radix ^ L)) = some L :=
    Option.isSome_iff_exists.mp (List.find?_isSome.mpr ⟨7, by decide, by simpa using hseven⟩)
  have heq : ff3Minlen radix = L := by rw [ff3Minlen, hL, Option.getD_some]
  obtain ⟨hlong, hmem, hfirst⟩ := List.find?_range_eq_some.mp hL
  simp only [Bool.and_eq_true, decide_eq_true_eq, List.mem_range] at hlong hmem
  rw [heq]
  refine ⟨⟨hlong, fun m ⟨hm, hpow⟩ => ?_⟩, by omega⟩
  by_contra hlt
  have hnot := hfirst m (by omega)
  simp only [hm, hpow, decide_true, Bool.and_self, Bool.not_true, Bool.false_eq_true] at hnot

theorem exec_ldff3 (s : State) :
    ChecksThenCompletes .ldff3 s [radixIn s.arg0.toNat] { s with params := ff3Params s.arg0 } :=
  Checked.command rfl (checked_require _ _).map

section

variable (radix : Word)

theorem ff3Params_rf : (ff3Params radix).rf = 3 := (by decide : ((0xEA : Word).extractLsb' 6 2).toNat = 3)

theorem ff3Params_leftLen (n : Nat) : (ff3Params radix).leftLen n = (n + 1) / 2 :=
  (Params.splitAt_eq_leftLen _ n).symm.trans (ff3Params_splitAt radix n)

/-- The generic rounds with these parameters, written out (R279). -/
theorem ff3Params_run (E : BlockCipher) (K T : List Byte) (X Z : List Word) : (ff3Params radix).Run E K T X Z =
    FeistelRun (ReversedRound radix.toNat fun i x => ff3Y E K T i x) ((X.length + 1) / 2) 8 X Z := by
  obtain ⟨hmethod, harith, hrounds⟩ := ff3Params_fields radix
  have hvalue : (ff3Params radix).roundValue E K X.length T =
      fun i B => ff3Y E K T i (numeralSum radix.toNat B.reverse) := by
    funext i B
    rw [Params.roundValue, if_neg (by rw [ff3Params_rf]; decide), if_neg (by rw [ff3Params_rf]; decide)]
    rfl
  simp only [Params.Run, hmethod, OfNat.ofNat_ne_one, if_false, ff3Params_leftLen, hrounds, hvalue]
  rw [Params.round_of_arith_two (radix := radix) harith rfl]

end

/-- A legal input and an eight-byte tweak fit the fields of the rounds (R213, R271, R272). -/
theorem ff3Params_roundsFit {radix : Word} {n : Nat} {T : List Byte} (hr : 2 ≤ radix.toNat)
    (hn : n ≤ ff3Maxlen radix.toNat) (hT : T.length = 8) : (ff3Params radix).RoundsFit n T := by
  have hhalf := (ff3Maxlen_fits hr hn).2
  rw [show n - n / 2 = (n + 1) / 2 by omega] at hhalf
  simp only [Params.RoundsFit, ff3Params_leftLen, ff3Params_rf, (ff3Params_fields radix).1]
  exact ⟨rfl, nofun, nofun, nofun, fun _ => ⟨hT, hhalf⟩⟩

/-- With these parameters the preconditions of ENC and DEC (R205) leave eight bytes of tweak and at most
`maxlen(radix)` numerals of input (R277). -/
theorem ff3_lengths_of_cipherChecks {s : State} {ra : Reg} {radix : Word} (hp : s.params = ff3Params radix)
    (h : AllHold (s.cipherChecks ra)) :
    2 ≤ radix.toNat ∧ (s.bs.get .r1).len = 8 ∧ (s.ns.get ra).len ≤ ff3Maxlen radix.toNat := by
  obtain ⟨hfirst, -, hT, ⟨⟨-, hn⟩, -⟩, -⟩ := allHold_append.mp h
  obtain ⟨-, -, -, -, -, ⟨hr, -⟩, -⟩ := (allHold_append.mp hfirst).2
  rw [hp] at hr hT hn
  exact ⟨hr, le_antisymm hT.2 hT.1, hn.trans (Nat.mod_le _ _)⟩

/-! ## The statements -/

/-- Settles O29: the remainder modulo `radix^m` is written in full by the `m` numerals of the result. -/
theorem f3rndComputesTheFf3Round : Obligations.F3rndComputesTheFf3Round := by
  intro rd ra s
  obtain ⟨hraises, hcompletes⟩ := exec_f3rnd rd ra s
  refine ⟨hraises.of_append, fun h hP => ⟨_, ?_, hcompletes (allHold_append.mpr ⟨h, hP _, trivial⟩)⟩⟩
  obtain ⟨-, -, -, hr, -⟩ := h
  exact isNumerals_mod hr _ _

/-- Settles O33, by the one check of LDFF3, the least length of R277 and the logarithm that bounds the greatest. -/
theorem ldff3LoadsTheFf3Parameters : Obligations.Ldff3LoadsTheFf3Parameters := by
  intro s
  obtain ⟨hraises, hcompletes⟩ := exec_ldff3 s
  refine ⟨hraises, fun h => ?_⟩
  have ⟨hr, _⟩ := h
  obtain ⟨⟨⟨htwo, hpow⟩, hleast⟩, hseven⟩ := ff3Minlen_isLeast hr.1
  have hlog := log_two_pow_le hr.1 96
  have hlong : ff3Maxlen s.arg0.toNat = 2 * Nat.log s.arg0.toNat (2 ^ 96) := by rw [ff3Maxlen, cap_eq_log hr.1]
  exact ⟨ff3Minlen s.arg0.toNat, ff3Maxlen s.arg0.toNat, ⟨htwo, hpow, fun L hL h100 => hleast ⟨hL, h100⟩⟩, hlong,
    by omega, by omega, hcompletes h⟩

/-- Settles O39: the preconditions leave no check inside the rounds that can fail, so the generic rounds (O36) complete. -/
theorem ff3CommandsRunEightRounds : Obligations.Ff3CommandsRunEightRounds := by
  intro rd ra s hP hp n radix round h
  obtain ⟨hr, hT, hn⟩ := ff3_lengths_of_cipherChecks hp h
  have hfit := ff3Params_roundsFit hr hn ((s.length_bsVal .r1).trans hT)
  have hn192 := (ff3Maxlen_fits hr hn).1
  obtain ⟨-, hgeneric, -⟩ := encAndDecCheckThenRunTheRounds
  have hrounds : s.params.rounds.toNat = 8 := by rw [hp]; exact (ff3Params_fields _).2.2
  have hrun : ∀ X Z, X.length = n → s.params.Run s.provider.E (s.bsVal .r0) (s.bsVal .r1) X Z →
      FeistelRun round ((n + 1) / 2) 8 X Z := fun X Z hlen h => by
    rw [hp, ff3Params_run, hlen] at h
    exact h
  obtain ⟨⟨Z, hZ, hlen, hnum, henc⟩, W, hW, hlen', hnum', hdec⟩ :=
    hgeneric rd ra s hP (by omega) (by omega) h (by rw [hp]; exact hfit)
  rw [hrounds] at henc hdec
  exact ⟨⟨Z, hrun _ _ (s.length_nsVal ra) hZ, hlen, hnum, henc⟩, W, hrun _ _ hlen' hW, hlen', hnum', hdec⟩

end Sys2Proof.Machine
end

section
/-!
SUPPORT. The proof of the statement on the offset commands (46). OFF1 makes no check. OFF2 checks the key and that the
tweak is one block; CIPH then checks both again, which cannot fail, and the one request of CIPH is the last check (R98),
so OFF2 is a `Checked` command with no assumption on the provider.
-/

namespace Sys2Proof.Machine

theorem checked_off2 (P : Provider) (K T : List Byte) :
    Checked [keySized K.length, ⟨T.length = 16, .operandLen, 0⟩, answers P ⟨.ecb, K, T⟩] (off2 P K T)
      (encryptBlock P.E K T) :=
  (checked_require _ _).cons_of_ok fun hK => (checked_require _ _).cons_of_ok fun hT => checked_ciph_block hK hT

/-- OFF1 reads none of its sources (R291). -/
theorem exec_off1 (rd ra rb : Reg) (s : State) :
    exec (.off1 rd ra rb) s = .next (s.putBs rd (List.replicate 16 0)).completed :=
  congrArg Host.Outcome.next (State.complete_eq_completed _)

theorem exec_off2 (rd ra rb : Reg) (s : State) :
    ChecksThenCompletes (.off2 rd ra rb) s (s.off2Checks ra rb ++ [answers s.provider ⟨.ecb, s.bsVal ra, s.bsVal rb⟩])
      (s.putBs rd (encryptBlock s.provider.E (s.bsVal ra) (s.bsVal rb))) := by
  rw [State.off2Checks, ← State.length_bsVal, ← State.length_bsVal]
  exact Checked.command rfl <| (s.checked_srcBs ra _).cons <| (s.checked_srcBs rb _).cons (checked_off2 ..).map

/-- Settles O19: OFF1 without a check; OFF2 by its checks, the last of which a provider that answers passes. -/
theorem offsetsWriteSixteenBytes : Obligations.OffsetsWriteSixteenBytes := by
  intro rd ra rb s
  obtain ⟨hraises, hcompletes⟩ := exec_off2 rd ra rb s
  exact ⟨exec_off1 rd ra rb s, hraises.of_append, fun h hP => hcompletes (allHold_append.mpr ⟨h, hP _, trivial⟩)⟩

end Sys2Proof.Machine
end

section
/-!
SUPPORT. The proofs of the statements on the system commands (47). None of the three reads an operand or makes a check,
so each has one end, whatever the state. What the host reads after WIPE is read off the absent register with zero storage
that WIPE puts in each place of the three files.
-/

namespace Sys2Proof.Machine

/-! ## The one end of each command -/

theorem exec_nop (s : State) : exec .nop s = .next s.completed :=
  congrArg Host.Outcome.next s.complete_eq_completed

/-- The return to IDLE (R326) is what statements write as `cleared`. -/
theorem State.toIdle_eq_cleared (s : State) : s.toIdle = s.cleared := rfl

theorem exec_clr (s : State) : exec .clr s = .next s.cleared := congrArg Host.Outcome.next s.toIdle_eq_cleared

theorem exec_wipe (s : State) : exec .wipe s = .next s.wiped.toIdle := rfl

/-! ## What the host reads when nothing is held -/

/-- PROG reads 0 after the return to IDLE (R326). -/
theorem State.progWord_toIdle (s : State) : s.toIdle.progWord = 0 := by
  rw [State.progWord, State.toIdle_rtotal, State.toIdle_rdone]
  decide

theorem presenceBits_eq_zero {α : Type} {present : α → Bool} {q : Quad α} (h : ∀ r, present (q.get r) = false) :
    presenceBits present q = 0 := by
  have ⟨h0, h1, h2, h3⟩ := (Quad.forall_get (present · = false) q).mp h
  rw [presenceBits, h0, h1, h2, h3]
  decide

/-- Without a present register PRESENT reads 0 (R56). -/
theorem State.presentWord_eq_zero {s : State} (hns : ∀ r, (s.ns.get r).present = false)
    (hbs : ∀ r, (s.bs.get r).present = false) (hbn : ∀ r, (s.bn.get r).present = false) : s.presentWord = 0 := by
  rw [State.presentWord, presenceBits_eq_zero hns, presenceBits_eq_zero hbs, presenceBits_eq_zero hbn]
  decide

/-- Every element of a wiped register is beyond its length; the window shows 0 there and no free value (R298, 90 C9). -/
theorem StrReg.windowElement_absent_zeros {α : Type} (zero : α) (free : Nat → α) (j : Nat) :
    (StrReg.absent Store.zeros).windowElement zero free j = zero := by
  have hlen : ¬j < (StrReg.absent (Store.zeros (α := α))).len := Nat.not_lt_zero j
  rw [StrReg.windowElement, if_neg hlen]
  rfl

/-! ## The registers after WIPE -/

section

variable (s : State) (r : Reg)

theorem State.wiped_ns_get : s.wiped.toIdle.ns.get r = StrReg.absent Store.zeros := Quad.get_all _ r

theorem State.wiped_bs_get : s.wiped.toIdle.bs.get r = StrReg.absent Store.zeros := Quad.get_all _ r

theorem State.wiped_bn_get : s.wiped.toIdle.bn.get r = BnReg.absent := Quad.get_all _ r

theorem State.wiped_values : (s.wiped.toIdle.ns.get r).len = 0 ∧ (s.wiped.toIdle.bs.get r).len = 0 ∧
    (s.wiped.toIdle.bn.get r).value = 0 := by
  rw [State.wiped_ns_get, State.wiped_bs_get, State.wiped_bn_get]
  exact ⟨rfl, rfl, rfl⟩

theorem State.wiped_presentWord : s.wiped.toIdle.presentWord = 0 :=
  State.presentWord_eq_zero (fun r => congrArg StrReg.present (s.wiped_ns_get r))
    (fun r => congrArg StrReg.present (s.wiped_bs_get r)) fun r => congrArg BnReg.present (s.wiped_bn_get r)

/-- Both data windows (R85, R86) show 0 at every element. -/
theorem State.wiped_windows (j : Nat) : s.wiped.toIdle.readLocation (.nsElement r j) = 0 ∧
    s.wiped.toIdle.readLocation (.bsElement r j) = 0 := by
  constructor
  · rw [State.readLocation, State.wiped_ns_get, StrReg.windowElement_absent_zeros]
  · rw [State.readLocation, State.wiped_bs_get, StrReg.windowElement_absent_zeros]
    exact BitVec.setWidth_zero ..

end

/-! ## The statements -/

/-- Settles O34, by the one end of each command. -/
theorem nopAndClrAlwaysComplete : Obligations.NopAndClrAlwaysComplete := fun s => ⟨exec_nop s, exec_clr s⟩

/-- Settles O35: the data registers by what WIPE puts in each of them; the status fields and what is unchanged are fields
of the state in which it ends. -/
theorem wipeLeavesNoOperand : Obligations.WipeLeavesNoOperand := fun s =>
  ⟨s.wiped.toIdle, exec_wipe s, rfl, rfl, rfl, rfl, rfl, State.progWord_toIdle _, s.wiped_presentWord, rfl, rfl, rfl,
    s.wiped_values, s.wiped_windows, rfl, rfl, rfl, rfl, rfl, rfl, rfl, rfl, rfl⟩

end Sys2Proof.Machine
end

section
/-!
SUPPORT. The proofs of the statements on exceptions (60) and on reset and hazards (70). Error entry is one of the ends that
a command can have, and the only one that leaves ERROR behind. Reset leaves the state of R65 whatever was there before. A
BUSY engine is left alone by the host but for its reset, so its delay runs out and the command ends.
-/

namespace Sys2Proof.Machine

/-! ## Error entry (R325) -/

/-- Error entry with progress is what statements write as `failedInRounds`. -/
theorem State.enterError_eq_failedInRounds (s : State) (e : Raise) (p : Progress) :
    s.enterError e p = s.failedInRounds e.cause e.info p.total p.done := by
  simp only [State.enterError, State.failedInRounds, State.failed, State.showProgress, State.progField,
    State.diagOn, Bool.and_eq_true]

/-- Settles O44: of the ends a command can have, error entry alone leaves ERROR, and its progress fits. -/
theorem errorEntryLeavesNoPartialResult : Obligations.ErrorEntryLeavesNoPartialResult := by
  intro i s t hexec herror
  obtain ⟨o, hfit, ho⟩ := exec_eq_end i s
  obtain rfl : o.on s = t := by simpa only [ho, Host.Outcome.next.injEq] using hexec
  cases o with
  | fails e p =>
    obtain ⟨-, hdone, -⟩ := hfit
    exact ⟨e.cause, e.info, p.total, p.done, hdone, s.enterError_eq_failedInRounds e p⟩
  | completes f p => cases herror
  | clears => cases herror
  | wipes => cases herror

/-! ## Reset (R350, R351) -/

theorem State.engineReset_afterReset (s : State) (held : Bool) : (s.afterReset held).EngineReset :=
  ⟨fun r => congrArg BnReg.present (Quad.get_all BnReg.absent r), rfl⟩

section

variable {s : State} (hr : s.resetHeld = true)

include hr

theorem State.irq_held : s.irq = false := by rw [State.irq, hr, Bool.not_true, Bool.false_and]

/-- While reset is held no address can be read, whatever it names. -/
theorem State.readAnswer_held (a : Addr) : (s.readAnswer a).resp = .err := by
  rcases hl : locate a with _ | l
  · exact State.readAnswer_unmapped hl
  · simp only [State.readAnswer, hl, hr, Bool.true_or, if_true]

end

/-- Settles O56: both edges are `afterReset`; a held reset comes first in `irq` and in every transaction. -/
theorem resetFromEveryState : Obligations.ResetFromEveryState := fun s =>
  ⟨s.engineReset_afterReset true, rfl, s.engineReset_afterReset false, rfl, fun hr =>
    ⟨State.irq_held hr, fun a v => ⟨State.hostWrite_held hr a v, State.readAnswer_held hr a⟩⟩⟩

/-! ## A BUSY engine and its delay (R60, R365) -/

/-- A host write cannot disturb the pending command (R90). -/
theorem State.hostWrite_phase_of_busy {s : State} (hb : s.phase.isBusy = true) (a : Addr) (v : Word) :
    (s.hostWrite a v).1.phase = s.phase := by
  cases hr : s.resetHeld with
  | true => rw [State.hostWrite_held hr]
  | false => rw [State.hostWrite_busy hr hb]

/-- The host leaves a BUSY engine BUSY with the same word and delay, or resets it (R90, R350). -/
theorem State.serveHost_phase_of_busy {u : State} (hb : u.phase.isBusy = true) :
    u.serveHost.phase = u.phase ∨ u.serveHost.phase = .idle := by
  rcases hh : u.host with _ | ⟨a | ⟨a, v⟩ | _ | _, ops⟩
  case nil => exact .inl (congrArg State.phase (State.serveHost_nil hh))
  all_goals rw [State.serveHost_cons hh]
  case cons.read => exact .inl rfl
  case cons.write =>
    rw [State.input_write]
    exact .inl (State.hostWrite_phase_of_busy hb a v)
  case cons.resetAssert => exact .inr rfl
  case cons.resetRelease => exact .inr rfl

/-- Once the delay has run out, the next step leaves BUSY: the command ends, or its word is in error (R60, R113). -/
theorem step_leaves_busy {s : State} {w : Word} (hw : s.phase = .busy w 0) :
    ∃ t, step s = .next t ∧ t.phase.isBusy = false := by
  rcases hd : decode w with e | i
  · exact ⟨_, step_of_decode_error hw hd, rfl⟩
  · obtain ⟨t, hexec, -, hfree, -⟩ := everyCommandEnds.1 i s
    exact ⟨t, (step_of_decode_ok hw hd).trans hexec, hfree⟩

theorem run_succ_of_step {s t : State} (k : Nat) (h : step s = .next t) :
    Host.Core.run core (k + 1) s = Host.Core.run core k t := by
  have hcore : core.step s = .next t := h
  simp only [Host.Core.run, hcore]

/-- An engine BUSY for `d` further steps is free within `d + 1`, by induction on the delay left. -/
theorem run_leaves_busy {w : Word} {d : Nat} {s : State} (hw : s.phase = .busy w d) :
    ∃ (k : Nat) (t : State), k ≤ d + 1 ∧ Host.Core.run core k s = .next t ∧ t.phase.isBusy = false := by
  induction d generalizing s with
  | zero =>
    obtain ⟨t, hstep, hfree⟩ := step_leaves_busy hw
    exact ⟨1, t, le_rfl, run_succ_of_step 0 hstep, hfree⟩
  | succ d ih =>
    have hrun : ∀ k, Host.Core.run core (k + 1) s = Host.Core.run core k (s.busyTick w d) :=
      fun k => run_succ_of_step k (step_of_delay hw)
    have hphase : (s.busyTick w d).phase = .busy w d ∨ (s.busyTick w d).phase = .idle :=
      State.serveHost_phase_of_busy (u := { s.advanceProgress w with phase := .busy w d }) rfl
    rcases hphase with hbusy | hidle
    · obtain ⟨k, t, hk, ht, hfree⟩ := ih hbusy
      exact ⟨k + 1, t, Nat.succ_le_succ hk, (hrun k).trans ht, hfree⟩
    · exact ⟨1, s.busyTick w d, Nat.le_add_left 1 (d + 1), hrun 0, by rw [hidle]; rfl⟩

/-- Settles O58: the run of `run_leaves_busy`; a phase that is not BUSY is not the one the engine began with. -/
theorem busyEngineBecomesFree : Obligations.BusyEngineBecomesFree := by
  intro s w d hw
  obtain ⟨k, t, hk, hrun, hfree⟩ := run_leaves_busy hw
  refine ⟨k, t, hk, hrun, fun hbusy => ?_, hfree⟩
  rw [hbusy] at hfree
  cases hfree

end Sys2Proof.Machine
end
